-- ==== Sys2Proof/Word.lean ====
section
/-! DEFINITION. The data words of the RC 4000 (00_scope.md R12, R13). The manual numbers bits from the left,
bit 0 being the most significant; `v.getMsbD i` is the bit the manual writes `v(i)`. -/

namespace Sys2Proof

/-- A 24-bit data word, address or working register (R12). -/
abbrev Word := BitVec 24

/-- A 12-bit byte, the unit of storage addressing (R12, R18). -/
abbrev Byte := BitVec 12

/-- A 3-bit protection key (R28). -/
abbrev Key := BitVec 3

/-- A 48-bit double word: the left, more significant word first (R22, R65). -/
abbrev DoubleWord := BitVec 48

end Sys2Proof
end

