-- ==== Sys2Proof/Config.lean ====
section
/-! DEFINITION. The parameters of an installation (00_scope.md R6 to R11): what the manual leaves to the site, and one
order of accesses that it does not state. They are data that `State` carries and no step changes, so a statement about
every state is one about every installation.
The parameter OPCODE_MAP (R10) is the table of `Sys2Proof/Decode.lean`. -/

namespace Sys2Proof

/-- Where an external interrupt signal comes from: a device on the data channel, or some other line such as an alarm
contact or an operator's interruption key (60_exceptions.md R363). -/
inductive SignalSource where
  | device (number : Nat)
  | line (number : Nat)
  deriving DecidableEq, Repr

/-- One entry of EXT_LINES: interrupt register bit `bit`, 3 to 23, is wired to `source` (R8). -/
structure ExternalLine where
  bit : Nat
  source : SignalSource
  deriving DecidableEq, Repr

/-- The eleven settings of TIMER_INTERVAL (R9), named by their length in units of 0.1 msec. Time is not modelled and no
rule uses the setting. -/
inductive TimerInterval where
  | t16 | t32 | t64 | t128 | t256 | t512 | t1024 | t2048 | t4096 | t8192 | t16384
  deriving DecidableEq, Repr

/-- The parameters of one installation. -/
structure Installation where
  /-- WORD_LIMIT, the number of the last existing storage word (R6). -/
  wordLimit : Nat
  /-- DEVICE_ADDRESS_BITS, the manual's N (R7). -/
  deviceAddressBits : Nat
  /-- EXT_LINES (R8); a bit without an entry is unused. -/
  externalLines : List ExternalLine
  /-- TIMER_INTERVAL (R9). -/
  timerInterval : TimerInterval
  /-- WD_MIN_QUOTIENT_OVERFLOWS (R11): does WD report the exact quotient -2**23 as an overflow? -/
  wdMinQuotientOverflows : Bool
  /-- SUBTRACT_ZERO_CARRY (40_cycle_and_address_handling.md R130): the carry reported after subtracting zero. -/
  subtractZeroCarry : Bool
  /-- Do FA, FS, FM and FD read the first word of the storage operand before the second? The order is not stated
  (20_memory.md R73); the model leaves it to the installation (notes/assumptions/23.md). -/
  floatingFirstWordFirst : Bool
  deriving DecidableEq, Repr

/-- The smallest store (one basic module of 16384 words, R6) with every other parameter at the default the spec names,
and no external line: DESIGN CHOICE, notes/assumptions/2.md. -/
def Installation.basic : Installation where
  wordLimit := 16383
  deviceAddressBits := 18
  externalLines := []
  timerInterval := .t16
  wdMinQuotientOverflows := false
  subtractZeroCarry := true
  floatingFirstWordFirst := true

end Sys2Proof
end

