-- ==== Sys2Proof/Syntax.lean ====
section
/-! DEFINITION. The instructions: one constructor for each of the 58 rows of spec/opcode_table.json, in the order of
the operation codes (30_encoding.md R99), with the fields of the one instruction format (R91). -/

namespace Sys2Proof

/-- A working register W0 to W3 (10_state.md R21); as a W field, the result register (R93). -/
inductive Reg where
  | w0
  | w1
  | w2
  | w3
  deriving DecidableEq, Repr

/-- The X field: no indexing, or one of the three index registers. W0 is never one (R23, R95). -/
inductive Index where
  | none
  | x1
  | x2
  | x3
  deriving DecidableEq, Repr

/-- The address part of an instruction: the M, X and D fields (R94, R95, R96). -/
structure AddressPart where
  /-- Left bit of M: the displacement is relative to the instruction's own address. -/
  relative : Bool
  /-- Right bit of M: the computed address names a word that holds the effective address. -/
  indirect : Bool
  /-- X: the index register, if any. -/
  index : Index
  /-- D: the signed displacement, -2048 to 2047 (R96). -/
  displacement : Int
  deriving DecidableEq, Repr

/-- The 58 instructions. `w` is the W field (also where an instruction ignores it, R93), `a` the address part. -/
inductive Instr where
  /-- AW, Autoload Word, code 0 (47_input_output.md R330). -/
  | aw (w : Reg) (a : AddressPart)
  /-- IO, Input/Output, code 1 (47_input_output.md R324). -/
  | io (w : Reg) (a : AddressPart)
  /-- BL, Load Integer Byte, code 2 (42_integer_arithmetic.md R172). -/
  | bl (w : Reg) (a : AddressPart)
  /-- HL, Load Half Register, code 3 (41_register_transfer.md R151). -/
  | hl (w : Reg) (a : AddressPart)
  /-- LA, Logical And, code 4 (44_logical_and_shift.md R241). -/
  | la (w : Reg) (a : AddressPart)
  /-- LO, Logical Or, code 5 (44_logical_and_shift.md R242). -/
  | lo (w : Reg) (a : AddressPart)
  /-- LX, Logical Exclusive Or, code 6 (44_logical_and_shift.md R243). -/
  | lx (w : Reg) (a : AddressPart)
  /-- WA, Add Integer Word, code 7 (42_integer_arithmetic.md R176). -/
  | wa (w : Reg) (a : AddressPart)
  /-- WS, Subtract Integer Word, code 8 (42_integer_arithmetic.md R177). -/
  | ws (w : Reg) (a : AddressPart)
  /-- AM, Modify Next Address, code 9 (40_cycle_and_address_handling.md R131). -/
  | am (w : Reg) (a : AddressPart)
  /-- WM, Multiply Integer Word, code 10 (42_integer_arithmetic.md R180). -/
  | wm (w : Reg) (a : AddressPart)
  /-- AL, Load Address, code 11 (40_cycle_and_address_handling.md R132). -/
  | al (w : Reg) (a : AddressPart)
  /-- ML, Load Mask Register, code 12 (46_monitor_control.md R296). -/
  | ml (w : Reg) (a : AddressPart)
  /-- JL, Jump with Register Link, code 13 (45_sequencing.md R270). -/
  | jl (w : Reg) (a : AddressPart)
  /-- JD, Jump with Interrupt Disabled, code 14 (46_monitor_control.md R292). -/
  | jd (w : Reg) (a : AddressPart)
  /-- JE, Jump with Interrupt Enabled, code 15 (46_monitor_control.md R291). -/
  | je (w : Reg) (a : AddressPart)
  /-- XL, Load Exception Register, code 16 (46_monitor_control.md R300). -/
  | xl (w : Reg) (a : AddressPart)
  /-- BS, Subtract Integer Byte, code 17 (42_integer_arithmetic.md R174). -/
  | bs (w : Reg) (a : AddressPart)
  /-- BA, Add Integer Byte, code 18 (42_integer_arithmetic.md R173). -/
  | ba (w : Reg) (a : AddressPart)
  /-- BZ, Load Byte with Zeroes, code 19 (42_integer_arithmetic.md R171). -/
  | bz (w : Reg) (a : AddressPart)
  /-- RL, Load Register, code 20 (41_register_transfer.md R153). -/
  | rl (w : Reg) (a : AddressPart)
  /-- SP, Skip if No Protection, code 21 (45_sequencing.md R279). -/
  | sp (w : Reg) (a : AddressPart)
  /-- KL, Load Protection Key, code 22 (46_monitor_control.md R308). -/
  | kl (w : Reg) (a : AddressPart)
  /-- RS, Store Register, code 23 (41_register_transfer.md R154). -/
  | rs (w : Reg) (a : AddressPart)
  /-- WD, Divide Integer Word, code 24 (42_integer_arithmetic.md R183). -/
  | wd (w : Reg) (a : AddressPart)
  /-- RX, Exchange Register and Store, code 25 (41_register_transfer.md R158). -/
  | rx (w : Reg) (a : AddressPart)
  /-- HS, Store Half Register, code 26 (41_register_transfer.md R152). -/
  | hs (w : Reg) (a : AddressPart)
  /-- XS, Store Exception Register, code 27 (46_monitor_control.md R301). -/
  | xs (w : Reg) (a : AddressPart)
  /-- PL, Load Protection Register, code 28 (46_monitor_control.md R304). -/
  | pl (w : Reg) (a : AddressPart)
  /-- PS, Store Protection Register, code 29 (46_monitor_control.md R305). -/
  | ps (w : Reg) (a : AddressPart)
  /-- MS, Store Mask Register, code 30 (46_monitor_control.md R297). -/
  | ms (w : Reg) (a : AddressPart)
  /-- IS, Store Interrupt Register, code 31 (46_monitor_control.md R295). -/
  | is (w : Reg) (a : AddressPart)
  /-- CI, Convert Integer to Floating, code 32 (43_floating_point.md R210). -/
  | ci (w : Reg) (a : AddressPart)
  /-- AC, Load Address Complemented, code 33 (40_cycle_and_address_handling.md R133). -/
  | ac (w : Reg) (a : AddressPart)
  /-- NS, Normalize Single, code 34 (44_logical_and_shift.md R252). -/
  | ns (w : Reg) (a : AddressPart)
  /-- ND, Normalize Double, code 35 (44_logical_and_shift.md R253). -/
  | nd (w : Reg) (a : AddressPart)
  /-- AS, Shift Single Arithmetically, code 36 (44_logical_and_shift.md R246). -/
  | as (w : Reg) (a : AddressPart)
  /-- AD, Shift Double Arithmetically, code 37 (44_logical_and_shift.md R247). -/
  | ad (w : Reg) (a : AddressPart)
  /-- LS, Shift Single Logically, code 38 (44_logical_and_shift.md R248). -/
  | ls (w : Reg) (a : AddressPart)
  /-- LD, Shift Double Logically, code 39 (44_logical_and_shift.md R249). -/
  | ld (w : Reg) (a : AddressPart)
  /-- SH, Skip if Register High, code 40 (45_sequencing.md R272). -/
  | sh (w : Reg) (a : AddressPart)
  /-- SL, Skip if Register Low, code 41 (45_sequencing.md R273). -/
  | sl (w : Reg) (a : AddressPart)
  /-- SE, Skip if Register Equal, code 42 (45_sequencing.md R274). -/
  | se (w : Reg) (a : AddressPart)
  /-- SN, Skip if Register Not Equal, code 43 (45_sequencing.md R275). -/
  | sn (w : Reg) (a : AddressPart)
  /-- SO, Skip if Register Bits One, code 44 (45_sequencing.md R276). -/
  | so (w : Reg) (a : AddressPart)
  /-- SZ, Skip if Register Bits Zero, code 45 (45_sequencing.md R277). -/
  | sz (w : Reg) (a : AddressPart)
  /-- SX, Skip if No Exceptions, code 46 (45_sequencing.md R278). -/
  | sx (w : Reg) (a : AddressPart)
  /-- IC, Clear Interrupt Bits, code 47 (46_monitor_control.md R294). -/
  | ic (w : Reg) (a : AddressPart)
  /-- FA, Add Floating, code 48 (43_floating_point.md R214). -/
  | fa (w : Reg) (a : AddressPart)
  /-- FS, Subtract Floating, code 49 (43_floating_point.md R215). -/
  | fs (w : Reg) (a : AddressPart)
  /-- FM, Multiply Floating, code 50 (43_floating_point.md R218). -/
  | fm (w : Reg) (a : AddressPart)
  /-- KS, Store Protection Key, code 51 (46_monitor_control.md R309). -/
  | ks (w : Reg) (a : AddressPart)
  /-- FD, Divide Floating, code 52 (43_floating_point.md R221). -/
  | fd (w : Reg) (a : AddressPart)
  /-- CF, Convert Floating to Integer, code 53 (43_floating_point.md R211). -/
  | cf (w : Reg) (a : AddressPart)
  /-- DL, Load Double Register, code 54 (41_register_transfer.md R160). -/
  | dl (w : Reg) (a : AddressPart)
  /-- DS, Store Double Register, code 55 (41_register_transfer.md R162). -/
  | ds (w : Reg) (a : AddressPart)
  /-- AA, Add Integer Double Word, code 56 (42_integer_arithmetic.md R186). -/
  | aa (w : Reg) (a : AddressPart)
  /-- SS, Subtract Integer Double Word, code 57 (42_integer_arithmetic.md R187). -/
  | ss (w : Reg) (a : AddressPart)
  deriving DecidableEq, Repr

/-- The W field of an instruction. -/
def Instr.result : Instr → Reg
  | .aw w _ => w
  | .io w _ => w
  | .bl w _ => w
  | .hl w _ => w
  | .la w _ => w
  | .lo w _ => w
  | .lx w _ => w
  | .wa w _ => w
  | .ws w _ => w
  | .am w _ => w
  | .wm w _ => w
  | .al w _ => w
  | .ml w _ => w
  | .jl w _ => w
  | .jd w _ => w
  | .je w _ => w
  | .xl w _ => w
  | .bs w _ => w
  | .ba w _ => w
  | .bz w _ => w
  | .rl w _ => w
  | .sp w _ => w
  | .kl w _ => w
  | .rs w _ => w
  | .wd w _ => w
  | .rx w _ => w
  | .hs w _ => w
  | .xs w _ => w
  | .pl w _ => w
  | .ps w _ => w
  | .ms w _ => w
  | .is w _ => w
  | .ci w _ => w
  | .ac w _ => w
  | .ns w _ => w
  | .nd w _ => w
  | .as w _ => w
  | .ad w _ => w
  | .ls w _ => w
  | .ld w _ => w
  | .sh w _ => w
  | .sl w _ => w
  | .se w _ => w
  | .sn w _ => w
  | .so w _ => w
  | .sz w _ => w
  | .sx w _ => w
  | .ic w _ => w
  | .fa w _ => w
  | .fs w _ => w
  | .fm w _ => w
  | .ks w _ => w
  | .fd w _ => w
  | .cf w _ => w
  | .dl w _ => w
  | .ds w _ => w
  | .aa w _ => w
  | .ss w _ => w

/-- The M, X and D fields of an instruction. -/
def Instr.address : Instr → AddressPart
  | .aw _ a => a
  | .io _ a => a
  | .bl _ a => a
  | .hl _ a => a
  | .la _ a => a
  | .lo _ a => a
  | .lx _ a => a
  | .wa _ a => a
  | .ws _ a => a
  | .am _ a => a
  | .wm _ a => a
  | .al _ a => a
  | .ml _ a => a
  | .jl _ a => a
  | .jd _ a => a
  | .je _ a => a
  | .xl _ a => a
  | .bs _ a => a
  | .ba _ a => a
  | .bz _ a => a
  | .rl _ a => a
  | .sp _ a => a
  | .kl _ a => a
  | .rs _ a => a
  | .wd _ a => a
  | .rx _ a => a
  | .hs _ a => a
  | .xs _ a => a
  | .pl _ a => a
  | .ps _ a => a
  | .ms _ a => a
  | .is _ a => a
  | .ci _ a => a
  | .ac _ a => a
  | .ns _ a => a
  | .nd _ a => a
  | .as _ a => a
  | .ad _ a => a
  | .ls _ a => a
  | .ld _ a => a
  | .sh _ a => a
  | .sl _ a => a
  | .se _ a => a
  | .sn _ a => a
  | .so _ a => a
  | .sz _ a => a
  | .sx _ a => a
  | .ic _ a => a
  | .fa _ a => a
  | .fs _ a => a
  | .fm _ a => a
  | .ks _ a => a
  | .fd _ a => a
  | .cf _ a => a
  | .dl _ a => a
  | .ds _ a => a
  | .aa _ a => a
  | .ss _ a => a

end Sys2Proof
end

