-- ==== Sys2Proof/WellFormed.lean ====
section
/-! DEFINITION. The well-formed instructions and installations. The types admit only legal W, M and X fields, and no
field of the format is reserved (30_encoding.md R97), so the one thing left to check of an instruction is that its
displacement fits D. -/

namespace Sys2Proof

/-- The displacement fits the 12-bit field D (R96). -/
abbrev AddressPart.wf (a : AddressPart) : Prop :=
  -2048 ≤ a.displacement ∧ a.displacement ≤ 2047

/-- An instruction is well-formed when its displacement fits (R96, R97). -/
abbrev Instr.wf (i : Instr) : Prop :=
  i.address.wf

/-- A line of EXT_LINES names one of the bits 3 to 23 (R8). -/
abbrev ExternalLine.wf (l : ExternalLine) : Prop :=
  3 ≤ l.bit ∧ l.bit ≤ 23

/-- The bounds the manual sets on the parameters of an installation (R6, R7, R8). -/
abbrev Installation.wf (c : Installation) : Prop :=
  (16383 ≤ c.wordLimit ∧ c.wordLimit ≤ 8388607) ∧ c.deviceAddressBits ≤ 18 ∧ ∀ l ∈ c.externalLines, l.wf

end Sys2Proof
end

