-- ==== Sys2Proof/Decode.lean ====
section
/-! DEFINITION. Decoding and encoding (30_encoding.md). The fields of a word are those of R91; the operation codes are
the table of R99, the default of the parameter OPCODE_MAP. PRESUMED: 43 of its 58 rows are not in the manual's
surviving text, notes/assumptions/1.md. -/

namespace Sys2Proof

/-! ## Fields (R91) -/

/-- F, bits 0 to 5: the operation code. -/
def fieldF (v : Word) : BitVec 6 := v.extractLsb' 18 6

/-- W, bits 6 and 7. -/
def fieldW (v : Word) : BitVec 2 := v.extractLsb' 16 2

/-- M, bits 8 and 9: bit 8 relative, bit 9 indirect. -/
def fieldM (v : Word) : BitVec 2 := v.extractLsb' 14 2

/-- X, bits 10 and 11. -/
def fieldX (v : Word) : BitVec 2 := v.extractLsb' 12 2

/-- D, bits 12 to 23. -/
def fieldD (v : Word) : Byte := v.extractLsb' 0 12

/-- The register a W field names. -/
def Reg.ofBits (b : BitVec 2) : Reg :=
  if b = 0 then .w0 else if b = 1 then .w1 else if b = 2 then .w2 else .w3

/-- The W field that names a register. -/
def Reg.bits : Reg → BitVec 2
  | .w0 => 0
  | .w1 => 1
  | .w2 => 2
  | .w3 => 3

/-- The indexing an X field asks for (R95). -/
def Index.ofBits (b : BitVec 2) : Index :=
  if b = 0 then .none else if b = 1 then .x1 else if b = 2 then .x2 else .x3

/-- The X field for an indexing. -/
def Index.bits : Index → BitVec 2
  | .none => 0
  | .x1 => 1
  | .x2 => 2
  | .x3 => 3

/-- The address part of an instruction word. Every word has one, an unassigned operation code too (R97, R98). -/
def addressPart (v : Word) : AddressPart where
  relative := (fieldM v).getMsbD 0
  indirect := (fieldM v).getMsbD 1
  index := Index.ofBits (fieldX v)
  displacement := (fieldD v).toInt

/-! ## Operation codes (R99) -/

/-- A map from operation codes to instructions. -/
abbrev OpcodeMap := List (Nat × (Reg → AddressPart → Instr))

/-- Codes 0 to 31. -/
def opcodesLow : OpcodeMap := [
  (0, .aw), (1, .io), (2, .bl), (3, .hl), (4, .la), (5, .lo), (6, .lx), (7, .wa),
  (8, .ws), (9, .am), (10, .wm), (11, .al), (12, .ml), (13, .jl), (14, .jd), (15, .je),
  (16, .xl), (17, .bs), (18, .ba), (19, .bz), (20, .rl), (21, .sp), (22, .kl), (23, .rs),
  (24, .wd), (25, .rx), (26, .hs), (27, .xs), (28, .pl), (29, .ps), (30, .ms), (31, .is)]

/-- Codes 32 to 57; 58 to 63 are unassigned (R98). -/
def opcodesHigh : OpcodeMap := [
  (32, .ci), (33, .ac), (34, .ns), (35, .nd), (36, .as), (37, .ad), (38, .ls), (39, .ld),
  (40, .sh), (41, .sl), (42, .se), (43, .sn), (44, .so), (45, .sz), (46, .sx), (47, .ic),
  (48, .fa), (49, .fs), (50, .fm), (51, .ks), (52, .fd), (53, .cf), (54, .dl), (55, .ds),
  (56, .aa), (57, .ss)]

/-- The operation-code table of R99. -/
def opcodeMap : OpcodeMap := opcodesLow ++ opcodesHigh

/-- Decode by a given operation-code map. The only decode failure is an unassigned code (R97). -/
def decodeBy (codes : OpcodeMap) (v : Word) : Option Instr :=
  (codes.lookup (fieldF v).toNat).map fun make => make (Reg.ofBits (fieldW v)) (addressPart v)

/-- The instruction in a word; `none` exactly for an unassigned operation code. -/
def decode (v : Word) : Option Instr := decodeBy opcodeMap v

/-- The host's view of `decode`: the one word of an instruction, its bits above `nbits` zero. -/
def decodeTableWord (nbits w : Nat) : Option Instr :=
  decode (BitVec.ofNat 24 (w % 2 ^ nbits))

/-! ## Encoding -/

/-- The operation code of an instruction (R99). -/
def Instr.code : Instr → Nat
  | .aw _ _ => 0
  | .io _ _ => 1
  | .bl _ _ => 2
  | .hl _ _ => 3
  | .la _ _ => 4
  | .lo _ _ => 5
  | .lx _ _ => 6
  | .wa _ _ => 7
  | .ws _ _ => 8
  | .am _ _ => 9
  | .wm _ _ => 10
  | .al _ _ => 11
  | .ml _ _ => 12
  | .jl _ _ => 13
  | .jd _ _ => 14
  | .je _ _ => 15
  | .xl _ _ => 16
  | .bs _ _ => 17
  | .ba _ _ => 18
  | .bz _ _ => 19
  | .rl _ _ => 20
  | .sp _ _ => 21
  | .kl _ _ => 22
  | .rs _ _ => 23
  | .wd _ _ => 24
  | .rx _ _ => 25
  | .hs _ _ => 26
  | .xs _ _ => 27
  | .pl _ _ => 28
  | .ps _ _ => 29
  | .ms _ _ => 30
  | .is _ _ => 31
  | .ci _ _ => 32
  | .ac _ _ => 33
  | .ns _ _ => 34
  | .nd _ _ => 35
  | .as _ _ => 36
  | .ad _ _ => 37
  | .ls _ _ => 38
  | .ld _ _ => 39
  | .sh _ _ => 40
  | .sl _ _ => 41
  | .se _ _ => 42
  | .sn _ _ => 43
  | .so _ _ => 44
  | .sz _ _ => 45
  | .sx _ _ => 46
  | .ic _ _ => 47
  | .fa _ _ => 48
  | .fs _ _ => 49
  | .fm _ _ => 50
  | .ks _ _ => 51
  | .fd _ _ => 52
  | .cf _ _ => 53
  | .dl _ _ => 54
  | .ds _ _ => 55
  | .aa _ _ => 56
  | .ss _ _ => 57

/-- `F*2**18 + W*2**16 + M*2**14 + X*2**12 + (D mod 2**12)`, as the concatenation of the fields (R91). -/
def assemble (code : Nat) (w : Reg) (a : AddressPart) : Word :=
  BitVec.ofNat 6 code ++ w.bits ++ (BitVec.ofBool a.relative ++ BitVec.ofBool a.indirect) ++ a.index.bits ++
    BitVec.ofInt 12 a.displacement

/-- The word of an instruction. -/
def encode (i : Instr) : Word := assemble i.code i.result i.address

end Sys2Proof
end

