-- ==== Sys2Proof/Machine/State.lean ====
section
/-! DEFINITION. The state of the machine as plain data (10_state.md): the processor's registers, the store and its
protection keys, the devices and operator inputs of the environment, and the script of what the environment does. -/

namespace Sys2Proof.Machine

/-! ## Processor and store -/

/-- The four working registers (R21). They are also the storage words 0 to 3 (R24); this is their one home. -/
structure Regs where
  w0 : Word
  w1 : Word
  w2 : Word
  w3 : Word
  deriving DecidableEq, Repr

/-- Data by number, in one canonical form: numbers strictly rising, no entry equal to zero. A number without an entry
reads as zero (DESIGN CHOICE, notes/assumptions/4.md). -/
abbrev Plane (n : Nat) := List (Nat × BitVec n)

/-- The store from byte address 8 on: 12-bit bytes by byte address (20_memory.md R60). The host's `Cell` holds 8-bit
bytes, so the cells here are the machine's own (notes/assumptions/3.md). -/
abbrev Memory := Plane 12

/-- The protection keys of all words by word number, the working registers' keys among them (R28). -/
abbrev KeyPlane := Plane 3

/-- An Autoload Word in progress (47_input_output.md R330): the algorithm's `acc`, the characters still to come, and
which of its two loops it is in. -/
structure Autoload where
  /-- The effective address of the AW. -/
  target : Word
  /-- The characters assembled so far. -/
  acc : Word
  /-- Characters still to be read, 1 to 4. -/
  remaining : Nat
  /-- True in the loop WaitInput, after the read command; false in StartInput. -/
  reading : Bool
  deriving DecidableEq, Repr

/-- The control state (R39): running, the reset state, and two states in which no instruction cycle runs: inside the
waiting loops of Autoload Word, and power off (70_reset_and_hazards.md R408). -/
inductive RunState where
  | running
  | resetState
  | autoloading (p : Autoload)
  | powerOff
  deriving DecidableEq, Repr

/-! ## The environment (R20, R36 to R38; 47_input_output.md R322) -/

/-- The condition of a device (R322). -/
inductive Condition where
  | available
  | busy
  | disconnected
  deriving DecidableEq, Repr

/-- What a device may do besides answering commands: nothing; count in its buffer (the interval timer, R345); receive
signals in its buffer (an external interrupt register, R347); write words of the store until it is available again (a
device on the high-speed channel, R340). -/
inductive DeviceKind where
  | ordinary
  | intervalTimer
  | interruptRegister
  | highSpeed
  deriving DecidableEq, Repr

/-- A device as the processor sees it (R36). Which device is present at a number, its kind and the bits of its buffer are
installation data (00_scope.md R7), which nothing changes. -/
structure Device where
  kind : DeviceKind
  /-- The bits the buffer register has; the others read as zero (R36). -/
  used : Word
  buffer : Word
  condition : Condition
  /-- A control command has started a block transfer and the device is not available again (R340). -/
  transferring : Bool
  deriving DecidableEq, Repr

/-- An accepted device command: device, the 6-bit command, and the data word if one is sent (R324, R350). -/
structure DeviceCommand where
  device : Nat
  command : BitVec 6
  data : Option Word
  deriving DecidableEq, Repr

/-- What the high-speed channel does in one stolen store cycle: the device replaces the 24 data bits of a storage word
(20_memory.md R78). -/
structure Transfer where
  device : Nat
  wordNumber : Nat
  data : Word
  deriving DecidableEq, Repr

/-- The buffer and the condition in which a device is after a power on; R45 calls them device-dependent. -/
structure DeviceValues where
  buffer : Word
  condition : Condition
  deriving DecidableEq, Repr

/-- What a power on leaves to chance: the registers have any values (92_eei_decisions.md D8), and the devices present any
buffers and conditions, by device number (R45, notes/assumptions/8.md). A device that is not listed is as before. -/
structure PowerOnValues where
  regs : Regs
  ic : Word
  ex : BitVec 3
  pr : BitVec 8
  ir : Word
  im : Word
  devices : List (Nat × DeviceValues)
  deriving DecidableEq, Repr

/-- What the environment may do between two steps of the processor. What the channel does within a step is in
`State.steals`. -/
inductive EnvEvent where
  /-- An external signal: the interrupt bits wired to the source are set (60_exceptions.md R363). -/
  | signal (source : SignalSource)
  /-- A busy device completes its operation, possibly with a new buffer content (R322 (a)). -/
  | complete (device : Nat) (data : Option Word)
  /-- A device is switched off or removed (R322 (b)). -/
  | disconnect (device : Nat)
  /-- A disconnected device becomes available (R322 (b)). -/
  | connect (device : Nat)
  /-- The interval timer counts on (R345). -/
  | timerAdvance (device : Nat) (counts : Nat)
  /-- Signals set bits of an external interrupt register (R347). -/
  | externalBits (device : Nat) (bits : Word)
  /-- The operator presses a key (R38). -/
  | pressReset
  | pressStart
  | pressAutoload
  /-- The high-speed channel writes a storage word (20_memory.md R78). -/
  | transfer (x : Transfer)
  /-- Power fails (R408). -/
  | powerFail
  /-- Power is turned on, with these contents of the registers and of the devices' buffers (R401). -/
  | powerOn (values : PowerOnValues)
  deriving DecidableEq, Repr

/-! ## The state -/

/-- Everything the spec gives the machine, and three fields of the model's own, marked so. -/
structure State where
  /-- W0 to W3 (R21). -/
  regs : Regs
  /-- The instruction counter IC (R25). -/
  ic : Word
  /-- The exception register EX(21:23), bit 21 leftmost (R26). -/
  ex : BitVec 3
  /-- The protection register PR(0:7), bit 0 leftmost (R29). -/
  pr : BitVec 8
  /-- Monitor mode (true) or task mode (R30). -/
  monitorMode : Bool
  /-- The interrupt register IR(0:23) (R31). -/
  ir : Word
  /-- The mask register IM(0:23) (R32). -/
  im : Word
  /-- R33. -/
  interruptDisabled : Bool
  /-- The store above the working registers (R34). -/
  store : Memory
  /-- The protection keys (R28). -/
  keys : KeyPlane
  /-- The control state (R39). -/
  run : RunState
  /-- The modifier an AM hands to the next instruction; the hidden field R40 describes. -/
  amPending : Option Word
  /-- The operator's keys, until Power On clears them (R38). -/
  resetKey : Bool
  startKey : Bool
  autoloadKey : Bool
  /-- A power failure not yet acted on (R408). -/
  powerFailing : Bool
  /-- The devices present, by device number; any other number is permanently disconnected (R322, 00_scope.md R7). -/
  devices : List (Nat × Device)
  /-- The parameters of the installation (00_scope.md R6 to R11). -/
  inst : Installation
  /-- MODEL'S OWN: the accepted device commands, oldest first, the trace R350 names as observable. -/
  commands : List DeviceCommand
  /-- MODEL'S OWN: what the environment will do, one list of events before each step; nothing once it is used up
  (notes/assumptions/5.md). -/
  schedule : List (List EnvEvent)
  /-- MODEL'S OWN: what the high-speed channel will write, one list before each access of the processor to the store;
  nothing once it is used up (20_memory.md R74, R78; notes/assumptions/17.md). -/
  steals : List (List Transfer)
  deriving DecidableEq, Repr

/-- Why a step can stop. The manual's own faults are program interruptions, which are next states. -/
inductive Fault where
  /-- Raised by Divide Floating if its quotient loop should not end within the steps the model counts. The manual gives
  the loop no bound (43_floating_point.md R225). Safe: the machine would go on. `Sys2Proof.Laws.divideLoop_ends` shows
  that no operands raise it. -/
  | endlessDivision
  deriving DecidableEq, Repr

/-- Why a step can be refused. -/
inductive Refusal where
  /-- Raised by `exec` for an instruction without a meaning. Safe. No arm raises it now. -/
  | notModelled (mnemonic : String)
  deriving DecidableEq, Repr

/-- The machine right after Power On (R45, 70_reset_and_hazards.md R401): the reset state, monitor mode, interrupts
disabled, the keys cleared, PR(0) = IM(0) = 1. Every other value is not given by the spec and is the model's, zero or
empty: DESIGN CHOICE, notes/assumptions/2.md. -/
def State.reset : State where
  regs := ⟨0, 0, 0, 0⟩
  ic := 0
  ex := 0
  pr := 0x80
  monitorMode := true
  ir := 0
  im := 0x800000
  interruptDisabled := true
  store := []
  keys := []
  run := .resetState
  amPending := none
  resetKey := false
  startKey := false
  autoloadKey := false
  powerFailing := false
  devices := []
  inst := Installation.basic
  commands := []
  schedule := []
  steals := []

end Sys2Proof.Machine
end

