-- ==== Sys2Proof/Machine/Ops.lean ====
section
/-! DEFINITION. The named operations over registers, store, keys and interrupts: the primitives of 00_scope.md R16,
the tests of 40_cycle_and_address_handling.md R127 to R129, and program interruption (60_exceptions.md R364, R366). -/

namespace Sys2Proof.Machine

/-- The outcome of a step or an instruction. -/
abbrev Out := Host.Outcome State Fault Refusal

/-! ## Registers (10_state.md R21, R22) -/

/-- `W[r]`. -/
def Regs.get (w : Regs) : Reg → Word
  | .w0 => w.w0
  | .w1 => w.w1
  | .w2 => w.w2
  | .w3 => w.w3

/-- `W[r] <- v`. -/
def Regs.set (w : Regs) (r : Reg) (v : Word) : Regs :=
  match r with
  | .w0 => { w with w0 := v }
  | .w1 => { w with w1 := v }
  | .w2 => { w with w2 := v }
  | .w3 => { w with w3 := v }

/-- `W[r]` of a state. -/
def State.reg (s : State) (r : Reg) : Word := s.regs.get r

/-- `W[r] <- v` through the W field: no test is made (R24). -/
def State.setReg (s : State) (r : Reg) (v : Word) : State :=
  { s with regs := s.regs.set r v }

/-- The register preceding `r` cyclically (R22). -/
def preceding : Reg → Reg
  | .w0 => .w3
  | .w1 => .w0
  | .w2 => .w1
  | .w3 => .w2

/-- The double register `W[pre(r)] ++ W[r]` (R22). -/
def State.pair (s : State) (r : Reg) : DoubleWord :=
  s.reg (preceding r) ++ s.reg r

/-- Write the double register named by `r`. -/
def State.setPair (s : State) (r : Reg) (v : DoubleWord) : State :=
  (s.setReg (preceding r) (v.extractLsb' 24 24)).setReg r (v.extractLsb' 0 24)

/-! ## Canonical planes -/

/-- The value at a number; zero where nothing is listed. -/
def readPlane {n : Nat} : Plane n → Nat → BitVec n
  | [], _ => 0
  | (k, v) :: m, a => if k = a then v else readPlane m a

/-- Write a value at a number, keeping the canonical form: writing zero removes the entry. -/
def writePlane {n : Nat} : Plane n → Nat → BitVec n → Plane n
  | [], a, v => if v = 0 then [] else [(a, v)]
  | (k, u) :: m, a, v =>
    if a < k then (if v = 0 then (k, u) :: m else (a, v) :: (k, u) :: m)
    else if a = k then (if v = 0 then m else (a, v) :: m)
    else (k, u) :: writePlane m a v

/-- The canonical form, with every listed number from `lo` to `hi`. -/
abbrev planeWf {n : Nat} (lo hi : Nat) (m : Plane n) : Prop :=
  m.Pairwise (fun c d => c.1 < d.1) ∧ ∀ c ∈ m, c.2 ≠ 0 ∧ lo ≤ c.1 ∧ c.1 ≤ hi

/-- The canonical form of the store: byte addresses from 8 to `2*WORD_LIMIT + 1` (00_scope.md R6). -/
abbrev Memory.wf (wordLimit : Nat) (m : Memory) : Prop := planeWf 8 (2 * wordLimit + 1) m

/-- The addresses listed in the store are in rising order. -/
abbrev State.storeRising (s : State) : Prop := s.store.Pairwise fun c d => c.1 < d.1

/-- The canonical form of the keys: word numbers 0 to WORD_LIMIT. -/
abbrev KeyPlane.wf (wordLimit : Nat) (m : KeyPlane) : Prop := planeWf 0 wordLimit m

/-! ## Storage access (20_memory.md R60 to R68) -/

/-- `a(0:22)`, the number of the word containing byte address `a` (R61). -/
def wordNumber (a : Word) : Nat := a.toNat / 2

/-- `a` with bit 23 cleared. -/
def evenAddress (a : Word) : Word := a &&& 0xFFFFFE

/-- The working register that is storage word `n` (R24). -/
def registerAt : Nat → Option Reg
  | 0 => some .w0
  | 1 => some .w1
  | 2 => some .w2
  | 3 => some .w3
  | _ => none

/-- The storage word that a working register is (R24). -/
def registerNumber : Reg → Nat
  | .w0 => 0
  | .w1 => 1
  | .w2 => 2
  | .w3 => 3

/-- Storage word `n`: a working register, or two bytes of the store, the left byte at the even address (R62). -/
def State.readWordAt (s : State) (n : Nat) : Word :=
  match registerAt n with
  | some r => s.reg r
  | none => readPlane s.store (2 * n) ++ readPlane s.store (2 * n + 1)

/-- Word `n` of the store replaced, the left byte at the even address (R62). -/
def storeWord (m : Memory) (n : Nat) (v : Word) : Memory :=
  writePlane (writePlane m (2 * n) (v.extractLsb' 12 12)) (2 * n + 1) (v.extractLsb' 0 12)

/-- Replace the 24 data bits of storage word `n`. -/
def State.writeWordAt (s : State) (n : Nat) (v : Word) : State :=
  match registerAt n with
  | some r => s.setReg r v
  | none => { s with store := storeWord s.store n v }

/-- `WordRead(a)` (R66). -/
def State.wordRead (s : State) (a : Word) : Word := s.readWordAt (wordNumber a)

/-- `WordWrite(a, v)` (R66). -/
def State.wordWrite (s : State) (a v : Word) : State := s.writeWordAt (wordNumber a) v

/-- The left or right byte of a word, by bit 23 of the address (R62). -/
def halfOf (a v : Word) : Byte :=
  if a.getMsbD 23 then v.extractLsb' 0 12 else v.extractLsb' 12 12

/-- A word with the byte that `a` names replaced. -/
def withHalf (a v : Word) (b : Byte) : Word :=
  if a.getMsbD 23 then (v.extractLsb' 12 12 : Byte) ++ b else b ++ (v.extractLsb' 0 12 : Byte)

/-- `MemRead(a, 1)` (R67). -/
def State.byteRead (s : State) (a : Word) : Byte := halfOf a (s.wordRead a)

/-- `MemWrite(a, 1, b)`: one access to the containing word, whose other half stays (R67, R74). -/
def State.byteWrite (s : State) (a : Word) (b : Byte) : State :=
  s.wordWrite a (withHalf a (s.wordRead a) b)

/-- `KeyRead(a)` (R68). -/
def State.keyRead (s : State) (a : Word) : Key := readPlane s.keys (wordNumber a)

/-- `KeyWrite(a, k)` (R68). -/
def State.keyWrite (s : State) (a : Word) (k : Key) : State :=
  { s with keys := writePlane s.keys (wordNumber a) k }

/-! ## The high-speed channel (20_memory.md R74, R78; 47_input_output.md R340) -/

/-- The device with a number, if one is present. -/
def State.device? (s : State) (n : Nat) : Option Device := s.devices.lookup n

/-- A block transfer of device `n` is in progress: from the control command that starts it until the device is available
again (47_input_output.md R340). -/
def State.transferring (s : State) (n : Nat) : Bool :=
  match s.device? n with
  | some d => d.kind == .highSpeed && d.condition != .available && d.transferring
  | none => false

/-- What the channel may do (92_eei_decisions.md D18): write an existing word that is no working register, for a device
whose block transfer is in progress; nothing while the power is off (70_reset_and_hazards.md R408). -/
def State.mayTransfer (s : State) (x : Transfer) : Bool :=
  s.run != .powerOff && s.transferring x.device && decide (4 ≤ x.wordNumber) && decide (x.wordNumber ≤ s.inst.wordLimit)

/-- The store after the channel has used one cycle. -/
def State.transferred (s : State) (m : Memory) (x : Transfer) : Memory :=
  if s.mayTransfer x then storeWord m x.wordNumber x.data else m

/-- The channel writes one word. -/
def State.transfer (s : State) (x : Transfer) : State := { s with store := s.transferred s.store x }

/-- The channel steals the cycles it needs before the processor's next access to the store (R74, R78). Every access of
the processor is preceded by this (notes/assumptions/17.md). -/
def State.steal (s : State) : State :=
  { s with store := (s.steals.headD []).foldl s.transferred s.store, steals := s.steals.tail }

/-! ## Tests (40_cycle_and_address_handling.md R127 to R129) -/

/-- What `TestAddress(a)` tests: the word containing `a` does not exist (R127). -/
def State.missing (s : State) (a : Word) : Bool := decide (s.inst.wordLimit < wordNumber a)

/-- `PR(KeyRead(a)) = 1`: the word containing `a` is protected (10_state.md R29). -/
def State.isProtected (s : State) (a : Word) : Bool := s.pr.getMsbD (s.keyRead a).toNat

/-- What `TestProtection(a)` tests: task mode and a protected word (R128). -/
def State.forbids (s : State) (a : Word) : Bool := !s.monitorMode && s.isProtected a

/-! ## Program interruption (60_exceptions.md) -/

/-- The word with only bit `i` set, counted from the left. -/
def bitMask (i : Nat) : Word := 0x800000#24 >>> i

/-- `pend(i)`: `IR(i) <- 1` (00_scope.md R16). -/
def State.pend (s : State) (i : Nat) : State := { s with ir := s.ir ||| bitMask i }

/-- The leftmost request that the mask honours, if any (R364, R365). -/
def State.honoured (s : State) : Option Nat :=
  (List.range 24).find? fun i => s.ir.getMsbD i && s.im.getMsbD i

/-- Serve request `i`: its bit is cleared, word 8 receives its number and word 10 the return address, then word 12 is
read; no access is tested (R364), and the channel may steal cycles before each of the three (R78). -/
def State.serve (s : State) (i : Nat) : State :=
  let s1 := { s with ir := s.ir &&& ~~~bitMask i }
  let s2 := (s1.steal.wordWrite 8 (BitVec.ofNat 24 (2 * i))).steal
  let s3 := (s2.wordWrite 10 s2.ic).steal
  { s3 with ic := evenAddress (s3.wordRead 12), monitorMode := true, interruptDisabled := true }

/-- Interruption Service (R364): serve the leftmost honoured request; without one, continue the program. -/
def State.service (s : State) : State :=
  match s.honoured with
  | some i => s.serve i
  | none => s

/-- `raise InstructionException` (R366): the one way an instruction takes an exception. It goes to Interruption Service
whatever `interruptDisabled` is. A modifier still carried is discarded (R372). There is no instruction that returns: a
jump through word 10 does, and the decode of its target sets the mode (R370). -/
def State.raise (s : State) : State :=
  (State.pend { s with amPending := none } 0).service

/-- The outcome of an instruction abandoned by an instruction exception (R135). -/
def trap (s : State) : Out := .next s.raise

/-- `TestAddress(a)` and then the rest of the instruction (R127). -/
def testAddress (s : State) (a : Word) (rest : Out) : Out := if s.missing a then trap s else rest

/-- `TestProtection(a)` and then the rest of the instruction (R128). -/
def testProtection (s : State) (a : Word) (rest : Out) : Out := if s.forbids a then trap s else rest

/-- `TestMode()` and then the rest of the instruction (R129). -/
def testMode (s : State) (rest : Out) : Out := if s.monitorMode then rest else trap s

/-! ## Reset (70_reset_and_hazards.md R400, R401) -/

/-- Power On (R401): monitor mode, interrupts disabled, keys cleared, then the reset state. -/
def State.powerOnState (s : State) : State :=
  { s with
    monitorMode := true, interruptDisabled := true, resetKey := false, startKey := false, autoloadKey := false
    run := .resetState, amPending := none }

/-- Reset System (R400): word 10 receives IC without any test, then Power On. -/
def State.resetSystem (s : State) : State := (s.steal.wordWrite 10 s.ic).powerOnState

/-! ## The instruction cycle up to the operation (40_cycle_and_address_handling.md R121, R122) -/

/-- The outcome of Fetch Instruction (R121). -/
inductive Fetch where
  | nonexistent
  | resetPressed
  | powerFailed
  | word (v : Word)
  deriving DecidableEq, Repr

/-- Fetch Instruction (R121): the existence check, then the reset-key poll (and the power failure, 92_eei_decisions.md
D13, at the same point), then the instruction word. That the reset key is acted on before a power failure found at the
same poll is the model's choice (notes/assumptions/8.md). An instruction modified by an AM is fetched without the poll
(R131). -/
def State.fetch (s : State) : Fetch :=
  if s.missing s.ic then .nonexistent
  else if s.amPending.isNone && s.resetKey then .resetPressed
  else if s.amPending.isNone && s.powerFailing then .powerFailed
  else .word (s.wordRead s.ic)

/-- The interrupt poll at Next Instruction (R120, R362), which an AM suppresses for the next instruction (R131). -/
def State.poll (s : State) : State :=
  if s.interruptDisabled || s.amPending.isSome then s else s.service

end Sys2Proof.Machine
end

