-- ==== Sys2Proof/Machine/Operands.lean ====
section
/-! DEFINITION. Operand forms: the effective address (40_cycle_and_address_handling.md R122, R124), the address of the
first word of a double word (20_memory.md R64), the operand fields of IO (47_input_output.md R321). -/

namespace Sys2Proof.Machine

/-- What indexing adds (30_encoding.md R95). -/
def State.indexValue (s : State) : Index → Word
  | .none => 0
  | .x1 => s.reg .w1
  | .x2 => s.reg .w2
  | .x3 => s.reg .w3

/-- `A0` of R124: the displacement and the carried modifier, plus the address of the instruction itself if relative,
plus the index register, modulo 2**24. `s` is the state in which IC still names the instruction. -/
def State.address0 (s : State) (a : AddressPart) : Word :=
  BitVec.ofInt 24 a.displacement + s.amPending.getD 0 + (if a.relative then s.ic else 0) + s.indexValue a.index

/-- The state when the operation starts: IC names the next instruction, the modifier is consumed, and the mode follows
from the key of the instruction's own word (R122). -/
def State.decoded (s : State) : State :=
  { s with ic := s.ic + 2, amPending := none, monitorMode := s.isProtected s.ic }

/-- The state in which the operation starts: after the decode, and after the channel has stolen cycles before the
indirect word is read, if there is one, and before the operation (20_memory.md R74, R78). -/
def State.entered (s : State) (a : AddressPart) : State :=
  (if a.indirect then s.steal.steal else s.steal).decoded

/-- The effective address; `none` if the indirect word does not exist (R122, R124). -/
def State.effectiveAddress (s : State) (a : AddressPart) : Option Word :=
  if a.indirect then
    if s.missing (s.address0 a) then none else some (s.steal.wordRead (s.address0 a))
  else some (s.address0 a)

/-- Decode Instruction (R122) and then the operation, which receives the effective address. The fetch protection check
comes before the mode is updated, the existence of the indirect word after it (R123). -/
def cycle (a : AddressPart) (s : State) (operation : Word → State → Out) : Out :=
  if s.forbids s.ic then trap { s with ic := s.ic + 2, amPending := none }
  else
    match s.effectiveAddress a with
    | none => trap s.decoded
    | some addr => operation addr (s.entered a)

/-- `first_word_address(a)` (R64). -/
def firstWordAddress (a : Word) : Word :=
  if wordNumber a = 0 then 6 else evenAddress a - 2

/-- The 48-bit double word whose second word is at `a` (R64, R65), each word read once; the second access comes after the
cycles the channel steals in between. Which word comes first is not stated (R73, notes/assumptions/23.md). -/
def State.doubleRead (s : State) (a : Word) : DoubleWord :=
  if s.inst.floatingFirstWordFirst then s.wordRead (firstWordAddress a) ++ s.steal.wordRead a
  else s.steal.wordRead (firstWordAddress a) ++ s.wordRead a

/-! ## Input/Output (R321) -/

/-- `A(0:17)`. -/
def deviceField (a : Word) : BitVec 18 := a.extractLsb' 6 18

/-- `A(18:23)`: modifier and basic command. -/
def commandField (a : Word) : BitVec 6 := a.extractLsb' 0 6

/-- `A(22:23)`: 0 sense, 1 control, 2 read, 3 write. -/
def basicCommand (a : Word) : BitVec 2 := a.extractLsb' 0 2

/-- The device a channel selects: the device number modulo 2**N (R321). -/
def State.selectedDevice (s : State) (a : Word) : Nat :=
  (deviceField a).toNat % 2 ^ s.inst.deviceAddressBits

end Sys2Proof.Machine
end

