-- ==== Sys2Proof/Machine/Flags.lean ====
section
/-! DEFINITION. The exception register and the overflow requests (10_state.md R26, R27;
40_cycle_and_address_handling.md R130; 43_floating_point.md R209). -/

namespace Sys2Proof.Machine

/-- EX(21), the precision mode: true is low precision (43_floating_point.md R208). -/
def State.lowPrecision (s : State) : Bool := s.ex.getMsbD 0

/-- `EX(22) <- o` and `EX(23) <- c`, EX(21) unchanged. -/
def State.setEx (s : State) (o c : Bool) : State :=
  { s with ex := BitVec.ofBool s.lowPrecision ++ BitVec.ofBool o ++ BitVec.ofBool c }

/-- `EX(22:23) <- 0`, the first action of the instructions R27 lists. -/
def State.clearEx (s : State) : State := s.setEx false false

/-- `EX(22) <- 1`. -/
def State.setOverflow (s : State) : State := s.setEx true (s.ex.getMsbD 2)

/-- Integer overflow: `pend(1)` and `EX(22) <- 1` (60_exceptions.md R368). -/
def State.integerOverflow (s : State) : State := s.setOverflow.pend 1

/-- Floating-point overflow or underflow: `pend(2)` and `EX(22) <- 1` (R369). -/
def State.floatingOverflow (s : State) : State := s.setOverflow.pend 2

/-! ## The 25-bit adder -/

/-- `add25(a, b, cin)`: the sum modulo 2**25, and the carry out of bit 0 into bit -1 (00_scope.md R15). -/
def add25 (a b : BitVec 25) (cin : Bool) : BitVec 25 × Bool :=
  (a + b + BitVec.ofNat 25 cin.toNat, decide (2 ^ 24 ≤ a.toNat % 2 ^ 24 + b.toNat % 2 ^ 24 + cin.toNat))

/-- `IntAdd` (R130): x + y + cin. -/
def intAdd (x y : Word) (cin : Bool) : BitVec 25 × Bool :=
  add25 (x.signExtend 25) (y.signExtend 25) cin

/-- `IntSub` (R130): x - y - (1 - cin), one pass through the adder (90_conflicts.md C5). -/
def intSub (x y : Word) (cin : Bool) : BitVec 25 × Bool :=
  add25 (x.signExtend 25) (~~~(y.signExtend 25)) cin

/-- `r(0:23)`, what the register receives. -/
def sum24 (r : BitVec 25) : Word := r.extractLsb' 0 24

/-- `TestInteger(r, c)` (R130): overflow if bits -1 and 0 differ, `EX(23) <- c`. -/
def State.testInteger (s : State) (r : BitVec 25) (c : Bool) : State :=
  if r.getMsbD 0 ≠ r.getMsbD 1 then State.integerOverflow (s.setEx (s.ex.getMsbD 1) c)
  else s.setEx (s.ex.getMsbD 1) c

/-- The carry a subtraction of `y` reports in EX(23): that of the one pass, but for a plain subtraction of zero in an
installation that selects the two-pass carry (92_eei_decisions.md D23). -/
def State.reportedCarry (s : State) (y : Word) (cin c : Bool) : Bool :=
  if y = 0 ∧ cin ∧ ¬s.inst.subtractZeroCarry then false else c

/-! ## Floating-point exponents -/

/-- `SC(11) != SC(12)`: the 13-bit exponent is outside -2048 to 2047 (43_floating_point.md R206). -/
def exponentOut (sc : BitVec 13) : Bool := sc.getMsbD 0 != sc.getMsbD 1

/-- The exponent test at the end of Normalize and Round Floating (R206). -/
def State.testExponent (s : State) (sc : BitVec 13) : State :=
  if exponentOut sc then s.floatingOverflow else s

end Sys2Proof.Machine
end

