-- ==== Sys2Proof/Machine/AddressHandling.lean ====
section
/-! DEFINITION. The address handling instructions AM, AL, AC (40_cycle_and_address_handling.md R131 to R133). -/

namespace Sys2Proof.Machine

/-- AM (R131): the effective address becomes the modifier of the next instruction, whose address must exist. The W
field is ignored. The next instruction is the next step (R40, notes/assumptions/6.md). -/
def execAm (a : AddressPart) (s : State) : Out :=
  cycle a s fun addr t => testAddress t t.ic (.next { t with amPending := some addr })

/-- AL (R132). -/
def execAl (w : Reg) (a : AddressPart) (s : State) : Out :=
  cycle a s fun addr t => .next (t.setReg w addr)

/-- AC (R133): 0 - A. -/
def execAc (w : Reg) (a : AddressPart) (s : State) : Out :=
  cycle a s fun addr t =>
    let d := intSub 0 addr true
    .next ((t.clearEx.setReg w (sum24 d.1)).testInteger d.1 (t.reportedCarry addr true d.2))

end Sys2Proof.Machine
end

