-- ==== Sys2Proof/Machine/FloatingPoint.lean ====
section
/-! DEFINITION. Floating-point arithmetic and conversion (43_floating_point.md). The registers AF (bits -1 to 37), SF
(0 to 37), BF (0 to 35) and SC (11 to 23) of R204 are bit vectors, so `AF(i)` is `af.getMsbD (i + 1)`. The manual's
loops are functions of the number of passes still allowed. -/

namespace Sys2Proof.Machine

/-! ## Fetching operands (R205) -/

/-- The 36-bit fraction of a floating-point double word (R200). -/
def fractionOf (d : DoubleWord) : BitVec 36 := d.extractLsb' 12 36

/-- The 12-bit exponent of a floating-point double word (R200). -/
def exponentOf (d : DoubleWord) : BitVec 12 := d.extractLsb' 0 12

/-- A fraction placed in AF(-1:35), with AF(36:37) zero. -/
def loadAF (f : BitVec 36) : BitVec 39 := (f ++ 0#2).signExtend 39

/-- A fraction placed in SF(0:35), with SF(36:37) zero. -/
def loadSF (f : BitVec 36) : BitVec 38 := f ++ 0#2

/-- `sext_39(SF)`. -/
def extendSF (sf : BitVec 38) : BitVec 39 := sf.signExtend 39

/-! ## Normalize and Round Floating (R206) -/

/-- The left shifts: while AF(0) = AF(1), shift left and count the exponent down. -/
def normalizeLoop : Nat → BitVec 39 → BitVec 13 → BitVec 39 × BitVec 13
  | 0, af, sc => (af, sc)
  | n + 1, af, sc =>
    if af.getMsbD 1 = af.getMsbD 2 then normalizeLoop n (af <<< 1) (sc - 1) else (af, sc)

/-- One normalization: a right shift after a fraction overflow, exponent -2048 for zero, else left shifts. At most 37
left shifts normalize a nonzero AF. -/
def normalizePass (af : BitVec 39) (sc : BitVec 13) : BitVec 39 × BitVec 13 :=
  if af.getMsbD 0 ≠ af.getMsbD 1 then (af.sshiftRight 1, sc + 1)
  else if af = 0 then (af, BitVec.ofInt 13 (-2048))
  else normalizeLoop 38 af sc

/-- The label Again: normalize, round if AF(36) = 1, and then again. A rounded fraction has AF(36:37) = 0, so the second
pass never rounds. -/
def normalizeAndRound : Nat → BitVec 39 → BitVec 13 → BitVec 39 × BitVec 13
  | 0, af, sc => (af, sc)
  | n + 1, af, sc =>
    let p := normalizePass af sc
    if p.1.getMsbD 37 then normalizeAndRound n ((p.1 + 4) &&& ~~~3#39) p.2 else p

/-! ## Storing the result (R207, R208) -/

/-- Bits 34 and 35 of the fraction set equal to bit 33. -/
def lowPrecisionFraction (f : BitVec 36) : BitVec 36 :=
  if f.getMsbD 33 then f ||| 3 else f &&& ~~~3#36

/-- Store AF(0:35) and SC(12:23) in the register pair. -/
def State.storeFraction (s : State) (w : Reg) (f : BitVec 36) (sc : BitVec 13) : State :=
  s.setPair w (f ++ (sc.extractLsb' 0 12 : Byte))

/-- Test Precision Mode and Store (R207). -/
def State.storeFloating (s : State) (w : Reg) (af : BitVec 39) (sc : BitVec 13) : State :=
  let f : BitVec 36 := af.extractLsb' 2 36
  s.storeFraction w (if s.lowPrecision then lowPrecisionFraction f else f) sc

/-- Normalize and Round Floating, then Test Precision Mode and Store: how FA, FS, FM and FD end. -/
def State.finishFloating (s : State) (w : Reg) (af : BitVec 39) (sc : BitVec 13) : State :=
  let p := normalizeAndRound 2 af sc
  (s.testExponent p.2).storeFloating w p.1 p.2

/-! ## Conversion (R210, R211) -/

/-- CI (R210). A is a scale factor of which the rightmost 13 bits count. -/
def execCi (w : Reg) (a : AddressPart) (s : State) : Out :=
  cycle a s fun addr t =>
    let t := t.clearEx
    let af : BitVec 39 := (t.reg w).signExtend 25 ++ 0#14
    if af = 0 then .next (t.setPair w 0x000000000800)
    else
      let p := normalizeAndRound 2 af 23
      let sc := p.2 + addr.setWidth 13
      .next (((t.testExponent p.2).testExponent sc).storeFraction w (p.1.extractLsb' 2 36) sc)

/-- The number of right shifts in CF (R211), computed modulo 2**24. -/
def cfShifts (addr : Word) (e : BitVec 12) : Int := ((23 : Word) - addr - e.signExtend 24).toInt

/-- The integer CF delivers; `none` on overflow (R211). -/
def convertToInteger (f : BitVec 36) (n : Int) : Option Word :=
  let af := loadAF f
  if n < 0 ∧ af ≠ 0 then none
  else
    let shifted := if 64 ≤ n then 0 else af.sshiftRight n.toNat
    let rounded := if shifted.getMsbD 25 then shifted + 0x4000#39 else shifted
    if rounded.getMsbD 0 ≠ rounded.getMsbD 1 then none else some (rounded.extractLsb' 14 24)

/-- CF (R211): its overflow is the integer overflow. -/
def execCf (w : Reg) (a : AddressPart) (s : State) : Out :=
  cycle a s fun addr t =>
    let t := t.clearEx
    let d := t.pair w
    match convertToInteger (fractionOf d) (cfShifts addr (exponentOf d)) with
    | none => .next t.integerOverflow
    | some v => .next (t.setReg w v)

/-! ## Addition and subtraction (R214, R215) -/

/-- FA (`add` true) and FS (`add` false) on the pair `w` and the storage operand `m` (R214). -/
def State.floatingSum (t : State) (add : Bool) (w : Reg) (m : DoubleWord) : State :=
  let d := t.pair w
  let af := loadAF (fractionOf d)
  let sf := loadSF (fractionOf m)
  let e := (exponentOf d).toInt
  let x := (exponentOf m).toInt
  let diff := e - x
  if 38 ≤ diff then t.storeFloating w af (BitVec.ofInt 13 e)
  else if diff ≤ -38 ∧ add then t.storeFloating w (extendSF sf) (BitVec.ofInt 13 x)
  else
    let af' := if diff ≤ -38 then 0 else af.sshiftRight (-diff).toNat
    let sf' := sf.sshiftRight diff.toNat
    let sum := if add then af' + extendSF sf' else af' - extendSF sf'
    t.finishFloating w sum (BitVec.ofInt 13 (if diff < 0 then x else e))

/-- FA (R214). -/
def execFa (w : Reg) (a : AddressPart) (s : State) : Out :=
  cycle a s fun addr t =>
    let t := t.clearEx
    testAddress t addr (.next (t.steal.floatingSum true w (t.doubleRead addr)))

/-- FS (R215). -/
def execFs (w : Reg) (a : AddressPart) (s : State) : Out :=
  cycle a s fun addr t =>
    let t := t.clearEx
    testAddress t addr (.next (t.steal.floatingSum false w (t.doubleRead addr)))

/-! ## Multiplication (R218) -/

/-- The add-and-shift cycle: `n` more passes with the partial product AF and the multiplier BF. -/
def multiplyLoop (sf : BitVec 38) : Nat → BitVec 39 → BitVec 36 → BitVec 39 × BitVec 36
  | 0, af, bf => (af, bf)
  | n + 1, af, bf =>
    multiplyLoop sf n ((if bf.getMsbD 35 then af + extendSF sf else af).sshiftRight 1) (bf >>> 1)

/-- The fraction product of 38 bits: 35 passes, then a subtraction for the sign of the multiplier. -/
def multiplyFractions (bf : BitVec 36) (sf : BitVec 38) : BitVec 39 :=
  let p := multiplyLoop sf 35 0 bf
  if p.2.getMsbD 35 then p.1 - extendSF sf else p.1

/-- FM (R218). -/
def execFm (w : Reg) (a : AddressPart) (s : State) : Out :=
  cycle a s fun addr t =>
    let t := t.clearEx
    testAddress t addr <|
      let d := t.pair w
      let m := t.doubleRead addr
      let t := t.steal
      .next (t.finishFloating w (multiplyFractions (fractionOf d) (loadSF (fractionOf m)))
        (BitVec.ofInt 13 ((exponentOf d).toInt + (exponentOf m).toInt)))

/-! ## Division (R221) -/

/-- A quotient digit: 1 when the remainder and the divisor have the same sign. -/
def quotientDigit (af : BitVec 39) (sf : BitVec 38) : Bool := af.getMsbD 0 == sf.getMsbD 0

/-- The shift-and-add(subtract) cycle, until BF(0) differs from BF(1): the quotient, the remainder and the number of
cycles. `none` if it does not end within the passes allowed. -/
def divideLoop (sf : BitVec 38) : Nat → BitVec 36 → BitVec 39 → Bool → Nat → Option (BitVec 36 × BitVec 39 × Nat)
  | 0, _, _, _, _ => none
  | n + 1, bf, af, nd, k =>
    if bf.getMsbD 0 ≠ bf.getMsbD 1 then some (bf, af, k)
    else
      let r := if nd then af - extendSF sf else af + extendSF sf
      divideLoop sf n ((bf <<< 1) ||| (BitVec.ofBool nd).setWidth 36) (r <<< 1) (quotientDigit r sf) (k + 1)

/-- The passes of the quotient loop that the model counts. `Sys2Proof.Laws.divideLoop_ends` shows that they are enough
for any operands. -/
def divisionPasses : Nat := 80

/-- The fraction of the quotient with its rounding digit, and the number of cycles (R221). -/
def divideFractions (f : BitVec 36) (sf : BitVec 38) : Option (BitVec 39 × Nat) :=
  let af := loadAF f
  let zero := quotientDigit af sf
  let r := if zero then af - extendSF sf else af + extendSF sf
  let af1 := r <<< 1
  match divideLoop sf divisionPasses (if zero then 0 else BitVec.allOnes 36) af1 (quotientDigit af1 sf) 0 with
  | none => none
  | some (bf, af', k) => some (bf.signExtend 37 ++ (if quotientDigit af' sf then 2#2 else 0#2), k)

/-- FD (R221). The zero tests look at the first word of each operand. -/
def execFd (w : Reg) (a : AddressPart) (s : State) : Out :=
  cycle a s fun addr t =>
    let t := t.clearEx
    testAddress t addr <|
      let d := t.pair w
      let m := t.doubleRead addr
      let t := t.steal
      let divisorZero := m.extractLsb' 24 24 == 0
      if d.extractLsb' 24 24 == 0 && !divisorZero then
        .next (t.setReg w (((t.reg w).extractLsb' 12 12 : Byte) ++ 0x800#12))
      else if divisorZero then .next t.floatingOverflow
      else
        match divideFractions (fractionOf d) (loadSF (fractionOf m)) with
        | none => .fault .endlessDivision
        | some (af, k) =>
          .next (t.finishFloating w af (BitVec.ofInt 13 ((exponentOf d).toInt - (exponentOf m).toInt + 36 - k)))

end Sys2Proof.Machine
end

