-- ==== Sys2Proof/Machine/Environment.lean ====
section
/-! DEFINITION. The environment (10_state.md R20): devices (47_input_output.md R322), external signals
(60_exceptions.md R363), the high-speed channel (20_memory.md R78), the operator and the power supply
(70_reset_and_hazards.md). What the environment does, and when, is the script in `State.schedule`; these definitions
say what each of its actions may change. -/

namespace Sys2Proof.Machine

/-! ## Devices -/

/-- The bits of the buffer that exist; the interval timer counts in bits 10 to 23 (R345). -/
def Device.mask (d : Device) : Word :=
  match d.kind with
  | .intervalTimer => 0x003FFF
  | _ => d.used

/-- The word a sense reads: unused bits are zero (R36). -/
def Device.sensed (d : Device) : Word := d.buffer &&& d.mask

/-- The condition the processor finds; the interval timer is always available (92_eei_decisions.md D15). -/
def Device.state (d : Device) : Condition :=
  match d.kind with
  | .intervalTimer => .available
  | _ => d.condition

/-- What an accepted read, write or control command does: the data word, if one is sent, replaces the buffer, and the
device is busy (R323, R324). A control command to a device on the high-speed channel starts a block transfer (R340). The
interval timer accepts the command and ignores it (D15). -/
def Device.accept (d : Device) (basic : BitVec 2) (data : Option Word) : Device :=
  match d.kind with
  | .intervalTimer => d
  | .highSpeed => { d with buffer := data.getD d.buffer, condition := .busy, transferring := basic == 1 }
  | _ => { d with buffer := data.getD d.buffer, condition := .busy }

/-- The condition of device number `n`; where there is no device it is disconnected (R322). -/
def State.condition (s : State) (n : Nat) : Condition :=
  match s.device? n with
  | some d => d.state
  | none => .disconnected

/-- Change the device with a number; nothing where there is none. -/
def changeDevice (f : Device → Device) (n : Nat) : List (Nat × Device) → List (Nat × Device)
  | [] => []
  | (k, d) :: l => if n = k then (k, f d) :: l else (k, d) :: changeDevice f n l

/-- Change the device with a number. -/
def State.changeDevice (s : State) (n : Nat) (f : Device → Device) : State :=
  { s with devices := Machine.changeDevice f n s.devices }

/-- `DeviceCommand(n, command, data)` (R324): the device takes the command, and the trace records it. A sense leaves the
device available (R323). -/
def State.deviceCommand (s : State) (n : Nat) (command : BitVec 6) (data : Option Word) : State :=
  let s1 := { s with commands := s.commands ++ [⟨n, command, data⟩] }
  let basic : BitVec 2 := command.extractLsb' 0 2
  if basic = 0 then s1 else s1.changeDevice n fun d => d.accept basic data

/-! ## Events -/

/-- The interrupt bits wired to a signal source: EXT_LINES, of which only bits 3 to 23 count (00_scope.md R8). -/
def linesOf (lines : List ExternalLine) (source : SignalSource) : Word :=
  lines.foldr (fun l m => if l.source = source ∧ 3 ≤ l.bit ∧ l.bit ≤ 23 then bitMask l.bit ||| m else m) 0

/-- A busy device completes (R322 (a)), and with it its block transfer (R340). -/
def Device.complete (d : Device) (data : Option Word) : Device :=
  if d.condition = .busy then { d with condition := .available, buffer := data.getD d.buffer, transferring := false }
  else d

/-- A device is switched off or removed (R322 (b)). A block transfer may go on until the device is available again
(R340). -/
def Device.disconnect (d : Device) : Device := { d with condition := .disconnected }

/-- A disconnected device becomes available (R322 (b)), which ends its block transfer (R340). -/
def Device.connect (d : Device) : Device :=
  if d.condition = .disconnected then { d with condition := .available, transferring := false } else d

/-- The interval timer counts modulo 2**14 (R345). -/
def Device.advance (d : Device) (counts : Nat) : Device :=
  if d.kind = .intervalTimer then { d with buffer := (d.buffer + BitVec.ofNat 24 counts) &&& 0x003FFF } else d

/-- Signals set bits of an external interrupt register (R347). -/
def Device.setBits (d : Device) (bits : Word) : Device :=
  if d.kind = .interruptRegister then { d with buffer := d.buffer ||| bits } else d

/-- The device after a power on: with the buffer and condition given, if any (R45); a block transfer is over once the
device is available again (R340). -/
def Device.powerOn (d : Device) : Option DeviceValues → Device
  | none => d
  | some v => { d with
      buffer := v.buffer, condition := v.condition
      transferring := d.transferring && v.condition != .available }

/-- The devices after a power on: the population is the installation's (00_scope.md R7) and stays. -/
def powerOnDevices (values : List (Nat × DeviceValues)) (l : List (Nat × Device)) : List (Nat × Device) :=
  l.map fun x => (x.1, x.2.powerOn (values.lookup x.1))

/-- Power On after a power failure (R401, R45): the registers hold the values given, but PR(0) and IM(0) are 1 (R29,
R32) and IC(23) is 0 (R25). The store and all protection keys, those of the working registers included, are as before
(92_eei_decisions.md D8). R45 leaves the devices' buffers and conditions to the devices: those of the devices present
are the values given too (notes/assumptions/8.md). -/
def State.powerOn (s : State) (v : PowerOnValues) : State :=
  State.powerOnState { s with
    regs := v.regs, ic := evenAddress v.ic, ex := v.ex, pr := v.pr ||| 0x80, ir := v.ir, im := v.im ||| bitMask 0
    devices := powerOnDevices v.devices s.devices }

/-- One action of the environment. -/
def State.event (s : State) : EnvEvent → State
  | .signal source => { s with ir := s.ir ||| linesOf s.inst.externalLines source }
  | .complete n data => s.changeDevice n fun d => d.complete data
  | .disconnect n => s.changeDevice n Device.disconnect
  | .connect n => s.changeDevice n Device.connect
  | .timerAdvance n counts => s.changeDevice n fun d => d.advance counts
  | .externalBits n bits => s.changeDevice n fun d => d.setBits bits
  | .pressReset => { s with resetKey := true }
  | .pressStart => { s with startKey := true }
  | .pressAutoload => { s with autoloadKey := true }
  | .transfer x => s.transfer x
  | .powerFail => if s.run = .powerOff then s else { s with powerFailing := true }
  | .powerOn values => if s.run = .powerOff then s.powerOn values else s

/-- The actions of the environment between two steps, in order. -/
def State.events (s : State) (es : List EnvEvent) : State := es.foldl State.event s

/-- Take the environment's actions for this step from the script. -/
def State.takeEvents (s : State) : State :=
  match s.schedule with
  | [] => s
  | es :: rest => State.events { s with schedule := rest } es

/-- Power failure at the end of an instruction (R408): the reset action, and then the power is gone. From then on
nothing changes the store, the keys or the control state but `powerOn`. -/
def State.powerDown (s : State) : State :=
  { s.resetSystem with run := .powerOff, powerFailing := false }

end Sys2Proof.Machine
end

