-- ==== Sys2Proof/Machine/InputOutput.lean ====
section
/-! DEFINITION. Input/Output and Autoload Word (47_input_output.md R324, R330), and the reset state, which ends with
the start or the autoload key (70_reset_and_hazards.md R402). -/

namespace Sys2Proof.Machine

/-! ## Input/Output -/

/-- The effect of an accepted command `A` on an available device `d` (R324): sense moves the buffer to the register,
control and write move the register to the buffer, read moves nothing. -/
def State.acceptedIo (t : State) (w : Reg) (addr : Word) (n : Nat) (d : Device) : State :=
  let c := basicCommand addr
  if c = 0 then (t.deviceCommand n (commandField addr) none).setReg w d.sensed
  else t.deviceCommand n (commandField addr) (if c = 2 then none else some (t.reg w))

/-- IO (R324). -/
def execIo (w : Reg) (a : AddressPart) (s : State) : Out :=
  cycle a s fun addr t =>
    testMode t <|
      let n := t.selectedDevice addr
      match t.device? n with
      | none => .next (t.setEx true false)
      | some d =>
        match d.state with
        | .disconnected => .next (t.setEx true false)
        | .busy => .next (t.setEx false true)
        | .available => .next (t.clearEx.acceptedIo w addr n d)

/-! ## Autoload Word -/

/-- What one look at device 0 leads to: the AW is over (stored, trapped or reset), or it goes on. -/
inductive AutoloadResult where
  | over (s : State)
  | goesOn (p : Autoload) (s : State)
  deriving DecidableEq, Repr

/-- The end of AW: the address test, then the word and its key (R330), two accesses between which the channel may write
(20_memory.md R74). -/
def State.finishAutoload (s : State) (target acc : Word) : State :=
  let t := { s with run := .running }
  if t.missing target then t.raise else (t.steal.wordWrite target acc).steal.keyWrite target 0

/-- The word that sensing device `n` delivers. -/
def State.sensedWord (s : State) (n : Nat) : Word :=
  match s.device? n with
  | some d => d.sensed
  | none => 0

/-- One pass through StartInput or WaitInput of R330. -/
def State.autoloadLook (s : State) (p : Autoload) : AutoloadResult :=
  match s.condition 0 with
  | .disconnected => .over s.resetSystem
  | .busy => .goesOn p s
  | .available =>
    if p.reading then
      let t := s.clearEx
      let c := s.sensedWord 0
      if c.getMsbD 0 then .goesOn { p with reading := false } t
      else if c.extractLsb' 12 12 ≠ (0 : Byte) then .over t.resetSystem
      else
        let acc := (p.acc <<< 6) ||| c
        if p.remaining ≤ 1 then .over (t.finishAutoload p.target acc)
        else .goesOn { p with acc := acc, remaining := p.remaining - 1, reading := false } t
    else .goesOn { p with reading := true } (s.deviceCommand 0 2 none).clearEx

/-- Autoload Word, from one look at device 0 on. The environment acts between two looks, so the wait takes its actions
from the script; when the script is used up the wait goes on in the next step (notes/assumptions/7.md). While it waits
the control state is `autoloading`. -/
def runAutoload : List (List EnvEvent) → Autoload → State → State
  | [], p, s =>
    match s.autoloadLook p with
    | .over t => { t with schedule := [] }
    | .goesOn q t => { t with run := .autoloading q, schedule := [] }
  | es :: rest, p, s =>
    match s.autoloadLook p with
    | .over t => { t with schedule := es :: rest }
    | .goesOn q t => runAutoload rest q (State.events { t with run := .autoloading q, schedule := rest } es)

/-- Autoload Word entered at its first statement with effective address `addr` (R330, R331). -/
def State.autoload (t : State) (addr : Word) : State :=
  let p : Autoload := ⟨addr, 0, 4, false⟩
  runAutoload t.schedule p { t with run := .autoloading p }

/-- AW (R330); the W field is ignored. -/
def execAw (a : AddressPart) (s : State) : Out :=
  cycle a s fun addr t => testMode t (.next (t.autoload addr))

/-! ## The reset state (70_reset_and_hazards.md R402, R404, R406) -/

/-- What After Reset does: nothing, the autoload action, or the start action, which goes on to a fetch. -/
inductive AfterReset where
  | stays (s : State)
  | fetches (s : State)
  deriving DecidableEq, Repr

/-- After Reset (R402): the autoload key is tested before the start key. A power failure here only turns the power off:
no instruction ends and IC is not stored. That it is acted on before either key, if both are found at one look, is the
model's choice (notes/assumptions/8.md). -/
def State.afterReset (s : State) : AfterReset :=
  if s.powerFailing then .stays { s with run := .powerOff, powerFailing := false }
  else if s.autoloadKey then
    let t := { s with run := .running, ic := 0 }
    .stays (if t.monitorMode then t.autoload 0 else t.raise)
  else if s.startKey then .fetches { s.steal with run := .running, ic := evenAddress (s.steal.wordRead 14) }
  else .stays s

end Sys2Proof.Machine
end

