-- ==== Sys2Proof/Machine/IntegerArithmetic.lean ====
section
/-! DEFINITION. The integer arithmetic instructions (42_integer_arithmetic.md). Those that report an overflow clear
EX(22:23) before the address test. -/

namespace Sys2Proof.Machine

/-- `W[w] <- W[w] + y` with the exception bits and the overflow request (R175). -/
def State.addToReg (s : State) (w : Reg) (y : Word) : State :=
  let r := intAdd (s.reg w) y false
  (s.setReg w (sum24 r.1)).testInteger r.1 r.2

/-- `W[w] <- W[w] - y`, likewise. -/
def State.subtractFromReg (s : State) (w : Reg) (y : Word) : State :=
  let r := intSub (s.reg w) y true
  (s.setReg w (sum24 r.1)).testInteger r.1 (s.reportedCarry y true r.2)

/-- BZ (R171). -/
def execBz (w : Reg) (a : AddressPart) (s : State) : Out :=
  cycle a s fun addr t => testAddress t addr (.next (t.setReg w ((t.byteRead addr).setWidth 24)))

/-- BL (R172). -/
def execBl (w : Reg) (a : AddressPart) (s : State) : Out :=
  cycle a s fun addr t => testAddress t addr (.next (t.setReg w ((t.byteRead addr).signExtend 24)))

/-- BA (R173). -/
def execBa (w : Reg) (a : AddressPart) (s : State) : Out :=
  cycle a s fun addr t =>
    let t := t.clearEx
    testAddress t addr (.next (t.addToReg w ((t.byteRead addr).signExtend 24)))

/-- BS (R174). -/
def execBs (w : Reg) (a : AddressPart) (s : State) : Out :=
  cycle a s fun addr t =>
    let t := t.clearEx
    testAddress t addr (.next (t.subtractFromReg w ((t.byteRead addr).signExtend 24)))

/-- WA (R176). -/
def execWa (w : Reg) (a : AddressPart) (s : State) : Out :=
  cycle a s fun addr t =>
    let t := t.clearEx
    testAddress t addr (.next (t.addToReg w (t.wordRead addr)))

/-- WS (R177). -/
def execWs (w : Reg) (a : AddressPart) (s : State) : Out :=
  cycle a s fun addr t =>
    let t := t.clearEx
    testAddress t addr (.next (t.subtractFromReg w (t.wordRead addr)))

/-- WM (R180): the exact 48-bit product; EX is unchanged. -/
def execWm (w : Reg) (a : AddressPart) (s : State) : Out :=
  cycle a s fun addr t =>
    testAddress t addr (.next (t.setPair w (BitVec.ofInt 48 ((t.reg w).toInt * (t.wordRead addr).toInt))))

/-- The quotient, rounded toward zero, and the remainder of R183; `none` when R183 reports an overflow. -/
def divideInteger (minOverflows : Bool) (n d : Int) : Option (Int × Int) :=
  if d = 0 then none
  else
    let q := n.tdiv d
    if 2 ^ 23 - 1 < q ∨ q < -2 ^ 23 ∨ (q = -2 ^ 23 ∧ minOverflows) then none else some (q, n - q * d)

/-- WD (R183, written from the prose: 90_conflicts.md C4). -/
def execWd (w : Reg) (a : AddressPart) (s : State) : Out :=
  cycle a s fun addr t =>
    let t := t.clearEx
    testAddress t addr <|
      match divideInteger t.inst.wdMinQuotientOverflows (t.pair w).toInt (t.wordRead addr).toInt with
      | none => .next t.integerOverflow
      | some (q, r) => .next ((t.setReg (preceding w) (BitVec.ofInt 24 r)).setReg w (BitVec.ofInt 24 q))

/-- AA (R186): the right-hand words first; the left-hand storage word is read after `W[w]` is written. -/
def execAa (w : Reg) (a : AddressPart) (s : State) : Out :=
  cycle a s fun addr t =>
    let t := t.clearEx
    testAddress t addr <|
      let r0 := intAdd (t.reg w) (t.wordRead addr) false
      let t1 := (t.setReg w (sum24 r0.1)).steal
      let r1 := intAdd (t1.reg (preceding w)) (t1.wordRead (firstWordAddress addr)) r0.2
      .next ((t1.setReg (preceding w) (sum24 r1.1)).testInteger r1.1 r1.2)

/-- SS (R187): as AA; the carry between the words is always that of the one pass (92_eei_decisions.md D23). -/
def execSs (w : Reg) (a : AddressPart) (s : State) : Out :=
  cycle a s fun addr t =>
    let t := t.clearEx
    testAddress t addr <|
      let r0 := intSub (t.reg w) (t.wordRead addr) true
      let t1 := (t.setReg w (sum24 r0.1)).steal
      let y := t1.wordRead (firstWordAddress addr)
      let r1 := intSub (t1.reg (preceding w)) y r0.2
      .next ((t1.setReg (preceding w) (sum24 r1.1)).testInteger r1.1 (t1.reportedCarry y r0.2 r1.2))

end Sys2Proof.Machine
end

