-- ==== Sys2Proof/Machine/LogicalShift.lean ====
section
/-! DEFINITION. The logical operations, the shifts and the normalizations (44_logical_and_shift.md). -/

namespace Sys2Proof.Machine

/-! ## Logical operations (R241 to R243) -/

/-- LA (R241). -/
def execLa (w : Reg) (a : AddressPart) (s : State) : Out :=
  cycle a s fun addr t => testAddress t addr (.next (t.setReg w (t.reg w &&& t.wordRead addr)))

/-- LO (R242). -/
def execLo (w : Reg) (a : AddressPart) (s : State) : Out :=
  cycle a s fun addr t => testAddress t addr (.next (t.setReg w (t.reg w ||| t.wordRead addr)))

/-- LX (R243). -/
def execLx (w : Reg) (a : AddressPart) (s : State) : Out :=
  cycle a s fun addr t => testAddress t addr (.next (t.setReg w (t.reg w ^^^ t.wordRead addr)))

/-! ## Shifts (R246 to R249) -/

/-- The number of places: A as a signed number, 48 in magnitude if it is 64 or more (90_conflicts.md C6). -/
def shiftCount (a : Word) : Int :=
  if 64 ≤ a.toInt then 48 else if a.toInt ≤ -64 then -48 else a.toInt

/-- `k` single left shifts; the flag is set if one of them loses a significant digit. -/
def shiftLeftTested {n : Nat} : Nat → BitVec n → Bool → BitVec n × Bool
  | 0, v, lost => (v, lost)
  | k + 1, v, lost => shiftLeftTested k (v <<< 1) (lost || v.getMsbD 0 != v.getMsbD 1)

/-- An arithmetic shift by a signed count: the result, and whether a significant digit was lost. -/
def arithmeticShift {n : Nat} (count : Int) (v : BitVec n) : BitVec n × Bool :=
  if count < 0 then (v.sshiftRight (-count).toNat, false) else shiftLeftTested count.toNat v false

/-- A logical shift by a signed count. -/
def logicalShift {n : Nat} (count : Int) (v : BitVec n) : BitVec n :=
  if count < 0 then v >>> (-count).toNat else v <<< count.toNat

/-- Report an integer overflow if a digit was lost. -/
def State.testLost (s : State) (lost : Bool) : State := if lost then s.integerOverflow else s

/-- AS (R246). -/
def execAs (w : Reg) (a : AddressPart) (s : State) : Out :=
  cycle a s fun addr t =>
    let r := arithmeticShift (shiftCount addr) (t.reg w)
    .next ((t.clearEx.testLost r.2).setReg w r.1)

/-- AD (R247). -/
def execAd (w : Reg) (a : AddressPart) (s : State) : Out :=
  cycle a s fun addr t =>
    let r := arithmeticShift (shiftCount addr) (t.pair w)
    .next ((t.clearEx.testLost r.2).setPair w r.1)

/-- LS (R248). -/
def execLs (w : Reg) (a : AddressPart) (s : State) : Out :=
  cycle a s fun addr t => .next (t.setReg w (logicalShift (shiftCount addr) (t.reg w)))

/-- LD (R249). -/
def execLd (w : Reg) (a : AddressPart) (s : State) : Out :=
  cycle a s fun addr t => .next (t.setPair w (logicalShift (shiftCount addr) (t.pair w)))

/-! ## Normalization (R252, R253) -/

/-- Shift left until bits 0 and 1 differ, counting the shifts (90_conflicts.md C2); at most `n - 1` shifts normalize a
nonzero value. -/
def normalizeShifts {n : Nat} : Nat → BitVec n → Nat → BitVec n × Nat
  | 0, v, c => (v, c)
  | k + 1, v, c => if v.getMsbD 0 = v.getMsbD 1 then normalizeShifts k (v <<< 1) (c + 1) else (v, c)

/-- The normalized value and the byte that records the shifts: their number as a negative integer, -2048 for zero. -/
def normalize {n : Nat} (v : BitVec n) : BitVec n × Byte :=
  if v = 0 then (v, BitVec.ofInt 12 (-2048))
  else
    let r := normalizeShifts n v 0
    (r.1, BitVec.ofInt 12 (-r.2))

/-- NS (R252): the register is normalized before the address is tested. -/
def execNs (w : Reg) (a : AddressPart) (s : State) : Out :=
  cycle a s fun addr t =>
    let r := normalize (t.reg w)
    let t1 := t.setReg w r.1
    testAddress t1 addr (testProtection t1 addr (.next (t1.byteWrite addr r.2)))

/-- ND (R253). -/
def execNd (w : Reg) (a : AddressPart) (s : State) : Out :=
  cycle a s fun addr t =>
    let r := normalize (t.pair w)
    let t1 := t.setPair w r.1
    testAddress t1 addr (testProtection t1 addr (.next (t1.byteWrite addr r.2)))

end Sys2Proof.Machine
end

