-- ==== Sys2Proof/Machine/Sequencing.lean ====
section
/-! DEFINITION. The sequencing instructions (45_sequencing.md). When the operation starts, IC names the instruction
after this one. -/

namespace Sys2Proof.Machine

/-- A jump to `addr`, with a link in `W[w]` unless the W field is 0 (R270). -/
def State.jump (s : State) (w : Reg) (addr : Word) : State :=
  let s1 := if w = .w0 then s else s.setReg w s.ic
  { s1 with ic := evenAddress addr }

/-- Skip the following instruction if `c` (R268). -/
def State.skipIf (s : State) (c : Bool) : State := if c then { s with ic := s.ic + 2 } else s

/-- JL (R270). -/
def execJl (w : Reg) (a : AddressPart) (s : State) : Out :=
  cycle a s fun addr t => testAddress t addr (testProtection t addr (.next (t.jump w addr)))

/-- SH (R272). -/
def execSh (w : Reg) (a : AddressPart) (s : State) : Out :=
  cycle a s fun addr t => .next (t.skipIf (addr.slt (t.reg w)))

/-- SL (R273). -/
def execSl (w : Reg) (a : AddressPart) (s : State) : Out :=
  cycle a s fun addr t => .next (t.skipIf ((t.reg w).slt addr))

/-- SE (R274). -/
def execSe (w : Reg) (a : AddressPart) (s : State) : Out :=
  cycle a s fun addr t => .next (t.skipIf (t.reg w == addr))

/-- SN (R275). -/
def execSn (w : Reg) (a : AddressPart) (s : State) : Out :=
  cycle a s fun addr t => .next (t.skipIf (t.reg w != addr))

/-- SO (R276). -/
def execSo (w : Reg) (a : AddressPart) (s : State) : Out :=
  cycle a s fun addr t => .next (t.skipIf (addr &&& ~~~t.reg w == 0))

/-- SZ (R277). -/
def execSz (w : Reg) (a : AddressPart) (s : State) : Out :=
  cycle a s fun addr t => .next (t.skipIf (addr &&& t.reg w == 0))

/-- SX (R278); the W field is ignored. -/
def execSx (a : AddressPart) (s : State) : Out :=
  cycle a s fun addr t => .next (t.skipIf (addr &&& t.ex.setWidth 24 == 0))

/-- SP (R279): the test does not depend on the mode; the W field is ignored. -/
def execSp (a : AddressPart) (s : State) : Out :=
  cycle a s fun addr t => testAddress t addr (.next (t.skipIf (!t.isProtected addr)))

end Sys2Proof.Machine
end

