-- ==== Sys2Proof/Machine/MonitorControl.lean ====
section
/-! DEFINITION. The monitor control instructions but IO and AW (46_monitor_control.md). JE, JD, IC, ML, PL and KS are
privileged (R290). -/

namespace Sys2Proof.Machine

/-- JE (R291). -/
def execJe (w : Reg) (a : AddressPart) (s : State) : Out :=
  cycle a s fun addr t =>
    testMode t (testAddress t addr (.next (State.jump { t with interruptDisabled := false } w addr)))

/-- JD (R292). -/
def execJd (w : Reg) (a : AddressPart) (s : State) : Out :=
  cycle a s fun addr t =>
    testMode t (testAddress t addr (.next (State.jump { t with interruptDisabled := true } w addr)))

/-- IC, Clear Interrupt Bits (R294); the W field is ignored. -/
def execIc (a : AddressPart) (s : State) : Out :=
  cycle a s fun addr t => testMode t (.next { t with ir := t.ir &&& ~~~addr })

/-- IS (R295); the W field is ignored. -/
def execIs (a : AddressPart) (s : State) : Out :=
  cycle a s fun addr t => testAddress t addr (testProtection t addr (.next (t.wordWrite addr t.ir)))

/-- ML (R296): IM(0) stays 1; the W field is ignored. -/
def execMl (a : AddressPart) (s : State) : Out :=
  cycle a s fun addr t =>
    testMode t (testAddress t addr (.next { t with im := t.wordRead addr ||| bitMask 0 }))

/-- MS (R297); the W field is ignored. -/
def execMs (a : AddressPart) (s : State) : Out :=
  cycle a s fun addr t => testAddress t addr (testProtection t addr (.next (t.wordWrite addr t.im)))

/-- XL (R300): the one instruction that changes EX(21); the W field is ignored. -/
def execXl (a : AddressPart) (s : State) : Out :=
  cycle a s fun addr t => testAddress t addr (.next { t with ex := (t.byteRead addr).extractLsb' 0 3 })

/-- XS (R301); the W field is ignored. -/
def execXs (a : AddressPart) (s : State) : Out :=
  cycle a s fun addr t =>
    testAddress t addr (testProtection t addr (.next (t.byteWrite addr (t.ex.setWidth 12))))

/-- PL (R304): PR(0) stays 1; the W field is ignored. -/
def execPl (a : AddressPart) (s : State) : Out :=
  cycle a s fun addr t =>
    testMode t (testAddress t addr (.next { t with pr := (t.byteRead addr).extractLsb' 0 8 ||| 0x80 }))

/-- PS (R305); the W field is ignored. -/
def execPs (a : AddressPart) (s : State) : Out :=
  cycle a s fun addr t =>
    testAddress t addr (testProtection t addr (.next (t.byteWrite addr (t.pr.setWidth 12))))

/-- KL (R308). -/
def execKl (w : Reg) (a : AddressPart) (s : State) : Out :=
  cycle a s fun addr t => testAddress t addr (.next (t.setReg w ((t.keyRead addr).setWidth 24)))

/-- KS (R309). -/
def execKs (w : Reg) (a : AddressPart) (s : State) : Out :=
  cycle a s fun addr t =>
    testMode t (testAddress t addr (.next (t.keyWrite addr ((t.reg w).extractLsb' 0 3))))

end Sys2Proof.Machine
end

