-- ==== Sys2Proof/Machine/RegisterTransfer.lean ====
section
/-! DEFINITION. The register transfer instructions (41_register_transfer.md). The order of the accesses is the
spec's: a storage address below 8 names a working register (R150), and the high-speed channel may write the store
between two accesses (20_memory.md R74). -/

namespace Sys2Proof.Machine

/-- HL (R151). -/
def execHl (w : Reg) (a : AddressPart) (s : State) : Out :=
  cycle a s fun addr t =>
    testAddress t addr (.next (t.setReg w (((t.reg w).extractLsb' 12 12 : Byte) ++ t.byteRead addr)))

/-- HS (R152). -/
def execHs (w : Reg) (a : AddressPart) (s : State) : Out :=
  cycle a s fun addr t =>
    testAddress t addr (testProtection t addr (.next (t.byteWrite addr ((t.reg w).extractLsb' 0 12))))

/-- RL (R153). -/
def execRl (w : Reg) (a : AddressPart) (s : State) : Out :=
  cycle a s fun addr t => testAddress t addr (.next (t.setReg w (t.wordRead addr)))

/-- RS (R154). -/
def execRs (w : Reg) (a : AddressPart) (s : State) : Out :=
  cycle a s fun addr t =>
    testAddress t addr (testProtection t addr (.next (t.wordWrite addr (t.reg w))))

/-- RX (R158): the register is loaded before the protection test; against the channel it is not indivisible
(20_memory.md R77). -/
def execRx (w : Reg) (a : AddressPart) (s : State) : Out :=
  cycle a s fun addr t =>
    testAddress t addr <|
      let t1 := t.setReg w (t.wordRead addr)
      testProtection t1 addr (.next (t1.steal.wordWrite addr (t.reg w)))

/-- DL (R160): the second word is loaded first, and the first word is read after that. -/
def execDl (w : Reg) (a : AddressPart) (s : State) : Out :=
  cycle a s fun addr t =>
    testAddress t addr <|
      let t1 := (t.setReg w (t.wordRead addr)).steal
      .next (t1.setReg (preceding w) (t1.wordRead (firstWordAddress addr)))

/-- DS (R162): the second word is stored before the first word's protection is tested. -/
def execDs (w : Reg) (a : AddressPart) (s : State) : Out :=
  cycle a s fun addr t =>
    testAddress t addr <| testProtection t addr <|
      let t1 := t.wordWrite addr (t.reg w)
      testProtection t1 (firstWordAddress addr)
        (.next (t1.steal.wordWrite (firstWordAddress addr) (t1.reg (preceding w))))

end Sys2Proof.Machine
end

