-- ==== Sys2Proof/Machine/Dispatch.lean ====
section
/-! DEFINITION. The dispatch on the operation code (40_cycle_and_address_handling.md R126): one arm per instruction. -/

namespace Sys2Proof.Machine

def exec (i : Instr) (s : State) : Host.Outcome State Fault Refusal :=
  match i with
  | .aw _ a => Sys2Proof.Machine.execAw a s
  | .io w a => Sys2Proof.Machine.execIo w a s
  | .bl w a => Sys2Proof.Machine.execBl w a s
  | .hl w a => Sys2Proof.Machine.execHl w a s
  | .la w a => Sys2Proof.Machine.execLa w a s
  | .lo w a => Sys2Proof.Machine.execLo w a s
  | .lx w a => Sys2Proof.Machine.execLx w a s
  | .wa w a => Sys2Proof.Machine.execWa w a s
  | .ws w a => Sys2Proof.Machine.execWs w a s
  | .am _ a => Sys2Proof.Machine.execAm a s
  | .wm w a => Sys2Proof.Machine.execWm w a s
  | .al w a => Sys2Proof.Machine.execAl w a s
  | .ml _ a => Sys2Proof.Machine.execMl a s
  | .jl w a => Sys2Proof.Machine.execJl w a s
  | .jd w a => Sys2Proof.Machine.execJd w a s
  | .je w a => Sys2Proof.Machine.execJe w a s
  | .xl _ a => Sys2Proof.Machine.execXl a s
  | .bs w a => Sys2Proof.Machine.execBs w a s
  | .ba w a => Sys2Proof.Machine.execBa w a s
  | .bz w a => Sys2Proof.Machine.execBz w a s
  | .rl w a => Sys2Proof.Machine.execRl w a s
  | .sp _ a => Sys2Proof.Machine.execSp a s
  | .kl w a => Sys2Proof.Machine.execKl w a s
  | .rs w a => Sys2Proof.Machine.execRs w a s
  | .wd w a => Sys2Proof.Machine.execWd w a s
  | .rx w a => Sys2Proof.Machine.execRx w a s
  | .hs w a => Sys2Proof.Machine.execHs w a s
  | .xs _ a => Sys2Proof.Machine.execXs a s
  | .pl _ a => Sys2Proof.Machine.execPl a s
  | .ps _ a => Sys2Proof.Machine.execPs a s
  | .ms _ a => Sys2Proof.Machine.execMs a s
  | .is _ a => Sys2Proof.Machine.execIs a s
  | .ci w a => Sys2Proof.Machine.execCi w a s
  | .ac w a => Sys2Proof.Machine.execAc w a s
  | .ns w a => Sys2Proof.Machine.execNs w a s
  | .nd w a => Sys2Proof.Machine.execNd w a s
  | .as w a => Sys2Proof.Machine.execAs w a s
  | .ad w a => Sys2Proof.Machine.execAd w a s
  | .ls w a => Sys2Proof.Machine.execLs w a s
  | .ld w a => Sys2Proof.Machine.execLd w a s
  | .sh w a => Sys2Proof.Machine.execSh w a s
  | .sl w a => Sys2Proof.Machine.execSl w a s
  | .se w a => Sys2Proof.Machine.execSe w a s
  | .sn w a => Sys2Proof.Machine.execSn w a s
  | .so w a => Sys2Proof.Machine.execSo w a s
  | .sz w a => Sys2Proof.Machine.execSz w a s
  | .sx _ a => Sys2Proof.Machine.execSx a s
  | .ic _ a => Sys2Proof.Machine.execIc a s
  | .fa w a => Sys2Proof.Machine.execFa w a s
  | .fs w a => Sys2Proof.Machine.execFs w a s
  | .fm w a => Sys2Proof.Machine.execFm w a s
  | .ks w a => Sys2Proof.Machine.execKs w a s
  | .fd w a => Sys2Proof.Machine.execFd w a s
  | .cf w a => Sys2Proof.Machine.execCf w a s
  | .dl w a => Sys2Proof.Machine.execDl w a s
  | .ds w a => Sys2Proof.Machine.execDs w a s
  | .aa w a => Sys2Proof.Machine.execAa w a s
  | .ss w a => Sys2Proof.Machine.execSs w a s

end Sys2Proof.Machine
end

