-- ==== Sys2Proof/Machine/Cycle.lean ====
section
/-! DEFINITION. The instruction cycle (40_cycle_and_address_handling.md R120): fetch, decode and execution, and what
one step does in each control state (10_state.md R39). -/

namespace Sys2Proof.Machine

/-- Execute an instruction word: the instruction it decodes to, or, for an unassigned code, the decode and then an
instruction exception (R126, 30_encoding.md R98). -/
def executeWord (v : Word) (s : State) : Out :=
  match decode v with
  | some i => exec i s
  | none => cycle (addressPart v) s fun _ t => trap t

/-- Fetch Instruction and what follows it (R121). The channel may steal cycles before the instruction is read. -/
def fetchAndExecute (s : State) : Out :=
  let t := s.steal
  match t.fetch with
  | .nonexistent => trap t
  | .resetPressed => .next t.resetSystem
  | .powerFailed => .next t.powerDown
  | .word v => executeWord v t

/-- One step of the processor after the environment has acted. -/
def processorStep (s : State) : Out :=
  match s.run with
  | .running => fetchAndExecute s.poll
  | .resetState =>
    match s.afterReset with
    | .stays t => .next t
    | .fetches t => fetchAndExecute t
  | .autoloading p => .next (runAutoload s.schedule p s)
  | .powerOff => .next s

end Sys2Proof.Machine
end

