-- ==== Sys2Proof/Machine/Step.lean ====
section
/-! DEFINITION. One step of the machine: the environment acts, then the processor makes one pass of its cycle. -/

namespace Sys2Proof.Machine

/-- One step: the environment's actions for this step, then one pass of the processor (40_cycle_and_address_handling.md
R120): interrupt poll, fetch, decode, execution. An AM and the instruction it modifies are two steps, so the environment
may act between them (R131, notes/assumptions/6.md). -/
def step (s : State) : Host.Outcome State Fault Refusal :=
  processorStep s.takeEvents

/-- `s` with the instruction word `w` where the next step fetches, so that the next step runs exactly it: the machine is
running, nothing comes before the fetch (no event, stolen cycle, honoured request, reset key or power failure), and the
word at IC is the instruction. From the reset state this stands for the loading of a program and the start key
(notes/assumptions/9.md). -/
def State.withFetchWord (s : State) (nbits w : Nat) : State :=
  let t := s.wordWrite s.ic (BitVec.ofNat 24 (w % 2 ^ nbits))
  { t with
    run := .running, resetKey := false, powerFailing := false
    interruptDisabled := s.interruptDisabled || s.honoured.isSome
    schedule := match s.schedule with
      | [] => []
      | es => [] :: es
    steals := match s.steals with
      | [] => []
      | l => [] :: l }

end Sys2Proof.Machine
end

