-- ==== Sys2Proof/Safety.lean ====
section
/-! DEFINITION. What counts as a safe state, and the terms in which the statements speak: the invariant of the machine,
when an instruction reaches its operand, and what an instruction leaves unchanged. -/

namespace Sys2Proof

/-! ## Instructions by what they may do -/

/-- The instructions that execute in monitor mode only (46_monitor_control.md R290). -/
abbrev Instr.privileged : Instr → Prop
  | .je _ _ | .jd _ _ | .ic _ _ | .ml _ _ | .pl _ _ | .ks _ _ | .io _ _ | .aw _ _ => True
  | _ => False

/-- The instructions that write EX(22:23) (10_state.md R27). -/
abbrev Instr.writesEx : Instr → Prop
  | .ac _ _ | .ba _ _ | .bs _ _ | .wa _ _ | .ws _ _ | .wd _ _ | .aa _ _ | .ss _ _ | .ci _ _ | .cf _ _ | .fa _ _
  | .fs _ _ | .fm _ _ | .fd _ _ | .as _ _ | .ad _ _ | .io _ _ | .aw _ _ | .xl _ _ => True
  | _ => False

end Sys2Proof

namespace Sys2Proof.Machine

/-! ## The invariant -/

/-- An Autoload Word in progress still has one to four characters to read (47_input_output.md R330). -/
abbrev RunState.wf : RunState → Prop
  | .autoloading p => 1 ≤ p.remaining ∧ p.remaining ≤ 4
  | _ => True

/-- What every step keeps: the parameters are within the manual's bounds, IC(23) = 0 (10_state.md R25), PR(0) = 1
(R29), IM(0) = 1 (R32), and the store and the keys have their canonical form. -/
structure State.Inv (s : State) : Prop where
  installation : s.inst.wf
  evenIc : s.ic.getMsbD 23 = false
  protection0 : s.pr.getMsbD 0 = true
  mask0 : s.im.getMsbD 0 = true
  store : Memory.wf s.inst.wordLimit s.store
  keys : KeyPlane.wf s.inst.wordLimit s.keys
  autoload : s.run.wf

/-- The reset state, once entered, is in monitor mode with interrupts disabled (70_reset_and_hazards.md R401, R402). -/
abbrev State.resetModes (s : State) : Prop :=
  s.run = .resetState → s.monitorMode = true ∧ s.interruptDisabled = true

/-! ## The high-speed channel -/

/-- The channel's script names storage word `n` before none of the processor's next `k` accesses to the store
(20_memory.md R78). -/
def State.spares (s : State) (k n : Nat) : Prop := ∀ l ∈ s.steals.take k, ∀ x ∈ l, x.wordNumber ≠ n

/-! ## Reaching the operation -/

/-- The instruction at IC may be executed in the current mode, and `addr` is the effective address of its address part
(40_cycle_and_address_handling.md R122). The operation then starts in the state `s.entered a`: the decode is done, and
the channel may have written words of the store since the fetch. -/
abbrev State.reaches (s : State) (a : AddressPart) (addr : Word) : Prop :=
  s.forbids s.ic = false ∧ s.effectiveAddress a = some addr

/-- The instruction at IC lies in a protected word, so that it executes in monitor mode (R122, R129). -/
abbrev State.privilegedAt (s : State) : Prop := s.isProtected s.ic = true

/-- Task mode forbids a store to the word containing `addr`: the instruction at IC lies in an unprotected word, the
word containing `addr` in a protected one (R122, R128). -/
abbrev State.storeForbidden (s : State) (addr : Word) : Prop :=
  s.isProtected s.ic = false ∧ s.isProtected addr = true

/-! ## Floating-point numbers (43_floating_point.md) -/

/-- The two leftmost bits of a normalized fraction differ (R201). -/
abbrev normalizedFraction (f : BitVec 36) : Prop := f.getMsbD 0 ≠ f.getMsbD 1

/-- The double word that a floating-point instruction stores for AF and SC (R207). -/
abbrev floatingResult (low : Bool) (p : BitVec 39 × BitVec 13) : DoubleWord :=
  let f : BitVec 36 := p.1.extractLsb' 2 36
  (if low then lowPrecisionFraction f else f) ++ (p.2.extractLsb' 0 12 : Byte)

/-! ## Frames -/

/-- The two byte addresses of the word containing `addr` (20_memory.md R61). -/
abbrev wordBytes (addr : Word) : List Word := [evenAddress addr, evenAddress addr + 1]

/-- The four byte addresses of the double word whose second word is at `addr` (R64). -/
abbrev doubleBytes (addr : Word) : List Word := wordBytes (firstWordAddress addr) ++ wordBytes addr

/-- Every register outside `regs`, and every byte of storage outside `stored`, reads as before. A working register is
also a storage word (R24): a register one of whose bytes is stored may change, and so may the bytes of a register in
`regs`. -/
def SameStorage (s t : State) (regs : List Reg) (stored : List Word) : Prop :=
  (∀ r, r ∉ regs → (∀ b ∈ stored, wordNumber b ≠ registerNumber r) → t.reg r = s.reg r) ∧
  ∀ b : Word, b ∉ stored → (∀ r ∈ regs, wordNumber b ≠ registerNumber r) → t.byteRead b = s.byteRead b

/-- As `SameStorage`, where the channel may steal cycles before `k` accesses: outside the words it names. -/
def SameStorageSparing (k : Nat) (s t : State) (regs : List Reg) (stored : List Word) : Prop :=
  (∀ r, r ∉ regs → (∀ b ∈ stored, wordNumber b ≠ registerNumber r) → t.reg r = s.reg r) ∧
  ∀ b : Word, b ∉ stored → s.spares k (wordNumber b) → (∀ r ∈ regs, wordNumber b ≠ registerNumber r) →
    t.byteRead b = s.byteRead b

/-- The protection register, the mask register, the interrupt disabling and the protection keys are as before. -/
def SameControl (s t : State) : Prop :=
  t.pr = s.pr ∧ t.im = s.im ∧ t.interruptDisabled = s.interruptDisabled ∧ t.keys = s.keys

/-- The devices and the trace of commands are as before. -/
def SameDevices (s t : State) : Prop :=
  t.devices = s.devices ∧ t.commands = s.commands

/-- The device population: at which numbers there is a device, and what each device is (00_scope.md R7). -/
def State.population (s : State) : List (Nat × DeviceKind × Word) := s.devices.map fun x => (x.1, x.2.kind, x.2.used)

/-- `t` is `s` with the device of number `n`, if there is one, changed by `f`. -/
def ChangesDevice (s t : State) (n : Nat) (f : Device → Device) : Prop :=
  { t with devices := s.devices } = s ∧ t.device? n = (s.device? n).map f ∧ ∀ k, k ≠ n → t.device? k = s.device? k

/-- The parts of the state that an instruction does not touch: the operator's keys, the power, the parameters, the
script of the environment between steps, and the control state. -/
def SameConsole (s t : State) : Prop :=
  t.run = s.run ∧ t.resetKey = s.resetKey ∧ t.startKey = s.startKey ∧ t.autoloadKey = s.autoloadKey ∧
  t.powerFailing = s.powerFailing ∧ t.inst = s.inst ∧ t.schedule = s.schedule

/-- What the decode leaves (40_cycle_and_address_handling.md R122): no modifier is carried any more, and the mode
follows from the key of the instruction's word. -/
def DecodeDone (s t : State) : Prop :=
  t.amPending = none ∧ t.monitorMode = s.isProtected s.ic

/-- An instruction, executed in `s`, that changes no more than `regs` and `stored`, IC, EX and IR. Its last access to the
store follows `u`, which differs from `s` by the decode and by what the channel wrote in the meantime: the storage is
compared with `u`, everything else with `s`. -/
def Frame (s u t : State) (regs : List Reg) (stored : List Word) : Prop :=
  SameStorage u t regs stored ∧ SameControl s t ∧ SameDevices s t ∧ SameConsole s t ∧ DecodeDone s t ∧
  t.steals = u.steals

/-- EX and IR are as before. -/
def Quiet (s t : State) : Prop := t.ex = s.ex ∧ t.ir = s.ir

/-- EX(21) is as before, EX(22) and EX(23) are the two bits, and the interrupt bit `request` is set if EX(22) is
(10_state.md R26; 60_exceptions.md R368, R369). -/
def Reports (s t : State) (request : Nat) (overflow carry : Bool) : Prop :=
  t.ex = BitVec.ofBool (s.ex.getMsbD 0) ++ BitVec.ofBool overflow ++ BitVec.ofBool carry ∧
  t.ir = if overflow then s.ir ||| bitMask request else s.ir

/-- IC is the address of the instruction after this one, or of the one after that if `skip`. -/
def Continues (s t : State) (skip : Bool) : Prop := t.ic = s.ic + (if skip then 4 else 2)

end Sys2Proof.Machine
end

