-- ==== Sys2Proof/Certificates/Slice0/Obligations.lean ====
section
/-! DEFINITION. The statements for the provers. Each names the rule of spec/ it formalises; a clause that rests on a
choice of the model says so. `s.reaches a addr` says that the instruction at IC may be executed and that `addr` is the
effective address of `a`; `Frame` says what an instruction leaves unchanged. -/

open Sys2Proof Sys2Proof.Machine

/-! ## Encoding -/

/-- 30_encoding.md R91, R99: no bit of an encoding is dropped. The codes of 43 rows are PRESUMED
(notes/assumptions/1.md). -/
def Obligations.EncodedInstructionsDecodeToThemselves : Prop :=
  ∀ i : Instr, i.wf → decode (encode i) = some i

/-- 30_encoding.md R97, R98: every combination of fields is legal, a word that decodes has one reading, and the words
that do not decode are those with the unassigned codes 58 to 63 of the default map (notes/assumptions/1.md). -/
def Obligations.DecodedWordsEncodeBackToTheSameWord : Prop :=
  (∀ (v : Word) (i : Instr), decode v = some i → i.wf ∧ encode i = v) ∧
  ∀ v : Word, decode v = none ↔ 58 ≤ (fieldF v).toNat

/-- 30_encoding.md R109 and 95_test_vectors.md: words the spec gives with the instruction they stand
for. That these are their words rests on the default operation-code map: the codes of RL (20) and JL (13) are PRESUMED,
that of AW (0) is in the source (notes/assumptions/1.md). -/
def Obligations.WordsOfTheSpecDecodeAsTheSpecSays : Prop :=
  decode 0x510064 = some (.rl .w1 ⟨false, false, .none, 100⟩) ∧
  decode 0x348FFC = some (.jl .w0 ⟨true, false, .none, -4⟩) ∧
  decode 0x51412C = some (.rl .w1 ⟨false, true, .none, 300⟩) ∧
  decode 0x340010 = some (.jl .w0 ⟨false, false, .none, 16⟩) ∧
  decode 0x000002 = some (.aw .w0 ⟨false, false, .none, 2⟩)

/-! ## The cycle -/

/-- 40_cycle_and_address_handling.md R120, R121, R126: with `u` the state after the environment's actions, the
interrupt poll and the cycles the channel steals before the fetch, a step executes the word at IC: the instruction that
it decodes to, if its operation code is assigned. -/
def Obligations.StepRunsTheDecodedInstruction : Prop :=
  ∀ s u : State, s.takeEvents.run = .running → u = s.takeEvents.poll.steal → u.missing u.ic = false →
    (u.amPending = none → u.resetKey = false ∧ u.powerFailing = false) →
    step s = executeWord (u.wordRead u.ic) u ∧ ∀ i, decode (u.wordRead u.ic) = some i → step s = exec i u

/-- 40_cycle_and_address_handling.md R126, 30_encoding.md R98: an unassigned code is an instruction exception in either
mode, after the decode; the fetch protection check and the test of the indirect word come before it (R123). That 58 to
63 are the unassigned codes rests on the default operation-code map, which is PRESUMED (notes/assumptions/1.md). -/
def Obligations.UnassignedCodesTakeAnInstructionException : Prop :=
  ∀ (s u : State) (a : AddressPart), s.takeEvents.run = .running → u = s.takeEvents.poll.steal →
    u.missing u.ic = false → (u.amPending = none → u.resetKey = false ∧ u.powerFailing = false) →
    58 ≤ (fieldF (u.wordRead u.ic)).toNat → a = addressPart (u.wordRead u.ic) →
    (u.monitorMode = false → u.isProtected u.ic = true →
      step s = .next (State.raise { u with ic := u.ic + 2, amPending := none })) ∧
    (u.forbids u.ic = false → a.indirect = true → u.missing (u.address0 a) = true → step s = .next u.decoded.raise) ∧
    ∀ addr, u.reaches a addr → step s = .next (u.entered a).raise

/-- Every step of every state answers a next state: no fault and no refusal of the model is ever reached. Two
cases rest on the model's choices: it runs FD on operands that are not normalized, where 43_floating_point.md R225 and
92_eei_decisions.md D17 let a model refuse (notes/assumptions/12.md), and it makes the wait of Autoload Word a sequence
of steps (notes/assumptions/7.md). -/
def Obligations.EveryStepAnswersANextState : Prop :=
  ∀ s : State, ∃ t, step s = .next t

/-- 40_cycle_and_address_handling.md R121: the existence check comes first; word 10 receives the nonexistent address. -/
def Obligations.FetchOfANonexistentWordTraps : Prop :=
  ∀ s u : State, s.Inv → s.takeEvents.run = .running → u = s.takeEvents.poll.steal → u.missing u.ic = true →
    ∃ t, step s = .next t ∧ (u.spares 3 4 → t.wordRead 8 = 0) ∧ (u.spares 3 5 → t.wordRead 10 = u.ic) ∧
      t.ic = evenAddress (t.wordRead 12) ∧ t.monitorMode = true ∧ t.interruptDisabled = true ∧ t.amPending = none ∧
      t.ex = u.ex ∧ SameStorageSparing 3 u t [] (wordBytes 8 ++ wordBytes 10)

/-- 40_cycle_and_address_handling.md R120, 60_exceptions.md R362: the poll comes before the fetch; it serves the
leftmost honoured request, and it is skipped while interrupts are disabled. -/
def Obligations.InterruptsArePolledOnceBeforeTheFetch : Prop :=
  ∀ s : State, s.run = .running → s.schedule = [] → s.amPending = none →
    (s.interruptDisabled = true → step s = fetchAndExecute s) ∧
    (s.interruptDisabled = false → s.honoured = none → step s = fetchAndExecute s) ∧
    ∀ i, s.interruptDisabled = false → s.honoured = some i → step s = fetchAndExecute (s.serve i)

/-! ## Program interruption -/

/-- 60_exceptions.md R364: Interruption Service serves the leftmost pending unmasked request. It makes three
accesses, before each of which the channel may write (20_memory.md R78). -/
def Obligations.ServiceTakesTheLeftmostUnmaskedRequest : Prop :=
  ∀ s : State, s.Inv →
    ((∀ j < 24, s.ir.getMsbD j = true → s.im.getMsbD j = false) → s.service = s) ∧
    ∀ i < 24, s.ir.getMsbD i = true → s.im.getMsbD i = true →
      (∀ j < i, s.ir.getMsbD j = true → s.im.getMsbD j = false) →
      (s.spares 3 4 → s.service.wordRead 8 = BitVec.ofNat 24 (2 * i)) ∧
      (s.spares 3 5 → s.service.wordRead 10 = s.ic) ∧ s.service.ic = evenAddress (s.service.wordRead 12) ∧
      s.service.monitorMode = true ∧
      s.service.interruptDisabled = true ∧
      (∀ j < 24, s.service.ir.getMsbD j = (s.ir.getMsbD j && decide (j ≠ i))) ∧
      s.service.ex = s.ex ∧ s.service.pr = s.pr ∧ s.service.im = s.im ∧ s.service.keys = s.keys ∧
      s.service.amPending = s.amPending ∧ SameDevices s s.service ∧ SameConsole s s.service ∧
      s.service.steals = s.steals.drop 3 ∧
      SameStorageSparing 3 s s.service [] (wordBytes 8 ++ wordBytes 10)

/-- 60_exceptions.md R366, R372: an instruction exception is served at once, whatever interrupts are disabled or
pending; it saves IC in word 10 and the number 0 in word 8, and a modifier carried by an AM is discarded. -/
def Obligations.InstructionExceptionsAreServedAtOnce : Prop :=
  ∀ s : State, s.Inv →
    (s.spares 3 4 → s.raise.wordRead 8 = 0) ∧ (s.spares 3 5 → s.raise.wordRead 10 = s.ic) ∧
    s.raise.ic = evenAddress (s.raise.wordRead 12) ∧
    s.raise.monitorMode = true ∧ s.raise.interruptDisabled = true ∧ s.raise.ir.getMsbD 0 = false ∧
    (∀ j < 24, 0 < j → s.raise.ir.getMsbD j = s.ir.getMsbD j) ∧
    s.raise.ex = s.ex ∧ s.raise.pr = s.pr ∧ s.raise.im = s.im ∧ s.raise.keys = s.keys ∧ s.raise.amPending = none ∧
    SameDevices s s.raise ∧ SameConsole s s.raise ∧ s.raise.steals = s.steals.drop 3 ∧
    SameStorageSparing 3 s s.raise [] (wordBytes 8 ++ wordBytes 10)

/-! ## The tests of the decode -/

/-- 40_cycle_and_address_handling.md R122, R123: in task mode no instruction of a protected word is executed; the mode
is not updated then. The word that an indirect address names must exist; the mode is updated before that test. Both hold
of every instruction and of the execution of every word, one with an unassigned code included (30_encoding.md R98). -/
def Obligations.TheDecodeTestsComeBeforeEveryOperation : Prop :=
  ∀ (s : State) (a : AddressPart) (o : Out),
    ((∃ i : Instr, a = i.address ∧ o = exec i s) ∨ ∃ v : Word, a = addressPart v ∧ o = executeWord v s) →
    (s.monitorMode = false → s.isProtected s.ic = true →
      o = .next (State.raise { s with ic := s.ic + 2, amPending := none })) ∧
    (s.forbids s.ic = false → a.indirect = true → s.missing (s.address0 a) = true →
      o = .next (State.raise { s with ic := s.ic + 2, amPending := none, monitorMode := s.isProtected s.ic }))

/-- 40_cycle_and_address_handling.md R129, 46_monitor_control.md R290: the eight privileged instructions trap in task
mode before they do anything else. -/
def Obligations.PrivilegedInstructionsTrapInTaskMode : Prop :=
  ∀ (s : State) (i : Instr) (addr : Word), i.privileged → s.reaches i.address addr → s.isProtected s.ic = false →
    (s.entered i.address).monitorMode = false ∧ exec i s = .next (s.entered i.address).raise

/-! ## The high-speed channel -/

/-- 20_memory.md R74, R77, R78, 47_input_output.md R340: before each access of the processor the channel may write
existing words above the working registers, for a device whose block transfer a control command has started and which is
not available again. That these may be any existing words, and that a script says which and when, is the model's choice
(notes/assumptions/17.md). The last write is what the access finds; words that it does not name, and everything but the
store, stay. So DL can find a first word written after it read the second, and RX loses what is written after it has
read. -/
def Obligations.TheChannelWritesBetweenTwoAccesses : Prop :=
  (∀ (s : State) (a : AddressPart), (s.steals = [] → s.entered a = s.decoded) ∧
    ∀ n, s.spares 2 n → (s.entered a).readWordAt n = s.readWordAt n) ∧
  (∀ (s : State) (l : List Transfer) (rest : List (List Transfer)), s.Inv → s.steals = l :: rest →
    s.steal = { s with store := s.steal.store, steals := rest } ∧
    (∀ n, (∀ x ∈ l, x.wordNumber = n → s.mayTransfer x = false) → s.steal.readWordAt n = s.readWordAt n) ∧
    ∀ (k : List Transfer) (x : Transfer), l = k ++ [x] → s.mayTransfer x = true →
      s.steal.readWordAt x.wordNumber = x.data) ∧
  (∀ (s : State) (x : Transfer), s.mayTransfer x = true ↔
    s.run ≠ .powerOff ∧ 4 ≤ x.wordNumber ∧ x.wordNumber ≤ s.inst.wordLimit ∧
      ∃ d, s.device? x.device = some d ∧ d.kind = .highSpeed ∧ d.condition ≠ .available ∧ d.transferring = true) ∧
  ∀ (s : State) (w : Reg) (a : AddressPart) (addr : Word) (x : Transfer) (rest : List (List Transfer)),
    s.Inv → s.reaches a addr → a.indirect = false → s.missing addr = false → s.steals = [] :: [x] :: rest →
    s.mayTransfer x = true →
    (x.wordNumber = wordNumber (firstWordAddress addr) →
      ∃ t, exec (.dl w a) s = .next t ∧ t.reg w = s.wordRead addr ∧ t.reg (preceding w) = x.data) ∧
    (x.wordNumber = wordNumber addr → ¬s.storeForbidden addr →
      ∃ t, exec (.rx w a) s = .next t ∧ t.reg w = s.wordRead addr ∧ t.wordRead addr = s.reg w)

/-! ## Address handling -/

/-- 40_cycle_and_address_handling.md R124, R132: AL delivers the effective address of each of the four modes; the
index register is read before the result is written. -/
def Obligations.AlDeliversTheAddressOfEachMode : Prop :=
  ∀ (s u : State) (w : Reg) (a : AddressPart) (base : Word), s.forbids s.ic = false → u = s.entered a →
    base = BitVec.ofInt 24 a.displacement + s.amPending.getD 0 + (if a.relative then s.ic else 0) +
      (match a.index with
        | .none => 0
        | .x1 => s.reg .w1
        | .x2 => s.reg .w2
        | .x3 => s.reg .w3) →
    (a.indirect = false →
      ∃ t, exec (.al w a) s = .next t ∧ t.reg w = base ∧ Frame s u t [w] [] ∧ Quiet s t ∧ Continues s t false) ∧
    (a.indirect = true → s.missing base = false →
      ∃ t, exec (.al w a) s = .next t ∧ t.reg w = s.steal.wordRead base ∧ Frame s u t [w] [] ∧ Quiet s t ∧
        Continues s t false) ∧
    (a.indirect = true → s.missing base = true → exec (.al w a) s = .next s.decoded.raise)

/-- 40_cycle_and_address_handling.md R133: the two's complement of the address; overflow for -2**23; the carry of 0 - A
is 1 only for A = 0 (SUBTRACT_ZERO_CARRY). -/
def Obligations.AcDeliversTheComplementOfTheAddress : Prop :=
  ∀ (s u : State) (w : Reg) (a : AddressPart) (addr : Word), s.reaches a addr → u = s.entered a →
    ∃ t, exec (.ac w a) s = .next t ∧ t.reg w = -addr ∧ Frame s u t [w] [] ∧ Continues s t false ∧
      Reports s t 1 (decide (addr = 0x800000)) (decide (addr = 0) && s.inst.subtractZeroCarry)

/-- 40_cycle_and_address_handling.md R131, in the form that 10_state.md R40 allows (a carried modifier,
notes/assumptions/6.md): the effective address is added to the displacement of the next instruction, before whose fetch
neither the interrupts nor the keys are polled. -/
def Obligations.AmModifiesTheNextAddress : Prop :=
  ∀ (s u : State) (w : Reg) (a : AddressPart) (addr : Word), s.reaches a addr → u = s.entered a →
    (s.missing (s.ic + 2) = true → exec (.am w a) s = .next u.raise) ∧
    (s.missing (s.ic + 2) = false →
      ∃ t, exec (.am w a) s = .next t ∧ SameStorage u t [] [] ∧ SameControl s t ∧ SameDevices s t ∧ SameConsole s t ∧
        t.steals = u.steals ∧ Quiet s t ∧ Continues s t false ∧ t.monitorMode = s.isProtected s.ic ∧ t.poll = t ∧
        t.steal.fetch = .word (t.steal.wordRead t.ic) ∧
        ∀ b : AddressPart, t.address0 b =
          BitVec.ofInt 24 b.displacement + addr + (if b.relative then t.ic else 0) + t.indexValue b.index)

/-! ## Register transfer -/

/-- 41_register_transfer.md R151, R153, 42_integer_arithmetic.md R171, R172, 46_monitor_control.md R308: the loads. -/
def Obligations.LoadsDeliverTheOperandAddressed : Prop :=
  ∀ (s u : State) (w : Reg) (a : AddressPart) (addr : Word), s.reaches a addr → u = s.entered a →
    ∀ (i : Instr) (v : Word), (i, v) ∈ [
      (Instr.rl w a, u.wordRead addr),
      (Instr.hl w a, ((s.reg w).extractLsb' 12 12 : Byte) ++ u.byteRead addr),
      (Instr.bz w a, (u.byteRead addr).setWidth 24),
      (Instr.bl w a, (u.byteRead addr).signExtend 24),
      (Instr.kl w a, (s.keyRead addr).setWidth 24)] →
    (s.missing addr = true → exec i s = .next u.raise) ∧
    (s.missing addr = false →
      ∃ t, exec i s = .next t ∧ t.reg w = v ∧ Frame s u t [w] [] ∧ Quiet s t ∧ Continues s t false)

/-- 41_register_transfer.md R154, 46_monitor_control.md R295, R297: the instructions that store a word. -/
def Obligations.WordStoresReachTheWordAddressed : Prop :=
  ∀ (s u : State) (w : Reg) (a : AddressPart) (addr : Word), s.Inv → s.reaches a addr → u = s.entered a →
    ∀ (i : Instr) (v : Word), (i, v) ∈ [(Instr.rs w a, s.reg w), (Instr.is w a, s.ir), (Instr.ms w a, s.im)] →
    (s.missing addr = true → exec i s = .next u.raise) ∧
    (s.missing addr = false → s.storeForbidden addr → exec i s = .next u.raise) ∧
    (s.missing addr = false → ¬s.storeForbidden addr →
      ∃ t, exec i s = .next t ∧ t.wordRead addr = v ∧ Frame s u t [] (wordBytes addr) ∧ Quiet s t ∧
        Continues s t false)

/-- 41_register_transfer.md R152, 46_monitor_control.md R301, R305: the instructions that store a byte. -/
def Obligations.ByteStoresReachTheByteAddressed : Prop :=
  ∀ (s u : State) (w : Reg) (a : AddressPart) (addr : Word), s.Inv → s.reaches a addr → u = s.entered a →
    ∀ (i : Instr) (v : Byte), (i, v) ∈ [
      (Instr.hs w a, (s.reg w).extractLsb' 0 12), (Instr.xs w a, s.ex.setWidth 12), (Instr.ps w a, s.pr.setWidth 12)] →
    (s.missing addr = true → exec i s = .next u.raise) ∧
    (s.missing addr = false → s.storeForbidden addr → exec i s = .next u.raise) ∧
    (s.missing addr = false → ¬s.storeForbidden addr →
      ∃ t, exec i s = .next t ∧ t.byteRead addr = v ∧ Frame s u t [] [addr] ∧ Quiet s t ∧ Continues s t false)

/-- 41_register_transfer.md R158: RX exchanges the register and the word; the register is loaded before the protection
test. What the channel writes between the two accesses is lost in that word (20_memory.md R77). -/
def Obligations.RxExchangesRegisterAndStore : Prop :=
  ∀ (s u : State) (w : Reg) (a : AddressPart) (addr : Word), s.Inv → s.reaches a addr → u = s.entered a →
    (s.missing addr = true → exec (.rx w a) s = .next u.raise) ∧
    (s.missing addr = false → s.storeForbidden addr →
      exec (.rx w a) s = .next (u.setReg w (u.wordRead addr)).raise) ∧
    (s.missing addr = false → ¬s.storeForbidden addr →
      ∃ t, exec (.rx w a) s = .next t ∧ t.reg w = u.wordRead addr ∧ t.wordRead addr = s.reg w ∧
        Frame s u.steal t [w] (wordBytes addr) ∧ Quiet s t ∧ Continues s t false)

/-- 41_register_transfer.md R160, R162: DL loads the second word first and reads the first word after that. DS stores
the second word before the first word is tested, and before the register that is stored as the first word is read. The
channel may write between the two accesses (20_memory.md R74). -/
def Obligations.DlAndDsMoveTheSecondWordFirst : Prop :=
  ∀ (s u : State) (w : Reg) (a : AddressPart) (addr : Word), s.reaches a addr → u = s.entered a →
    ((s.missing addr = true → exec (.dl w a) s = .next u.raise) ∧
     (s.missing addr = false →
       ∃ t, exec (.dl w a) s = .next t ∧ t.reg w = u.wordRead addr ∧
         t.reg (preceding w) = (if wordNumber (firstWordAddress addr) = registerNumber w then u.wordRead addr
           else u.steal.wordRead (firstWordAddress addr)) ∧
         Frame s u.steal t [preceding w, w] [] ∧ Quiet s t ∧ Continues s t false)) ∧
    (s.Inv →
      (s.missing addr = true → exec (.ds w a) s = .next u.raise) ∧
      (s.missing addr = false → s.storeForbidden addr → exec (.ds w a) s = .next u.raise) ∧
      (s.missing addr = false → ¬s.storeForbidden addr → s.storeForbidden (firstWordAddress addr) →
        exec (.ds w a) s = .next (u.wordWrite addr (s.reg w)).raise) ∧
      (s.missing addr = false → ¬s.storeForbidden addr → ¬s.storeForbidden (firstWordAddress addr) →
        ∃ t, exec (.ds w a) s = .next t ∧
          (wordNumber addr < 4 ∨ u.spares 1 (wordNumber addr) → t.wordRead addr = s.reg w) ∧
          t.wordRead (firstWordAddress addr) =
            (if wordNumber addr = registerNumber (preceding w) then s.reg w else s.reg (preceding w)) ∧
          Frame s u.steal t [] (doubleBytes addr) ∧ Quiet s t ∧ Continues s t false))

/-! ## Integer arithmetic -/

/-- 42_integer_arithmetic.md R173, R176: the sum modulo 2**24, the overflow of the signed sum, the carry of the unsigned
sum; EX(22:23) is cleared before the address test. -/
def Obligations.IntegerAdditionDeliversSumOverflowAndCarry : Prop :=
  ∀ (s u : State) (w : Reg) (a : AddressPart) (addr : Word), s.reaches a addr → u = s.entered a →
    ∀ (i : Instr) (y : Word), (i, y) ∈ [
      (Instr.wa w a, u.wordRead addr), (Instr.ba w a, (u.byteRead addr).signExtend 24)] →
    (s.missing addr = true → exec i s = .next u.clearEx.raise) ∧
    (s.missing addr = false →
      ∃ t, exec i s = .next t ∧ t.reg w = s.reg w + y ∧ Frame s u t [w] [] ∧ Continues s t false ∧
        Reports s t 1
          (decide ((s.reg w).toInt + y.toInt < -2 ^ 23 ∨ 2 ^ 23 ≤ (s.reg w).toInt + y.toInt))
          (decide (2 ^ 24 ≤ (s.reg w).toNat + y.toNat)))

/-- 42_integer_arithmetic.md R174, R177: as the additions; EX(23) = 1 means no borrow, and subtracting zero reports what
SUBTRACT_ZERO_CARRY says (40_cycle_and_address_handling.md R130). -/
def Obligations.IntegerSubtractionDeliversDifferenceOverflowAndCarry : Prop :=
  ∀ (s u : State) (w : Reg) (a : AddressPart) (addr : Word), s.reaches a addr → u = s.entered a →
    ∀ (i : Instr) (y : Word), (i, y) ∈ [
      (Instr.ws w a, u.wordRead addr), (Instr.bs w a, (u.byteRead addr).signExtend 24)] →
    (s.missing addr = true → exec i s = .next u.clearEx.raise) ∧
    (s.missing addr = false →
      ∃ t, exec i s = .next t ∧ t.reg w = s.reg w - y ∧ Frame s u t [w] [] ∧ Continues s t false ∧
        Reports s t 1
          (decide ((s.reg w).toInt - y.toInt < -2 ^ 23 ∨ 2 ^ 23 ≤ (s.reg w).toInt - y.toInt))
          (if y = 0 then s.inst.subtractZeroCarry else decide (y.toNat ≤ (s.reg w).toNat)))

/-- 42_integer_arithmetic.md R180: the exact product; EX is unchanged. -/
def Obligations.WmDeliversTheExactProduct : Prop :=
  ∀ (s u : State) (w : Reg) (a : AddressPart) (addr : Word), s.reaches a addr → u = s.entered a →
    (s.missing addr = true → exec (.wm w a) s = .next u.raise) ∧
    (s.missing addr = false →
      ∃ t, exec (.wm w a) s = .next t ∧ (t.pair w).toInt = (s.reg w).toInt * (u.wordRead addr).toInt ∧
        Frame s u t [preceding w, w] [] ∧ Quiet s t ∧ Continues s t false)

/-- 42_integer_arithmetic.md R183: the quotient rounded toward zero and the remainder with the sign of the dividend; a
zero divisor or a quotient of more than 24 bits leaves the registers and reports an overflow. -/
def Obligations.WdDeliversQuotientAndRemainder : Prop :=
  ∀ (s u : State) (w : Reg) (a : AddressPart) (addr : Word) (n d q : Int), s.reaches a addr → u = s.entered a →
    n = (s.pair w).toInt → d = (u.wordRead addr).toInt → q = n.tdiv d →
    (s.missing addr = true → exec (.wd w a) s = .next u.clearEx.raise) ∧
    (s.missing addr = false →
      (d = 0 ∨ 2 ^ 23 ≤ q ∨ q < -2 ^ 23 ∨ (q = -2 ^ 23 ∧ s.inst.wdMinQuotientOverflows = true)) →
      ∃ t, exec (.wd w a) s = .next t ∧ Frame s u t [] [] ∧ Continues s t false ∧ Reports s t 1 true false) ∧
    (s.missing addr = false → d ≠ 0 → q < 2 ^ 23 → -2 ^ 23 ≤ q →
      (q = -2 ^ 23 → s.inst.wdMinQuotientOverflows = false) →
      ∃ t, exec (.wd w a) s = .next t ∧ (t.reg w).toInt = q ∧ (t.reg (preceding w)).toInt = n - q * d ∧
        |n - q * d| < |d| ∧ (n - q * d ≠ 0 → (n - q * d).sign = n.sign) ∧
        Frame s u t [preceding w, w] [] ∧ Continues s t false ∧ Reports s t 1 false false)

/-- 42_integer_arithmetic.md R186: the 48-bit sum with its overflow and carry. When the first word of the operand is
the W register itself, it is read after that register has received the right-hand sum. -/
def Obligations.AaDeliversTheDoubleSum : Prop :=
  ∀ (s u : State) (w : Reg) (a : AddressPart) (addr : Word) (m : DoubleWord), s.reaches a addr → u = s.entered a →
    m = (if wordNumber (firstWordAddress addr) = registerNumber w then s.reg w + u.wordRead addr
      else u.steal.wordRead (firstWordAddress addr)) ++ u.wordRead addr →
    (s.missing addr = true → exec (.aa w a) s = .next u.clearEx.raise) ∧
    (s.missing addr = false →
      ∃ t, exec (.aa w a) s = .next t ∧ t.pair w = s.pair w + m ∧ Frame s u.steal t [preceding w, w] [] ∧
        Continues s t false ∧
        Reports s t 1
          (decide ((s.pair w).toInt + m.toInt < -2 ^ 47 ∨ 2 ^ 47 ≤ (s.pair w).toInt + m.toInt))
          (decide (2 ^ 48 ≤ (s.pair w).toNat + m.toNat)))

/-- 42_integer_arithmetic.md R187: the 48-bit difference; EX(23) = 1 means no borrow. Where SUBTRACT_ZERO_CARRY is 0,
subtracting a left-hand word of zero without a borrow reports 0 (notes/assumptions/13.md). -/
def Obligations.SsDeliversTheDoubleDifference : Prop :=
  ∀ (s u : State) (w : Reg) (a : AddressPart) (addr left : Word) (m : DoubleWord), s.reaches a addr → u = s.entered a →
    left = (if wordNumber (firstWordAddress addr) = registerNumber w then s.reg w - u.wordRead addr
      else u.steal.wordRead (firstWordAddress addr)) →
    m = left ++ u.wordRead addr →
    (s.missing addr = true → exec (.ss w a) s = .next u.clearEx.raise) ∧
    (s.missing addr = false →
      ∃ t, exec (.ss w a) s = .next t ∧ t.pair w = s.pair w - m ∧ Frame s u.steal t [preceding w, w] [] ∧
        Continues s t false ∧
        Reports s t 1
          (decide ((s.pair w).toInt - m.toInt < -2 ^ 47 ∨ 2 ^ 47 ≤ (s.pair w).toInt - m.toInt))
          (if left = 0 ∧ (u.wordRead addr).toNat ≤ (s.reg w).toNat then s.inst.subtractZeroCarry
            else decide (m.toNat ≤ (s.pair w).toNat)))

/-! ## Logical operations and shifts -/

/-- 44_logical_and_shift.md R241, R242, R243: bit by bit, and EX is unchanged. -/
def Obligations.LogicalOperationsCombineBitByBit : Prop :=
  ∀ (s u : State) (w : Reg) (a : AddressPart) (addr : Word), s.reaches a addr → u = s.entered a →
    ∀ (i : Instr) (f : Bool → Bool → Bool), (i, f) ∈ [
      (Instr.la w a, Bool.and), (Instr.lo w a, Bool.or), (Instr.lx w a, Bool.xor)] →
    (s.missing addr = true → exec i s = .next u.raise) ∧
    (s.missing addr = false →
      ∃ t, exec i s = .next t ∧
        (∀ b < 24, (t.reg w).getMsbD b = f ((s.reg w).getMsbD b) ((u.wordRead addr).getMsbD b)) ∧
        Frame s u t [w] [] ∧ Quiet s t ∧ Continues s t false)

/-- 44_logical_and_shift.md R246, R247, closed form: right shifts round down, left shifts multiply modulo 2**24 (2**48)
and report an overflow exactly when the product does not fit; counts of 64 and more act as 48. -/
def Obligations.ArithmeticShiftsMultiplyAndDivide : Prop :=
  ∀ (s u : State) (w : Reg) (a : AddressPart) (addr : Word) (k : Nat), s.reaches a addr → u = s.entered a →
    k = (if 64 ≤ addr.toInt.natAbs then 48 else addr.toInt.natAbs) →
    (addr.toInt < 0 →
      (∃ t, exec (.as w a) s = .next t ∧ (t.reg w).toInt = (s.reg w).toInt / 2 ^ k ∧
        Frame s u t [w] [] ∧ Continues s t false ∧ Reports s t 1 false false) ∧
      ∃ t, exec (.ad w a) s = .next t ∧ (t.pair w).toInt = (s.pair w).toInt / 2 ^ k ∧
        Frame s u t [preceding w, w] [] ∧ Continues s t false ∧ Reports s t 1 false false) ∧
    (0 ≤ addr.toInt →
      (∃ t, exec (.as w a) s = .next t ∧ t.reg w = BitVec.ofInt 24 ((s.reg w).toInt * 2 ^ k) ∧
        Frame s u t [w] [] ∧ Continues s t false ∧
        Reports s t 1
          (decide ((s.reg w).toInt * 2 ^ k < -2 ^ 23 ∨ 2 ^ 23 ≤ (s.reg w).toInt * 2 ^ k)) false) ∧
      ∃ t, exec (.ad w a) s = .next t ∧ t.pair w = BitVec.ofInt 48 ((s.pair w).toInt * 2 ^ k) ∧
        Frame s u t [preceding w, w] [] ∧ Continues s t false ∧
        Reports s t 1
          (decide ((s.pair w).toInt * 2 ^ k < -2 ^ 47 ∨ 2 ^ 47 ≤ (s.pair w).toInt * 2 ^ k)) false)

/-- 44_logical_and_shift.md R248, R249, closed form; EX is unchanged. -/
def Obligations.LogicalShiftsActOnTheUnsignedPattern : Prop :=
  ∀ (s u : State) (w : Reg) (a : AddressPart) (addr : Word) (k : Nat), s.reaches a addr → u = s.entered a →
    k = (if 64 ≤ addr.toInt.natAbs then 48 else addr.toInt.natAbs) →
    (∃ t, exec (.ls w a) s = .next t ∧
      (t.reg w).toNat = (if addr.toInt < 0 then (s.reg w).toNat / 2 ^ k else (s.reg w).toNat * 2 ^ k % 2 ^ 24) ∧
      Frame s u t [w] [] ∧ Quiet s t ∧ Continues s t false) ∧
    ∃ t, exec (.ld w a) s = .next t ∧
      (t.pair w).toNat = (if addr.toInt < 0 then (s.pair w).toNat / 2 ^ k else (s.pair w).toNat * 2 ^ k % 2 ^ 48) ∧
      Frame s u t [preceding w, w] [] ∧ Quiet s t ∧ Continues s t false

/-- 44_logical_and_shift.md R252, R253: a nonzero register (NS) or pair (ND) is shifted left until bits 0 and 1 differ,
and minus the number of shifts is stored; zero stores -2048. The operand is normalized before the tests. A half of the
register that the byte address names holds the byte. -/
def Obligations.NsAndNdNormalizeAndStoreTheCount : Prop :=
  ∀ (s u : State) (w : Reg) (a : AddressPart) (addr : Word), s.Inv → s.reaches a addr → u = s.entered a →
    (∃ (k : Nat) (v : Word) (c : Byte),
       (s.reg w = 0 → v = 0 ∧ c = BitVec.ofInt 12 (-2048)) ∧
       (s.reg w ≠ 0 → k ≤ 23 ∧ v.toInt = (s.reg w).toInt * 2 ^ k ∧ v.getMsbD 0 ≠ v.getMsbD 1 ∧
         c = BitVec.ofInt 12 (-k)) ∧
       (s.missing addr = true → exec (.ns w a) s = .next (u.setReg w v).raise) ∧
       (s.missing addr = false → s.storeForbidden addr → exec (.ns w a) s = .next (u.setReg w v).raise) ∧
       (s.missing addr = false → ¬s.storeForbidden addr →
         ∃ t, exec (.ns w a) s = .next t ∧ t.byteRead addr = c ∧
           t.reg w = (if wordNumber addr = registerNumber w then withHalf addr v c else v) ∧
           Frame s u t [w] [addr] ∧ Quiet s t ∧ Continues s t false)) ∧
    ∃ (k : Nat) (v : DoubleWord) (c : Byte),
      (s.pair w = 0 → v = 0 ∧ c = BitVec.ofInt 12 (-2048)) ∧
      (s.pair w ≠ 0 → k ≤ 47 ∧ v.toInt = (s.pair w).toInt * 2 ^ k ∧ v.getMsbD 0 ≠ v.getMsbD 1 ∧
        c = BitVec.ofInt 12 (-k)) ∧
      (s.missing addr = true → exec (.nd w a) s = .next (u.setPair w v).raise) ∧
      (s.missing addr = false → s.storeForbidden addr → exec (.nd w a) s = .next (u.setPair w v).raise) ∧
      (s.missing addr = false → ¬s.storeForbidden addr →
        ∃ t, exec (.nd w a) s = .next t ∧ t.byteRead addr = c ∧
          (∀ r ∈ [preceding w, w], t.reg r =
            (if wordNumber addr = registerNumber r then withHalf addr ((u.setPair w v).reg r) c
              else (u.setPair w v).reg r)) ∧
          Frame s u t [preceding w, w] [addr] ∧ Quiet s t ∧ Continues s t false)

/-! ## Floating-point arithmetic -/

/-- 43_floating_point.md R202, R206: Normalize and Round of a zero AF gives the floating-point zero. A nonzero AF is
scaled by the power of two that normalizes it and rounded to 36 bits, to the nearest with ties toward plus infinity; the
fraction delivered is normalized, stands for the rounded value, and the exponent counts the shifts. -/
def Obligations.NormalizeAndRoundDeliversTheNearestFraction : Prop :=
  ∀ (af : BitVec 39) (sc : BitVec 13),
    (af = 0 → ∀ low, floatingResult low (normalizeAndRound 2 af sc) = 0x000000000800 ∧
      exponentOut (normalizeAndRound 2 af sc).2 = false) ∧
    (af ≠ 0 →
      ∃ (n j : Int) (f : BitVec 36), -37 ≤ n ∧ n ≤ 1 ∧
        ((2 ^ 36 ≤ (af.toInt : ℚ) / 2 ^ n ∧ (af.toInt : ℚ) / 2 ^ n < 2 ^ 37) ∨
          (-2 ^ 37 ≤ (af.toInt : ℚ) / 2 ^ n ∧ (af.toInt : ℚ) / 2 ^ n < -2 ^ 36)) ∧
        f = (normalizeAndRound 2 af sc).1.extractLsb' 2 36 ∧ normalizedFraction f ∧
        (f.toInt : ℚ) * 2 ^ j = ⌊(af.toInt : ℚ) / (4 * 2 ^ n) + 1 / 2⌋ * 2 ^ n ∧
        (normalizeAndRound 2 af sc).2 = sc + BitVec.ofInt 13 j)

/-- 43_floating_point.md R207, R208: in the low precision mode fraction bits 34 and 35 of the stored result are bit 33;
every other bit is that of full precision. -/
def Obligations.LowPrecisionCopiesBit33 : Prop :=
  ∀ p : BitVec 39 × BitVec 13,
    (∀ b < 48, (floatingResult true p).getMsbD b = (floatingResult false p).getMsbD (if b = 34 ∨ b = 35 then 33 else b)) ∧
    (∀ b < 36, (floatingResult false p).getMsbD b = p.1.getMsbD (b + 1)) ∧
    ∀ b < 12, (floatingResult false p).getMsbD (36 + b) = p.2.getMsbD (b + 1)

/-- 43_floating_point.md R210, closed form: an integer `v` and a scale factor become the normalized fraction
`v * 2**(-p)` and the exponent `p + scale`; overflow is a scale that leads out of the exponent range. -/
def Obligations.CiConvertsIntegersExactly : Prop :=
  ∀ (s u : State) (w : Reg) (a : AddressPart) (addr : Word), s.reaches a addr → u = s.entered a →
    (s.reg w = 0 →
      ∃ t, exec (.ci w a) s = .next t ∧ t.reg (preceding w) = 0 ∧ t.reg w = 0x000800 ∧
        Frame s u t [preceding w, w] [] ∧ Continues s t false ∧ Reports s t 2 false false) ∧
    (s.reg w ≠ 0 →
      ∃ (t : State) (p : Nat), exec (.ci w a) s = .next t ∧ p ≤ 23 ∧
        (t.reg (preceding w)).toInt = (s.reg w).toInt * 2 ^ (23 - p) ∧
        (t.reg (preceding w)).getMsbD 0 ≠ (t.reg (preceding w)).getMsbD 1 ∧
        t.reg w = (0 : Byte) ++ BitVec.ofInt 12 (p + (addr.setWidth 13).toInt) ∧
        Frame s u t [preceding w, w] [] ∧ Continues s t false ∧
        Reports s t 2
          (decide (p + (addr.setWidth 13).toInt < -2048 ∨ 2047 < p + (addr.setWidth 13).toInt)) false)

/-- 43_floating_point.md R211, closed form: the number times 2**A is rounded to the nearest integer, ties toward plus
infinity; an integer overflow leaves the register. `f` is the fraction times 2**35, `n` the number of right shifts. -/
def Obligations.CfRoundsToTheNearestInteger : Prop :=
  ∀ (s u : State) (w : Reg) (a : AddressPart) (addr : Word) (f n v : Int), s.reaches a addr → u = s.entered a →
    f = (fractionOf (s.pair w)).toInt →
    n = ((23 : Word) - addr - (exponentOf (s.pair w)).signExtend 24).toInt →
    v = (f + 2 ^ (11 + n.toNat)) / 2 ^ (12 + n.toNat) →
    (((n < 0 ∧ f ≠ 0) ∨ (0 ≤ n ∧ 2 ^ 23 ≤ v)) →
      ∃ t, exec (.cf w a) s = .next t ∧ Frame s u t [] [] ∧ Continues s t false ∧ Reports s t 1 true false) ∧
    ((n < 0 ∧ f = 0) →
      ∃ t, exec (.cf w a) s = .next t ∧ t.reg w = 0 ∧ Frame s u t [w] [] ∧ Continues s t false ∧
        Reports s t 1 false false) ∧
    ((0 ≤ n ∧ v < 2 ^ 23) →
      ∃ t, exec (.cf w a) s = .next t ∧ (t.reg w).toInt = v ∧ Frame s u t [w] [] ∧ Continues s t false ∧
        Reports s t 1 false false)

/-- 43_floating_point.md R214, R215: FA and FS align the fraction with the smaller exponent, add or subtract, and
normalize and round; with exponents 38 or more apart the larger operand is stored as it is, but for an FS whose register
operand is the smaller one. The operand is `u.doubleRead addr`: that its second word is read once (43_floating_point.md
R205 names it twice, the table of 20_memory.md R73 once), and that the order of the two reads, which R73 leaves open, is
a parameter of the installation, is the model's (notes/assumptions/23.md). -/
def Obligations.FaAndFsAlignAddAndRound : Prop :=
  ∀ (s u : State) (w : Reg) (a : AddressPart) (addr : Word) (f m e x : Int), s.reaches a addr → u = s.entered a →
    f = (fractionOf (s.pair w)).toInt → m = (fractionOf (u.doubleRead addr)).toInt →
    e = (exponentOf (s.pair w)).toInt → x = (exponentOf (u.doubleRead addr)).toInt →
    ∀ (i : Instr) (sign : Int), (i, sign) ∈ [(Instr.fa w a, 1), (Instr.fs w a, -1)] →
    (s.missing addr = true → exec i s = .next u.clearEx.raise) ∧
    (s.missing addr = false → 38 ≤ e - x →
      ∃ t, exec i s = .next t ∧ t.pair w = floatingResult s.lowPrecision (BitVec.ofInt 39 (4 * f), BitVec.ofInt 13 e) ∧
        Frame s u.steal t [preceding w, w] [] ∧ Continues s t false ∧ Reports s t 2 false false) ∧
    (s.missing addr = false → e - x ≤ -38 → sign = 1 →
      ∃ t, exec i s = .next t ∧ t.pair w = floatingResult s.lowPrecision (BitVec.ofInt 39 (4 * m), BitVec.ofInt 13 x) ∧
        Frame s u.steal t [preceding w, w] [] ∧ Continues s t false ∧ Reports s t 2 false false) ∧
    (s.missing addr = false → e - x < 38 → (-38 < e - x ∨ sign = -1) →
      ∃ (t : State) (p : BitVec 39 × BitVec 13), exec i s = .next t ∧
        p = normalizeAndRound 2
          (BitVec.ofInt 39 ((if e - x ≤ -38 then 0 else 4 * f / 2 ^ (x - e).toNat) + sign * (4 * m / 2 ^ (e - x).toNat)))
          (BitVec.ofInt 13 (max e x)) ∧
        t.pair w = floatingResult s.lowPrecision p ∧
        Frame s u.steal t [preceding w, w] [] ∧ Continues s t false ∧ Reports s t 2 (exponentOut p.2) false)

/-- 43_floating_point.md R218: the product of the fractions, rounded down to 38 bits by the add-and-shift cycle, with
the sum of the exponents, normalized and rounded. The operand is `u.doubleRead addr`: that its second word is read once
(43_floating_point.md R205 names it twice, the table of 20_memory.md R73 once), and that the order of the two reads,
which R73 leaves open, is a parameter of the installation, is the model's (notes/assumptions/23.md). -/
def Obligations.FmMultipliesTheFractions : Prop :=
  ∀ (s u : State) (w : Reg) (a : AddressPart) (addr : Word) (f m e x : Int), s.reaches a addr → u = s.entered a →
    f = (fractionOf (s.pair w)).toInt → m = (fractionOf (u.doubleRead addr)).toInt →
    e = (exponentOf (s.pair w)).toInt → x = (exponentOf (u.doubleRead addr)).toInt →
    (s.missing addr = true → exec (.fm w a) s = .next u.clearEx.raise) ∧
    (s.missing addr = false →
      ∃ (t : State) (p : BitVec 39 × BitVec 13), exec (.fm w a) s = .next t ∧
        p = normalizeAndRound 2 (BitVec.ofInt 39 (4 * f * m / 2 ^ 35)) (BitVec.ofInt 13 (e + x)) ∧
        t.pair w = floatingResult s.lowPrecision p ∧
        Frame s u.steal t [preceding w, w] [] ∧ Continues s t false ∧ Reports s t 2 (exponentOut p.2) false)

/-- 43_floating_point.md R221: the zero tests on the first words, and otherwise the quotient of the division cycle with
the exponent of 90_conflicts.md C3, normalized and rounded. The cycle ends for all operands, and its result is what FD
delivers also for operands that are not normalized: that is the model's choice, where 43_floating_point.md R225 and
92_eei_decisions.md D17 let a model refuse (notes/assumptions/12.md). The operand is `u.doubleRead addr`: that its
second word is read once (43_floating_point.md R205 names it twice, the table of 20_memory.md R73 once), and that the
order of the two reads, which R73 leaves open, is a parameter of the installation, is the model's
(notes/assumptions/23.md). -/
def Obligations.FdDividesTheFractions : Prop :=
  ∀ (s u : State) (w : Reg) (a : AddressPart) (addr : Word) (e x : Int), s.reaches a addr → u = s.entered a →
    e = (exponentOf (s.pair w)).toInt → x = (exponentOf (u.doubleRead addr)).toInt →
    (s.missing addr = true → exec (.fd w a) s = .next u.clearEx.raise) ∧
    (s.missing addr = false → (u.doubleRead addr).extractLsb' 24 24 = 0 →
      ∃ t, exec (.fd w a) s = .next t ∧ Frame s u.steal t [] [] ∧ Continues s t false ∧ Reports s t 2 true false) ∧
    (s.missing addr = false → (u.doubleRead addr).extractLsb' 24 24 ≠ 0 → s.reg (preceding w) = 0 →
      ∃ t, exec (.fd w a) s = .next t ∧ t.reg w = ((s.reg w).extractLsb' 12 12 : Byte) ++ 0x800#12 ∧
        Frame s u.steal t [w] [] ∧ Continues s t false ∧ Reports s t 2 false false) ∧
    (s.missing addr = false → (u.doubleRead addr).extractLsb' 24 24 ≠ 0 → s.reg (preceding w) ≠ 0 →
      ∃ (t : State) (q : BitVec 39) (k : Nat) (p : BitVec 39 × BitVec 13), exec (.fd w a) s = .next t ∧
        divideFractions (fractionOf (s.pair w)) (loadSF (fractionOf (u.doubleRead addr))) = some (q, k) ∧
        p = normalizeAndRound 2 q (BitVec.ofInt 13 (e - x + 36 - k)) ∧ t.pair w = floatingResult s.lowPrecision p ∧
        Frame s u.steal t [preceding w, w] [] ∧ Continues s t false ∧ Reports s t 2 (exponentOut p.2) false)

/-- 43_floating_point.md R221: of two normalized fractions the division cycle delivers, after 35 or 36 cycles, a
quotient with its rounding digit that is within half a unit of the last place of the exact quotient. -/
def Obligations.DivisionOfNormalizedFractionsIsAccurate : Prop :=
  ∀ (f m : BitVec 36), normalizedFraction f → normalizedFraction m →
    ∃ (q : BitVec 39) (k : Nat), divideFractions f (loadSF m) = some (q, k) ∧ (k = 35 ∨ k = 36) ∧
      |f.toInt * 2 ^ (k + 1) - q.toInt * m.toInt| ≤ 2 * |m.toInt|

/-! ## Sequencing -/

/-- 45_sequencing.md R270: the jump, its link, and the two tests that come before both. -/
def Obligations.JlLinksAndJumps : Prop :=
  ∀ (s u : State) (w : Reg) (a : AddressPart) (addr : Word), s.reaches a addr → u = s.entered a →
    (s.missing addr = true → exec (.jl w a) s = .next u.raise) ∧
    (s.missing addr = false → s.storeForbidden addr → exec (.jl w a) s = .next u.raise) ∧
    (s.missing addr = false → ¬s.storeForbidden addr →
      ∃ t, exec (.jl w a) s = .next t ∧ t.ic = evenAddress addr ∧ Quiet s t ∧
        (w = .w0 → Frame s u t [] []) ∧ (w ≠ .w0 → t.reg w = s.ic + 2 ∧ Frame s u t [w] []))

/-- 45_sequencing.md R272 to R279: the seven skips that compare or mask, and SP, which skips when the word is
unprotected, in either mode. Bits 0 to 20 of the mask of SX have no effect. -/
def Obligations.SkipsFollowTheirConditions : Prop :=
  ∀ (s u : State) (w : Reg) (a : AddressPart) (addr : Word), s.reaches a addr → u = s.entered a →
    (∀ (i : Instr) (skip : Bool), (i, skip) ∈ [
       (Instr.sh w a, decide (addr.toInt < (s.reg w).toInt)),
       (Instr.sl w a, decide ((s.reg w).toInt < addr.toInt)),
       (Instr.se w a, decide ((s.reg w).toInt = addr.toInt)),
       (Instr.sn w a, decide ((s.reg w).toInt ≠ addr.toInt)),
       (Instr.so w a, decide (∀ b : Fin 24, addr.getMsbD b = true → (s.reg w).getMsbD b = true)),
       (Instr.sz w a, decide (∀ b : Fin 24, addr.getMsbD b = true → (s.reg w).getMsbD b = false)),
       (Instr.sx w a, decide (∀ b : Fin 3, addr.getMsbD (21 + b) = true → s.ex.getMsbD b = false))] →
     ∃ t, exec i s = .next t ∧ Frame s u t [] [] ∧ Quiet s t ∧ Continues s t skip) ∧
    (s.missing addr = true → exec (.sp w a) s = .next u.raise) ∧
    (s.missing addr = false →
      ∃ t, exec (.sp w a) s = .next t ∧ Frame s u t [] [] ∧ Quiet s t ∧
        Continues s t (!s.pr.getMsbD (s.keyRead addr).toNat))

/-! ## Monitor control -/

/-- 46_monitor_control.md R291, R292: the privileged jumps, with no test of the target's protection. -/
def Obligations.JeAndJdSetTheInterruptSwitchAndJump : Prop :=
  ∀ (s u : State) (w : Reg) (a : AddressPart) (addr : Word), s.reaches a addr → u = s.entered a →
    ∀ (i : Instr) (disabled : Bool), (i, disabled) ∈ [(Instr.je w a, false), (Instr.jd w a, true)] →
    (¬s.privilegedAt → exec i s = .next u.raise) ∧
    (s.privilegedAt → s.missing addr = true → exec i s = .next u.raise) ∧
    (s.privilegedAt → s.missing addr = false →
      ∃ t, exec i s = .next t ∧ t.ic = evenAddress addr ∧ t.interruptDisabled = disabled ∧ Quiet s t ∧
        (w ≠ .w0 → t.reg w = s.ic + 2) ∧ SameStorage u t (if w = .w0 then [] else [w]) [] ∧
        t.pr = s.pr ∧ t.im = s.im ∧ t.keys = s.keys ∧ SameDevices s t ∧ SameConsole s t ∧ DecodeDone s t ∧
        t.steals = u.steals)

/-- 46_monitor_control.md R294: the bits of A clear the bits of IR; A is no address. -/
def Obligations.IcClearsTheSelectedRequests : Prop :=
  ∀ (s u : State) (w : Reg) (a : AddressPart) (addr : Word), s.reaches a addr → u = s.entered a →
    (¬s.privilegedAt → exec (.ic w a) s = .next u.raise) ∧
    (s.privilegedAt →
      ∃ t, exec (.ic w a) s = .next t ∧
        (∀ b < 24, t.ir.getMsbD b = (s.ir.getMsbD b && !addr.getMsbD b)) ∧
        t.ex = s.ex ∧ Frame s u t [] [] ∧ Continues s t false)

/-- 46_monitor_control.md R296, R304: ML and PL load their register; IM(0) and PR(0) stay 1. -/
def Obligations.MlAndPlKeepBitZeroOne : Prop :=
  ∀ (s u : State) (w : Reg) (a : AddressPart) (addr : Word), s.reaches a addr → u = s.entered a →
    ∀ i ∈ [Instr.ml w a, Instr.pl w a],
    (¬s.privilegedAt → exec i s = .next u.raise) ∧
    (s.privilegedAt → s.missing addr = true → exec i s = .next u.raise) ∧
    (s.privilegedAt → s.missing addr = false →
      ∃ t, exec i s = .next t ∧
        (i = .ml w a → t.pr = s.pr ∧ ∀ b < 24, t.im.getMsbD b = (decide (b = 0) || (u.wordRead addr).getMsbD b)) ∧
        (i = .pl w a → t.im = s.im ∧ ∀ b < 8, t.pr.getMsbD b = (decide (b = 0) || (u.byteRead addr).getMsbD (4 + b))) ∧
        t.interruptDisabled = s.interruptDisabled ∧ t.keys = s.keys ∧ SameStorage u t [] [] ∧ SameDevices s t ∧
        SameConsole s t ∧ DecodeDone s t ∧ t.steals = u.steals ∧ Quiet s t ∧ Continues s t false)

/-- 46_monitor_control.md R300: XL loads EX from the three rightmost bits of the byte and makes no request. -/
def Obligations.XlLoadsTheExceptionRegister : Prop :=
  ∀ (s u : State) (w : Reg) (a : AddressPart) (addr : Word), s.reaches a addr → u = s.entered a →
    (s.missing addr = true → exec (.xl w a) s = .next u.raise) ∧
    (s.missing addr = false →
      ∃ t, exec (.xl w a) s = .next t ∧ t.ex.toNat = (u.byteRead addr).toNat % 8 ∧ t.ir = s.ir ∧ Frame s u t [] [] ∧
        Continues s t false)

/-- 46_monitor_control.md R309: KS changes one key and no data; no test of protection is made. -/
def Obligations.KsChangesOneKeyAndNoData : Prop :=
  ∀ (s u : State) (w : Reg) (a : AddressPart) (addr : Word), s.Inv → s.reaches a addr → u = s.entered a →
    (¬s.privilegedAt → exec (.ks w a) s = .next u.raise) ∧
    (s.privilegedAt → s.missing addr = true → exec (.ks w a) s = .next u.raise) ∧
    (s.privilegedAt → s.missing addr = false →
      ∃ t, exec (.ks w a) s = .next t ∧ (t.keyRead addr).toNat = (s.reg w).toNat % 8 ∧
        (∀ b, wordNumber b ≠ wordNumber addr → t.keyRead b = s.keyRead b) ∧
        t.pr = s.pr ∧ t.im = s.im ∧ t.interruptDisabled = s.interruptDisabled ∧ SameStorage u t [] [] ∧
        SameDevices s t ∧ SameConsole s t ∧ DecodeDone s t ∧ t.steals = u.steals ∧ Quiet s t ∧ Continues s t false)

/-! ## Input/output -/

/-- 47_input_output.md R321, R324: a command to a device that is disconnected or busy is rejected: EX(22) or EX(23) is
set, and nothing else happens. -/
def Obligations.IoRejectsDisconnectedAndBusyDevices : Prop :=
  ∀ (s u : State) (w : Reg) (a : AddressPart) (addr : Word) (n : Nat),
    s.reaches a addr → u = s.entered a → s.privilegedAt →
    n = addr.toNat / 64 % 2 ^ s.inst.deviceAddressBits → s.condition n ≠ .available →
    ∃ t, exec (.io w a) s = .next t ∧ Frame s u t [] [] ∧ Continues s t false ∧ t.ir = s.ir ∧
      t.ex = BitVec.ofBool (s.ex.getMsbD 0) ++ BitVec.ofBool (decide (s.condition n = .disconnected)) ++
        BitVec.ofBool (decide (s.condition n = .busy))

/-- 47_input_output.md R323, R324, R345: an available device takes the 6-bit command. Sense delivers its buffer and
leaves it as it is; control and write send the register to the buffer; after read, control and write the device is
busy, and a control command to a device on the high-speed channel starts a block transfer (R340). Four clauses are the
model's choices: no other command starts one (notes/assumptions/17.md), an interval timer stays as it is
(notes/assumptions/15.md), an external interrupt register takes the commands as any device does
(notes/assumptions/16.md), and a sense reads the bits that the buffer has (notes/assumptions/20.md). -/
def Obligations.IoSendsItsCommandToAnAvailableDevice : Prop :=
  ∀ (s u : State) (w : Reg) (a : AddressPart) (addr : Word) (n : Nat) (d : Device),
    s.reaches a addr → u = s.entered a → s.privilegedAt →
    n = addr.toNat / 64 % 2 ^ s.inst.deviceAddressBits → s.device? n = some d → d.state = .available →
    ∃ t, exec (.io w a) s = .next t ∧ Reports s t 0 false false ∧ Continues s t false ∧ SameControl s t ∧
      SameConsole s t ∧ DecodeDone s t ∧ t.steals = u.steals ∧ (∀ k, k ≠ n → t.device? k = s.device? k) ∧
      (addr.toNat % 4 = 0 → t.reg w = d.buffer &&& d.mask ∧ SameStorage u t [w] [] ∧ t.device? n = some d ∧
        t.commands = s.commands ++ [⟨n, addr.setWidth 6, none⟩]) ∧
      (addr.toNat % 4 = 2 → SameStorage u t [] [] ∧ t.commands = s.commands ++ [⟨n, addr.setWidth 6, none⟩] ∧
        t.device? n = some (if d.kind = .intervalTimer then d else
          { d with condition := .busy, transferring := decide (d.kind ≠ .highSpeed) && d.transferring })) ∧
      (addr.toNat % 4 = 1 ∨ addr.toNat % 4 = 3 → SameStorage u t [] [] ∧
        t.commands = s.commands ++ [⟨n, addr.setWidth 6, some (s.reg w)⟩] ∧
        t.device? n = some (if d.kind = .intervalTimer then d else
          { d with
            buffer := s.reg w, condition := .busy
            transferring := if d.kind = .highSpeed then decide (addr.toNat % 4 = 1) else d.transferring }))

/-- 47_input_output.md R330: Autoload Word with a device 0 that delivers four 6-bit characters, one after each read
command. The word receives the characters, its key becomes 0; the events come from the script of the environment
(notes/assumptions/7.md). -/
def Obligations.AwLoadsFourCharactersAndClearsTheKey : Prop :=
  ∀ (s : State) (w : Reg) (a : AddressPart) (addr : Word) (d : Device) (c1 c2 c3 c4 : BitVec 6)
    (rest : List (List EnvEvent)),
    s.Inv → s.reaches a addr → s.privilegedAt → s.run = .running → s.device? 0 = some d → d.kind = .ordinary →
    d.condition = .available → d.used &&& 0x00003F = 0x00003F →
    s.schedule = [[.complete 0 (some (c1.setWidth 24))], [], [.complete 0 (some (c2.setWidth 24))], [],
      [.complete 0 (some (c3.setWidth 24))], [], [.complete 0 (some (c4.setWidth 24))]] ++ rest →
    ∃ t, exec (.aw w a) s = .next t ∧ t.schedule = rest ∧ t.run = .running ∧
      t.commands = s.commands ++ List.replicate 4 ⟨0, 2, none⟩ ∧ (∀ k, k ≠ 0 → t.device? k = s.device? k) ∧
      t.ex = BitVec.ofBool (s.ex.getMsbD 0) ++ 0#2 ∧ t.pr = s.pr ∧ t.im = s.im ∧
      (s.missing addr = false →
        (wordNumber addr < 4 ∨ s.spares 4 (wordNumber addr) → t.wordRead addr = c1 ++ c2 ++ c3 ++ c4) ∧
        t.keyRead addr = 0 ∧ Continues s t false ∧ DecodeDone s t ∧
        t.ir = s.ir ∧ t.interruptDisabled = s.interruptDisabled ∧
        (∀ b, wordNumber b ≠ wordNumber addr → t.keyRead b = s.keyRead b) ∧
        SameStorageSparing 4 s t [] (wordBytes addr)) ∧
      (s.missing addr = true →
        (s.spares 5 5 → t.wordRead 10 = s.ic + 2) ∧ (s.spares 5 4 → t.wordRead 8 = 0) ∧
        t.ic = evenAddress (t.wordRead 12) ∧ t.keys = s.keys ∧
        SameStorageSparing 5 s t [] (wordBytes 8 ++ wordBytes 10))

/-- 47_input_output.md R330, 70_reset_and_hazards.md R413: Autoload Word enters its loops, and each look at device 0
waits while the device is busy, resets the system when it is disconnected or reports a status other than end of buffer,
repeats the read after end of buffer, and takes a character otherwise; the last one ends the instruction. That the wait
is a control state, and takes its events from the script until that is used up, is the model's choice
(notes/assumptions/7.md). -/
def Obligations.AutoloadWordTakesOneLookAtATime : Prop :=
  (∀ (s u : State) (w : Reg) (a : AddressPart) (addr : Word), s.reaches a addr → u = s.entered a → s.privilegedAt →
    exec (.aw w a) s = step { u with run := .autoloading ⟨addr, 0, 4, false⟩, schedule := [] :: u.schedule }) ∧
  (∀ (s t : State) (p : Autoload) (es : List EnvEvent) (rest : List (List EnvEvent)),
    s.run = .autoloading p → s.schedule = [] → step s = .next t →
    (∀ q, t.run = .autoloading q →
      step { s with schedule := [] :: es :: rest } = step { t with schedule := es :: rest }) ∧
    ((∀ q, t.run ≠ .autoloading q) →
      step { s with schedule := [] :: es :: rest } = .next { t with schedule := es :: rest })) ∧
  ∀ (s : State) (p : Autoload) (c : Word), s.Inv → s.run = .autoloading p → s.schedule = [] → c = s.sensedWord 0 →
    (s.condition 0 = .busy → step s = .next s) ∧
    (s.condition 0 = .available → p.reading = false →
      ∃ t, step s = .next t ∧ t.commands = s.commands ++ [⟨0, 2, none⟩] ∧
        t = { s with
          run := .autoloading { p with reading := true }, commands := t.commands, ex := s.clearEx.ex
          devices := t.devices } ∧
        (∀ k, k ≠ 0 → t.device? k = s.device? k) ∧
        ∀ d, s.device? 0 = some d → d.kind = .ordinary → t.device? 0 = some { d with condition := .busy }) ∧
    (s.condition 0 = .available → p.reading = true → c.getMsbD 0 = true →
      step s = .next { s with run := .autoloading { p with reading := false }, ex := s.clearEx.ex }) ∧
    (s.condition 0 = .available → p.reading = true → (∀ b < 12, c.getMsbD b = false) → 1 < p.remaining →
      ∃ acc, acc.toNat = (p.acc.toNat * 64 % 2 ^ 24) ||| c.toNat ∧
        step s = .next { s with
          run := .autoloading ⟨p.target, acc, p.remaining - 1, false⟩, ex := s.clearEx.ex }) ∧
    (s.condition 0 = .available → p.reading = true → (∀ b < 12, c.getMsbD b = false) → p.remaining = 1 →
      ∃ acc, acc.toNat = (p.acc.toNat * 64 % 2 ^ 24) ||| c.toNat ∧
        step s = .next (State.finishAutoload { s with ex := s.clearEx.ex } p.target acc)) ∧
    ((s.condition 0 = .disconnected ∨ (s.condition 0 = .available ∧ p.reading = true ∧ c.getMsbD 0 = false ∧
        ∃ b < 12, c.getMsbD b = true)) →
      ∃ t, step s = .next t ∧ t.run = .resetState ∧ t.wordRead 10 = s.ic ∧ t.ic = s.ic ∧ t.monitorMode = true ∧
        t.interruptDisabled = true ∧ t.resetKey = false ∧ t.startKey = false ∧ t.autoloadKey = false ∧
        t.ex = (if s.condition 0 = .disconnected then s.ex else s.clearEx.ex) ∧ t.ir = s.ir ∧ t.pr = s.pr ∧
        t.im = s.im ∧ t.keys = s.keys ∧ SameDevices s t ∧ SameStorage s.steal t [] (wordBytes 10))

/-! ## Reset, start and power -/

/-- 70_reset_and_hazards.md R401, R408, 10_state.md R25, R29, R32, R45: what is defined after Power On, in `State.reset`
and after a power failure. With the power off nothing changes the store, the keys or the control state; Power On keeps
them, word 10 included, and the population of devices (00_scope.md R7); the registers hold any values, and so do the
buffers and conditions of the devices present. Every other value of `State.reset` is the model's own
(notes/assumptions/2.md), and so are what Power On does to a device, where R45 says device-dependent, and that a power
failure in the reset state, tested before the two keys, only turns the power off (notes/assumptions/8.md). -/
def Obligations.ResetLeavesTheMachineAsPowerOnDoes : Prop :=
  (State.reset.run = .resetState ∧ State.reset.monitorMode = true ∧ State.reset.interruptDisabled = true ∧
    State.reset.resetKey = false ∧ State.reset.startKey = false ∧ State.reset.autoloadKey = false ∧
    State.reset.pr.getMsbD 0 = true ∧ State.reset.im.getMsbD 0 = true) ∧
  (∀ (s t : State) (v : PowerOnValues), s.run = .powerOff → t = s.event (.powerOn v) →
    t.run = .resetState ∧ t.monitorMode = true ∧ t.interruptDisabled = true ∧ t.resetKey = false ∧
    t.startKey = false ∧ t.autoloadKey = false ∧ t.amPending = none ∧
    t.store = s.store ∧ t.wordRead 10 = s.wordRead 10 ∧ t.keys = s.keys ∧
    t.regs = v.regs ∧ t.ic = evenAddress v.ic ∧ t.ex = v.ex ∧ t.ir = v.ir ∧
    (∀ n, t.device? n = (s.device? n).map fun d =>
      match v.devices.lookup n with
      | some x => { d with
          buffer := x.buffer, condition := x.condition
          transferring := d.transferring && x.condition != .available }
      | none => d) ∧
    (∀ b < 8, t.pr.getMsbD b = (decide (b = 0) || v.pr.getMsbD b)) ∧
    ∀ b < 24, t.im.getMsbD b = (decide (b = 0) || v.im.getMsbD b)) ∧
  (∀ (s : State) (e : EnvEvent), s.run = .powerOff → (∀ v, e ≠ .powerOn v) →
    (s.event e).store = s.store ∧ (s.event e).keys = s.keys ∧ (s.event e).run = .powerOff) ∧
  (∀ s : State, s.run = .powerOff → s.schedule = [] → step s = .next s) ∧
  ∀ s : State, s.run = .resetState → s.schedule = [] → s.powerFailing = true →
    step s = .next { s with run := .powerOff, powerFailing := false }

/-- 70_reset_and_hazards.md R400, R401, R408: the reset key, or a power failure, polled at the fetch, saves IC in word
10 and changes nothing else but the two modes, the keys and the control state. Two clauses are the model's choices
(notes/assumptions/8.md): the control state in which the power is off, and, where the reset key and a power failure are
found at one poll, that the reset key is acted on first and the power failure stays pending (`t.run`,
`t.powerFailing`). -/
def Obligations.TheResetActionSavesIcInWord10 : Prop :=
  ∀ s u : State, s.Inv → s.takeEvents.run = .running → u = s.takeEvents.poll.steal → u.missing u.ic = false →
    u.amPending = none → u.resetKey = true ∨ u.powerFailing = true →
    ∃ t, step s = .next t ∧ t.run = (if u.resetKey then .resetState else .powerOff) ∧
      t.powerFailing = (u.resetKey && u.powerFailing) ∧ t.wordRead 10 = u.ic ∧ t.monitorMode = true ∧
      t.interruptDisabled = true ∧ t.resetKey = false ∧ t.startKey = false ∧ t.autoloadKey = false ∧ t.ic = u.ic ∧
      Quiet u t ∧ t.pr = u.pr ∧ t.im = u.im ∧ t.keys = u.keys ∧ SameDevices u t ∧
      SameStorage u.steal t [] (wordBytes 10)

/-- 70_reset_and_hazards.md R402, R404: in the reset state nothing is executed until the start key (or the autoload key)
is pressed; then the program at the address in word 14 starts in monitor mode with interrupts disabled, the modes that
`State.resetModes` says the reset state has. -/
def Obligations.TheResetStateWaitsForTheStartKey : Prop :=
  ∀ s : State, s.resetModes → s.run = .resetState → s.schedule = [] → s.powerFailing = false → s.autoloadKey = false →
    (s.startKey = false → step s = .next s) ∧
    (s.startKey = true → step s = fetchAndExecute { s.steal with
      run := .running, ic := evenAddress (s.steal.wordRead 14), monitorMode := true, interruptDisabled := true })

/-- 70_reset_and_hazards.md R402, R406, 47_input_output.md R331: in the reset state the autoload key, which wins over
the start key, enters Autoload Word with IC = 0 and address 0. A device 0 that delivers four characters loads them into
W0, whose key becomes 0, and the machine goes on at IC = 0, in W0; a disconnected one leads back to the reset state with
0 in word 10. The events come from the script of the environment (notes/assumptions/7.md). -/
def Obligations.TheAutoloadKeyLoadsRegisterZero : Prop :=
  ∀ s v : State, v = s.takeEvents → v.Inv → v.resetModes → v.run = .resetState → v.powerFailing = false →
    v.autoloadKey = true →
    step s = step { v with run := .autoloading ⟨0, 0, 4, false⟩, ic := 0, schedule := [] :: v.schedule } ∧
    (∀ (d : Device) (c1 c2 c3 c4 : BitVec 6) (rest : List (List EnvEvent)),
      v.device? 0 = some d → d.kind = .ordinary → d.condition = .available → d.used &&& 0x00003F = 0x00003F →
      v.schedule = [[.complete 0 (some (c1.setWidth 24))], [], [.complete 0 (some (c2.setWidth 24))], [],
        [.complete 0 (some (c3.setWidth 24))], [], [.complete 0 (some (c4.setWidth 24))]] ++ rest →
      ∃ t, step s = .next t ∧ t.schedule = rest ∧ t.run = .running ∧ t.ic = 0 ∧ t.reg .w0 = c1 ++ c2 ++ c3 ++ c4 ∧
        t.wordRead t.ic = t.reg .w0 ∧ t.keyRead 0 = 0 ∧ t.isProtected 0 = true ∧ t.monitorMode = true ∧
        t.interruptDisabled = true ∧ t.commands = v.commands ++ List.replicate 4 ⟨0, 2, none⟩ ∧
        t.ex = BitVec.ofBool (v.ex.getMsbD 0) ++ 0#2 ∧ t.ir = v.ir ∧ t.pr = v.pr ∧ t.im = v.im ∧
        (∀ b, wordNumber b ≠ 0 → t.keyRead b = v.keyRead b) ∧ SameStorageSparing 2 v t [] (wordBytes 0)) ∧
    (v.condition 0 = .disconnected →
      ∃ t, step s = .next t ∧ t.run = .resetState ∧ t.wordRead 10 = 0 ∧ t.autoloadKey = false ∧ t.startKey = false ∧
        t.monitorMode = true ∧ t.interruptDisabled = true ∧ t.keys = v.keys ∧ SameDevices v t ∧
        SameStorage v.steal t [] (wordBytes 10))

/-! ## The environment -/

/-- 60_exceptions.md R363, 20_memory.md R78, 10_state.md R38: but for turning the power on, the environment changes no
register of the processor and no key; it clears no IR bit and sets none of the bits 0 to 2, and it writes no storage
word but the one that a transfer of the channel names; no event changes the parameters or the device population (00_scope.md
R7). What its actions do: a signal sets the IR bits that EXT_LINES
(00_scope.md R8) wires to its source; a busy device completes, and devices are disconnected and become available
(47_input_output.md R322); the interval timer counts modulo 2**14 (R345); signals set bits of an external interrupt
register (R347); a key that is pressed is set, and a power failure waits for the next poll (notes/assumptions/8.md). -/
def Obligations.TheEnvironmentSetsItsInputsAndLeavesTheProcessorAlone : Prop :=
  (∀ (s : State) (e : EnvEvent), s.run ≠ .powerOff →
    (s.event e).regs = s.regs ∧ (s.event e).ic = s.ic ∧ (s.event e).ex = s.ex ∧ (s.event e).pr = s.pr ∧
    (s.event e).im = s.im ∧ (s.event e).monitorMode = s.monitorMode ∧
    (s.event e).interruptDisabled = s.interruptDisabled ∧ (s.event e).keys = s.keys ∧ (s.event e).run = s.run ∧
    (∀ j < 24, s.ir.getMsbD j = true → (s.event e).ir.getMsbD j = true) ∧
    (∀ j < 3, (s.event e).ir.getMsbD j = s.ir.getMsbD j) ∧
    ∀ n, (∀ x, e = .transfer x → s.mayTransfer x = true → x.wordNumber ≠ n) →
      (s.event e).readWordAt n = s.readWordAt n) ∧
  (∀ (s : State) (e : EnvEvent), (s.event e).inst = s.inst ∧ (s.event e).population = s.population) ∧
  (∀ (s t : State) (source : SignalSource), t = s.event (.signal source) →
    { t with ir := s.ir } = s ∧
    ∀ j < 24, t.ir.getMsbD j = true ↔
      s.ir.getMsbD j = true ∨ (3 ≤ j ∧ ∃ l ∈ s.inst.externalLines, l.bit = j ∧ l.source = source)) ∧
  (∀ (s : State) (n : Nat) (data : Option Word),
    ChangesDevice s (s.event (.complete n data)) n fun d =>
      if d.condition = .busy then
        { d with condition := .available, buffer := data.getD d.buffer, transferring := false }
      else d) ∧
  (∀ (s : State) (n : Nat),
    ChangesDevice s (s.event (.disconnect n)) n (fun d => { d with condition := .disconnected }) ∧
    ChangesDevice s (s.event (.connect n)) n fun d =>
      if d.condition = .disconnected then { d with condition := .available, transferring := false } else d) ∧
  (∀ (s : State) (n counts : Nat),
    ChangesDevice s (s.event (.timerAdvance n counts)) n fun d =>
      if d.kind = .intervalTimer then
        { d with buffer := BitVec.ofNat 24 ((d.buffer.toNat + counts) % 2 ^ 14) }
      else d) ∧
  (∀ (s : State) (n : Nat) (bits : Word),
    ChangesDevice s (s.event (.externalBits n bits)) n fun d =>
      if d.kind = .interruptRegister then { d with buffer := d.buffer ||| bits } else d) ∧
  (∀ (s : State) (x : Transfer), s.Inv → s.mayTransfer x = true →
    (s.event (.transfer x)).readWordAt x.wordNumber = x.data) ∧
  ∀ s : State, s.event .pressReset = { s with resetKey := true } ∧ s.event .pressStart = { s with startKey := true } ∧
    s.event .pressAutoload = { s with autoloadKey := true } ∧
    (s.run ≠ .powerOff → s.event .powerFail = { s with powerFailing := true })

/-! ## Promises about all instructions -/

/-- The invariant holds at reset, and the reset state has its modes (70_reset_and_hazards.md R401). -/
def Obligations.TheInvariantHoldsAtReset : Prop :=
  State.reset.Inv ∧ State.reset.resetModes

/-- 10_state.md R25, R29, R32: every step keeps IC(23) = 0, PR(0) = 1 and IM(0) = 1, and the store and the keys keep
their canonical form. The reset state, whenever it is entered, is in monitor mode with interrupts disabled
(70_reset_and_hazards.md R401). -/
def Obligations.EveryStepKeepsTheInvariant : Prop :=
  ∀ s t : State, s.Inv → step s = .next t → t.Inv ∧ (s.resetModes → t.resetModes)

/-- 10_state.md R27: the instructions not named there leave EX unchanged, and only XL changes EX(21). -/
def Obligations.OnlyTheNamedInstructionsChangeEx : Prop :=
  ∀ (i : Instr) (s t : State), s.run = .running → exec i s = .next t →
    (¬i.writesEx → t.ex = s.ex) ∧ ((∀ w a, i ≠ .xl w a) → t.ex.getMsbD 0 = s.ex.getMsbD 0)

/-- 10_state.md R28, R29, R32: PL alone writes PR, ML alone writes IM, KS and AW alone write keys. -/
def Obligations.ProtectionStateHasItsOwnWriters : Prop :=
  ∀ (i : Instr) (s t : State), s.run = .running → exec i s = .next t →
    ((∀ w a, i ≠ .pl w a) → t.pr = s.pr) ∧ ((∀ w a, i ≠ .ml w a) → t.im = s.im) ∧
    ((∀ w a, i ≠ .ks w a ∧ i ≠ .aw w a) → t.keys = s.keys)

/-- 60_exceptions.md R380, 70_reset_and_hazards.md R418: what an instruction executed in task mode cannot do. It changes
no protection register, mask, key or device, and no byte of a protected word but the two words that interruption
service writes; and it leaves task mode by an instruction exception only. It makes at most six accesses to the store; a
word that the channel writes meanwhile is not spoken of (R419). -/
def Obligations.TaskModeCannotTouchProtectedState : Prop :=
  ∀ (i : Instr) (s t : State), s.Inv → s.monitorMode = false → exec i s = .next t →
    t.pr = s.pr ∧ t.im = s.im ∧ t.keys = s.keys ∧ SameDevices s t ∧ SameConsole s t ∧
    (∀ b, 4 ≤ wordNumber b → wordNumber b ≠ 4 → wordNumber b ≠ 5 → s.isProtected b = true →
      s.spares 6 (wordNumber b) → t.byteRead b = s.byteRead b) ∧
    (t.monitorMode = true → (s.spares 6 4 → t.wordRead 8 = 0) ∧ (s.spares 6 5 → t.wordRead 10 = s.ic + 2) ∧
      t.ic = evenAddress (t.wordRead 12) ∧ t.interruptDisabled = true) ∧
    (t.monitorMode = false → t.interruptDisabled = s.interruptDisabled ∧ ∀ b, s.isProtected b = true →
      4 ≤ wordNumber b → s.spares 6 (wordNumber b) → t.byteRead b = s.byteRead b)
end

