-- ==== Sys2Proof/Laws/Division.lean ====
section
/-! SUPPORT. The quotient loop of Divide Floating (43_floating_point.md R221) ends for all operands: the digits differ
from the sign of the quotient after at most 39 cycles, and 35 cycles later the quotient is normalized. -/

namespace Sys2Proof.Laws

open Sys2Proof.Machine

/-! ## Signs -/

theorem getMsbD_zero_eq {n : Nat} (v : BitVec n) : v.getMsbD 0 = decide (v.toInt < 0) := by
  rw [← BitVec.msb_eq_toInt]; rfl

theorem quotientDigit_eq (af : BitVec 39) (sf : BitVec 38) :
    quotientDigit af sf = (decide (af.toInt < 0) == decide (sf.toInt < 0)) := by
  simp only [quotientDigit, getMsbD_zero_eq]

theorem toInt_extendSF (sf : BitVec 38) : (extendSF sf).toInt = sf.toInt :=
  BitVec.toInt_signExtend_of_le (by decide)

theorem toInt_sf_bounds (sf : BitVec 38) : -2 ^ 37 ≤ sf.toInt ∧ sf.toInt < 2 ^ 37 :=
  ⟨BitVec.le_toInt sf, BitVec.toInt_lt⟩

/-- The sum or difference of one cycle, where it does not leave the register. -/
theorem toInt_step (af : BitVec 39) (sf : BitVec 38) (nd : Bool)
    (h : -2 ^ 38 ≤ af.toInt + (if nd then -sf.toInt else sf.toInt) ∧
      af.toInt + (if nd then -sf.toInt else sf.toInt) < 2 ^ 38) :
    (if nd then af - extendSF sf else af + extendSF sf).toInt =
      af.toInt + (if nd then -sf.toInt else sf.toInt) := by
  cases nd
  · simp only [Bool.false_eq_true, if_false, BitVec.toInt_add, toInt_extendSF] at h ⊢
    exact Int.bmod_eq_of_le (by omega) (by omega)
  · simp only [if_true, BitVec.toInt_sub, toInt_extendSF, ← Int.sub_eq_add_neg] at h ⊢
    exact Int.bmod_eq_of_le (by omega) (by omega)

/-- A left shift that loses nothing doubles. -/
theorem toInt_double (v : BitVec 39) (h : -2 ^ 37 ≤ v.toInt ∧ v.toInt < 2 ^ 37) :
    (v <<< 1).toInt = 2 * v.toInt := by
  rw [show v <<< 1 = v + v by rw [BitVec.shiftLeft_eq_mul_twoPow]; bv_omega, BitVec.toInt_add,
    Int.bmod_eq_of_le (by omega) (by omega)]
  omega

/-! ## The end of the loop -/

/-- Bit `p` of the quotient differs from all bits to its left. -/
abbrev firstDigitAt (b : Bool) (p : Nat) (bf : BitVec 36) : Prop :=
  bf.getLsbD p = !b ∧ ∀ i, p < i → i < 36 → bf.getLsbD i = b

/-- Once a digit differs from the sign, the quotient is normalized when that digit reaches bit 1. -/
theorem divideLoop_of_firstDigit (sf : BitVec 38) (b : Bool) :
    ∀ (m p n : Nat) (bf : BitVec 36) (af : BitVec 39) (nd : Bool) (k : Nat),
      p + m = 34 → m < n → firstDigitAt b p bf → ∃ r, divideLoop sf n bf af nd k = some r
  | m, p, n + 1, bf, af, nd, k, hp, hn, hb => by
    unfold divideLoop
    split
    · exact ⟨_, rfl⟩
    · next hne =>
      rcases m with _ | m
      · have h34 := hb.1
        have h35 := hb.2 35 (by omega) (by omega)
        obtain rfl : p = 34 := by omega
        refine absurd ?_ hne
        rw [show bf.getMsbD 0 = bf.getLsbD 35 by simp [BitVec.getMsbD],
          show bf.getMsbD 1 = bf.getLsbD 34 by simp [BitVec.getMsbD], h34, h35]
        cases b <;> decide
      · refine divideLoop_of_firstDigit sf b m (p + 1) n _ _ _ _ (by omega) (by omega) ?_
        have shifted : ∀ i, 0 < i → i < 36 →
            ((bf <<< 1) ||| (BitVec.ofBool nd).setWidth 36).getLsbD i = bf.getLsbD (i - 1) := by
          intro i h0 hi
          have : (BitVec.ofBool nd).getLsbD i = false := BitVec.getLsbD_of_ge _ _ (by omega)
          rw [BitVec.getLsbD_or, BitVec.getLsbD_setWidth, this, BitVec.getLsbD_shiftLeft]
          simp [hi, show ¬ i < 1 by omega]
        exact ⟨by rw [shifted _ (by omega) (by omega)]; exact hb.1,
          fun i h1 h2 => by rw [shifted _ (by omega) h2]; exact hb.2 _ (by omega) (by omega)⟩

/-- The quotient register while all digits have been the sign's. -/
abbrev signFill (b : Bool) : BitVec 36 := if b then BitVec.allOnes 36 else 0

theorem signFill_shift (b : Bool) : (signFill b <<< 1) ||| (BitVec.ofBool b).setWidth 36 = signFill b := by
  cases b <;> decide

theorem signFill_firstDigit (b : Bool) : firstDigitAt b 0 ((signFill b <<< 1) ||| (BitVec.ofBool !b).setWidth 36) := by
  have : ∀ b : Bool, ((signFill b <<< 1) ||| (BitVec.ofBool !b).setWidth 36).getLsbD 0 = !b ∧
      ∀ i : Fin 36, 0 < i.val → ((signFill b <<< 1) ||| (BitVec.ofBool !b).setWidth 36).getLsbD i.val = b := by decide
  exact ⟨(this b).1, fun i h0 hi => (this b).2 ⟨i, hi⟩ h0⟩

/-- What a cycle adds while the digits are the sign's. -/
abbrev addend (b : Bool) (sf : BitVec 38) : Int := if b then -sf.toInt else sf.toInt

/-- When the next digit differs from the sign, 36 more passes are enough. -/
theorem divideLoop_of_change (sf : BitVec 38) (b : Bool) (n : Nat) (af : BitVec 39) (k : Nat) (hn : 36 ≤ n) :
    ∃ r, divideLoop sf n (signFill b) af (!b) k = some r := by
  obtain ⟨n, rfl⟩ : ∃ m, n = m + 1 := ⟨n - 1, by omega⟩
  unfold divideLoop
  rw [if_neg (by cases b <;> decide)]
  exact divideLoop_of_firstDigit sf b 34 0 n _ _ _ _ (by omega) (by omega) (signFill_firstDigit b)

/-- The digits leave the sign: the remainder plus twice the addend doubles in every cycle, and it is bounded by twice
the addend as long as the digit is the sign's. -/
theorem divideLoop_of_sign (sf : BitVec 38) (b : Bool) (hs : sf.toInt ≠ 0) :
    ∀ (m n : Nat) (af : BitVec 39) (k : Nat), m + 37 ≤ n → quotientDigit af sf = b →
      (0 < addend b sf → af.toInt < 0 ∧ 2 ^ 39 ≤ (af.toInt + 2 * addend b sf) * 2 ^ m) →
      (addend b sf < 0 → 0 ≤ af.toInt ∧ (af.toInt + 2 * addend b sf) * 2 ^ m ≤ -2 ^ 39) →
      ∃ r, divideLoop sf n (signFill b) af b k = some r
  | m, n + 1, af, k, hn, hq, hpos, hneg => by
    have hS := toInt_sf_bounds sf
    have hT : addend b sf ≠ 0 ∧ -2 ^ 37 ≤ addend b sf ∧ addend b sf ≤ 2 ^ 37 := by
      unfold addend; split <;> omega
    have hpow : (0 : Int) < 2 ^ m := by positivity
    have hr := toInt_step af sf b
    unfold divideLoop
    rw [if_neg (by cases b <;> decide)]
    simp only
    change (-2 ^ 38 ≤ af.toInt + addend b sf ∧ af.toInt + addend b sf < 2 ^ 38 → _ = af.toInt + addend b sf) at hr
    -- the remainder of this cycle stays within the addend
    have hbound : |af.toInt + addend b sf| ≤ |addend b sf| := by
      rcases lt_or_gt_of_ne hT.1 with h | h
      · obtain ⟨h0, h1⟩ := hneg h
        have : af.toInt + 2 * addend b sf < 0 := by nlinarith
        rw [abs_of_neg h, abs_le]; constructor <;> omega
      · obtain ⟨h0, h1⟩ := hpos h
        have : 0 < af.toInt + 2 * addend b sf := by nlinarith
        rw [abs_of_pos h, abs_le]; constructor <;> omega
    rw [abs_le] at hbound
    have habs : |addend b sf| ≤ 2 ^ 37 := abs_le.2 ⟨hT.2.1, hT.2.2⟩
    have hr := hr ⟨by omega, by omega⟩
    rcases m with _ | m
    · exfalso
      rcases lt_or_gt_of_ne hT.1 with h | h
      · obtain ⟨h0, h1⟩ := hneg h; omega
      · obtain ⟨h0, h1⟩ := hpos h; omega
    · by_cases hd : quotientDigit (if b then af - extendSF sf else af + extendSF sf) sf = b
      · rw [hd, signFill_shift]
        have hd' := hd
        rw [quotientDigit_eq, hr] at hd'
        have hstrict : af.toInt + addend b sf < 2 ^ 37 ∧ -2 ^ 37 ≤ af.toInt + addend b sf := by
          refine ⟨?_, by omega⟩
          rcases lt_or_gt_of_ne hT.1 with h | h
          · obtain ⟨h0, h1⟩ := hneg h
            rw [abs_of_neg h] at hbound habs
            have : af.toInt + 2 * addend b sf < 0 := by nlinarith
            omega
          · obtain ⟨h0, _⟩ := hpos h
            omega
        have hdouble := toInt_double _ (by rw [hr]; exact ⟨hstrict.2, hstrict.1⟩)
        rw [hr] at hdouble
        refine divideLoop_of_sign sf b hs m n _ _ (by omega) ?_ ?_ ?_
        · rw [quotientDigit_eq, hdouble]
          refine Eq.trans ?_ hd'
          rw [show decide (2 * (af.toInt + addend b sf) < 0) = decide (af.toInt + addend b sf < 0) by
            rw [decide_eq_decide]; omega]
        · intro h
          obtain ⟨h0, h1⟩ := hpos h
          rw [hdouble]
          refine ⟨?_, ?_⟩
          · unfold addend at *; cases b <;> simp at * <;> omega
          · calc (2 : Int) ^ 39 ≤ (af.toInt + 2 * addend b sf) * 2 ^ (m + 1) := h1
              _ = _ := by ring
        · intro h
          obtain ⟨h0, h1⟩ := hneg h
          rw [hdouble]
          refine ⟨?_, ?_⟩
          · unfold addend at *; cases b <;> simp at * <;> omega
          · calc _ = (af.toInt + 2 * addend b sf) * 2 ^ (m + 1) := by ring
              _ ≤ _ := h1
      · have hd : quotientDigit (if b then af - extendSF sf else af + extendSF sf) sf = !b := by
          revert hd; cases quotientDigit (if b then af - extendSF sf else af + extendSF sf) sf <;> cases b <;> simp
        rw [hd, signFill_shift]
        exact divideLoop_of_change sf b n _ _ (by omega)

/-! ## The division -/

theorem toInt_loadAF (f : BitVec 36) : (loadAF f).toInt = 4 * f.toInt := by
  rw [loadAF, BitVec.toInt_signExtend_of_le (by decide), BitVec.toInt_append]
  simp

/-- No operands make the quotient loop of Divide Floating run on: the model's fault is never raised. -/
theorem divideLoop_ends (f : BitVec 36) (sf : BitVec 38) (hf : f ≠ 0) (hs : sf ≠ 0) :
    ∃ q, divideFractions f sf = some q := by
  have hS := toInt_sf_bounds sf
  have hs0 : sf.toInt ≠ 0 := fun h => hs (BitVec.eq_of_toInt_eq (by simpa using h))
  have hf0 : f.toInt ≠ 0 := fun h => hf (BitVec.eq_of_toInt_eq (by simpa using h))
  have hfb : -2 ^ 35 ≤ f.toInt ∧ f.toInt < 2 ^ 35 := ⟨BitVec.le_toInt f, BitVec.toInt_lt⟩
  have hAF := toInt_loadAF f
  obtain ⟨z, hz⟩ : ∃ z, quotientDigit (loadAF f) sf = z := ⟨_, rfl⟩
  have hr := toInt_step (loadAF f) sf z
  unfold divideFractions
  simp only [hz]
  rw [quotientDigit_eq, hAF] at hz
  have hb : (-2 ^ 37 ≤ (loadAF f).toInt + (if z then -sf.toInt else sf.toInt)) ∧
      (loadAF f).toInt + (if z then -sf.toInt else sf.toInt) < 2 ^ 37 := by
    rw [hAF]
    cases z <;> simp at hz ⊢ <;> omega
  have hr := hr ⟨by omega, by omega⟩
  have h1 := toInt_double _ (by rw [hr]; exact hb)
  rw [hr] at h1
  have fill : (if z then (0 : BitVec 36) else BitVec.allOnes 36) = signFill (!z) := by cases z <;> rfl
  rw [fill]
  suffices h : ∃ q, divideLoop sf divisionPasses (signFill (!z))
      ((if z then loadAF f - extendSF sf else loadAF f + extendSF sf) <<< 1)
      (quotientDigit ((if z then loadAF f - extendSF sf else loadAF f + extendSF sf) <<< 1) sf) 0 = some q by
    obtain ⟨q, hq⟩ := h
    exact ⟨_, by rw [hq]⟩
  by_cases hd : quotientDigit ((if z then loadAF f - extendSF sf else loadAF f + extendSF sf) <<< 1) sf = !z
  · rw [hd]
    refine divideLoop_of_sign sf (!z) hs0 36 _ _ _ (by decide) hd ?_ ?_
    · intro hpos
      rw [quotientDigit_eq, h1] at hd
      rw [h1, hAF]; rw [hAF] at hd
      unfold addend at *
      cases z <;> simp at * <;> omega
    · intro hneg
      rw [quotientDigit_eq, h1] at hd
      rw [h1, hAF]; rw [hAF] at hd
      unfold addend at *
      cases z <;> simp at * <;> omega
  · have hd : quotientDigit ((if z then loadAF f - extendSF sf else loadAF f + extendSF sf) <<< 1) sf = !!z := by
      revert hd
      cases quotientDigit ((if z then loadAF f - extendSF sf else loadAF f + extendSF sf) <<< 1) sf <;>
        cases z <;> simp
    rw [hd]
    exact divideLoop_of_change sf (!z) _ _ _ (by decide)

end Sys2Proof.Laws
end

