-- ==== Sys2Proof/Laws/Arithmetic.lean ====
section
/-! SUPPORT. The 25-bit adder (40_cycle_and_address_handling.md R130) in terms of integers: the sum delivered, the
overflow and the carry. -/

namespace Sys2Proof.Machine

/-- The two leftmost bits of a two's complement value differ exactly when it does not fit in one bit less. -/
theorem topBits_differ {n : Nat} (r : BitVec (n + 2)) :
    r.getMsbD 0 ≠ r.getMsbD 1 ↔ r.toInt < -2 ^ n ∨ 2 ^ n ≤ r.toInt := by
  have hlt := r.isLt
  have hP : 0 < 2 ^ n := Nat.two_pow_pos n
  have e1 : 2 ^ (n + 1) = 2 * 2 ^ n := by rw [Nat.pow_succ]; omega
  have e2 : 2 ^ (n + 2) = 4 * 2 ^ n := by rw [Nat.pow_add]; omega
  have h0 : r.getMsbD 0 = decide (2 ^ (n + 1) ≤ r.toNat) := by
    rw [← BitVec.msb_eq_getMsbD_zero, BitVec.msb_eq_decide]
    simp
  have h1 : r.getMsbD 1 = decide (r.toNat / 2 ^ n % 2 = 1) := by
    simp [BitVec.getMsbD, BitVec.getLsbD, Nat.testBit_eq_decide_div_mod_eq]
  have cast : ((2 ^ n : Nat) : Int) = 2 ^ n := by push_cast; rfl
  rw [h0, h1, BitVec.toInt_eq_toNat_cond, e1, e2, ← cast]
  rw [e2] at hlt
  generalize 2 ^ n = P at *
  have hdiv : r.toNat / P = 0 ∧ r.toNat < P ∨ r.toNat / P = 1 ∧ P ≤ r.toNat ∧ r.toNat < 2 * P ∨
      r.toNat / P = 2 ∧ 2 * P ≤ r.toNat ∧ r.toNat < 3 * P ∨ r.toNat / P = 3 ∧ 3 * P ≤ r.toNat := by
    have hq : r.toNat / P < 4 := Nat.div_lt_of_lt_mul (by omega)
    have hm := Nat.div_add_mod r.toNat P
    have hl := Nat.mod_lt r.toNat hP
    generalize r.toNat / P = q at *
    generalize r.toNat % P = m at *
    interval_cases q <;> omega
  simp only [ne_eq, decide_eq_decide]
  split <;> rcases hdiv with ⟨h, h'⟩ | ⟨h, h'⟩ | ⟨h, h'⟩ | ⟨h, h'⟩ <;> rw [h] <;> simp <;> omega

/-! ## Sums and differences -/

variable (x y : Word) (cin : Bool)

theorem word_toInt_bounds (v : Word) : -2 ^ 23 ≤ v.toInt ∧ v.toInt < 2 ^ 23 :=
  ⟨BitVec.le_toInt v, BitVec.toInt_lt⟩

theorem toInt_carryIn : (BitVec.ofNat 25 cin.toNat).toInt = cin.toNat := by cases cin <;> decide

/-- The 25-bit sum is the exact sum. -/
theorem toInt_intAdd : (intAdd x y cin).1.toInt = x.toInt + y.toInt + cin.toNat := by
  have hx := word_toInt_bounds x
  have hy := word_toInt_bounds y
  have hc : (cin.toNat : Int) ≤ 1 := by cases cin <;> decide
  simp only [intAdd, add25, BitVec.toInt_add, toInt_carryIn, Int.bmod_add_bmod,
    BitVec.toInt_signExtend_of_le (show 24 ≤ 25 by decide)]
  exact Int.bmod_eq_of_le (by omega) (by omega)

theorem toInt_not_signExtend : (~~~(y.signExtend 25)).toInt = -y.toInt - 1 := by
  have hy := word_toInt_bounds y
  have h : ~~~(y.signExtend 25) = -(y.signExtend 25) - 1 := by
    rw [BitVec.neg_eq_not_add]; simp
  have he : (y.signExtend 25).toInt = y.toInt := BitVec.toInt_signExtend_of_le (by decide)
  have h1 : (1 : BitVec 25).toInt = 1 := by decide
  rw [h, BitVec.toInt_sub, BitVec.toInt_neg, he, h1, Int.bmod_sub_bmod]
  exact Int.bmod_eq_of_le (by omega) (by omega)

/-- The 25-bit difference is the exact difference. -/
theorem toInt_intSub : (intSub x y cin).1.toInt = x.toInt - y.toInt - (1 - cin.toNat) := by
  have hx := word_toInt_bounds x
  have hy := word_toInt_bounds y
  have hc : (cin.toNat : Int) ≤ 1 := by cases cin <;> decide
  have hc0 : (0 : Int) ≤ cin.toNat := by omega
  simp only [intSub, add25, BitVec.toInt_add, toInt_carryIn, Int.bmod_add_bmod, toInt_not_signExtend,
    BitVec.toInt_signExtend_of_le (show 24 ≤ 25 by decide)]
  rw [Int.bmod_eq_of_le (by omega) (by omega)]; omega

/-- The register receives the sum modulo 2**24. -/
theorem sum24_eq (r : BitVec 25) : sum24 r = BitVec.ofInt 24 r.toInt := by
  apply BitVec.eq_of_toInt_eq
  have h : sum24 r = r.setWidth 24 := by
    apply BitVec.eq_of_getLsbD_eq; intro i hi
    simp [sum24, hi]
  rw [h, BitVec.toInt_ofInt, BitVec.toInt_setWidth, BitVec.toInt_eq_toNat_bmod]
  exact (Int.bmod_bmod_of_dvd (by norm_num)).symm

theorem low_signExtend (v : Word) : (v.signExtend 25).toNat % 2 ^ 24 = v.toNat := by
  have : (v.signExtend 25).setWidth 24 = v := by
    apply BitVec.eq_of_getLsbD_eq; intro i hi
    simp [BitVec.getLsbD_signExtend, hi]; omega
  rw [← BitVec.toNat_setWidth, this]

/-- The carry of an addition (R130): the unsigned sum reaches 2**24. -/
theorem intAdd_carry : (intAdd x y cin).2 = decide (2 ^ 24 ≤ x.toNat + y.toNat + cin.toNat) := by
  simp only [intAdd, add25, low_signExtend]

/-- The carry of a subtraction (R130): no borrow. -/
theorem intSub_carry : (intSub x y cin).2 = decide (y.toNat < x.toNat + cin.toNat) := by
  have hy := y.isLt
  have inv : (~~~(y.signExtend 25)).toNat % 2 ^ 24 = 2 ^ 24 - 1 - y.toNat := by
    have h := low_signExtend y
    rw [BitVec.toNat_not]; omega
  simp only [intSub, add25, low_signExtend, inv, decide_eq_decide]
  omega

end Sys2Proof.Machine
end

