-- ==== Sys2Proof/Laws/Plane.lean ====
section
/-! SUPPORT. The laws of the canonical planes: reading after a write, the canonical form kept, and its uniqueness. -/

namespace Sys2Proof.Machine

variable {n : Nat}

/-- Reading where nothing has been listed. -/
theorem readPlane_of_not_mem (m : Plane n) (a : Nat) (h : ∀ c ∈ m, c.1 ≠ a) : readPlane m a = 0 := by
  induction m with
  | nil => rfl
  | cons c m ih =>
    obtain ⟨k, v⟩ := c
    simp only [List.mem_cons, forall_eq_or_imp] at h
    simp [readPlane, h.1, ih h.2]

/-- A listed entry of a rising plane is what its number reads as. -/
theorem readPlane_of_mem (m : Plane n) (hm : m.Pairwise fun c d => c.1 < d.1) {k : Nat} {v : BitVec n}
    (h : (k, v) ∈ m) : readPlane m k = v := by
  induction m with
  | nil => cases h
  | cons c m ih =>
    obtain ⟨j, u⟩ := c
    rw [List.pairwise_cons] at hm
    rcases List.mem_cons.1 h with h | h
    · cases h; simp [readPlane]
    · have hlt := hm.1 _ h
      simp only at hlt
      simp [readPlane, Nat.ne_of_lt hlt, ih hm.2 h]

/-- The numbers listed after a write were listed before, or are the number written. -/
theorem mem_writePlane {m : Plane n} {a : Nat} {v : BitVec n} {c : Nat × BitVec n}
    (h : c ∈ writePlane m a v) : c ∈ m ∨ (c = (a, v) ∧ v ≠ 0) := by
  induction m with
  | nil =>
    simp only [writePlane] at h
    split at h
    · cases h
    · right; simpa using ⟨List.mem_singleton.1 h, ‹_›⟩
  | cons d m ih =>
    obtain ⟨k, u⟩ := d
    simp only [writePlane] at h
    split at h
    · split at h
      · exact .inl h
      · rcases List.mem_cons.1 h with h | h
        · exact .inr ⟨h, ‹_›⟩
        · exact .inl h
    · split at h
      · split at h
        · exact .inl (List.mem_cons_of_mem _ h)
        · rcases List.mem_cons.1 h with h | h
          · exact .inr ⟨h, ‹_›⟩
          · exact .inl (List.mem_cons_of_mem _ h)
      · rcases List.mem_cons.1 h with h | h
        · exact .inl (h ▸ List.mem_cons_self)
        · exact (ih h).imp (List.mem_cons_of_mem _) id

/-- A write keeps the rising order. -/
theorem writePlane_pairwise {m : Plane n} {a : Nat} {v : BitVec n} (hm : m.Pairwise fun c d => c.1 < d.1) :
    (writePlane m a v).Pairwise fun c d => c.1 < d.1 := by
  induction m with
  | nil => simp only [writePlane]; split <;> simp
  | cons d m ih =>
    obtain ⟨k, u⟩ := d
    have hm' := List.pairwise_cons.1 hm
    simp only [writePlane]
    split
    · split
      · exact hm
      · refine List.pairwise_cons.2 ⟨fun c hc => ?_, hm⟩
        rcases List.mem_cons.1 hc with hc | hc
        · simpa [hc] using ‹a < k›
        · exact Nat.lt_trans ‹a < k› (hm'.1 c hc)
    · split
      · next hak =>
        split
        · exact hm'.2
        · exact List.pairwise_cons.2 ⟨fun c hc => hak ▸ hm'.1 c hc, hm'.2⟩
      · refine List.pairwise_cons.2 ⟨fun c hc => ?_, ih hm'.2⟩
        rcases mem_writePlane hc with hc | ⟨hc, -⟩
        · exact hm'.1 c hc
        · simp only [hc]; omega

/-- A write within the bounds keeps the canonical form. -/
theorem planeWf_writePlane {lo hi : Nat} {m : Plane n} {a : Nat} {v : BitVec n} (hm : planeWf lo hi m)
    (ha : lo ≤ a) (hb : a ≤ hi) : planeWf lo hi (writePlane m a v) := by
  refine ⟨writePlane_pairwise hm.1, fun c hc => ?_⟩
  rcases mem_writePlane hc with hc | ⟨hc, hv⟩
  · exact hm.2 c hc
  · subst hc; exact ⟨hv, ha, hb⟩

/-- What a number reads as after a write to a rising plane. -/
theorem readPlane_writePlane {m : Plane n} {a b : Nat} {v : BitVec n} (hm : m.Pairwise fun c d => c.1 < d.1) :
    readPlane (writePlane m a v) b = if a = b then v else readPlane m b := by
  induction m with
  | nil =>
    simp only [writePlane]
    split
    · simp_all [readPlane]
    · simp [readPlane]
  | cons d m ih =>
    obtain ⟨k, u⟩ := d
    have hm' := List.pairwise_cons.1 hm
    have hlow : ∀ x, x ≤ k → readPlane m x = 0 := fun x hx =>
      readPlane_of_not_mem m x fun c hc => by have := hm'.1 c hc; simp only at this; omega
    simp only [writePlane]
    split
    · split
      · next h0 =>
        by_cases hab : a = b
        · subst hab
          simp [readPlane, h0, Nat.ne_of_gt ‹a < k›, hlow a (by omega)]
        · simp [hab]
      · simp [readPlane]
    · split
      · next hak =>
        subst hak
        split
        · next h0 =>
          by_cases hab : a = b
          · subst hab; simp [h0, hlow a]
          · simp [readPlane, hab]
        · simp only [readPlane]
          split <;> rfl
      · simp only [readPlane, ih hm'.2]
        by_cases hkb : k = b
        · have : a ≠ b := by omega
          simp [hkb, this]
        · simp [hkb]

/-- A write changes no other number, in any plane. -/
theorem readPlane_writePlane_other (m : Plane n) {a b : Nat} (v : BitVec n) (h : a ≠ b) :
    readPlane (writePlane m a v) b = readPlane m b := by
  induction m with
  | nil => simp only [writePlane]; split <;> simp [readPlane, h]
  | cons d m ih =>
    obtain ⟨k, u⟩ := d
    simp only [writePlane]
    split
    · split
      · rfl
      · simp [readPlane, h]
    · split
      · next hak => subst hak; split <;> simp [readPlane, h]
      · simp only [readPlane, ih]

/-- Two rising planes without zero entries that read alike are equal: the form is canonical. -/
theorem plane_ext {m1 m2 : Plane n} {lo1 hi1 lo2 hi2 : Nat} (h1 : planeWf lo1 hi1 m1) (h2 : planeWf lo2 hi2 m2)
    (h : ∀ a, readPlane m1 a = readPlane m2 a) : m1 = m2 := by
  induction m1 generalizing m2 with
  | nil =>
    cases m2 with
    | nil => rfl
    | cons c m2 =>
      have := h c.1
      rw [readPlane_of_mem _ h2.1 (List.mem_cons_self (a := c))] at this
      exact absurd this.symm (h2.2 c List.mem_cons_self).1
  | cons c m1 ih =>
    cases m2 with
    | nil =>
      have := h c.1
      rw [readPlane_of_mem _ h1.1 (List.mem_cons_self (a := c))] at this
      exact absurd this (h1.2 c List.mem_cons_self).1
    | cons d m2 =>
      have p1 := List.pairwise_cons.1 h1.1
      have p2 := List.pairwise_cons.1 h2.1
      have r1 : readPlane (c :: m1) c.1 = c.2 := readPlane_of_mem _ h1.1 List.mem_cons_self
      have r2 : readPlane (d :: m2) d.1 = d.2 := readPlane_of_mem _ h2.1 List.mem_cons_self
      have hcd : c.1 = d.1 := by
        rcases Nat.lt_trichotomy c.1 d.1 with hlt | heq | hgt
        · have : readPlane (d :: m2) c.1 = 0 := readPlane_of_not_mem _ _ fun e he => by
            rcases List.mem_cons.1 he with he | he
            · subst he; omega
            · have := p2.1 e he; omega
          exact absurd (r1.symm.trans ((h c.1).trans this)) (h1.2 c List.mem_cons_self).1
        · exact heq
        · have : readPlane (c :: m1) d.1 = 0 := readPlane_of_not_mem _ _ fun e he => by
            rcases List.mem_cons.1 he with he | he
            · subst he; omega
            · have := p1.1 e he; omega
          exact absurd (r2.symm.trans ((h d.1).symm.trans this)) (h2.2 d List.mem_cons_self).1
      have hv : c = d := Prod.ext hcd (by rw [← r1, ← r2, ← hcd, h])
      subst hv
      congr 1
      refine ih ⟨p1.2, fun e he => h1.2 e (List.mem_cons_of_mem _ he)⟩
        ⟨p2.2, fun e he => h2.2 e (List.mem_cons_of_mem _ he)⟩ fun a => ?_
      by_cases hac : c.1 = a
      · rw [readPlane_of_not_mem m1 a fun e he => by have := p1.1 e he; omega,
          readPlane_of_not_mem m2 a fun e he => by have := p2.1 e he; omega]
      · have := h a
        rw [readPlane.eq_def, readPlane.eq_def (c :: m2)] at this
        simpa [hac] using this

end Sys2Proof.Machine
end

