-- ==== Sys2Proof/Laws/State.lean ====
section
/-! SUPPORT. What each update of the state leaves alone: one lemma per field, and per reading of the state that rests on
other fields only. -/

namespace Sys2Proof.Machine

section
variable (s : State) (q : Reg) (v : Word)

@[simp] theorem setReg_ic : (s.setReg q v).ic = s.ic := rfl
@[simp] theorem setReg_ex : (s.setReg q v).ex = s.ex := rfl
@[simp] theorem setReg_pr : (s.setReg q v).pr = s.pr := rfl
@[simp] theorem setReg_monitorMode : (s.setReg q v).monitorMode = s.monitorMode := rfl
@[simp] theorem setReg_ir : (s.setReg q v).ir = s.ir := rfl
@[simp] theorem setReg_im : (s.setReg q v).im = s.im := rfl
@[simp] theorem setReg_interruptDisabled : (s.setReg q v).interruptDisabled = s.interruptDisabled := rfl
@[simp] theorem setReg_store : (s.setReg q v).store = s.store := rfl
@[simp] theorem setReg_keys : (s.setReg q v).keys = s.keys := rfl
@[simp] theorem setReg_run : (s.setReg q v).run = s.run := rfl
@[simp] theorem setReg_amPending : (s.setReg q v).amPending = s.amPending := rfl
@[simp] theorem setReg_resetKey : (s.setReg q v).resetKey = s.resetKey := rfl
@[simp] theorem setReg_startKey : (s.setReg q v).startKey = s.startKey := rfl
@[simp] theorem setReg_autoloadKey : (s.setReg q v).autoloadKey = s.autoloadKey := rfl
@[simp] theorem setReg_powerFailing : (s.setReg q v).powerFailing = s.powerFailing := rfl
@[simp] theorem setReg_devices : (s.setReg q v).devices = s.devices := rfl
@[simp] theorem setReg_inst : (s.setReg q v).inst = s.inst := rfl
@[simp] theorem setReg_commands : (s.setReg q v).commands = s.commands := rfl
@[simp] theorem setReg_schedule : (s.setReg q v).schedule = s.schedule := rfl
@[simp] theorem setReg_steals : (s.setReg q v).steals = s.steals := rfl
@[simp] theorem setReg_keyRead (a : Word) : (s.setReg q v).keyRead a = s.keyRead a := rfl
@[simp] theorem setReg_isProtected (a : Word) : (s.setReg q v).isProtected a = s.isProtected a := rfl
@[simp] theorem setReg_forbids (a : Word) : (s.setReg q v).forbids a = s.forbids a := rfl
@[simp] theorem setReg_missing (a : Word) : (s.setReg q v).missing a = s.missing a := rfl
@[simp] theorem setReg_lowPrecision : (s.setReg q v).lowPrecision = s.lowPrecision := rfl
@[simp] theorem setReg_device (n : Nat) : (s.setReg q v).device? n = s.device? n := rfl
@[simp] theorem setReg_condition (n : Nat) : (s.setReg q v).condition n = s.condition n := rfl
@[simp] theorem setReg_transferring (n : Nat) : (s.setReg q v).transferring n = s.transferring n := rfl
@[simp] theorem setReg_mayTransfer (z : Transfer) : (s.setReg q v).mayTransfer z = s.mayTransfer z := rfl
@[simp] theorem setReg_selectedDevice (a : Word) : (s.setReg q v).selectedDevice a = s.selectedDevice a := rfl
@[simp] theorem setReg_honoured : (s.setReg q v).honoured = s.honoured := rfl

end

section
variable (s : State) (q : Reg) (v : DoubleWord)

@[simp] theorem setPair_ic : (s.setPair q v).ic = s.ic := rfl
@[simp] theorem setPair_ex : (s.setPair q v).ex = s.ex := rfl
@[simp] theorem setPair_pr : (s.setPair q v).pr = s.pr := rfl
@[simp] theorem setPair_monitorMode : (s.setPair q v).monitorMode = s.monitorMode := rfl
@[simp] theorem setPair_ir : (s.setPair q v).ir = s.ir := rfl
@[simp] theorem setPair_im : (s.setPair q v).im = s.im := rfl
@[simp] theorem setPair_interruptDisabled : (s.setPair q v).interruptDisabled = s.interruptDisabled := rfl
@[simp] theorem setPair_store : (s.setPair q v).store = s.store := rfl
@[simp] theorem setPair_keys : (s.setPair q v).keys = s.keys := rfl
@[simp] theorem setPair_run : (s.setPair q v).run = s.run := rfl
@[simp] theorem setPair_amPending : (s.setPair q v).amPending = s.amPending := rfl
@[simp] theorem setPair_resetKey : (s.setPair q v).resetKey = s.resetKey := rfl
@[simp] theorem setPair_startKey : (s.setPair q v).startKey = s.startKey := rfl
@[simp] theorem setPair_autoloadKey : (s.setPair q v).autoloadKey = s.autoloadKey := rfl
@[simp] theorem setPair_powerFailing : (s.setPair q v).powerFailing = s.powerFailing := rfl
@[simp] theorem setPair_devices : (s.setPair q v).devices = s.devices := rfl
@[simp] theorem setPair_inst : (s.setPair q v).inst = s.inst := rfl
@[simp] theorem setPair_commands : (s.setPair q v).commands = s.commands := rfl
@[simp] theorem setPair_schedule : (s.setPair q v).schedule = s.schedule := rfl
@[simp] theorem setPair_steals : (s.setPair q v).steals = s.steals := rfl
@[simp] theorem setPair_keyRead (a : Word) : (s.setPair q v).keyRead a = s.keyRead a := rfl
@[simp] theorem setPair_isProtected (a : Word) : (s.setPair q v).isProtected a = s.isProtected a := rfl
@[simp] theorem setPair_forbids (a : Word) : (s.setPair q v).forbids a = s.forbids a := rfl
@[simp] theorem setPair_missing (a : Word) : (s.setPair q v).missing a = s.missing a := rfl
@[simp] theorem setPair_lowPrecision : (s.setPair q v).lowPrecision = s.lowPrecision := rfl
@[simp] theorem setPair_device (n : Nat) : (s.setPair q v).device? n = s.device? n := rfl
@[simp] theorem setPair_condition (n : Nat) : (s.setPair q v).condition n = s.condition n := rfl
@[simp] theorem setPair_transferring (n : Nat) : (s.setPair q v).transferring n = s.transferring n := rfl
@[simp] theorem setPair_mayTransfer (z : Transfer) : (s.setPair q v).mayTransfer z = s.mayTransfer z := rfl
@[simp] theorem setPair_selectedDevice (a : Word) : (s.setPair q v).selectedDevice a = s.selectedDevice a := rfl
@[simp] theorem setPair_honoured : (s.setPair q v).honoured = s.honoured := rfl

end

section
variable (s : State) (b : Word) (k : Key)

@[simp] theorem keyWrite_regs : (s.keyWrite b k).regs = s.regs := rfl
@[simp] theorem keyWrite_ic : (s.keyWrite b k).ic = s.ic := rfl
@[simp] theorem keyWrite_ex : (s.keyWrite b k).ex = s.ex := rfl
@[simp] theorem keyWrite_pr : (s.keyWrite b k).pr = s.pr := rfl
@[simp] theorem keyWrite_monitorMode : (s.keyWrite b k).monitorMode = s.monitorMode := rfl
@[simp] theorem keyWrite_ir : (s.keyWrite b k).ir = s.ir := rfl
@[simp] theorem keyWrite_im : (s.keyWrite b k).im = s.im := rfl
@[simp] theorem keyWrite_interruptDisabled : (s.keyWrite b k).interruptDisabled = s.interruptDisabled := rfl
@[simp] theorem keyWrite_store : (s.keyWrite b k).store = s.store := rfl
@[simp] theorem keyWrite_run : (s.keyWrite b k).run = s.run := rfl
@[simp] theorem keyWrite_amPending : (s.keyWrite b k).amPending = s.amPending := rfl
@[simp] theorem keyWrite_resetKey : (s.keyWrite b k).resetKey = s.resetKey := rfl
@[simp] theorem keyWrite_startKey : (s.keyWrite b k).startKey = s.startKey := rfl
@[simp] theorem keyWrite_autoloadKey : (s.keyWrite b k).autoloadKey = s.autoloadKey := rfl
@[simp] theorem keyWrite_powerFailing : (s.keyWrite b k).powerFailing = s.powerFailing := rfl
@[simp] theorem keyWrite_devices : (s.keyWrite b k).devices = s.devices := rfl
@[simp] theorem keyWrite_inst : (s.keyWrite b k).inst = s.inst := rfl
@[simp] theorem keyWrite_commands : (s.keyWrite b k).commands = s.commands := rfl
@[simp] theorem keyWrite_schedule : (s.keyWrite b k).schedule = s.schedule := rfl
@[simp] theorem keyWrite_steals : (s.keyWrite b k).steals = s.steals := rfl
@[simp] theorem keyWrite_reg (r : Reg) : (s.keyWrite b k).reg r = s.reg r := rfl
@[simp] theorem keyWrite_pair (r : Reg) : (s.keyWrite b k).pair r = s.pair r := rfl
@[simp] theorem keyWrite_readWordAt (n : Nat) : (s.keyWrite b k).readWordAt n = s.readWordAt n := rfl
@[simp] theorem keyWrite_wordRead (a : Word) : (s.keyWrite b k).wordRead a = s.wordRead a := rfl
@[simp] theorem keyWrite_byteRead (a : Word) : (s.keyWrite b k).byteRead a = s.byteRead a := rfl
@[simp] theorem keyWrite_doubleRead (a : Word) : (s.keyWrite b k).doubleRead a = s.doubleRead a := rfl
@[simp] theorem keyWrite_missing (a : Word) : (s.keyWrite b k).missing a = s.missing a := rfl
@[simp] theorem keyWrite_lowPrecision : (s.keyWrite b k).lowPrecision = s.lowPrecision := rfl
@[simp] theorem keyWrite_device (n : Nat) : (s.keyWrite b k).device? n = s.device? n := rfl
@[simp] theorem keyWrite_condition (n : Nat) : (s.keyWrite b k).condition n = s.condition n := rfl
@[simp] theorem keyWrite_transferring (n : Nat) : (s.keyWrite b k).transferring n = s.transferring n := rfl
@[simp] theorem keyWrite_mayTransfer (z : Transfer) : (s.keyWrite b k).mayTransfer z = s.mayTransfer z := rfl
@[simp] theorem keyWrite_selectedDevice (a : Word) : (s.keyWrite b k).selectedDevice a = s.selectedDevice a := rfl
@[simp] theorem keyWrite_honoured : (s.keyWrite b k).honoured = s.honoured := rfl

end

section
variable (s : State) (o c : Bool)

@[simp] theorem setEx_regs : (s.setEx o c).regs = s.regs := rfl
@[simp] theorem setEx_ic : (s.setEx o c).ic = s.ic := rfl
@[simp] theorem setEx_pr : (s.setEx o c).pr = s.pr := rfl
@[simp] theorem setEx_monitorMode : (s.setEx o c).monitorMode = s.monitorMode := rfl
@[simp] theorem setEx_ir : (s.setEx o c).ir = s.ir := rfl
@[simp] theorem setEx_im : (s.setEx o c).im = s.im := rfl
@[simp] theorem setEx_interruptDisabled : (s.setEx o c).interruptDisabled = s.interruptDisabled := rfl
@[simp] theorem setEx_store : (s.setEx o c).store = s.store := rfl
@[simp] theorem setEx_keys : (s.setEx o c).keys = s.keys := rfl
@[simp] theorem setEx_run : (s.setEx o c).run = s.run := rfl
@[simp] theorem setEx_amPending : (s.setEx o c).amPending = s.amPending := rfl
@[simp] theorem setEx_resetKey : (s.setEx o c).resetKey = s.resetKey := rfl
@[simp] theorem setEx_startKey : (s.setEx o c).startKey = s.startKey := rfl
@[simp] theorem setEx_autoloadKey : (s.setEx o c).autoloadKey = s.autoloadKey := rfl
@[simp] theorem setEx_powerFailing : (s.setEx o c).powerFailing = s.powerFailing := rfl
@[simp] theorem setEx_devices : (s.setEx o c).devices = s.devices := rfl
@[simp] theorem setEx_inst : (s.setEx o c).inst = s.inst := rfl
@[simp] theorem setEx_commands : (s.setEx o c).commands = s.commands := rfl
@[simp] theorem setEx_schedule : (s.setEx o c).schedule = s.schedule := rfl
@[simp] theorem setEx_steals : (s.setEx o c).steals = s.steals := rfl
@[simp] theorem setEx_reg (r : Reg) : (s.setEx o c).reg r = s.reg r := rfl
@[simp] theorem setEx_pair (r : Reg) : (s.setEx o c).pair r = s.pair r := rfl
@[simp] theorem setEx_readWordAt (n : Nat) : (s.setEx o c).readWordAt n = s.readWordAt n := rfl
@[simp] theorem setEx_wordRead (a : Word) : (s.setEx o c).wordRead a = s.wordRead a := rfl
@[simp] theorem setEx_byteRead (a : Word) : (s.setEx o c).byteRead a = s.byteRead a := rfl
@[simp] theorem setEx_doubleRead (a : Word) : (s.setEx o c).doubleRead a = s.doubleRead a := rfl
@[simp] theorem setEx_keyRead (a : Word) : (s.setEx o c).keyRead a = s.keyRead a := rfl
@[simp] theorem setEx_isProtected (a : Word) : (s.setEx o c).isProtected a = s.isProtected a := rfl
@[simp] theorem setEx_forbids (a : Word) : (s.setEx o c).forbids a = s.forbids a := rfl
@[simp] theorem setEx_missing (a : Word) : (s.setEx o c).missing a = s.missing a := rfl
@[simp] theorem setEx_device (n : Nat) : (s.setEx o c).device? n = s.device? n := rfl
@[simp] theorem setEx_condition (n : Nat) : (s.setEx o c).condition n = s.condition n := rfl
@[simp] theorem setEx_transferring (n : Nat) : (s.setEx o c).transferring n = s.transferring n := rfl
@[simp] theorem setEx_mayTransfer (z : Transfer) : (s.setEx o c).mayTransfer z = s.mayTransfer z := rfl
@[simp] theorem setEx_selectedDevice (a : Word) : (s.setEx o c).selectedDevice a = s.selectedDevice a := rfl
@[simp] theorem setEx_honoured : (s.setEx o c).honoured = s.honoured := rfl

end

section
variable (s : State)

@[simp] theorem clearEx_regs : (s.clearEx).regs = s.regs := rfl
@[simp] theorem clearEx_ic : (s.clearEx).ic = s.ic := rfl
@[simp] theorem clearEx_pr : (s.clearEx).pr = s.pr := rfl
@[simp] theorem clearEx_monitorMode : (s.clearEx).monitorMode = s.monitorMode := rfl
@[simp] theorem clearEx_ir : (s.clearEx).ir = s.ir := rfl
@[simp] theorem clearEx_im : (s.clearEx).im = s.im := rfl
@[simp] theorem clearEx_interruptDisabled : (s.clearEx).interruptDisabled = s.interruptDisabled := rfl
@[simp] theorem clearEx_store : (s.clearEx).store = s.store := rfl
@[simp] theorem clearEx_keys : (s.clearEx).keys = s.keys := rfl
@[simp] theorem clearEx_run : (s.clearEx).run = s.run := rfl
@[simp] theorem clearEx_amPending : (s.clearEx).amPending = s.amPending := rfl
@[simp] theorem clearEx_resetKey : (s.clearEx).resetKey = s.resetKey := rfl
@[simp] theorem clearEx_startKey : (s.clearEx).startKey = s.startKey := rfl
@[simp] theorem clearEx_autoloadKey : (s.clearEx).autoloadKey = s.autoloadKey := rfl
@[simp] theorem clearEx_powerFailing : (s.clearEx).powerFailing = s.powerFailing := rfl
@[simp] theorem clearEx_devices : (s.clearEx).devices = s.devices := rfl
@[simp] theorem clearEx_inst : (s.clearEx).inst = s.inst := rfl
@[simp] theorem clearEx_commands : (s.clearEx).commands = s.commands := rfl
@[simp] theorem clearEx_schedule : (s.clearEx).schedule = s.schedule := rfl
@[simp] theorem clearEx_steals : (s.clearEx).steals = s.steals := rfl
@[simp] theorem clearEx_reg (r : Reg) : (s.clearEx).reg r = s.reg r := rfl
@[simp] theorem clearEx_pair (r : Reg) : (s.clearEx).pair r = s.pair r := rfl
@[simp] theorem clearEx_readWordAt (n : Nat) : (s.clearEx).readWordAt n = s.readWordAt n := rfl
@[simp] theorem clearEx_wordRead (a : Word) : (s.clearEx).wordRead a = s.wordRead a := rfl
@[simp] theorem clearEx_byteRead (a : Word) : (s.clearEx).byteRead a = s.byteRead a := rfl
@[simp] theorem clearEx_doubleRead (a : Word) : (s.clearEx).doubleRead a = s.doubleRead a := rfl
@[simp] theorem clearEx_keyRead (a : Word) : (s.clearEx).keyRead a = s.keyRead a := rfl
@[simp] theorem clearEx_isProtected (a : Word) : (s.clearEx).isProtected a = s.isProtected a := rfl
@[simp] theorem clearEx_forbids (a : Word) : (s.clearEx).forbids a = s.forbids a := rfl
@[simp] theorem clearEx_missing (a : Word) : (s.clearEx).missing a = s.missing a := rfl
@[simp] theorem clearEx_device (n : Nat) : (s.clearEx).device? n = s.device? n := rfl
@[simp] theorem clearEx_condition (n : Nat) : (s.clearEx).condition n = s.condition n := rfl
@[simp] theorem clearEx_transferring (n : Nat) : (s.clearEx).transferring n = s.transferring n := rfl
@[simp] theorem clearEx_mayTransfer (z : Transfer) : (s.clearEx).mayTransfer z = s.mayTransfer z := rfl
@[simp] theorem clearEx_selectedDevice (a : Word) : (s.clearEx).selectedDevice a = s.selectedDevice a := rfl
@[simp] theorem clearEx_honoured : (s.clearEx).honoured = s.honoured := rfl

end

section
variable (s : State)

@[simp] theorem setOverflow_regs : (s.setOverflow).regs = s.regs := rfl
@[simp] theorem setOverflow_ic : (s.setOverflow).ic = s.ic := rfl
@[simp] theorem setOverflow_pr : (s.setOverflow).pr = s.pr := rfl
@[simp] theorem setOverflow_monitorMode : (s.setOverflow).monitorMode = s.monitorMode := rfl
@[simp] theorem setOverflow_ir : (s.setOverflow).ir = s.ir := rfl
@[simp] theorem setOverflow_im : (s.setOverflow).im = s.im := rfl
@[simp] theorem setOverflow_interruptDisabled : (s.setOverflow).interruptDisabled = s.interruptDisabled := rfl
@[simp] theorem setOverflow_store : (s.setOverflow).store = s.store := rfl
@[simp] theorem setOverflow_keys : (s.setOverflow).keys = s.keys := rfl
@[simp] theorem setOverflow_run : (s.setOverflow).run = s.run := rfl
@[simp] theorem setOverflow_amPending : (s.setOverflow).amPending = s.amPending := rfl
@[simp] theorem setOverflow_resetKey : (s.setOverflow).resetKey = s.resetKey := rfl
@[simp] theorem setOverflow_startKey : (s.setOverflow).startKey = s.startKey := rfl
@[simp] theorem setOverflow_autoloadKey : (s.setOverflow).autoloadKey = s.autoloadKey := rfl
@[simp] theorem setOverflow_powerFailing : (s.setOverflow).powerFailing = s.powerFailing := rfl
@[simp] theorem setOverflow_devices : (s.setOverflow).devices = s.devices := rfl
@[simp] theorem setOverflow_inst : (s.setOverflow).inst = s.inst := rfl
@[simp] theorem setOverflow_commands : (s.setOverflow).commands = s.commands := rfl
@[simp] theorem setOverflow_schedule : (s.setOverflow).schedule = s.schedule := rfl
@[simp] theorem setOverflow_steals : (s.setOverflow).steals = s.steals := rfl
@[simp] theorem setOverflow_reg (r : Reg) : (s.setOverflow).reg r = s.reg r := rfl
@[simp] theorem setOverflow_pair (r : Reg) : (s.setOverflow).pair r = s.pair r := rfl
@[simp] theorem setOverflow_readWordAt (n : Nat) : (s.setOverflow).readWordAt n = s.readWordAt n := rfl
@[simp] theorem setOverflow_wordRead (a : Word) : (s.setOverflow).wordRead a = s.wordRead a := rfl
@[simp] theorem setOverflow_byteRead (a : Word) : (s.setOverflow).byteRead a = s.byteRead a := rfl
@[simp] theorem setOverflow_doubleRead (a : Word) : (s.setOverflow).doubleRead a = s.doubleRead a := rfl
@[simp] theorem setOverflow_keyRead (a : Word) : (s.setOverflow).keyRead a = s.keyRead a := rfl
@[simp] theorem setOverflow_isProtected (a : Word) : (s.setOverflow).isProtected a = s.isProtected a := rfl
@[simp] theorem setOverflow_forbids (a : Word) : (s.setOverflow).forbids a = s.forbids a := rfl
@[simp] theorem setOverflow_missing (a : Word) : (s.setOverflow).missing a = s.missing a := rfl
@[simp] theorem setOverflow_device (n : Nat) : (s.setOverflow).device? n = s.device? n := rfl
@[simp] theorem setOverflow_condition (n : Nat) : (s.setOverflow).condition n = s.condition n := rfl
@[simp] theorem setOverflow_transferring (n : Nat) : (s.setOverflow).transferring n = s.transferring n := rfl
@[simp] theorem setOverflow_mayTransfer (z : Transfer) : (s.setOverflow).mayTransfer z = s.mayTransfer z := rfl
@[simp] theorem setOverflow_selectedDevice (a : Word) : (s.setOverflow).selectedDevice a = s.selectedDevice a := rfl
@[simp] theorem setOverflow_honoured : (s.setOverflow).honoured = s.honoured := rfl

end

section
variable (s : State) (i : Nat)

@[simp] theorem pend_regs : (s.pend i).regs = s.regs := rfl
@[simp] theorem pend_ic : (s.pend i).ic = s.ic := rfl
@[simp] theorem pend_ex : (s.pend i).ex = s.ex := rfl
@[simp] theorem pend_pr : (s.pend i).pr = s.pr := rfl
@[simp] theorem pend_monitorMode : (s.pend i).monitorMode = s.monitorMode := rfl
@[simp] theorem pend_im : (s.pend i).im = s.im := rfl
@[simp] theorem pend_interruptDisabled : (s.pend i).interruptDisabled = s.interruptDisabled := rfl
@[simp] theorem pend_store : (s.pend i).store = s.store := rfl
@[simp] theorem pend_keys : (s.pend i).keys = s.keys := rfl
@[simp] theorem pend_run : (s.pend i).run = s.run := rfl
@[simp] theorem pend_amPending : (s.pend i).amPending = s.amPending := rfl
@[simp] theorem pend_resetKey : (s.pend i).resetKey = s.resetKey := rfl
@[simp] theorem pend_startKey : (s.pend i).startKey = s.startKey := rfl
@[simp] theorem pend_autoloadKey : (s.pend i).autoloadKey = s.autoloadKey := rfl
@[simp] theorem pend_powerFailing : (s.pend i).powerFailing = s.powerFailing := rfl
@[simp] theorem pend_devices : (s.pend i).devices = s.devices := rfl
@[simp] theorem pend_inst : (s.pend i).inst = s.inst := rfl
@[simp] theorem pend_commands : (s.pend i).commands = s.commands := rfl
@[simp] theorem pend_schedule : (s.pend i).schedule = s.schedule := rfl
@[simp] theorem pend_steals : (s.pend i).steals = s.steals := rfl
@[simp] theorem pend_reg (r : Reg) : (s.pend i).reg r = s.reg r := rfl
@[simp] theorem pend_pair (r : Reg) : (s.pend i).pair r = s.pair r := rfl
@[simp] theorem pend_readWordAt (n : Nat) : (s.pend i).readWordAt n = s.readWordAt n := rfl
@[simp] theorem pend_wordRead (a : Word) : (s.pend i).wordRead a = s.wordRead a := rfl
@[simp] theorem pend_byteRead (a : Word) : (s.pend i).byteRead a = s.byteRead a := rfl
@[simp] theorem pend_doubleRead (a : Word) : (s.pend i).doubleRead a = s.doubleRead a := rfl
@[simp] theorem pend_keyRead (a : Word) : (s.pend i).keyRead a = s.keyRead a := rfl
@[simp] theorem pend_isProtected (a : Word) : (s.pend i).isProtected a = s.isProtected a := rfl
@[simp] theorem pend_forbids (a : Word) : (s.pend i).forbids a = s.forbids a := rfl
@[simp] theorem pend_missing (a : Word) : (s.pend i).missing a = s.missing a := rfl
@[simp] theorem pend_lowPrecision : (s.pend i).lowPrecision = s.lowPrecision := rfl
@[simp] theorem pend_device (n : Nat) : (s.pend i).device? n = s.device? n := rfl
@[simp] theorem pend_condition (n : Nat) : (s.pend i).condition n = s.condition n := rfl
@[simp] theorem pend_transferring (n : Nat) : (s.pend i).transferring n = s.transferring n := rfl
@[simp] theorem pend_mayTransfer (z : Transfer) : (s.pend i).mayTransfer z = s.mayTransfer z := rfl
@[simp] theorem pend_selectedDevice (a : Word) : (s.pend i).selectedDevice a = s.selectedDevice a := rfl

end

section
variable (s : State)

@[simp] theorem integerOverflow_regs : (s.integerOverflow).regs = s.regs := rfl
@[simp] theorem integerOverflow_ic : (s.integerOverflow).ic = s.ic := rfl
@[simp] theorem integerOverflow_pr : (s.integerOverflow).pr = s.pr := rfl
@[simp] theorem integerOverflow_monitorMode : (s.integerOverflow).monitorMode = s.monitorMode := rfl
@[simp] theorem integerOverflow_im : (s.integerOverflow).im = s.im := rfl
@[simp] theorem integerOverflow_interruptDisabled : (s.integerOverflow).interruptDisabled = s.interruptDisabled := rfl
@[simp] theorem integerOverflow_store : (s.integerOverflow).store = s.store := rfl
@[simp] theorem integerOverflow_keys : (s.integerOverflow).keys = s.keys := rfl
@[simp] theorem integerOverflow_run : (s.integerOverflow).run = s.run := rfl
@[simp] theorem integerOverflow_amPending : (s.integerOverflow).amPending = s.amPending := rfl
@[simp] theorem integerOverflow_resetKey : (s.integerOverflow).resetKey = s.resetKey := rfl
@[simp] theorem integerOverflow_startKey : (s.integerOverflow).startKey = s.startKey := rfl
@[simp] theorem integerOverflow_autoloadKey : (s.integerOverflow).autoloadKey = s.autoloadKey := rfl
@[simp] theorem integerOverflow_powerFailing : (s.integerOverflow).powerFailing = s.powerFailing := rfl
@[simp] theorem integerOverflow_devices : (s.integerOverflow).devices = s.devices := rfl
@[simp] theorem integerOverflow_inst : (s.integerOverflow).inst = s.inst := rfl
@[simp] theorem integerOverflow_commands : (s.integerOverflow).commands = s.commands := rfl
@[simp] theorem integerOverflow_schedule : (s.integerOverflow).schedule = s.schedule := rfl
@[simp] theorem integerOverflow_steals : (s.integerOverflow).steals = s.steals := rfl
@[simp] theorem integerOverflow_reg (r : Reg) : (s.integerOverflow).reg r = s.reg r := rfl
@[simp] theorem integerOverflow_pair (r : Reg) : (s.integerOverflow).pair r = s.pair r := rfl
@[simp] theorem integerOverflow_readWordAt (n : Nat) : (s.integerOverflow).readWordAt n = s.readWordAt n := rfl
@[simp] theorem integerOverflow_wordRead (a : Word) : (s.integerOverflow).wordRead a = s.wordRead a := rfl
@[simp] theorem integerOverflow_byteRead (a : Word) : (s.integerOverflow).byteRead a = s.byteRead a := rfl
@[simp] theorem integerOverflow_doubleRead (a : Word) : (s.integerOverflow).doubleRead a = s.doubleRead a := rfl
@[simp] theorem integerOverflow_keyRead (a : Word) : (s.integerOverflow).keyRead a = s.keyRead a := rfl
@[simp] theorem integerOverflow_isProtected (a : Word) : (s.integerOverflow).isProtected a = s.isProtected a := rfl
@[simp] theorem integerOverflow_forbids (a : Word) : (s.integerOverflow).forbids a = s.forbids a := rfl
@[simp] theorem integerOverflow_missing (a : Word) : (s.integerOverflow).missing a = s.missing a := rfl
@[simp] theorem integerOverflow_device (n : Nat) : (s.integerOverflow).device? n = s.device? n := rfl
@[simp] theorem integerOverflow_condition (n : Nat) : (s.integerOverflow).condition n = s.condition n := rfl
@[simp] theorem integerOverflow_transferring (n : Nat) : (s.integerOverflow).transferring n = s.transferring n := rfl
@[simp] theorem integerOverflow_mayTransfer (z : Transfer) : (s.integerOverflow).mayTransfer z = s.mayTransfer z := rfl
@[simp] theorem integerOverflow_selectedDevice (a : Word) : (s.integerOverflow).selectedDevice a = s.selectedDevice a :=
  rfl

end

section
variable (s : State)

@[simp] theorem floatingOverflow_regs : (s.floatingOverflow).regs = s.regs := rfl
@[simp] theorem floatingOverflow_ic : (s.floatingOverflow).ic = s.ic := rfl
@[simp] theorem floatingOverflow_pr : (s.floatingOverflow).pr = s.pr := rfl
@[simp] theorem floatingOverflow_monitorMode : (s.floatingOverflow).monitorMode = s.monitorMode := rfl
@[simp] theorem floatingOverflow_im : (s.floatingOverflow).im = s.im := rfl
@[simp] theorem floatingOverflow_interruptDisabled : (s.floatingOverflow).interruptDisabled = s.interruptDisabled := rfl
@[simp] theorem floatingOverflow_store : (s.floatingOverflow).store = s.store := rfl
@[simp] theorem floatingOverflow_keys : (s.floatingOverflow).keys = s.keys := rfl
@[simp] theorem floatingOverflow_run : (s.floatingOverflow).run = s.run := rfl
@[simp] theorem floatingOverflow_amPending : (s.floatingOverflow).amPending = s.amPending := rfl
@[simp] theorem floatingOverflow_resetKey : (s.floatingOverflow).resetKey = s.resetKey := rfl
@[simp] theorem floatingOverflow_startKey : (s.floatingOverflow).startKey = s.startKey := rfl
@[simp] theorem floatingOverflow_autoloadKey : (s.floatingOverflow).autoloadKey = s.autoloadKey := rfl
@[simp] theorem floatingOverflow_powerFailing : (s.floatingOverflow).powerFailing = s.powerFailing := rfl
@[simp] theorem floatingOverflow_devices : (s.floatingOverflow).devices = s.devices := rfl
@[simp] theorem floatingOverflow_inst : (s.floatingOverflow).inst = s.inst := rfl
@[simp] theorem floatingOverflow_commands : (s.floatingOverflow).commands = s.commands := rfl
@[simp] theorem floatingOverflow_schedule : (s.floatingOverflow).schedule = s.schedule := rfl
@[simp] theorem floatingOverflow_steals : (s.floatingOverflow).steals = s.steals := rfl
@[simp] theorem floatingOverflow_reg (r : Reg) : (s.floatingOverflow).reg r = s.reg r := rfl
@[simp] theorem floatingOverflow_pair (r : Reg) : (s.floatingOverflow).pair r = s.pair r := rfl
@[simp] theorem floatingOverflow_readWordAt (n : Nat) : (s.floatingOverflow).readWordAt n = s.readWordAt n := rfl
@[simp] theorem floatingOverflow_wordRead (a : Word) : (s.floatingOverflow).wordRead a = s.wordRead a := rfl
@[simp] theorem floatingOverflow_byteRead (a : Word) : (s.floatingOverflow).byteRead a = s.byteRead a := rfl
@[simp] theorem floatingOverflow_doubleRead (a : Word) : (s.floatingOverflow).doubleRead a = s.doubleRead a := rfl
@[simp] theorem floatingOverflow_keyRead (a : Word) : (s.floatingOverflow).keyRead a = s.keyRead a := rfl
@[simp] theorem floatingOverflow_isProtected (a : Word) : (s.floatingOverflow).isProtected a = s.isProtected a := rfl
@[simp] theorem floatingOverflow_forbids (a : Word) : (s.floatingOverflow).forbids a = s.forbids a := rfl
@[simp] theorem floatingOverflow_missing (a : Word) : (s.floatingOverflow).missing a = s.missing a := rfl
@[simp] theorem floatingOverflow_device (n : Nat) : (s.floatingOverflow).device? n = s.device? n := rfl
@[simp] theorem floatingOverflow_condition (n : Nat) : (s.floatingOverflow).condition n = s.condition n := rfl
@[simp] theorem floatingOverflow_transferring (n : Nat) : (s.floatingOverflow).transferring n = s.transferring n := rfl
@[simp] theorem floatingOverflow_mayTransfer (z : Transfer) : (s.floatingOverflow).mayTransfer z = s.mayTransfer z :=
  rfl
@[simp] theorem floatingOverflow_selectedDevice (a : Word) : (s.floatingOverflow).selectedDevice a = s.selectedDevice a :=
  rfl

end

section
variable (s : State)

@[simp] theorem decoded_regs : (s.decoded).regs = s.regs := rfl
@[simp] theorem decoded_ex : (s.decoded).ex = s.ex := rfl
@[simp] theorem decoded_pr : (s.decoded).pr = s.pr := rfl
@[simp] theorem decoded_ir : (s.decoded).ir = s.ir := rfl
@[simp] theorem decoded_im : (s.decoded).im = s.im := rfl
@[simp] theorem decoded_interruptDisabled : (s.decoded).interruptDisabled = s.interruptDisabled := rfl
@[simp] theorem decoded_store : (s.decoded).store = s.store := rfl
@[simp] theorem decoded_keys : (s.decoded).keys = s.keys := rfl
@[simp] theorem decoded_run : (s.decoded).run = s.run := rfl
@[simp] theorem decoded_resetKey : (s.decoded).resetKey = s.resetKey := rfl
@[simp] theorem decoded_startKey : (s.decoded).startKey = s.startKey := rfl
@[simp] theorem decoded_autoloadKey : (s.decoded).autoloadKey = s.autoloadKey := rfl
@[simp] theorem decoded_powerFailing : (s.decoded).powerFailing = s.powerFailing := rfl
@[simp] theorem decoded_devices : (s.decoded).devices = s.devices := rfl
@[simp] theorem decoded_inst : (s.decoded).inst = s.inst := rfl
@[simp] theorem decoded_commands : (s.decoded).commands = s.commands := rfl
@[simp] theorem decoded_schedule : (s.decoded).schedule = s.schedule := rfl
@[simp] theorem decoded_steals : (s.decoded).steals = s.steals := rfl
@[simp] theorem decoded_reg (r : Reg) : (s.decoded).reg r = s.reg r := rfl
@[simp] theorem decoded_pair (r : Reg) : (s.decoded).pair r = s.pair r := rfl
@[simp] theorem decoded_readWordAt (n : Nat) : (s.decoded).readWordAt n = s.readWordAt n := rfl
@[simp] theorem decoded_wordRead (a : Word) : (s.decoded).wordRead a = s.wordRead a := rfl
@[simp] theorem decoded_byteRead (a : Word) : (s.decoded).byteRead a = s.byteRead a := rfl
@[simp] theorem decoded_doubleRead (a : Word) : (s.decoded).doubleRead a = s.doubleRead a := rfl
@[simp] theorem decoded_keyRead (a : Word) : (s.decoded).keyRead a = s.keyRead a := rfl
@[simp] theorem decoded_isProtected (a : Word) : (s.decoded).isProtected a = s.isProtected a := rfl
@[simp] theorem decoded_missing (a : Word) : (s.decoded).missing a = s.missing a := rfl
@[simp] theorem decoded_lowPrecision : (s.decoded).lowPrecision = s.lowPrecision := rfl
@[simp] theorem decoded_device (n : Nat) : (s.decoded).device? n = s.device? n := rfl
@[simp] theorem decoded_condition (n : Nat) : (s.decoded).condition n = s.condition n := rfl
@[simp] theorem decoded_transferring (n : Nat) : (s.decoded).transferring n = s.transferring n := rfl
@[simp] theorem decoded_mayTransfer (z : Transfer) : (s.decoded).mayTransfer z = s.mayTransfer z := rfl
@[simp] theorem decoded_selectedDevice (a : Word) : (s.decoded).selectedDevice a = s.selectedDevice a := rfl
@[simp] theorem decoded_honoured : (s.decoded).honoured = s.honoured := rfl

end

section
variable (s : State) (d : Nat) (f : Device → Device)

@[simp] theorem changeDevice_regs : (s.changeDevice d f).regs = s.regs := rfl
@[simp] theorem changeDevice_ic : (s.changeDevice d f).ic = s.ic := rfl
@[simp] theorem changeDevice_ex : (s.changeDevice d f).ex = s.ex := rfl
@[simp] theorem changeDevice_pr : (s.changeDevice d f).pr = s.pr := rfl
@[simp] theorem changeDevice_monitorMode : (s.changeDevice d f).monitorMode = s.monitorMode := rfl
@[simp] theorem changeDevice_ir : (s.changeDevice d f).ir = s.ir := rfl
@[simp] theorem changeDevice_im : (s.changeDevice d f).im = s.im := rfl
@[simp] theorem changeDevice_interruptDisabled : (s.changeDevice d f).interruptDisabled = s.interruptDisabled := rfl
@[simp] theorem changeDevice_store : (s.changeDevice d f).store = s.store := rfl
@[simp] theorem changeDevice_keys : (s.changeDevice d f).keys = s.keys := rfl
@[simp] theorem changeDevice_run : (s.changeDevice d f).run = s.run := rfl
@[simp] theorem changeDevice_amPending : (s.changeDevice d f).amPending = s.amPending := rfl
@[simp] theorem changeDevice_resetKey : (s.changeDevice d f).resetKey = s.resetKey := rfl
@[simp] theorem changeDevice_startKey : (s.changeDevice d f).startKey = s.startKey := rfl
@[simp] theorem changeDevice_autoloadKey : (s.changeDevice d f).autoloadKey = s.autoloadKey := rfl
@[simp] theorem changeDevice_powerFailing : (s.changeDevice d f).powerFailing = s.powerFailing := rfl
@[simp] theorem changeDevice_inst : (s.changeDevice d f).inst = s.inst := rfl
@[simp] theorem changeDevice_commands : (s.changeDevice d f).commands = s.commands := rfl
@[simp] theorem changeDevice_schedule : (s.changeDevice d f).schedule = s.schedule := rfl
@[simp] theorem changeDevice_steals : (s.changeDevice d f).steals = s.steals := rfl
@[simp] theorem changeDevice_reg (r : Reg) : (s.changeDevice d f).reg r = s.reg r := rfl
@[simp] theorem changeDevice_pair (r : Reg) : (s.changeDevice d f).pair r = s.pair r := rfl
@[simp] theorem changeDevice_readWordAt (n : Nat) : (s.changeDevice d f).readWordAt n = s.readWordAt n := rfl
@[simp] theorem changeDevice_wordRead (a : Word) : (s.changeDevice d f).wordRead a = s.wordRead a := rfl
@[simp] theorem changeDevice_byteRead (a : Word) : (s.changeDevice d f).byteRead a = s.byteRead a := rfl
@[simp] theorem changeDevice_keyRead (a : Word) : (s.changeDevice d f).keyRead a = s.keyRead a := rfl
@[simp] theorem changeDevice_isProtected (a : Word) : (s.changeDevice d f).isProtected a = s.isProtected a := rfl
@[simp] theorem changeDevice_forbids (a : Word) : (s.changeDevice d f).forbids a = s.forbids a := rfl
@[simp] theorem changeDevice_missing (a : Word) : (s.changeDevice d f).missing a = s.missing a := rfl
@[simp] theorem changeDevice_lowPrecision : (s.changeDevice d f).lowPrecision = s.lowPrecision := rfl
@[simp] theorem changeDevice_selectedDevice (a : Word) : (s.changeDevice d f).selectedDevice a = s.selectedDevice a :=
  rfl
@[simp] theorem changeDevice_honoured : (s.changeDevice d f).honoured = s.honoured := rfl

end

section
variable (s : State)

@[simp] theorem powerOnState_regs : (s.powerOnState).regs = s.regs := rfl
@[simp] theorem powerOnState_ic : (s.powerOnState).ic = s.ic := rfl
@[simp] theorem powerOnState_ex : (s.powerOnState).ex = s.ex := rfl
@[simp] theorem powerOnState_pr : (s.powerOnState).pr = s.pr := rfl
@[simp] theorem powerOnState_ir : (s.powerOnState).ir = s.ir := rfl
@[simp] theorem powerOnState_im : (s.powerOnState).im = s.im := rfl
@[simp] theorem powerOnState_store : (s.powerOnState).store = s.store := rfl
@[simp] theorem powerOnState_keys : (s.powerOnState).keys = s.keys := rfl
@[simp] theorem powerOnState_powerFailing : (s.powerOnState).powerFailing = s.powerFailing := rfl
@[simp] theorem powerOnState_devices : (s.powerOnState).devices = s.devices := rfl
@[simp] theorem powerOnState_inst : (s.powerOnState).inst = s.inst := rfl
@[simp] theorem powerOnState_commands : (s.powerOnState).commands = s.commands := rfl
@[simp] theorem powerOnState_schedule : (s.powerOnState).schedule = s.schedule := rfl
@[simp] theorem powerOnState_steals : (s.powerOnState).steals = s.steals := rfl
@[simp] theorem powerOnState_reg (r : Reg) : (s.powerOnState).reg r = s.reg r := rfl
@[simp] theorem powerOnState_pair (r : Reg) : (s.powerOnState).pair r = s.pair r := rfl
@[simp] theorem powerOnState_readWordAt (n : Nat) : (s.powerOnState).readWordAt n = s.readWordAt n := rfl
@[simp] theorem powerOnState_wordRead (a : Word) : (s.powerOnState).wordRead a = s.wordRead a := rfl
@[simp] theorem powerOnState_byteRead (a : Word) : (s.powerOnState).byteRead a = s.byteRead a := rfl
@[simp] theorem powerOnState_keyRead (a : Word) : (s.powerOnState).keyRead a = s.keyRead a := rfl
@[simp] theorem powerOnState_isProtected (a : Word) : (s.powerOnState).isProtected a = s.isProtected a := rfl
@[simp] theorem powerOnState_missing (a : Word) : (s.powerOnState).missing a = s.missing a := rfl
@[simp] theorem powerOnState_lowPrecision : (s.powerOnState).lowPrecision = s.lowPrecision := rfl
@[simp] theorem powerOnState_device (n : Nat) : (s.powerOnState).device? n = s.device? n := rfl
@[simp] theorem powerOnState_condition (n : Nat) : (s.powerOnState).condition n = s.condition n := rfl
@[simp] theorem powerOnState_transferring (n : Nat) : (s.powerOnState).transferring n = s.transferring n := rfl
@[simp] theorem powerOnState_selectedDevice (a : Word) : (s.powerOnState).selectedDevice a = s.selectedDevice a := rfl
@[simp] theorem powerOnState_honoured : (s.powerOnState).honoured = s.honoured := rfl

end

section
variable (s : State) (q : Reg) (f : BitVec 36) (e : BitVec 13)

@[simp] theorem storeFraction_ic : (s.storeFraction q f e).ic = s.ic := rfl
@[simp] theorem storeFraction_ex : (s.storeFraction q f e).ex = s.ex := rfl
@[simp] theorem storeFraction_pr : (s.storeFraction q f e).pr = s.pr := rfl
@[simp] theorem storeFraction_monitorMode : (s.storeFraction q f e).monitorMode = s.monitorMode := rfl
@[simp] theorem storeFraction_ir : (s.storeFraction q f e).ir = s.ir := rfl
@[simp] theorem storeFraction_im : (s.storeFraction q f e).im = s.im := rfl
@[simp] theorem storeFraction_interruptDisabled : (s.storeFraction q f e).interruptDisabled = s.interruptDisabled := rfl
@[simp] theorem storeFraction_store : (s.storeFraction q f e).store = s.store := rfl
@[simp] theorem storeFraction_keys : (s.storeFraction q f e).keys = s.keys := rfl
@[simp] theorem storeFraction_run : (s.storeFraction q f e).run = s.run := rfl
@[simp] theorem storeFraction_amPending : (s.storeFraction q f e).amPending = s.amPending := rfl
@[simp] theorem storeFraction_resetKey : (s.storeFraction q f e).resetKey = s.resetKey := rfl
@[simp] theorem storeFraction_startKey : (s.storeFraction q f e).startKey = s.startKey := rfl
@[simp] theorem storeFraction_autoloadKey : (s.storeFraction q f e).autoloadKey = s.autoloadKey := rfl
@[simp] theorem storeFraction_powerFailing : (s.storeFraction q f e).powerFailing = s.powerFailing := rfl
@[simp] theorem storeFraction_devices : (s.storeFraction q f e).devices = s.devices := rfl
@[simp] theorem storeFraction_inst : (s.storeFraction q f e).inst = s.inst := rfl
@[simp] theorem storeFraction_commands : (s.storeFraction q f e).commands = s.commands := rfl
@[simp] theorem storeFraction_schedule : (s.storeFraction q f e).schedule = s.schedule := rfl
@[simp] theorem storeFraction_steals : (s.storeFraction q f e).steals = s.steals := rfl
@[simp] theorem storeFraction_keyRead (a : Word) : (s.storeFraction q f e).keyRead a = s.keyRead a := rfl
@[simp] theorem storeFraction_isProtected (a : Word) : (s.storeFraction q f e).isProtected a = s.isProtected a := rfl
@[simp] theorem storeFraction_forbids (a : Word) : (s.storeFraction q f e).forbids a = s.forbids a := rfl
@[simp] theorem storeFraction_missing (a : Word) : (s.storeFraction q f e).missing a = s.missing a := rfl
@[simp] theorem storeFraction_lowPrecision : (s.storeFraction q f e).lowPrecision = s.lowPrecision := rfl
@[simp] theorem storeFraction_device (n : Nat) : (s.storeFraction q f e).device? n = s.device? n := rfl
@[simp] theorem storeFraction_condition (n : Nat) : (s.storeFraction q f e).condition n = s.condition n := rfl
@[simp] theorem storeFraction_transferring (n : Nat) : (s.storeFraction q f e).transferring n = s.transferring n := rfl
@[simp] theorem storeFraction_mayTransfer (z : Transfer) : (s.storeFraction q f e).mayTransfer z = s.mayTransfer z :=
  rfl
@[simp] theorem storeFraction_selectedDevice (a : Word) : (s.storeFraction q f e).selectedDevice a = s.selectedDevice a :=
  rfl
@[simp] theorem storeFraction_honoured : (s.storeFraction q f e).honoured = s.honoured := rfl

end

section
variable (s : State) (q : Reg) (f : BitVec 39) (e : BitVec 13)

@[simp] theorem storeFloating_ic : (s.storeFloating q f e).ic = s.ic := rfl
@[simp] theorem storeFloating_ex : (s.storeFloating q f e).ex = s.ex := rfl
@[simp] theorem storeFloating_pr : (s.storeFloating q f e).pr = s.pr := rfl
@[simp] theorem storeFloating_monitorMode : (s.storeFloating q f e).monitorMode = s.monitorMode := rfl
@[simp] theorem storeFloating_ir : (s.storeFloating q f e).ir = s.ir := rfl
@[simp] theorem storeFloating_im : (s.storeFloating q f e).im = s.im := rfl
@[simp] theorem storeFloating_interruptDisabled : (s.storeFloating q f e).interruptDisabled = s.interruptDisabled := rfl
@[simp] theorem storeFloating_store : (s.storeFloating q f e).store = s.store := rfl
@[simp] theorem storeFloating_keys : (s.storeFloating q f e).keys = s.keys := rfl
@[simp] theorem storeFloating_run : (s.storeFloating q f e).run = s.run := rfl
@[simp] theorem storeFloating_amPending : (s.storeFloating q f e).amPending = s.amPending := rfl
@[simp] theorem storeFloating_resetKey : (s.storeFloating q f e).resetKey = s.resetKey := rfl
@[simp] theorem storeFloating_startKey : (s.storeFloating q f e).startKey = s.startKey := rfl
@[simp] theorem storeFloating_autoloadKey : (s.storeFloating q f e).autoloadKey = s.autoloadKey := rfl
@[simp] theorem storeFloating_powerFailing : (s.storeFloating q f e).powerFailing = s.powerFailing := rfl
@[simp] theorem storeFloating_devices : (s.storeFloating q f e).devices = s.devices := rfl
@[simp] theorem storeFloating_inst : (s.storeFloating q f e).inst = s.inst := rfl
@[simp] theorem storeFloating_commands : (s.storeFloating q f e).commands = s.commands := rfl
@[simp] theorem storeFloating_schedule : (s.storeFloating q f e).schedule = s.schedule := rfl
@[simp] theorem storeFloating_steals : (s.storeFloating q f e).steals = s.steals := rfl
@[simp] theorem storeFloating_keyRead (a : Word) : (s.storeFloating q f e).keyRead a = s.keyRead a := rfl
@[simp] theorem storeFloating_isProtected (a : Word) : (s.storeFloating q f e).isProtected a = s.isProtected a := rfl
@[simp] theorem storeFloating_forbids (a : Word) : (s.storeFloating q f e).forbids a = s.forbids a := rfl
@[simp] theorem storeFloating_missing (a : Word) : (s.storeFloating q f e).missing a = s.missing a := rfl
@[simp] theorem storeFloating_lowPrecision : (s.storeFloating q f e).lowPrecision = s.lowPrecision := rfl
@[simp] theorem storeFloating_device (n : Nat) : (s.storeFloating q f e).device? n = s.device? n := rfl
@[simp] theorem storeFloating_condition (n : Nat) : (s.storeFloating q f e).condition n = s.condition n := rfl
@[simp] theorem storeFloating_transferring (n : Nat) : (s.storeFloating q f e).transferring n = s.transferring n := rfl
@[simp] theorem storeFloating_mayTransfer (z : Transfer) : (s.storeFloating q f e).mayTransfer z = s.mayTransfer z :=
  rfl
@[simp] theorem storeFloating_selectedDevice (a : Word) : (s.storeFloating q f e).selectedDevice a = s.selectedDevice a :=
  rfl
@[simp] theorem storeFloating_honoured : (s.storeFloating q f e).honoured = s.honoured := rfl

end

section
variable (s : State) (x : BitVec 25) (c : Bool)

@[simp] theorem testInteger_regs : (s.testInteger x c).regs = s.regs := by unfold State.testInteger; split <;> rfl
@[simp] theorem testInteger_ic : (s.testInteger x c).ic = s.ic := by unfold State.testInteger; split <;> rfl
@[simp] theorem testInteger_pr : (s.testInteger x c).pr = s.pr := by unfold State.testInteger; split <;> rfl
@[simp] theorem testInteger_monitorMode : (s.testInteger x c).monitorMode = s.monitorMode :=
  by unfold State.testInteger; split <;> rfl
@[simp] theorem testInteger_im : (s.testInteger x c).im = s.im := by unfold State.testInteger; split <;> rfl
@[simp] theorem testInteger_interruptDisabled : (s.testInteger x c).interruptDisabled = s.interruptDisabled :=
  by unfold State.testInteger; split <;> rfl
@[simp] theorem testInteger_store : (s.testInteger x c).store = s.store := by unfold State.testInteger; split <;> rfl
@[simp] theorem testInteger_keys : (s.testInteger x c).keys = s.keys := by unfold State.testInteger; split <;> rfl
@[simp] theorem testInteger_run : (s.testInteger x c).run = s.run := by unfold State.testInteger; split <;> rfl
@[simp] theorem testInteger_amPending : (s.testInteger x c).amPending = s.amPending :=
  by unfold State.testInteger; split <;> rfl
@[simp] theorem testInteger_resetKey : (s.testInteger x c).resetKey = s.resetKey :=
  by unfold State.testInteger; split <;> rfl
@[simp] theorem testInteger_startKey : (s.testInteger x c).startKey = s.startKey :=
  by unfold State.testInteger; split <;> rfl
@[simp] theorem testInteger_autoloadKey : (s.testInteger x c).autoloadKey = s.autoloadKey :=
  by unfold State.testInteger; split <;> rfl
@[simp] theorem testInteger_powerFailing : (s.testInteger x c).powerFailing = s.powerFailing :=
  by unfold State.testInteger; split <;> rfl
@[simp] theorem testInteger_devices : (s.testInteger x c).devices = s.devices :=
  by unfold State.testInteger; split <;> rfl
@[simp] theorem testInteger_inst : (s.testInteger x c).inst = s.inst := by unfold State.testInteger; split <;> rfl
@[simp] theorem testInteger_commands : (s.testInteger x c).commands = s.commands :=
  by unfold State.testInteger; split <;> rfl
@[simp] theorem testInteger_schedule : (s.testInteger x c).schedule = s.schedule :=
  by unfold State.testInteger; split <;> rfl
@[simp] theorem testInteger_steals : (s.testInteger x c).steals = s.steals := by unfold State.testInteger; split <;> rfl
@[simp] theorem testInteger_reg (r : Reg) : (s.testInteger x c).reg r = s.reg r :=
  by unfold State.testInteger; split <;> rfl
@[simp] theorem testInteger_pair (r : Reg) : (s.testInteger x c).pair r = s.pair r :=
  by unfold State.testInteger; split <;> rfl
@[simp] theorem testInteger_readWordAt (n : Nat) : (s.testInteger x c).readWordAt n = s.readWordAt n :=
  by unfold State.testInteger; split <;> rfl
@[simp] theorem testInteger_wordRead (a : Word) : (s.testInteger x c).wordRead a = s.wordRead a :=
  by unfold State.testInteger; split <;> rfl
@[simp] theorem testInteger_byteRead (a : Word) : (s.testInteger x c).byteRead a = s.byteRead a :=
  by unfold State.testInteger; split <;> rfl
@[simp] theorem testInteger_doubleRead (a : Word) : (s.testInteger x c).doubleRead a = s.doubleRead a :=
  by unfold State.testInteger; split <;> rfl
@[simp] theorem testInteger_keyRead (a : Word) : (s.testInteger x c).keyRead a = s.keyRead a :=
  by unfold State.testInteger; split <;> rfl
@[simp] theorem testInteger_isProtected (a : Word) : (s.testInteger x c).isProtected a = s.isProtected a :=
  by unfold State.testInteger; split <;> rfl
@[simp] theorem testInteger_forbids (a : Word) : (s.testInteger x c).forbids a = s.forbids a :=
  by unfold State.testInteger; split <;> rfl
@[simp] theorem testInteger_missing (a : Word) : (s.testInteger x c).missing a = s.missing a :=
  by unfold State.testInteger; split <;> rfl
@[simp] theorem testInteger_device (n : Nat) : (s.testInteger x c).device? n = s.device? n :=
  by unfold State.testInteger; split <;> rfl
@[simp] theorem testInteger_condition (n : Nat) : (s.testInteger x c).condition n = s.condition n :=
  by unfold State.testInteger; split <;> rfl
@[simp] theorem testInteger_transferring (n : Nat) : (s.testInteger x c).transferring n = s.transferring n :=
  by unfold State.testInteger; split <;> rfl
@[simp] theorem testInteger_mayTransfer (z : Transfer) : (s.testInteger x c).mayTransfer z = s.mayTransfer z :=
  by unfold State.testInteger; split <;> rfl
@[simp] theorem testInteger_selectedDevice (a : Word) : (s.testInteger x c).selectedDevice a = s.selectedDevice a :=
  by unfold State.testInteger; split <;> rfl

end

section
variable (s : State) (e : BitVec 13)

@[simp] theorem testExponent_regs : (s.testExponent e).regs = s.regs := by unfold State.testExponent; split <;> rfl
@[simp] theorem testExponent_ic : (s.testExponent e).ic = s.ic := by unfold State.testExponent; split <;> rfl
@[simp] theorem testExponent_pr : (s.testExponent e).pr = s.pr := by unfold State.testExponent; split <;> rfl
@[simp] theorem testExponent_monitorMode : (s.testExponent e).monitorMode = s.monitorMode :=
  by unfold State.testExponent; split <;> rfl
@[simp] theorem testExponent_im : (s.testExponent e).im = s.im := by unfold State.testExponent; split <;> rfl
@[simp] theorem testExponent_interruptDisabled : (s.testExponent e).interruptDisabled = s.interruptDisabled :=
  by unfold State.testExponent; split <;> rfl
@[simp] theorem testExponent_store : (s.testExponent e).store = s.store := by unfold State.testExponent; split <;> rfl
@[simp] theorem testExponent_keys : (s.testExponent e).keys = s.keys := by unfold State.testExponent; split <;> rfl
@[simp] theorem testExponent_run : (s.testExponent e).run = s.run := by unfold State.testExponent; split <;> rfl
@[simp] theorem testExponent_amPending : (s.testExponent e).amPending = s.amPending :=
  by unfold State.testExponent; split <;> rfl
@[simp] theorem testExponent_resetKey : (s.testExponent e).resetKey = s.resetKey :=
  by unfold State.testExponent; split <;> rfl
@[simp] theorem testExponent_startKey : (s.testExponent e).startKey = s.startKey :=
  by unfold State.testExponent; split <;> rfl
@[simp] theorem testExponent_autoloadKey : (s.testExponent e).autoloadKey = s.autoloadKey :=
  by unfold State.testExponent; split <;> rfl
@[simp] theorem testExponent_powerFailing : (s.testExponent e).powerFailing = s.powerFailing :=
  by unfold State.testExponent; split <;> rfl
@[simp] theorem testExponent_devices : (s.testExponent e).devices = s.devices :=
  by unfold State.testExponent; split <;> rfl
@[simp] theorem testExponent_inst : (s.testExponent e).inst = s.inst := by unfold State.testExponent; split <;> rfl
@[simp] theorem testExponent_commands : (s.testExponent e).commands = s.commands :=
  by unfold State.testExponent; split <;> rfl
@[simp] theorem testExponent_schedule : (s.testExponent e).schedule = s.schedule :=
  by unfold State.testExponent; split <;> rfl
@[simp] theorem testExponent_steals : (s.testExponent e).steals = s.steals :=
  by unfold State.testExponent; split <;> rfl
@[simp] theorem testExponent_reg (r : Reg) : (s.testExponent e).reg r = s.reg r :=
  by unfold State.testExponent; split <;> rfl
@[simp] theorem testExponent_pair (r : Reg) : (s.testExponent e).pair r = s.pair r :=
  by unfold State.testExponent; split <;> rfl
@[simp] theorem testExponent_readWordAt (n : Nat) : (s.testExponent e).readWordAt n = s.readWordAt n :=
  by unfold State.testExponent; split <;> rfl
@[simp] theorem testExponent_wordRead (a : Word) : (s.testExponent e).wordRead a = s.wordRead a :=
  by unfold State.testExponent; split <;> rfl
@[simp] theorem testExponent_byteRead (a : Word) : (s.testExponent e).byteRead a = s.byteRead a :=
  by unfold State.testExponent; split <;> rfl
@[simp] theorem testExponent_doubleRead (a : Word) : (s.testExponent e).doubleRead a = s.doubleRead a :=
  by unfold State.testExponent; split <;> rfl
@[simp] theorem testExponent_keyRead (a : Word) : (s.testExponent e).keyRead a = s.keyRead a :=
  by unfold State.testExponent; split <;> rfl
@[simp] theorem testExponent_isProtected (a : Word) : (s.testExponent e).isProtected a = s.isProtected a :=
  by unfold State.testExponent; split <;> rfl
@[simp] theorem testExponent_forbids (a : Word) : (s.testExponent e).forbids a = s.forbids a :=
  by unfold State.testExponent; split <;> rfl
@[simp] theorem testExponent_missing (a : Word) : (s.testExponent e).missing a = s.missing a :=
  by unfold State.testExponent; split <;> rfl
@[simp] theorem testExponent_device (n : Nat) : (s.testExponent e).device? n = s.device? n :=
  by unfold State.testExponent; split <;> rfl
@[simp] theorem testExponent_condition (n : Nat) : (s.testExponent e).condition n = s.condition n :=
  by unfold State.testExponent; split <;> rfl
@[simp] theorem testExponent_transferring (n : Nat) : (s.testExponent e).transferring n = s.transferring n :=
  by unfold State.testExponent; split <;> rfl
@[simp] theorem testExponent_mayTransfer (z : Transfer) : (s.testExponent e).mayTransfer z = s.mayTransfer z :=
  by unfold State.testExponent; split <;> rfl
@[simp] theorem testExponent_selectedDevice (a : Word) : (s.testExponent e).selectedDevice a = s.selectedDevice a :=
  by unfold State.testExponent; split <;> rfl

end

section
variable (s : State) (l : Bool)

@[simp] theorem testLost_regs : (s.testLost l).regs = s.regs := by unfold State.testLost; split <;> rfl
@[simp] theorem testLost_ic : (s.testLost l).ic = s.ic := by unfold State.testLost; split <;> rfl
@[simp] theorem testLost_pr : (s.testLost l).pr = s.pr := by unfold State.testLost; split <;> rfl
@[simp] theorem testLost_monitorMode : (s.testLost l).monitorMode = s.monitorMode :=
  by unfold State.testLost; split <;> rfl
@[simp] theorem testLost_im : (s.testLost l).im = s.im := by unfold State.testLost; split <;> rfl
@[simp] theorem testLost_interruptDisabled : (s.testLost l).interruptDisabled = s.interruptDisabled :=
  by unfold State.testLost; split <;> rfl
@[simp] theorem testLost_store : (s.testLost l).store = s.store := by unfold State.testLost; split <;> rfl
@[simp] theorem testLost_keys : (s.testLost l).keys = s.keys := by unfold State.testLost; split <;> rfl
@[simp] theorem testLost_run : (s.testLost l).run = s.run := by unfold State.testLost; split <;> rfl
@[simp] theorem testLost_amPending : (s.testLost l).amPending = s.amPending := by unfold State.testLost; split <;> rfl
@[simp] theorem testLost_resetKey : (s.testLost l).resetKey = s.resetKey := by unfold State.testLost; split <;> rfl
@[simp] theorem testLost_startKey : (s.testLost l).startKey = s.startKey := by unfold State.testLost; split <;> rfl
@[simp] theorem testLost_autoloadKey : (s.testLost l).autoloadKey = s.autoloadKey :=
  by unfold State.testLost; split <;> rfl
@[simp] theorem testLost_powerFailing : (s.testLost l).powerFailing = s.powerFailing :=
  by unfold State.testLost; split <;> rfl
@[simp] theorem testLost_devices : (s.testLost l).devices = s.devices := by unfold State.testLost; split <;> rfl
@[simp] theorem testLost_inst : (s.testLost l).inst = s.inst := by unfold State.testLost; split <;> rfl
@[simp] theorem testLost_commands : (s.testLost l).commands = s.commands := by unfold State.testLost; split <;> rfl
@[simp] theorem testLost_schedule : (s.testLost l).schedule = s.schedule := by unfold State.testLost; split <;> rfl
@[simp] theorem testLost_steals : (s.testLost l).steals = s.steals := by unfold State.testLost; split <;> rfl
@[simp] theorem testLost_reg (r : Reg) : (s.testLost l).reg r = s.reg r := by unfold State.testLost; split <;> rfl
@[simp] theorem testLost_pair (r : Reg) : (s.testLost l).pair r = s.pair r := by unfold State.testLost; split <;> rfl
@[simp] theorem testLost_readWordAt (n : Nat) : (s.testLost l).readWordAt n = s.readWordAt n :=
  by unfold State.testLost; split <;> rfl
@[simp] theorem testLost_wordRead (a : Word) : (s.testLost l).wordRead a = s.wordRead a :=
  by unfold State.testLost; split <;> rfl
@[simp] theorem testLost_byteRead (a : Word) : (s.testLost l).byteRead a = s.byteRead a :=
  by unfold State.testLost; split <;> rfl
@[simp] theorem testLost_doubleRead (a : Word) : (s.testLost l).doubleRead a = s.doubleRead a :=
  by unfold State.testLost; split <;> rfl
@[simp] theorem testLost_keyRead (a : Word) : (s.testLost l).keyRead a = s.keyRead a :=
  by unfold State.testLost; split <;> rfl
@[simp] theorem testLost_isProtected (a : Word) : (s.testLost l).isProtected a = s.isProtected a :=
  by unfold State.testLost; split <;> rfl
@[simp] theorem testLost_forbids (a : Word) : (s.testLost l).forbids a = s.forbids a :=
  by unfold State.testLost; split <;> rfl
@[simp] theorem testLost_missing (a : Word) : (s.testLost l).missing a = s.missing a :=
  by unfold State.testLost; split <;> rfl
@[simp] theorem testLost_device (n : Nat) : (s.testLost l).device? n = s.device? n :=
  by unfold State.testLost; split <;> rfl
@[simp] theorem testLost_condition (n : Nat) : (s.testLost l).condition n = s.condition n :=
  by unfold State.testLost; split <;> rfl
@[simp] theorem testLost_transferring (n : Nat) : (s.testLost l).transferring n = s.transferring n :=
  by unfold State.testLost; split <;> rfl
@[simp] theorem testLost_mayTransfer (z : Transfer) : (s.testLost l).mayTransfer z = s.mayTransfer z :=
  by unfold State.testLost; split <;> rfl
@[simp] theorem testLost_selectedDevice (a : Word) : (s.testLost l).selectedDevice a = s.selectedDevice a :=
  by unfold State.testLost; split <;> rfl

end

section
variable (s : State) (c : Bool)

@[simp] theorem skipIf_regs : (s.skipIf c).regs = s.regs := by unfold State.skipIf; split <;> rfl
@[simp] theorem skipIf_ex : (s.skipIf c).ex = s.ex := by unfold State.skipIf; split <;> rfl
@[simp] theorem skipIf_pr : (s.skipIf c).pr = s.pr := by unfold State.skipIf; split <;> rfl
@[simp] theorem skipIf_monitorMode : (s.skipIf c).monitorMode = s.monitorMode := by unfold State.skipIf; split <;> rfl
@[simp] theorem skipIf_ir : (s.skipIf c).ir = s.ir := by unfold State.skipIf; split <;> rfl
@[simp] theorem skipIf_im : (s.skipIf c).im = s.im := by unfold State.skipIf; split <;> rfl
@[simp] theorem skipIf_interruptDisabled : (s.skipIf c).interruptDisabled = s.interruptDisabled :=
  by unfold State.skipIf; split <;> rfl
@[simp] theorem skipIf_store : (s.skipIf c).store = s.store := by unfold State.skipIf; split <;> rfl
@[simp] theorem skipIf_keys : (s.skipIf c).keys = s.keys := by unfold State.skipIf; split <;> rfl
@[simp] theorem skipIf_run : (s.skipIf c).run = s.run := by unfold State.skipIf; split <;> rfl
@[simp] theorem skipIf_amPending : (s.skipIf c).amPending = s.amPending := by unfold State.skipIf; split <;> rfl
@[simp] theorem skipIf_resetKey : (s.skipIf c).resetKey = s.resetKey := by unfold State.skipIf; split <;> rfl
@[simp] theorem skipIf_startKey : (s.skipIf c).startKey = s.startKey := by unfold State.skipIf; split <;> rfl
@[simp] theorem skipIf_autoloadKey : (s.skipIf c).autoloadKey = s.autoloadKey := by unfold State.skipIf; split <;> rfl
@[simp] theorem skipIf_powerFailing : (s.skipIf c).powerFailing = s.powerFailing :=
  by unfold State.skipIf; split <;> rfl
@[simp] theorem skipIf_devices : (s.skipIf c).devices = s.devices := by unfold State.skipIf; split <;> rfl
@[simp] theorem skipIf_inst : (s.skipIf c).inst = s.inst := by unfold State.skipIf; split <;> rfl
@[simp] theorem skipIf_commands : (s.skipIf c).commands = s.commands := by unfold State.skipIf; split <;> rfl
@[simp] theorem skipIf_schedule : (s.skipIf c).schedule = s.schedule := by unfold State.skipIf; split <;> rfl
@[simp] theorem skipIf_steals : (s.skipIf c).steals = s.steals := by unfold State.skipIf; split <;> rfl
@[simp] theorem skipIf_reg (r : Reg) : (s.skipIf c).reg r = s.reg r := by unfold State.skipIf; split <;> rfl
@[simp] theorem skipIf_pair (r : Reg) : (s.skipIf c).pair r = s.pair r := by unfold State.skipIf; split <;> rfl
@[simp] theorem skipIf_readWordAt (n : Nat) : (s.skipIf c).readWordAt n = s.readWordAt n :=
  by unfold State.skipIf; split <;> rfl
@[simp] theorem skipIf_wordRead (a : Word) : (s.skipIf c).wordRead a = s.wordRead a :=
  by unfold State.skipIf; split <;> rfl
@[simp] theorem skipIf_byteRead (a : Word) : (s.skipIf c).byteRead a = s.byteRead a :=
  by unfold State.skipIf; split <;> rfl
@[simp] theorem skipIf_doubleRead (a : Word) : (s.skipIf c).doubleRead a = s.doubleRead a :=
  by unfold State.skipIf; split <;> rfl
@[simp] theorem skipIf_keyRead (a : Word) : (s.skipIf c).keyRead a = s.keyRead a :=
  by unfold State.skipIf; split <;> rfl
@[simp] theorem skipIf_isProtected (a : Word) : (s.skipIf c).isProtected a = s.isProtected a :=
  by unfold State.skipIf; split <;> rfl
@[simp] theorem skipIf_forbids (a : Word) : (s.skipIf c).forbids a = s.forbids a :=
  by unfold State.skipIf; split <;> rfl
@[simp] theorem skipIf_missing (a : Word) : (s.skipIf c).missing a = s.missing a :=
  by unfold State.skipIf; split <;> rfl
@[simp] theorem skipIf_lowPrecision : (s.skipIf c).lowPrecision = s.lowPrecision :=
  by unfold State.skipIf; split <;> rfl
@[simp] theorem skipIf_device (n : Nat) : (s.skipIf c).device? n = s.device? n := by unfold State.skipIf; split <;> rfl
@[simp] theorem skipIf_condition (n : Nat) : (s.skipIf c).condition n = s.condition n :=
  by unfold State.skipIf; split <;> rfl
@[simp] theorem skipIf_transferring (n : Nat) : (s.skipIf c).transferring n = s.transferring n :=
  by unfold State.skipIf; split <;> rfl
@[simp] theorem skipIf_mayTransfer (z : Transfer) : (s.skipIf c).mayTransfer z = s.mayTransfer z :=
  by unfold State.skipIf; split <;> rfl
@[simp] theorem skipIf_selectedDevice (a : Word) : (s.skipIf c).selectedDevice a = s.selectedDevice a :=
  by unfold State.skipIf; split <;> rfl
@[simp] theorem skipIf_honoured : (s.skipIf c).honoured = s.honoured := by unfold State.skipIf; split <;> rfl

end

section
variable (s : State) (q : Reg) (b : Word)

@[simp] theorem jump_ex : (s.jump q b).ex = s.ex := by simp only [State.jump]; split <;> rfl
@[simp] theorem jump_pr : (s.jump q b).pr = s.pr := by simp only [State.jump]; split <;> rfl
@[simp] theorem jump_monitorMode : (s.jump q b).monitorMode = s.monitorMode := by simp only [State.jump]; split <;> rfl
@[simp] theorem jump_ir : (s.jump q b).ir = s.ir := by simp only [State.jump]; split <;> rfl
@[simp] theorem jump_im : (s.jump q b).im = s.im := by simp only [State.jump]; split <;> rfl
@[simp] theorem jump_interruptDisabled : (s.jump q b).interruptDisabled = s.interruptDisabled :=
  by simp only [State.jump]; split <;> rfl
@[simp] theorem jump_store : (s.jump q b).store = s.store := by simp only [State.jump]; split <;> rfl
@[simp] theorem jump_keys : (s.jump q b).keys = s.keys := by simp only [State.jump]; split <;> rfl
@[simp] theorem jump_run : (s.jump q b).run = s.run := by simp only [State.jump]; split <;> rfl
@[simp] theorem jump_amPending : (s.jump q b).amPending = s.amPending := by simp only [State.jump]; split <;> rfl
@[simp] theorem jump_resetKey : (s.jump q b).resetKey = s.resetKey := by simp only [State.jump]; split <;> rfl
@[simp] theorem jump_startKey : (s.jump q b).startKey = s.startKey := by simp only [State.jump]; split <;> rfl
@[simp] theorem jump_autoloadKey : (s.jump q b).autoloadKey = s.autoloadKey := by simp only [State.jump]; split <;> rfl
@[simp] theorem jump_powerFailing : (s.jump q b).powerFailing = s.powerFailing :=
  by simp only [State.jump]; split <;> rfl
@[simp] theorem jump_devices : (s.jump q b).devices = s.devices := by simp only [State.jump]; split <;> rfl
@[simp] theorem jump_inst : (s.jump q b).inst = s.inst := by simp only [State.jump]; split <;> rfl
@[simp] theorem jump_commands : (s.jump q b).commands = s.commands := by simp only [State.jump]; split <;> rfl
@[simp] theorem jump_schedule : (s.jump q b).schedule = s.schedule := by simp only [State.jump]; split <;> rfl
@[simp] theorem jump_steals : (s.jump q b).steals = s.steals := by simp only [State.jump]; split <;> rfl
@[simp] theorem jump_keyRead (a : Word) : (s.jump q b).keyRead a = s.keyRead a :=
  by simp only [State.jump]; split <;> rfl
@[simp] theorem jump_isProtected (a : Word) : (s.jump q b).isProtected a = s.isProtected a :=
  by simp only [State.jump]; split <;> rfl
@[simp] theorem jump_forbids (a : Word) : (s.jump q b).forbids a = s.forbids a :=
  by simp only [State.jump]; split <;> rfl
@[simp] theorem jump_missing (a : Word) : (s.jump q b).missing a = s.missing a :=
  by simp only [State.jump]; split <;> rfl
@[simp] theorem jump_lowPrecision : (s.jump q b).lowPrecision = s.lowPrecision :=
  by simp only [State.jump]; split <;> rfl
@[simp] theorem jump_device (n : Nat) : (s.jump q b).device? n = s.device? n := by simp only [State.jump]; split <;> rfl
@[simp] theorem jump_condition (n : Nat) : (s.jump q b).condition n = s.condition n :=
  by simp only [State.jump]; split <;> rfl
@[simp] theorem jump_transferring (n : Nat) : (s.jump q b).transferring n = s.transferring n :=
  by simp only [State.jump]; split <;> rfl
@[simp] theorem jump_mayTransfer (z : Transfer) : (s.jump q b).mayTransfer z = s.mayTransfer z :=
  by simp only [State.jump]; split <;> rfl
@[simp] theorem jump_selectedDevice (a : Word) : (s.jump q b).selectedDevice a = s.selectedDevice a :=
  by simp only [State.jump]; split <;> rfl
@[simp] theorem jump_honoured : (s.jump q b).honoured = s.honoured := by simp only [State.jump]; split <;> rfl

end

section
variable (s : State) (q : Reg) (f : BitVec 39) (e : BitVec 13)

@[simp] theorem finishFloating_ic : (s.finishFloating q f e).ic = s.ic := by simp [State.finishFloating]
@[simp] theorem finishFloating_pr : (s.finishFloating q f e).pr = s.pr := by simp [State.finishFloating]
@[simp] theorem finishFloating_monitorMode : (s.finishFloating q f e).monitorMode = s.monitorMode :=
  by simp [State.finishFloating]
@[simp] theorem finishFloating_im : (s.finishFloating q f e).im = s.im := by simp [State.finishFloating]
@[simp] theorem finishFloating_interruptDisabled : (s.finishFloating q f e).interruptDisabled = s.interruptDisabled :=
  by simp [State.finishFloating]
@[simp] theorem finishFloating_store : (s.finishFloating q f e).store = s.store := by simp [State.finishFloating]
@[simp] theorem finishFloating_keys : (s.finishFloating q f e).keys = s.keys := by simp [State.finishFloating]
@[simp] theorem finishFloating_run : (s.finishFloating q f e).run = s.run := by simp [State.finishFloating]
@[simp] theorem finishFloating_amPending : (s.finishFloating q f e).amPending = s.amPending :=
  by simp [State.finishFloating]
@[simp] theorem finishFloating_resetKey : (s.finishFloating q f e).resetKey = s.resetKey :=
  by simp [State.finishFloating]
@[simp] theorem finishFloating_startKey : (s.finishFloating q f e).startKey = s.startKey :=
  by simp [State.finishFloating]
@[simp] theorem finishFloating_autoloadKey : (s.finishFloating q f e).autoloadKey = s.autoloadKey :=
  by simp [State.finishFloating]
@[simp] theorem finishFloating_powerFailing : (s.finishFloating q f e).powerFailing = s.powerFailing :=
  by simp [State.finishFloating]
@[simp] theorem finishFloating_devices : (s.finishFloating q f e).devices = s.devices := by simp [State.finishFloating]
@[simp] theorem finishFloating_inst : (s.finishFloating q f e).inst = s.inst := by simp [State.finishFloating]
@[simp] theorem finishFloating_commands : (s.finishFloating q f e).commands = s.commands :=
  by simp [State.finishFloating]
@[simp] theorem finishFloating_schedule : (s.finishFloating q f e).schedule = s.schedule :=
  by simp [State.finishFloating]
@[simp] theorem finishFloating_steals : (s.finishFloating q f e).steals = s.steals := by simp [State.finishFloating]
@[simp] theorem finishFloating_keyRead (a : Word) : (s.finishFloating q f e).keyRead a = s.keyRead a :=
  by simp [State.finishFloating]
@[simp] theorem finishFloating_isProtected (a : Word) : (s.finishFloating q f e).isProtected a = s.isProtected a :=
  by simp [State.finishFloating]
@[simp] theorem finishFloating_forbids (a : Word) : (s.finishFloating q f e).forbids a = s.forbids a :=
  by simp [State.finishFloating]
@[simp] theorem finishFloating_missing (a : Word) : (s.finishFloating q f e).missing a = s.missing a :=
  by simp [State.finishFloating]
@[simp] theorem finishFloating_device (n : Nat) : (s.finishFloating q f e).device? n = s.device? n :=
  by simp [State.finishFloating]
@[simp] theorem finishFloating_condition (n : Nat) : (s.finishFloating q f e).condition n = s.condition n :=
  by simp [State.finishFloating]
@[simp] theorem finishFloating_transferring (n : Nat) : (s.finishFloating q f e).transferring n = s.transferring n :=
  by simp [State.finishFloating]
@[simp] theorem finishFloating_mayTransfer (z : Transfer) : (s.finishFloating q f e).mayTransfer z = s.mayTransfer z :=
  by simp [State.finishFloating]
@[simp] theorem finishFloating_selectedDevice (a : Word) : (s.finishFloating q f e).selectedDevice a = s.selectedDevice a :=
  by simp [State.finishFloating]

end

section
variable (s : State) (m : Nat) (v : Word)

@[simp] theorem writeWordAt_ic : (s.writeWordAt m v).ic = s.ic := by unfold State.writeWordAt; split <;> rfl
@[simp] theorem writeWordAt_ex : (s.writeWordAt m v).ex = s.ex := by unfold State.writeWordAt; split <;> rfl
@[simp] theorem writeWordAt_pr : (s.writeWordAt m v).pr = s.pr := by unfold State.writeWordAt; split <;> rfl
@[simp] theorem writeWordAt_monitorMode : (s.writeWordAt m v).monitorMode = s.monitorMode :=
  by unfold State.writeWordAt; split <;> rfl
@[simp] theorem writeWordAt_ir : (s.writeWordAt m v).ir = s.ir := by unfold State.writeWordAt; split <;> rfl
@[simp] theorem writeWordAt_im : (s.writeWordAt m v).im = s.im := by unfold State.writeWordAt; split <;> rfl
@[simp] theorem writeWordAt_interruptDisabled : (s.writeWordAt m v).interruptDisabled = s.interruptDisabled :=
  by unfold State.writeWordAt; split <;> rfl
@[simp] theorem writeWordAt_keys : (s.writeWordAt m v).keys = s.keys := by unfold State.writeWordAt; split <;> rfl
@[simp] theorem writeWordAt_run : (s.writeWordAt m v).run = s.run := by unfold State.writeWordAt; split <;> rfl
@[simp] theorem writeWordAt_amPending : (s.writeWordAt m v).amPending = s.amPending :=
  by unfold State.writeWordAt; split <;> rfl
@[simp] theorem writeWordAt_resetKey : (s.writeWordAt m v).resetKey = s.resetKey :=
  by unfold State.writeWordAt; split <;> rfl
@[simp] theorem writeWordAt_startKey : (s.writeWordAt m v).startKey = s.startKey :=
  by unfold State.writeWordAt; split <;> rfl
@[simp] theorem writeWordAt_autoloadKey : (s.writeWordAt m v).autoloadKey = s.autoloadKey :=
  by unfold State.writeWordAt; split <;> rfl
@[simp] theorem writeWordAt_powerFailing : (s.writeWordAt m v).powerFailing = s.powerFailing :=
  by unfold State.writeWordAt; split <;> rfl
@[simp] theorem writeWordAt_devices : (s.writeWordAt m v).devices = s.devices :=
  by unfold State.writeWordAt; split <;> rfl
@[simp] theorem writeWordAt_inst : (s.writeWordAt m v).inst = s.inst := by unfold State.writeWordAt; split <;> rfl
@[simp] theorem writeWordAt_commands : (s.writeWordAt m v).commands = s.commands :=
  by unfold State.writeWordAt; split <;> rfl
@[simp] theorem writeWordAt_schedule : (s.writeWordAt m v).schedule = s.schedule :=
  by unfold State.writeWordAt; split <;> rfl
@[simp] theorem writeWordAt_steals : (s.writeWordAt m v).steals = s.steals := by unfold State.writeWordAt; split <;> rfl
@[simp] theorem writeWordAt_keyRead (a : Word) : (s.writeWordAt m v).keyRead a = s.keyRead a :=
  by unfold State.writeWordAt; split <;> rfl
@[simp] theorem writeWordAt_isProtected (a : Word) : (s.writeWordAt m v).isProtected a = s.isProtected a :=
  by unfold State.writeWordAt; split <;> rfl
@[simp] theorem writeWordAt_forbids (a : Word) : (s.writeWordAt m v).forbids a = s.forbids a :=
  by unfold State.writeWordAt; split <;> rfl
@[simp] theorem writeWordAt_missing (a : Word) : (s.writeWordAt m v).missing a = s.missing a :=
  by unfold State.writeWordAt; split <;> rfl
@[simp] theorem writeWordAt_lowPrecision : (s.writeWordAt m v).lowPrecision = s.lowPrecision :=
  by unfold State.writeWordAt; split <;> rfl
@[simp] theorem writeWordAt_device (n : Nat) : (s.writeWordAt m v).device? n = s.device? n :=
  by unfold State.writeWordAt; split <;> rfl
@[simp] theorem writeWordAt_condition (n : Nat) : (s.writeWordAt m v).condition n = s.condition n :=
  by unfold State.writeWordAt; split <;> rfl
@[simp] theorem writeWordAt_transferring (n : Nat) : (s.writeWordAt m v).transferring n = s.transferring n :=
  by unfold State.writeWordAt; split <;> rfl
@[simp] theorem writeWordAt_mayTransfer (z : Transfer) : (s.writeWordAt m v).mayTransfer z = s.mayTransfer z :=
  by unfold State.writeWordAt; split <;> rfl
@[simp] theorem writeWordAt_selectedDevice (a : Word) : (s.writeWordAt m v).selectedDevice a = s.selectedDevice a :=
  by unfold State.writeWordAt; split <;> rfl
@[simp] theorem writeWordAt_honoured : (s.writeWordAt m v).honoured = s.honoured :=
  by unfold State.writeWordAt; split <;> rfl

end

section
variable (s : State) (b v : Word)

@[simp] theorem wordWrite_ic : (s.wordWrite b v).ic = s.ic := by simp [State.wordWrite]
@[simp] theorem wordWrite_ex : (s.wordWrite b v).ex = s.ex := by simp [State.wordWrite]
@[simp] theorem wordWrite_pr : (s.wordWrite b v).pr = s.pr := by simp [State.wordWrite]
@[simp] theorem wordWrite_monitorMode : (s.wordWrite b v).monitorMode = s.monitorMode := by simp [State.wordWrite]
@[simp] theorem wordWrite_ir : (s.wordWrite b v).ir = s.ir := by simp [State.wordWrite]
@[simp] theorem wordWrite_im : (s.wordWrite b v).im = s.im := by simp [State.wordWrite]
@[simp] theorem wordWrite_interruptDisabled : (s.wordWrite b v).interruptDisabled = s.interruptDisabled :=
  by simp [State.wordWrite]
@[simp] theorem wordWrite_keys : (s.wordWrite b v).keys = s.keys := by simp [State.wordWrite]
@[simp] theorem wordWrite_run : (s.wordWrite b v).run = s.run := by simp [State.wordWrite]
@[simp] theorem wordWrite_amPending : (s.wordWrite b v).amPending = s.amPending := by simp [State.wordWrite]
@[simp] theorem wordWrite_resetKey : (s.wordWrite b v).resetKey = s.resetKey := by simp [State.wordWrite]
@[simp] theorem wordWrite_startKey : (s.wordWrite b v).startKey = s.startKey := by simp [State.wordWrite]
@[simp] theorem wordWrite_autoloadKey : (s.wordWrite b v).autoloadKey = s.autoloadKey := by simp [State.wordWrite]
@[simp] theorem wordWrite_powerFailing : (s.wordWrite b v).powerFailing = s.powerFailing := by simp [State.wordWrite]
@[simp] theorem wordWrite_devices : (s.wordWrite b v).devices = s.devices := by simp [State.wordWrite]
@[simp] theorem wordWrite_inst : (s.wordWrite b v).inst = s.inst := by simp [State.wordWrite]
@[simp] theorem wordWrite_commands : (s.wordWrite b v).commands = s.commands := by simp [State.wordWrite]
@[simp] theorem wordWrite_schedule : (s.wordWrite b v).schedule = s.schedule := by simp [State.wordWrite]
@[simp] theorem wordWrite_steals : (s.wordWrite b v).steals = s.steals := by simp [State.wordWrite]
@[simp] theorem wordWrite_keyRead (a : Word) : (s.wordWrite b v).keyRead a = s.keyRead a := by simp [State.wordWrite]
@[simp] theorem wordWrite_isProtected (a : Word) : (s.wordWrite b v).isProtected a = s.isProtected a :=
  by simp [State.wordWrite]
@[simp] theorem wordWrite_forbids (a : Word) : (s.wordWrite b v).forbids a = s.forbids a := by simp [State.wordWrite]
@[simp] theorem wordWrite_missing (a : Word) : (s.wordWrite b v).missing a = s.missing a := by simp [State.wordWrite]
@[simp] theorem wordWrite_lowPrecision : (s.wordWrite b v).lowPrecision = s.lowPrecision := by simp [State.wordWrite]
@[simp] theorem wordWrite_device (n : Nat) : (s.wordWrite b v).device? n = s.device? n := by simp [State.wordWrite]
@[simp] theorem wordWrite_condition (n : Nat) : (s.wordWrite b v).condition n = s.condition n :=
  by simp [State.wordWrite]
@[simp] theorem wordWrite_transferring (n : Nat) : (s.wordWrite b v).transferring n = s.transferring n :=
  by simp [State.wordWrite]
@[simp] theorem wordWrite_mayTransfer (z : Transfer) : (s.wordWrite b v).mayTransfer z = s.mayTransfer z :=
  by simp [State.wordWrite]
@[simp] theorem wordWrite_selectedDevice (a : Word) : (s.wordWrite b v).selectedDevice a = s.selectedDevice a :=
  by simp [State.wordWrite]
@[simp] theorem wordWrite_honoured : (s.wordWrite b v).honoured = s.honoured := by simp [State.wordWrite]

end

section
variable (s : State) (b : Word) (v : Byte)

@[simp] theorem byteWrite_ic : (s.byteWrite b v).ic = s.ic := by simp [State.byteWrite]
@[simp] theorem byteWrite_ex : (s.byteWrite b v).ex = s.ex := by simp [State.byteWrite]
@[simp] theorem byteWrite_pr : (s.byteWrite b v).pr = s.pr := by simp [State.byteWrite]
@[simp] theorem byteWrite_monitorMode : (s.byteWrite b v).monitorMode = s.monitorMode := by simp [State.byteWrite]
@[simp] theorem byteWrite_ir : (s.byteWrite b v).ir = s.ir := by simp [State.byteWrite]
@[simp] theorem byteWrite_im : (s.byteWrite b v).im = s.im := by simp [State.byteWrite]
@[simp] theorem byteWrite_interruptDisabled : (s.byteWrite b v).interruptDisabled = s.interruptDisabled :=
  by simp [State.byteWrite]
@[simp] theorem byteWrite_keys : (s.byteWrite b v).keys = s.keys := by simp [State.byteWrite]
@[simp] theorem byteWrite_run : (s.byteWrite b v).run = s.run := by simp [State.byteWrite]
@[simp] theorem byteWrite_amPending : (s.byteWrite b v).amPending = s.amPending := by simp [State.byteWrite]
@[simp] theorem byteWrite_resetKey : (s.byteWrite b v).resetKey = s.resetKey := by simp [State.byteWrite]
@[simp] theorem byteWrite_startKey : (s.byteWrite b v).startKey = s.startKey := by simp [State.byteWrite]
@[simp] theorem byteWrite_autoloadKey : (s.byteWrite b v).autoloadKey = s.autoloadKey := by simp [State.byteWrite]
@[simp] theorem byteWrite_powerFailing : (s.byteWrite b v).powerFailing = s.powerFailing := by simp [State.byteWrite]
@[simp] theorem byteWrite_devices : (s.byteWrite b v).devices = s.devices := by simp [State.byteWrite]
@[simp] theorem byteWrite_inst : (s.byteWrite b v).inst = s.inst := by simp [State.byteWrite]
@[simp] theorem byteWrite_commands : (s.byteWrite b v).commands = s.commands := by simp [State.byteWrite]
@[simp] theorem byteWrite_schedule : (s.byteWrite b v).schedule = s.schedule := by simp [State.byteWrite]
@[simp] theorem byteWrite_steals : (s.byteWrite b v).steals = s.steals := by simp [State.byteWrite]
@[simp] theorem byteWrite_keyRead (a : Word) : (s.byteWrite b v).keyRead a = s.keyRead a := by simp [State.byteWrite]
@[simp] theorem byteWrite_isProtected (a : Word) : (s.byteWrite b v).isProtected a = s.isProtected a :=
  by simp [State.byteWrite]
@[simp] theorem byteWrite_forbids (a : Word) : (s.byteWrite b v).forbids a = s.forbids a := by simp [State.byteWrite]
@[simp] theorem byteWrite_missing (a : Word) : (s.byteWrite b v).missing a = s.missing a := by simp [State.byteWrite]
@[simp] theorem byteWrite_lowPrecision : (s.byteWrite b v).lowPrecision = s.lowPrecision := by simp [State.byteWrite]
@[simp] theorem byteWrite_device (n : Nat) : (s.byteWrite b v).device? n = s.device? n := by simp [State.byteWrite]
@[simp] theorem byteWrite_condition (n : Nat) : (s.byteWrite b v).condition n = s.condition n :=
  by simp [State.byteWrite]
@[simp] theorem byteWrite_transferring (n : Nat) : (s.byteWrite b v).transferring n = s.transferring n :=
  by simp [State.byteWrite]
@[simp] theorem byteWrite_mayTransfer (z : Transfer) : (s.byteWrite b v).mayTransfer z = s.mayTransfer z :=
  by simp [State.byteWrite]
@[simp] theorem byteWrite_selectedDevice (a : Word) : (s.byteWrite b v).selectedDevice a = s.selectedDevice a :=
  by simp [State.byteWrite]
@[simp] theorem byteWrite_honoured : (s.byteWrite b v).honoured = s.honoured := by simp [State.byteWrite]

end

section
variable (s : State) (i : Nat)

@[simp] theorem serve_regs : (s.serve i).regs = s.regs := rfl
@[simp] theorem serve_ex : (s.serve i).ex = s.ex := rfl
@[simp] theorem serve_pr : (s.serve i).pr = s.pr := rfl
@[simp] theorem serve_im : (s.serve i).im = s.im := rfl
@[simp] theorem serve_keys : (s.serve i).keys = s.keys := rfl
@[simp] theorem serve_run : (s.serve i).run = s.run := rfl
@[simp] theorem serve_amPending : (s.serve i).amPending = s.amPending := rfl
@[simp] theorem serve_resetKey : (s.serve i).resetKey = s.resetKey := rfl
@[simp] theorem serve_startKey : (s.serve i).startKey = s.startKey := rfl
@[simp] theorem serve_autoloadKey : (s.serve i).autoloadKey = s.autoloadKey := rfl
@[simp] theorem serve_powerFailing : (s.serve i).powerFailing = s.powerFailing := rfl
@[simp] theorem serve_devices : (s.serve i).devices = s.devices := rfl
@[simp] theorem serve_inst : (s.serve i).inst = s.inst := rfl
@[simp] theorem serve_commands : (s.serve i).commands = s.commands := rfl
@[simp] theorem serve_schedule : (s.serve i).schedule = s.schedule := rfl
@[simp] theorem serve_reg (r : Reg) : (s.serve i).reg r = s.reg r := rfl
@[simp] theorem serve_pair (r : Reg) : (s.serve i).pair r = s.pair r := rfl
@[simp] theorem serve_keyRead (a : Word) : (s.serve i).keyRead a = s.keyRead a := rfl
@[simp] theorem serve_isProtected (a : Word) : (s.serve i).isProtected a = s.isProtected a := rfl
@[simp] theorem serve_missing (a : Word) : (s.serve i).missing a = s.missing a := rfl
@[simp] theorem serve_lowPrecision : (s.serve i).lowPrecision = s.lowPrecision := rfl
@[simp] theorem serve_device (n : Nat) : (s.serve i).device? n = s.device? n := rfl
@[simp] theorem serve_condition (n : Nat) : (s.serve i).condition n = s.condition n := rfl
@[simp] theorem serve_transferring (n : Nat) : (s.serve i).transferring n = s.transferring n := rfl
@[simp] theorem serve_mayTransfer (z : Transfer) : (s.serve i).mayTransfer z = s.mayTransfer z := rfl
@[simp] theorem serve_selectedDevice (a : Word) : (s.serve i).selectedDevice a = s.selectedDevice a := rfl

end

section
variable (s : State)

@[simp] theorem service_regs : (s.service).regs = s.regs := by unfold State.service; split <;> simp
@[simp] theorem service_ex : (s.service).ex = s.ex := by unfold State.service; split <;> simp
@[simp] theorem service_pr : (s.service).pr = s.pr := by unfold State.service; split <;> simp
@[simp] theorem service_im : (s.service).im = s.im := by unfold State.service; split <;> simp
@[simp] theorem service_keys : (s.service).keys = s.keys := by unfold State.service; split <;> simp
@[simp] theorem service_run : (s.service).run = s.run := by unfold State.service; split <;> simp
@[simp] theorem service_amPending : (s.service).amPending = s.amPending := by unfold State.service; split <;> simp
@[simp] theorem service_resetKey : (s.service).resetKey = s.resetKey := by unfold State.service; split <;> simp
@[simp] theorem service_startKey : (s.service).startKey = s.startKey := by unfold State.service; split <;> simp
@[simp] theorem service_autoloadKey : (s.service).autoloadKey = s.autoloadKey := by unfold State.service; split <;> simp
@[simp] theorem service_powerFailing : (s.service).powerFailing = s.powerFailing :=
  by unfold State.service; split <;> simp
@[simp] theorem service_devices : (s.service).devices = s.devices := by unfold State.service; split <;> simp
@[simp] theorem service_inst : (s.service).inst = s.inst := by unfold State.service; split <;> simp
@[simp] theorem service_commands : (s.service).commands = s.commands := by unfold State.service; split <;> simp
@[simp] theorem service_schedule : (s.service).schedule = s.schedule := by unfold State.service; split <;> simp
@[simp] theorem service_reg (r : Reg) : (s.service).reg r = s.reg r := by unfold State.service; split <;> simp
@[simp] theorem service_pair (r : Reg) : (s.service).pair r = s.pair r := by unfold State.service; split <;> simp
@[simp] theorem service_keyRead (a : Word) : (s.service).keyRead a = s.keyRead a :=
  by unfold State.service; split <;> simp
@[simp] theorem service_isProtected (a : Word) : (s.service).isProtected a = s.isProtected a :=
  by unfold State.service; split <;> simp
@[simp] theorem service_missing (a : Word) : (s.service).missing a = s.missing a :=
  by unfold State.service; split <;> simp
@[simp] theorem service_lowPrecision : (s.service).lowPrecision = s.lowPrecision :=
  by unfold State.service; split <;> simp
@[simp] theorem service_device (n : Nat) : (s.service).device? n = s.device? n :=
  by unfold State.service; split <;> simp
@[simp] theorem service_condition (n : Nat) : (s.service).condition n = s.condition n :=
  by unfold State.service; split <;> simp
@[simp] theorem service_transferring (n : Nat) : (s.service).transferring n = s.transferring n :=
  by unfold State.service; split <;> simp
@[simp] theorem service_mayTransfer (z : Transfer) : (s.service).mayTransfer z = s.mayTransfer z :=
  by unfold State.service; split <;> simp
@[simp] theorem service_selectedDevice (a : Word) : (s.service).selectedDevice a = s.selectedDevice a :=
  by unfold State.service; split <;> simp

end

section
variable (s : State)

@[simp] theorem raise_regs : (s.raise).regs = s.regs := (service_regs _).trans rfl
@[simp] theorem raise_ex : (s.raise).ex = s.ex := (service_ex _).trans rfl
@[simp] theorem raise_pr : (s.raise).pr = s.pr := (service_pr _).trans rfl
@[simp] theorem raise_im : (s.raise).im = s.im := (service_im _).trans rfl
@[simp] theorem raise_keys : (s.raise).keys = s.keys := (service_keys _).trans rfl
@[simp] theorem raise_run : (s.raise).run = s.run := (service_run _).trans rfl
@[simp] theorem raise_resetKey : (s.raise).resetKey = s.resetKey := (service_resetKey _).trans rfl
@[simp] theorem raise_startKey : (s.raise).startKey = s.startKey := (service_startKey _).trans rfl
@[simp] theorem raise_autoloadKey : (s.raise).autoloadKey = s.autoloadKey := (service_autoloadKey _).trans rfl
@[simp] theorem raise_powerFailing : (s.raise).powerFailing = s.powerFailing := (service_powerFailing _).trans rfl
@[simp] theorem raise_devices : (s.raise).devices = s.devices := (service_devices _).trans rfl
@[simp] theorem raise_inst : (s.raise).inst = s.inst := (service_inst _).trans rfl
@[simp] theorem raise_commands : (s.raise).commands = s.commands := (service_commands _).trans rfl
@[simp] theorem raise_schedule : (s.raise).schedule = s.schedule := (service_schedule _).trans rfl
@[simp] theorem raise_reg (r : Reg) : (s.raise).reg r = s.reg r := (service_reg _ r).trans rfl
@[simp] theorem raise_pair (r : Reg) : (s.raise).pair r = s.pair r := (service_pair _ r).trans rfl
@[simp] theorem raise_keyRead (a : Word) : (s.raise).keyRead a = s.keyRead a := (service_keyRead _ a).trans rfl
@[simp] theorem raise_isProtected (a : Word) : (s.raise).isProtected a = s.isProtected a :=
  (service_isProtected _ a).trans rfl
@[simp] theorem raise_missing (a : Word) : (s.raise).missing a = s.missing a := (service_missing _ a).trans rfl
@[simp] theorem raise_lowPrecision : (s.raise).lowPrecision = s.lowPrecision := (service_lowPrecision _).trans rfl
@[simp] theorem raise_device (n : Nat) : (s.raise).device? n = s.device? n := (service_device _ n).trans rfl
@[simp] theorem raise_condition (n : Nat) : (s.raise).condition n = s.condition n := (service_condition _ n).trans rfl
@[simp] theorem raise_transferring (n : Nat) : (s.raise).transferring n = s.transferring n :=
  (service_transferring _ n).trans rfl
@[simp] theorem raise_mayTransfer (z : Transfer) : (s.raise).mayTransfer z = s.mayTransfer z :=
  (service_mayTransfer _ z).trans rfl
@[simp] theorem raise_selectedDevice (a : Word) : (s.raise).selectedDevice a = s.selectedDevice a :=
  (service_selectedDevice _ a).trans rfl

end

section
variable (s : State)

@[simp] theorem resetSystem_regs : (s.resetSystem).regs = s.regs := rfl
@[simp] theorem resetSystem_ic : (s.resetSystem).ic = s.ic := rfl
@[simp] theorem resetSystem_ex : (s.resetSystem).ex = s.ex := rfl
@[simp] theorem resetSystem_pr : (s.resetSystem).pr = s.pr := rfl
@[simp] theorem resetSystem_ir : (s.resetSystem).ir = s.ir := rfl
@[simp] theorem resetSystem_im : (s.resetSystem).im = s.im := rfl
@[simp] theorem resetSystem_keys : (s.resetSystem).keys = s.keys := rfl
@[simp] theorem resetSystem_powerFailing : (s.resetSystem).powerFailing = s.powerFailing := rfl
@[simp] theorem resetSystem_devices : (s.resetSystem).devices = s.devices := rfl
@[simp] theorem resetSystem_inst : (s.resetSystem).inst = s.inst := rfl
@[simp] theorem resetSystem_commands : (s.resetSystem).commands = s.commands := rfl
@[simp] theorem resetSystem_schedule : (s.resetSystem).schedule = s.schedule := rfl
@[simp] theorem resetSystem_reg (r : Reg) : (s.resetSystem).reg r = s.reg r := rfl
@[simp] theorem resetSystem_pair (r : Reg) : (s.resetSystem).pair r = s.pair r := rfl
@[simp] theorem resetSystem_keyRead (a : Word) : (s.resetSystem).keyRead a = s.keyRead a := rfl
@[simp] theorem resetSystem_isProtected (a : Word) : (s.resetSystem).isProtected a = s.isProtected a := rfl
@[simp] theorem resetSystem_missing (a : Word) : (s.resetSystem).missing a = s.missing a := rfl
@[simp] theorem resetSystem_lowPrecision : (s.resetSystem).lowPrecision = s.lowPrecision := rfl
@[simp] theorem resetSystem_device (n : Nat) : (s.resetSystem).device? n = s.device? n := rfl
@[simp] theorem resetSystem_condition (n : Nat) : (s.resetSystem).condition n = s.condition n := rfl
@[simp] theorem resetSystem_transferring (n : Nat) : (s.resetSystem).transferring n = s.transferring n := rfl
@[simp] theorem resetSystem_selectedDevice (a : Word) : (s.resetSystem).selectedDevice a = s.selectedDevice a := rfl
@[simp] theorem resetSystem_honoured : (s.resetSystem).honoured = s.honoured := rfl

end

section
variable (s : State)

@[simp] theorem powerDown_regs : (s.powerDown).regs = s.regs := rfl
@[simp] theorem powerDown_ic : (s.powerDown).ic = s.ic := rfl
@[simp] theorem powerDown_ex : (s.powerDown).ex = s.ex := rfl
@[simp] theorem powerDown_pr : (s.powerDown).pr = s.pr := rfl
@[simp] theorem powerDown_ir : (s.powerDown).ir = s.ir := rfl
@[simp] theorem powerDown_im : (s.powerDown).im = s.im := rfl
@[simp] theorem powerDown_keys : (s.powerDown).keys = s.keys := rfl
@[simp] theorem powerDown_devices : (s.powerDown).devices = s.devices := rfl
@[simp] theorem powerDown_inst : (s.powerDown).inst = s.inst := rfl
@[simp] theorem powerDown_commands : (s.powerDown).commands = s.commands := rfl
@[simp] theorem powerDown_schedule : (s.powerDown).schedule = s.schedule := rfl
@[simp] theorem powerDown_reg (r : Reg) : (s.powerDown).reg r = s.reg r := rfl
@[simp] theorem powerDown_pair (r : Reg) : (s.powerDown).pair r = s.pair r := rfl
@[simp] theorem powerDown_keyRead (a : Word) : (s.powerDown).keyRead a = s.keyRead a := rfl
@[simp] theorem powerDown_isProtected (a : Word) : (s.powerDown).isProtected a = s.isProtected a := rfl
@[simp] theorem powerDown_missing (a : Word) : (s.powerDown).missing a = s.missing a := rfl
@[simp] theorem powerDown_lowPrecision : (s.powerDown).lowPrecision = s.lowPrecision := rfl
@[simp] theorem powerDown_device (n : Nat) : (s.powerDown).device? n = s.device? n := rfl
@[simp] theorem powerDown_condition (n : Nat) : (s.powerDown).condition n = s.condition n := rfl
@[simp] theorem powerDown_transferring (n : Nat) : (s.powerDown).transferring n = s.transferring n := rfl
@[simp] theorem powerDown_selectedDevice (a : Word) : (s.powerDown).selectedDevice a = s.selectedDevice a := rfl
@[simp] theorem powerDown_honoured : (s.powerDown).honoured = s.honoured := rfl

end

section
variable (s : State) (y : Transfer)

@[simp] theorem transfer_regs : (s.transfer y).regs = s.regs := rfl
@[simp] theorem transfer_ic : (s.transfer y).ic = s.ic := rfl
@[simp] theorem transfer_ex : (s.transfer y).ex = s.ex := rfl
@[simp] theorem transfer_pr : (s.transfer y).pr = s.pr := rfl
@[simp] theorem transfer_monitorMode : (s.transfer y).monitorMode = s.monitorMode := rfl
@[simp] theorem transfer_ir : (s.transfer y).ir = s.ir := rfl
@[simp] theorem transfer_im : (s.transfer y).im = s.im := rfl
@[simp] theorem transfer_interruptDisabled : (s.transfer y).interruptDisabled = s.interruptDisabled := rfl
@[simp] theorem transfer_keys : (s.transfer y).keys = s.keys := rfl
@[simp] theorem transfer_run : (s.transfer y).run = s.run := rfl
@[simp] theorem transfer_amPending : (s.transfer y).amPending = s.amPending := rfl
@[simp] theorem transfer_resetKey : (s.transfer y).resetKey = s.resetKey := rfl
@[simp] theorem transfer_startKey : (s.transfer y).startKey = s.startKey := rfl
@[simp] theorem transfer_autoloadKey : (s.transfer y).autoloadKey = s.autoloadKey := rfl
@[simp] theorem transfer_powerFailing : (s.transfer y).powerFailing = s.powerFailing := rfl
@[simp] theorem transfer_devices : (s.transfer y).devices = s.devices := rfl
@[simp] theorem transfer_inst : (s.transfer y).inst = s.inst := rfl
@[simp] theorem transfer_commands : (s.transfer y).commands = s.commands := rfl
@[simp] theorem transfer_schedule : (s.transfer y).schedule = s.schedule := rfl
@[simp] theorem transfer_steals : (s.transfer y).steals = s.steals := rfl
@[simp] theorem transfer_reg (r : Reg) : (s.transfer y).reg r = s.reg r := rfl
@[simp] theorem transfer_pair (r : Reg) : (s.transfer y).pair r = s.pair r := rfl
@[simp] theorem transfer_keyRead (a : Word) : (s.transfer y).keyRead a = s.keyRead a := rfl
@[simp] theorem transfer_isProtected (a : Word) : (s.transfer y).isProtected a = s.isProtected a := rfl
@[simp] theorem transfer_forbids (a : Word) : (s.transfer y).forbids a = s.forbids a := rfl
@[simp] theorem transfer_missing (a : Word) : (s.transfer y).missing a = s.missing a := rfl
@[simp] theorem transfer_lowPrecision : (s.transfer y).lowPrecision = s.lowPrecision := rfl
@[simp] theorem transfer_device (n : Nat) : (s.transfer y).device? n = s.device? n := rfl
@[simp] theorem transfer_condition (n : Nat) : (s.transfer y).condition n = s.condition n := rfl
@[simp] theorem transfer_transferring (n : Nat) : (s.transfer y).transferring n = s.transferring n := rfl
@[simp] theorem transfer_mayTransfer (z : Transfer) : (s.transfer y).mayTransfer z = s.mayTransfer z := rfl
@[simp] theorem transfer_selectedDevice (a : Word) : (s.transfer y).selectedDevice a = s.selectedDevice a := rfl
@[simp] theorem transfer_honoured : (s.transfer y).honoured = s.honoured := rfl

end

section
variable (s : State)

@[simp] theorem steal_regs : (s.steal).regs = s.regs := rfl
@[simp] theorem steal_ic : (s.steal).ic = s.ic := rfl
@[simp] theorem steal_ex : (s.steal).ex = s.ex := rfl
@[simp] theorem steal_pr : (s.steal).pr = s.pr := rfl
@[simp] theorem steal_monitorMode : (s.steal).monitorMode = s.monitorMode := rfl
@[simp] theorem steal_ir : (s.steal).ir = s.ir := rfl
@[simp] theorem steal_im : (s.steal).im = s.im := rfl
@[simp] theorem steal_interruptDisabled : (s.steal).interruptDisabled = s.interruptDisabled := rfl
@[simp] theorem steal_keys : (s.steal).keys = s.keys := rfl
@[simp] theorem steal_run : (s.steal).run = s.run := rfl
@[simp] theorem steal_amPending : (s.steal).amPending = s.amPending := rfl
@[simp] theorem steal_resetKey : (s.steal).resetKey = s.resetKey := rfl
@[simp] theorem steal_startKey : (s.steal).startKey = s.startKey := rfl
@[simp] theorem steal_autoloadKey : (s.steal).autoloadKey = s.autoloadKey := rfl
@[simp] theorem steal_powerFailing : (s.steal).powerFailing = s.powerFailing := rfl
@[simp] theorem steal_devices : (s.steal).devices = s.devices := rfl
@[simp] theorem steal_inst : (s.steal).inst = s.inst := rfl
@[simp] theorem steal_commands : (s.steal).commands = s.commands := rfl
@[simp] theorem steal_schedule : (s.steal).schedule = s.schedule := rfl
@[simp] theorem steal_reg (r : Reg) : (s.steal).reg r = s.reg r := rfl
@[simp] theorem steal_pair (r : Reg) : (s.steal).pair r = s.pair r := rfl
@[simp] theorem steal_keyRead (a : Word) : (s.steal).keyRead a = s.keyRead a := rfl
@[simp] theorem steal_isProtected (a : Word) : (s.steal).isProtected a = s.isProtected a := rfl
@[simp] theorem steal_forbids (a : Word) : (s.steal).forbids a = s.forbids a := rfl
@[simp] theorem steal_missing (a : Word) : (s.steal).missing a = s.missing a := rfl
@[simp] theorem steal_lowPrecision : (s.steal).lowPrecision = s.lowPrecision := rfl
@[simp] theorem steal_device (n : Nat) : (s.steal).device? n = s.device? n := rfl
@[simp] theorem steal_condition (n : Nat) : (s.steal).condition n = s.condition n := rfl
@[simp] theorem steal_transferring (n : Nat) : (s.steal).transferring n = s.transferring n := rfl
@[simp] theorem steal_mayTransfer (z : Transfer) : (s.steal).mayTransfer z = s.mayTransfer z := rfl
@[simp] theorem steal_selectedDevice (a : Word) : (s.steal).selectedDevice a = s.selectedDevice a := rfl
@[simp] theorem steal_honoured : (s.steal).honoured = s.honoured := rfl

end

section
variable (s : State) (p : AddressPart)

@[simp] theorem entered_regs : (s.entered p).regs = s.regs := by unfold State.entered; split <;> rfl
@[simp] theorem entered_ex : (s.entered p).ex = s.ex := by unfold State.entered; split <;> rfl
@[simp] theorem entered_pr : (s.entered p).pr = s.pr := by unfold State.entered; split <;> rfl
@[simp] theorem entered_ir : (s.entered p).ir = s.ir := by unfold State.entered; split <;> rfl
@[simp] theorem entered_im : (s.entered p).im = s.im := by unfold State.entered; split <;> rfl
@[simp] theorem entered_interruptDisabled : (s.entered p).interruptDisabled = s.interruptDisabled :=
  by unfold State.entered; split <;> rfl
@[simp] theorem entered_keys : (s.entered p).keys = s.keys := by unfold State.entered; split <;> rfl
@[simp] theorem entered_run : (s.entered p).run = s.run := by unfold State.entered; split <;> rfl
@[simp] theorem entered_resetKey : (s.entered p).resetKey = s.resetKey := by unfold State.entered; split <;> rfl
@[simp] theorem entered_startKey : (s.entered p).startKey = s.startKey := by unfold State.entered; split <;> rfl
@[simp] theorem entered_autoloadKey : (s.entered p).autoloadKey = s.autoloadKey :=
  by unfold State.entered; split <;> rfl
@[simp] theorem entered_powerFailing : (s.entered p).powerFailing = s.powerFailing :=
  by unfold State.entered; split <;> rfl
@[simp] theorem entered_devices : (s.entered p).devices = s.devices := by unfold State.entered; split <;> rfl
@[simp] theorem entered_inst : (s.entered p).inst = s.inst := by unfold State.entered; split <;> rfl
@[simp] theorem entered_commands : (s.entered p).commands = s.commands := by unfold State.entered; split <;> rfl
@[simp] theorem entered_schedule : (s.entered p).schedule = s.schedule := by unfold State.entered; split <;> rfl
@[simp] theorem entered_reg (r : Reg) : (s.entered p).reg r = s.reg r := by unfold State.entered; split <;> rfl
@[simp] theorem entered_pair (r : Reg) : (s.entered p).pair r = s.pair r := by unfold State.entered; split <;> rfl
@[simp] theorem entered_keyRead (a : Word) : (s.entered p).keyRead a = s.keyRead a :=
  by unfold State.entered; split <;> rfl
@[simp] theorem entered_isProtected (a : Word) : (s.entered p).isProtected a = s.isProtected a :=
  by unfold State.entered; split <;> rfl
@[simp] theorem entered_missing (a : Word) : (s.entered p).missing a = s.missing a :=
  by unfold State.entered; split <;> rfl
@[simp] theorem entered_lowPrecision : (s.entered p).lowPrecision = s.lowPrecision :=
  by unfold State.entered; split <;> rfl
@[simp] theorem entered_device (n : Nat) : (s.entered p).device? n = s.device? n :=
  by unfold State.entered; split <;> rfl
@[simp] theorem entered_condition (n : Nat) : (s.entered p).condition n = s.condition n :=
  by unfold State.entered; split <;> rfl
@[simp] theorem entered_transferring (n : Nat) : (s.entered p).transferring n = s.transferring n :=
  by unfold State.entered; split <;> rfl
@[simp] theorem entered_mayTransfer (z : Transfer) : (s.entered p).mayTransfer z = s.mayTransfer z :=
  by unfold State.entered; split <;> rfl
@[simp] theorem entered_selectedDevice (a : Word) : (s.entered p).selectedDevice a = s.selectedDevice a :=
  by unfold State.entered; split <;> rfl
@[simp] theorem entered_honoured : (s.entered p).honoured = s.honoured := by unfold State.entered; split <;> rfl

end

end Sys2Proof.Machine
end

