-- ==== Sys2Proof/Laws/Store.lean ====
section
/-! SUPPORT. The laws of registers, storage words, bytes and keys: read after write, the frame of each write, and the
canonical form that every write keeps. -/

namespace Sys2Proof.Machine

/-! ## Registers -/

@[simp] theorem Regs.get_set (w : Regs) (r q : Reg) (v : Word) :
    (w.set r v).get q = if r = q then v else w.get q := by
  cases r <;> cases q <;> rfl

/-- Reading a register after a write to one. -/
@[simp] theorem reg_setReg (s : State) (r q : Reg) (v : Word) :
    (s.setReg r v).reg q = if r = q then v else s.reg q := Regs.get_set ..

@[simp] theorem preceding_ne (r : Reg) : preceding r ≠ r := by cases r <;> decide

@[simp] theorem ne_preceding (r : Reg) : r ≠ preceding r := by cases r <;> decide

@[simp] theorem preceding_inj {r q : Reg} : preceding r = preceding q ↔ r = q := by
  cases r <;> cases q <;> decide

/-- Reading a register after a write to a pair. -/
theorem reg_setPair (s : State) (r q : Reg) (v : DoubleWord) :
    (s.setPair r v).reg q =
      if r = q then v.extractLsb' 0 24 else if preceding r = q then v.extractLsb' 24 24 else s.reg q := by
  simp [State.setPair]

/-- The pair just written. -/
@[simp] theorem pair_setPair (s : State) (r : Reg) (v : DoubleWord) : (s.setPair r v).pair r = v := by
  simp only [State.pair, reg_setPair, ne_preceding, preceding_ne, if_true, if_false]
  ext i hi
  simp only [BitVec.getElem_append, BitVec.getElem_extractLsb']
  split
  · rw [BitVec.getElem_eq_testBit_toNat, BitVec.getLsbD]; simp
  · rw [BitVec.getElem_eq_testBit_toNat, BitVec.getLsbD]; congr 1; omega

/-! ## Word numbers -/

@[simp] theorem registerAt_eq_none {n : Nat} : registerAt n = none ↔ 4 ≤ n := by
  match n with
  | 0 | 1 | 2 | 3 => simp [registerAt]
  | n + 4 => simp [registerAt]

theorem registerAt_eq_some {n : Nat} {r : Reg} : registerAt n = some r ↔ n = registerNumber r := by
  match n with
  | 0 | 1 | 2 | 3 => cases r <;> decide
  | n + 4 => cases r <;> simp [registerAt, registerNumber]

theorem wordNumber_lt (a : Word) : wordNumber a < 2 ^ 23 := by
  have := a.isLt; unfold wordNumber; omega

@[simp] theorem toNat_evenAddress (a : Word) : (evenAddress a).toNat = 2 * wordNumber a := by
  have key : evenAddress a = (a >>> 1) <<< 1 := by
    have mask : ∀ i : Fin 24, (0xFFFFFE#24).getLsbD i = decide (i.val ≠ 0) := by decide
    apply BitVec.eq_of_getLsbD_eq
    intro i hi
    rw [evenAddress, BitVec.getLsbD_and, show BitVec.getLsbD (16777214 : Word) i = _ from mask ⟨i, hi⟩, BitVec.getLsbD_shiftLeft, BitVec.getLsbD_ushiftRight]
    rcases i with _ | i
    · simp
    · simp [hi, Nat.add_comm]
  have := a.isLt
  rw [key, BitVec.toNat_shiftLeft, BitVec.toNat_ushiftRight, Nat.shiftLeft_eq, Nat.shiftRight_eq_div_pow]
  simp only [wordNumber]; omega

@[simp] theorem wordNumber_evenAddress (a : Word) : wordNumber (evenAddress a) = wordNumber a := by
  rw [wordNumber, toNat_evenAddress]; omega

/-- IC(23) = 0 of an even address. -/
@[simp] theorem evenAddress_bit23 (a : Word) : (evenAddress a).getMsbD 23 = false := by
  simp [evenAddress, BitVec.getMsbD_and]

/-- The word before a double word's second word, by number (R64): word 3 before word 0. -/
theorem wordNumber_firstWordAddress (a : Word) :
    wordNumber (firstWordAddress a) = if wordNumber a = 0 then 3 else wordNumber a - 1 := by
  unfold firstWordAddress
  split
  · rfl
  · next h =>
    have hlt := wordNumber_lt a
    have h2 : (2 : Word).toNat ≤ (evenAddress a).toNat := by rw [toNat_evenAddress]; simp; omega
    rw [wordNumber, BitVec.toNat_sub_of_le (by simpa [BitVec.le_def] using h2), toNat_evenAddress]
    simp; omega

/-! ## Storage words -/

/-- Reading a word after a write to one. -/
theorem readWordAt_writeWordAt {s : State} (h : s.storeRising) (m n : Nat) (v : Word) :
    (s.writeWordAt m v).readWordAt n = if m = n then v else s.readWordAt n := by
  unfold State.writeWordAt State.readWordAt
  cases hm : registerAt m with
  | some r =>
    cases hn : registerAt n with
    | some q =>
      rw [registerAt_eq_some] at hm hn
      subst hm; subst hn
      have : registerNumber r = registerNumber q ↔ r = q := by cases r <;> cases q <;> decide
      simp [this]
    | none =>
      rw [registerAt_eq_none] at hn
      have : m ≠ n := by rintro rfl; rw [registerAt_eq_none.2 hn] at hm; cases hm
      simp [this]
  | none =>
    cases hn : registerAt n with
    | some q =>
      have : m ≠ n := by rintro rfl; rw [hm] at hn; cases hn
      simp [this, State.reg]
    | none =>
      simp only [storeWord, readPlane_writePlane (writePlane_pairwise h), readPlane_writePlane h]
      by_cases hmn : m = n
      · subst hmn
        have : ¬ (2 * m + 1 = 2 * m) := by omega
        simp only [this, if_false, if_true]
        ext i hi
        simp only [BitVec.getElem_append, BitVec.getElem_extractLsb']
        split
        · rw [BitVec.getElem_eq_testBit_toNat, BitVec.getLsbD]; simp
        · rw [BitVec.getElem_eq_testBit_toNat, BitVec.getLsbD]; congr 1; omega
      · have h1 : ¬ (2 * m + 1 = 2 * n) := by omega
        have h2 : ¬ (2 * m = 2 * n) := by omega
        have h4 : ¬ (2 * m = 2 * n + 1) := by omega
        simp [hmn, h1, h2, h4]

/-- A write changes no other word, in any state. -/
theorem readWordAt_writeWordAt_other (s : State) {m n : Nat} (v : Word) (h : m ≠ n) :
    (s.writeWordAt m v).readWordAt n = s.readWordAt n := by
  unfold State.writeWordAt State.readWordAt
  cases hm : registerAt m with
  | some r =>
    cases hn : registerAt n with
    | some q =>
      rw [registerAt_eq_some] at hm hn
      have : r ≠ q := by rintro rfl; exact h (hm.trans hn.symm)
      simp [this]
    | none => simp
  | none =>
    cases hn : registerAt n with
    | some q => simp [State.reg]
    | none =>
      simp only [storeWord]
      rw [readPlane_writePlane_other _ _ (by omega), readPlane_writePlane_other _ _ (by omega),
        readPlane_writePlane_other _ _ (by omega), readPlane_writePlane_other _ _ (by omega)]

/-- Reading a register after a storage write: the write may name the register (R24). -/
theorem reg_writeWordAt (s : State) (m : Nat) (v : Word) (r : Reg) :
    (s.writeWordAt m v).reg r = if m = registerNumber r then v else s.reg r := by
  unfold State.writeWordAt
  cases hm : registerAt m with
  | some q =>
    rw [registerAt_eq_some] at hm
    have : registerNumber q = registerNumber r ↔ q = r := by cases r <;> cases q <;> decide
    simp [hm, this]
  | none =>
    have : m ≠ registerNumber r := by
      rintro rfl; cases r <;> simp [registerNumber, registerAt] at hm
    simp [this, State.reg]

/-- Reading a word after a register write: the word may be the register (R24). -/
theorem readWordAt_setReg (s : State) (r : Reg) (v : Word) (n : Nat) :
    (s.setReg r v).readWordAt n = if n = registerNumber r then v else s.readWordAt n := by
  unfold State.readWordAt
  cases hn : registerAt n with
  | some q =>
    rw [registerAt_eq_some] at hn
    have : registerNumber q = registerNumber r ↔ r = q := by cases r <;> cases q <;> decide
    simp [hn, this]
  | none =>
    have : n ≠ registerNumber r := by
      rintro rfl; cases r <;> simp [registerNumber, registerAt] at hn
    simp [this]

/-- Reading the word that a register is. -/
@[simp] theorem readWordAt_registerNumber (s : State) (r : Reg) : s.readWordAt (registerNumber r) = s.reg r := by
  cases r <;> rfl

/-! ## Words and bytes by address -/

theorem wordRead_wordWrite {s : State} (h : s.storeRising) (a b : Word) (v : Word) :
    (s.wordWrite a v).wordRead b = if wordNumber a = wordNumber b then v else s.wordRead b :=
  readWordAt_writeWordAt h _ _ _

theorem wordRead_wordWrite_other (s : State) {a b : Word} (v : Word) (h : wordNumber a ≠ wordNumber b) :
    (s.wordWrite a v).wordRead b = s.wordRead b :=
  readWordAt_writeWordAt_other s v h

theorem reg_wordWrite (s : State) (a v : Word) (r : Reg) :
    (s.wordWrite a v).reg r = if wordNumber a = registerNumber r then v else s.reg r :=
  reg_writeWordAt s _ v r

theorem wordRead_setReg (s : State) (r : Reg) (v b : Word) :
    (s.setReg r v).wordRead b = if wordNumber b = registerNumber r then v else s.wordRead b :=
  readWordAt_setReg s r v _

/-- A byte write is a word write (R74). -/
theorem wordRead_byteWrite {s : State} (h : s.storeRising) (a b : Word) (v : Byte) :
    (s.byteWrite a v).wordRead b = if wordNumber a = wordNumber b then withHalf a (s.wordRead a) v else s.wordRead b :=
  wordRead_wordWrite h ..

/-- The byte written, and the other byte of its word. -/
theorem halfOf_withHalf (a b v : Word) (x : Byte) :
    halfOf b (withHalf a v x) = if a.getMsbD 23 = b.getMsbD 23 then x else halfOf b v := by
  have hi (x y : Byte) : (x ++ y : Word).extractLsb' 12 12 = x := by
    apply BitVec.eq_of_getLsbD_eq
    intro i h
    rw [BitVec.getLsbD_extractLsb', BitVec.getLsbD_append]
    simp [h]
  have lo (x y : Byte) : (x ++ y : Word).extractLsb' 0 12 = y := by
    apply BitVec.eq_of_getLsbD_eq
    intro i h
    rw [BitVec.getLsbD_extractLsb', BitVec.getLsbD_append]
    simp [h]
  unfold halfOf withHalf
  cases a.getMsbD 23 <;> cases b.getMsbD 23 <;> simp [hi, lo]

/-- Two addresses of one word with the same last bit are equal. -/
theorem eq_of_wordNumber_of_bit {a b : Word} (h : wordNumber a = wordNumber b) (h1 : a.getMsbD 23 = b.getMsbD 23) :
    a = b := by
  have ha : a.getMsbD 23 = decide (a.toNat % 2 = 1) := by
    simp [BitVec.getMsbD, BitVec.getLsbD, Nat.testBit_zero]
  have hb : b.getMsbD 23 = decide (b.toNat % 2 = 1) := by
    simp [BitVec.getMsbD, BitVec.getLsbD, Nat.testBit_zero]
  rw [ha, hb, decide_eq_decide] at h1
  apply BitVec.eq_of_toNat_eq
  unfold wordNumber at h; omega

/-- Reading a byte after a byte write: only the byte addressed changes. -/
theorem byteRead_byteWrite {s : State} (h : s.storeRising) (a b : Word) (v : Byte) :
    (s.byteWrite a v).byteRead b = if a = b then v else s.byteRead b := by
  unfold State.byteRead
  rw [wordRead_byteWrite h]
  by_cases hn : wordNumber a = wordNumber b
  · rw [if_pos hn, halfOf_withHalf]
    by_cases hb : a.getMsbD 23 = b.getMsbD 23
    · simp [eq_of_wordNumber_of_bit hn hb]
    · have : a ≠ b := by rintro rfl; exact hb rfl
      have hw : s.wordRead a = s.wordRead b := by simp [State.wordRead, hn]
      simp [hb, this, hw]
  · have : a ≠ b := by rintro rfl; exact hn rfl
    simp [hn, this]

/-- A word write changes the bytes of its own word only. -/
theorem byteRead_wordWrite_other (s : State) {a b : Word} (v : Word) (h : wordNumber a ≠ wordNumber b) :
    (s.wordWrite a v).byteRead b = s.byteRead b := by
  simp [State.byteRead, wordRead_wordWrite_other s v h]

theorem byteRead_byteWrite_other (s : State) {a b : Word} (v : Byte) (h : wordNumber a ≠ wordNumber b) :
    (s.byteWrite a v).byteRead b = s.byteRead b :=
  byteRead_wordWrite_other s _ h

/-! ## Keys -/

/-- Reading a key after a key write. -/
theorem keyRead_keyWrite {s : State} (h : s.keys.Pairwise fun c d => c.1 < d.1) (a b : Word) (k : Key) :
    (s.keyWrite a k).keyRead b = if wordNumber a = wordNumber b then k else s.keyRead b :=
  readPlane_writePlane h

theorem keyRead_keyWrite_other (s : State) {a b : Word} (k : Key) (h : wordNumber a ≠ wordNumber b) :
    (s.keyWrite a k).keyRead b = s.keyRead b :=
  readPlane_writePlane_other _ _ h

/-! ## The canonical form is kept -/

theorem storeWord_rising {m : Memory} (h : m.Pairwise fun c d => c.1 < d.1) (n : Nat) (v : Word) :
    (storeWord m n v).Pairwise fun c d => c.1 < d.1 :=
  writePlane_pairwise (writePlane_pairwise h)

theorem memory_wf_storeWord {m : Memory} {l n : Nat} (h : Memory.wf l m) (h4 : 4 ≤ n) (hn : n ≤ l) (v : Word) :
    Memory.wf l (storeWord m n v) :=
  planeWf_writePlane (planeWf_writePlane h (by omega) (by omega)) (by omega) (by omega)

theorem storeRising_writeWordAt {s : State} (h : s.storeRising) (m : Nat) (v : Word) :
    (s.writeWordAt m v).storeRising := by
  unfold State.writeWordAt
  split
  · exact h
  · exact storeWord_rising h _ _

theorem storeRising_wordWrite {s : State} (h : s.storeRising) (a v : Word) : (s.wordWrite a v).storeRising :=
  storeRising_writeWordAt h _ _

/-- A word write to an existing word keeps the canonical form of the store. -/
theorem memory_wf_writeWordAt {s : State} {l : Nat} (h : Memory.wf l s.store) {m : Nat} (hm : m ≤ l) (v : Word) :
    Memory.wf l (s.writeWordAt m v).store := by
  unfold State.writeWordAt
  split
  · exact h
  · next hr =>
    rw [registerAt_eq_none] at hr
    exact memory_wf_storeWord h hr hm v

theorem memory_wf_wordWrite {s : State} {l : Nat} (h : Memory.wf l s.store) {a : Word} (ha : wordNumber a ≤ l)
    (v : Word) : Memory.wf l (s.wordWrite a v).store :=
  memory_wf_writeWordAt h ha v

/-- A byte write to an existing word keeps the canonical form of the store. -/
theorem memory_wf_byteWrite {s : State} {l : Nat} (h : Memory.wf l s.store) {a : Word} (ha : wordNumber a ≤ l)
    (v : Byte) : Memory.wf l (s.byteWrite a v).store :=
  memory_wf_writeWordAt h ha _

/-- A key write to an existing word keeps the canonical form of the keys. -/
theorem keys_wf_keyWrite {s : State} {l : Nat} (h : KeyPlane.wf l s.keys) {a : Word} (ha : wordNumber a ≤ l)
    (k : Key) : KeyPlane.wf l (s.keyWrite a k).keys :=
  planeWf_writePlane h (Nat.zero_le _) ha

end Sys2Proof.Machine
end

