-- ==== Sys2Proof/Laws/Channel.lean ====
section
/-! SUPPORT. The high-speed channel (20_memory.md R74, R78): what it writes between two accesses of the processor, and
what it leaves. -/

namespace Sys2Proof.Machine

/-! ## One transfer -/

/-- A transfer changes no other word of the store. -/
theorem readPlane_storeWord_other (m : Memory) {n k : Nat} (v : Word) (h1 : 2 * n ≠ k) (h2 : 2 * n + 1 ≠ k) :
    readPlane (storeWord m n v) k = readPlane m k := by
  rw [storeWord, readPlane_writePlane_other _ _ h2, readPlane_writePlane_other _ _ h1]

theorem mayTransfer_word {s : State} {x : Transfer} (h : s.mayTransfer x = true) :
    4 ≤ x.wordNumber ∧ x.wordNumber ≤ s.inst.wordLimit := by
  simp only [State.mayTransfer, Bool.and_eq_true, decide_eq_true_eq] at h
  exact ⟨h.1.2, h.2⟩

theorem mayTransfer_powerOff {s : State} {x : Transfer} (h : s.run = .powerOff) : s.mayTransfer x = false := by
  simp [State.mayTransfer, h]

theorem transferred_rising {s : State} {m : Memory} (h : m.Pairwise fun c d => c.1 < d.1) (x : Transfer) :
    (s.transferred m x).Pairwise fun c d => c.1 < d.1 := by
  unfold State.transferred
  split
  · exact storeWord_rising h _ _
  · exact h

theorem memory_wf_transferred {s : State} {m : Memory} (h : Memory.wf s.inst.wordLimit m) (x : Transfer) :
    Memory.wf s.inst.wordLimit (s.transferred m x) := by
  unfold State.transferred
  split
  · next hx => exact memory_wf_storeWord h (mayTransfer_word hx).1 (mayTransfer_word hx).2 _
  · exact h

theorem readPlane_transferred_other (s : State) (m : Memory) {x : Transfer} {k : Nat} (h1 : 2 * x.wordNumber ≠ k)
    (h2 : 2 * x.wordNumber + 1 ≠ k) : readPlane (s.transferred m x) k = readPlane m k := by
  unfold State.transferred
  split
  · exact readPlane_storeWord_other m _ h1 h2
  · rfl

/-! ## The cycles stolen before one access -/

theorem foldl_transferred_rising (s : State) (l : List Transfer) : ∀ {m : Memory},
    (m.Pairwise fun c d => c.1 < d.1) → (l.foldl s.transferred m).Pairwise fun c d => c.1 < d.1 := by
  induction l with
  | nil => exact fun h => h
  | cons x l ih => exact fun h => ih (transferred_rising h x)

theorem memory_wf_foldl_transferred (s : State) (l : List Transfer) : ∀ {m : Memory},
    Memory.wf s.inst.wordLimit m → Memory.wf s.inst.wordLimit (l.foldl s.transferred m) := by
  induction l with
  | nil => exact fun h => h
  | cons x l ih => exact fun h => ih (memory_wf_transferred h x)

theorem readPlane_foldl_transferred_other (s : State) (l : List Transfer) {k : Nat}
    (h : ∀ x ∈ l, 2 * x.wordNumber ≠ k ∧ 2 * x.wordNumber + 1 ≠ k) : ∀ m : Memory,
    readPlane (l.foldl s.transferred m) k = readPlane m k := by
  induction l with
  | nil => exact fun _ => rfl
  | cons x l ih =>
    intro m
    have hx := h x (by simp)
    rw [List.foldl_cons, ih (fun y hy => h y (by simp [hy])), readPlane_transferred_other s m hx.1 hx.2]

theorem steal_storeRising {s : State} (h : s.storeRising) : s.steal.storeRising := foldl_transferred_rising s _ h

theorem memory_wf_steal {s : State} (h : Memory.wf s.inst.wordLimit s.store) :
    Memory.wf s.inst.wordLimit s.steal.store := memory_wf_foldl_transferred s _ h

/-- Without a script the channel writes nothing. -/
@[simp] theorem steal_quiet {s : State} (h : s.steals = []) : s.steal = s := by
  cases s; simp only at h; subst h; rfl

/-- While the power is off the channel writes nothing. -/
theorem steal_powerOff {s : State} (h : s.run = .powerOff) : s.steal.store = s.store := by
  have key : ∀ (l : List Transfer) (m : Memory), l.foldl s.transferred m = m := by
    intro l
    induction l with
    | nil => exact fun _ => rfl
    | cons x l ih => intro m; rw [List.foldl_cons, ih, State.transferred, mayTransfer_powerOff h]; rfl
  exact key _ _

/-- The channel leaves every word it does not name, and every working register. -/
theorem steal_readWordAt {s : State} {n : Nat} (h : (∀ x ∈ s.steals.headD [], x.wordNumber ≠ n) ∨ n < 4) :
    s.steal.readWordAt n = s.readWordAt n := by
  unfold State.readWordAt
  cases hn : registerAt n with
  | some r => simp
  | none =>
    rw [registerAt_eq_none] at hn
    have h' := h.resolve_right (by omega)
    have e1 : readPlane s.steal.store (2 * n) = readPlane s.store (2 * n) :=
      readPlane_foldl_transferred_other s _ (fun x hx => by have := h' x hx; constructor <;> omega) _
    have e2 : readPlane s.steal.store (2 * n + 1) = readPlane s.store (2 * n + 1) :=
      readPlane_foldl_transferred_other s _ (fun x hx => by have := h' x hx; constructor <;> omega) _
    simp only [e1, e2]

/-- The last word the channel writes before an access is what the access finds. -/
theorem steal_readWordAt_last {s : State} (hs : s.storeRising) {l : List Transfer} {rest : List (List Transfer)}
    {x : Transfer} (h : s.steals = (l ++ [x]) :: rest) (hx : s.mayTransfer x = true) :
    s.steal.readWordAt x.wordNumber = x.data := by
  have h4 := (mayTransfer_word hx).1
  have hst : s.steal.store = storeWord (l.foldl s.transferred s.store) x.wordNumber x.data := by
    simp [State.steal, h, State.transferred, hx]
  let t : State := { s with store := l.foldl s.transferred s.store }
  have ht : t.storeRising := foldl_transferred_rising s l hs
  have key := readWordAt_writeWordAt ht x.wordNumber x.wordNumber x.data
  rw [if_pos rfl] at key
  rw [← key]
  unfold State.readWordAt State.writeWordAt
  simp only [registerAt_eq_none.2 h4, hst]
  rfl

/-- What the channel writes does not depend on the registers. -/
theorem steal_store_congr {s t : State} (h1 : t.store = s.store) (h2 : t.steals = s.steals)
    (h3 : t.devices = s.devices) (h4 : t.run = s.run) (h5 : t.inst = s.inst) : t.steal.store = s.steal.store := by
  have e : t.transferred = s.transferred := by
    funext m x
    have h6 : t.transferring x.device = s.transferring x.device := by
      unfold State.transferring State.device?; rw [h3]
    have h7 : t.mayTransfer x = s.mayTransfer x := by unfold State.mayTransfer; rw [h4, h5, h6]
    unfold State.transferred
    rw [h7]
  show List.foldl t.transferred t.store (t.steals.headD []) = List.foldl s.transferred s.store (s.steals.headD [])
  rw [e, h1, h2]

theorem foldl_transferred_congr (s : State) (l : List Transfer) {k : Nat} : ∀ {m1 m2 : Memory},
    (m1.Pairwise fun c d => c.1 < d.1) → (m2.Pairwise fun c d => c.1 < d.1) → readPlane m1 k = readPlane m2 k →
    readPlane (l.foldl s.transferred m1) k = readPlane (l.foldl s.transferred m2) k := by
  induction l with
  | nil => exact fun _ _ h => h
  | cons x l ih =>
    intro m1 m2 h1 h2 h
    refine ih (transferred_rising h1 x) (transferred_rising h2 x) ?_
    unfold State.transferred
    split
    · rw [storeWord, storeWord, readPlane_writePlane (writePlane_pairwise h1), readPlane_writePlane h1,
        readPlane_writePlane (writePlane_pairwise h2), readPlane_writePlane h2, h]
    · exact h

/-- A word written before the channel steals cycles does not change what the channel leaves in the other words. -/
theorem steal_wordWrite_other {s : State} (h : s.storeRising) {a b : Word} (v : Word)
    (hab : wordNumber a ≠ wordNumber b) : (s.wordWrite a v).steal.wordRead b = s.steal.wordRead b := by
  have hw := wordRead_wordWrite_other s v hab
  by_cases hb : 4 ≤ wordNumber b
  · have hn := registerAt_eq_none.2 hb
    have plane : ∀ k, (k = 2 * wordNumber b ∨ k = 2 * wordNumber b + 1) →
        readPlane (s.wordWrite a v).steal.store k = readPlane s.steal.store k := by
      intro k hk
      have e : (s.wordWrite a v).transferred = s.transferred := by
        funext m x
        simp only [State.transferred, wordWrite_mayTransfer]
      show readPlane (List.foldl (s.wordWrite a v).transferred (s.wordWrite a v).store
        ((s.wordWrite a v).steals.headD [])) k = readPlane (List.foldl s.transferred s.store (s.steals.headD [])) k
      rw [e, wordWrite_steals]
      refine foldl_transferred_congr s _ (storeRising_wordWrite h a v) h ?_
      unfold State.wordWrite State.writeWordAt
      split
      · rfl
      · rcases hk with rfl | rfl <;> exact readPlane_storeWord_other _ _ (by omega) (by omega)
    simp only [State.wordRead, State.readWordAt, hn, plane _ (.inl rfl), plane _ (.inr rfl)]
  · have l1 : (s.wordWrite a v).steal.wordRead b = (s.wordWrite a v).wordRead b := steal_readWordAt (.inr (by omega))
    have l2 : s.steal.wordRead b = s.wordRead b := steal_readWordAt (.inr (by omega))
    rw [l1, l2, hw]

/-! ## Words that the channel spares -/

theorem spares_mono {s : State} {j k n : Nat} (h : s.spares k n) (hjk : j ≤ k) : s.spares j n :=
  fun l hl => h l (List.take_subset_take_left _ hjk hl)

theorem spares_congr {s t : State} (h : t.steals = s.steals) (k n : Nat) : t.spares k n ↔ s.spares k n := by
  unfold State.spares; rw [h]

theorem spares_steal {s : State} {k n : Nat} (h : s.spares (k + 1) n) : s.steal.spares k n := by
  intro l hl
  refine h l ?_
  rw [show s.steal.steals = s.steals.tail from rfl] at hl
  cases hs : s.steals with
  | nil => simp [hs] at hl
  | cons a as => simp only [hs, List.tail_cons] at hl; simp [hl]

theorem steal_readWordAt_spared {s : State} {k n : Nat} (h : s.spares (k + 1) n) :
    s.steal.readWordAt n = s.readWordAt n := by
  refine steal_readWordAt (.inl fun x hx => ?_)
  cases hs : s.steals with
  | nil => simp [hs] at hx
  | cons a as =>
    rw [hs] at hx
    exact h a (by simp [hs]) x hx

theorem steal_wordRead_spared {s : State} {k : Nat} {b : Word} (h : s.spares (k + 1) (wordNumber b)) :
    s.steal.wordRead b = s.wordRead b := steal_readWordAt_spared h

theorem steal_byteRead_spared {s : State} {k : Nat} {b : Word} (h : s.spares (k + 1) (wordNumber b)) :
    s.steal.byteRead b = s.byteRead b := by
  rw [State.byteRead, State.byteRead, steal_wordRead_spared h]

/-! ## The state in which an operation starts -/

/-- A direct address: the channel may have written once since the fetch. -/
theorem entered_direct {s : State} {a : AddressPart} (h : a.indirect = false) : s.entered a = s.steal.decoded := by
  simp [State.entered, h]

/-- An indirect address: before and after the indirect word was read. -/
theorem entered_indirect {s : State} {a : AddressPart} (h : a.indirect = true) :
    s.entered a = s.steal.steal.decoded := by
  simp [State.entered, h]

/-- Without a script of the channel the operation starts in the decoded state. -/
@[simp] theorem entered_quiet {s : State} (h : s.steals = []) (a : AddressPart) : s.entered a = s.decoded := by
  unfold State.entered
  split <;> simp [h]

theorem entered_storeRising {s : State} (h : s.storeRising) (a : AddressPart) : (s.entered a).storeRising := by
  unfold State.entered
  split
  · exact steal_storeRising (steal_storeRising h)
  · exact steal_storeRising h

theorem entered_memory_wf {s : State} (h : Memory.wf s.inst.wordLimit s.store) (a : AddressPart) :
    Memory.wf s.inst.wordLimit (s.entered a).store := by
  unfold State.entered
  split
  · exact memory_wf_steal (s := s.steal) (memory_wf_steal h)
  · exact memory_wf_steal h

/-- The mode of the operation follows from the key of the instruction's word (R122). -/
@[simp] theorem entered_monitorMode (s : State) (a : AddressPart) : (s.entered a).monitorMode = s.isProtected s.ic := by
  unfold State.entered; split <;> simp [State.decoded]

@[simp] theorem entered_ic (s : State) (a : AddressPart) : (s.entered a).ic = s.ic + 2 := by
  unfold State.entered; split <;> rfl

@[simp] theorem entered_amPending (s : State) (a : AddressPart) : (s.entered a).amPending = none := by
  unfold State.entered; split <;> rfl

/-- Whether task mode forbids an access is decided by the mode the decode has set. -/
theorem entered_forbids (s : State) (a : AddressPart) (addr : Word) :
    (s.entered a).forbids addr = (!s.isProtected s.ic && s.isProtected addr) := by
  simp [State.forbids]

theorem entered_readWordAt_spared {s : State} {a : AddressPart} {n : Nat} (h : s.spares 2 n) :
    (s.entered a).readWordAt n = s.readWordAt n := by
  unfold State.entered
  split
  · rw [decoded_readWordAt, steal_readWordAt_spared (spares_steal h), steal_readWordAt_spared h]
  · rw [decoded_readWordAt, steal_readWordAt_spared h]

end Sys2Proof.Machine
end

