-- ==== Sys2Proof/Laws/Interrupt.lean ====
section
/-! SUPPORT. Program interruption (60_exceptions.md R364, R366): which request is served, what serving it does, and that
an instruction exception always serves request 0. -/

namespace Sys2Proof.Machine

/-! ## Bits of the interrupt register -/

theorem getMsbD_bitMask {i j : Nat} (hi : i < 24) (hj : j < 24) : (bitMask i).getMsbD j = decide (i = j) := by
  have h : ∀ i j : Fin 24, (bitMask i.val).getMsbD j.val = decide (i = j) := by decide
  simpa [Fin.ext_iff] using h ⟨i, hi⟩ ⟨j, hj⟩

theorem getMsbD_bitMask_self {i : Nat} (hi : i < 24) : (bitMask i).getMsbD i = true := by
  simp [getMsbD_bitMask hi hi]

/-- The bits of IR after a request is cleared. -/
theorem getMsbD_and_not_bitMask (v : Word) {i j : Nat} (hi : i < 24) (hj : j < 24) :
    (v &&& ~~~bitMask i).getMsbD j = (v.getMsbD j && decide (i ≠ j)) := by
  rw [BitVec.getMsbD_and, BitVec.getMsbD_not, getMsbD_bitMask hi hj]
  by_cases h : i = j <;> simp [h, hj]

/-- The bits of IR after a request is made. -/
theorem getMsbD_or_bitMask (v : Word) {i j : Nat} (hi : i < 24) (hj : j < 24) :
    (v ||| bitMask i).getMsbD j = (v.getMsbD j || decide (i = j)) := by
  rw [BitVec.getMsbD_or, getMsbD_bitMask hi hj]

/-- Making a request and then serving it leaves the others. -/
theorem or_and_not_bitMask (v : Word) (i : Nat) : (v ||| bitMask i) &&& ~~~bitMask i = v &&& ~~~bitMask i := by
  apply BitVec.eq_of_getLsbD_eq
  intro j hj
  simp only [BitVec.getLsbD_and, BitVec.getLsbD_or, BitVec.getLsbD_not]
  cases v.getLsbD j <;> cases (bitMask i).getLsbD j <;> simp

/-! ## The request served -/

/-- The request served is the leftmost that is pending and unmasked (R364, R365). -/
theorem honoured_eq_some {s : State} {i : Nat} :
    s.honoured = some i ↔
      i < 24 ∧ s.ir.getMsbD i = true ∧ s.im.getMsbD i = true ∧
        ∀ j < i, (s.ir.getMsbD j && s.im.getMsbD j) = false := by
  rw [State.honoured, List.find?_range_eq_some]
  simp only [Bool.and_eq_true, List.mem_range, Bool.not_eq_true']
  constructor
  · rintro ⟨⟨h1, h2⟩, h3, h4⟩
    exact ⟨h3, h1, h2, h4⟩
  · rintro ⟨h3, h1, h2, h4⟩
    exact ⟨⟨h1, h2⟩, h3, h4⟩

theorem honoured_eq_none {s : State} :
    s.honoured = none ↔ ∀ j < 24, (s.ir.getMsbD j && s.im.getMsbD j) = false := by
  rw [State.honoured, List.find?_range_eq_none]
  simp only [Bool.not_eq_eq_eq_not, Bool.not_true]

theorem honoured_lt {s : State} {i : Nat} (h : s.honoured = some i) : i < 24 := (honoured_eq_some.1 h).1

theorem honoured_of_zero {s : State} (h1 : s.ir.getMsbD 0 = true) (h2 : s.im.getMsbD 0 = true) :
    s.honoured = some 0 := by
  rw [honoured_eq_some]; simp [h1, h2]

/-! ## Instruction exceptions -/

/-- An instruction exception serves request 0 (R366), since IM(0) = 1. -/
theorem raise_eq {s : State} (h : s.im.getMsbD 0 = true) :
    s.raise = (State.pend { s with amPending := none } 0).serve 0 := by
  have hz : (State.pend { s with amPending := none } 0).honoured = some 0 := by
    refine honoured_of_zero ?_ h
    rw [State.pend, getMsbD_or_bitMask _ (by decide) (by decide)]; simp
  rw [State.raise, State.service, hz]

/-! ## What serving a request does -/

/-- Storage words are read from the registers and the store. -/
theorem wordRead_congr {s t : State} (h1 : t.regs = s.regs) (h2 : t.store = s.store) (b : Word) :
    t.wordRead b = s.wordRead b := by
  simp only [State.wordRead, State.readWordAt, State.reg, h1, h2]

/-- The storage after a request is served: two word writes, with the cycles the channel steals before each access. -/
theorem serve_store (s : State) (i : Nat) :
    (s.serve i).store =
      (((s.steal.wordWrite 8 (BitVec.ofNat 24 (2 * i))).steal.wordWrite 10 s.ic).steal).store := rfl

theorem serve_steals (s : State) (i : Nat) : (s.serve i).steals = s.steals.drop 3 := by
  show s.steals.tail.tail.tail = _
  simp [← List.drop_one]

theorem serve_storeRising {s : State} (h : s.storeRising) (i : Nat) : (s.serve i).storeRising := by
  unfold State.storeRising
  rw [serve_store]
  exact steal_storeRising (storeRising_wordWrite (steal_storeRising (storeRising_wordWrite (steal_storeRising h) _ _))
    _ _)

/-- The words of the store that the channel spares, after a request is served (R364): word 8 holds the interruption
number, word 10 the return address, every other word is as before. -/
theorem serve_wordRead {s : State} (h : s.storeRising) (i : Nat) {b : Word} (hb : s.spares 3 (wordNumber b)) :
    (s.serve i).wordRead b =
      if wordNumber b = 5 then s.ic else if wordNumber b = 4 then BitVec.ofNat 24 (2 * i) else s.wordRead b := by
  have e8 : wordNumber 8 = 4 := rfl
  have e10 : wordNumber 10 = 5 := rfl
  have h1 : s.steal.spares 2 (wordNumber b) := spares_steal hb
  have hregs : (s.serve i).regs =
    (((s.steal.wordWrite 8 (BitVec.ofNat 24 (2 * i))).steal.wordWrite 10 s.ic).steal).regs := rfl
  have h2 : (s.steal.wordWrite 8 (BitVec.ofNat 24 (2 * i))).spares 2 (wordNumber b) :=
    (spares_congr (wordWrite_steals ..) _ _).2 h1
  have h3 : ((s.steal.wordWrite 8 (BitVec.ofNat 24 (2 * i))).steal.wordWrite 10 s.ic).spares 1 (wordNumber b) :=
    (spares_congr (wordWrite_steals ..) _ _).2 (spares_steal h2)
  have r1 := steal_storeRising h
  have r2 := storeRising_wordWrite r1 8 (BitVec.ofNat 24 (2 * i))
  rw [wordRead_congr hregs (serve_store s i), steal_wordRead_spared h3, wordRead_wordWrite (steal_storeRising r2),
    steal_wordRead_spared h2, wordRead_wordWrite r1, steal_wordRead_spared hb, e8, e10]
  simp only [eq_comm (a := 5), eq_comm (a := 4)]

/-- IC after a request is served (R364): the address that the last access finds in word 12, bit 23 cleared. -/
theorem serve_ic (s : State) (i : Nat) : (s.serve i).ic = evenAddress ((s.serve i).wordRead 12) := rfl

@[simp] theorem serve_monitorMode (s : State) (i : Nat) : (s.serve i).monitorMode = true := rfl

@[simp] theorem serve_interruptDisabled (s : State) (i : Nat) : (s.serve i).interruptDisabled = true := rfl

@[simp] theorem serve_ir (s : State) (i : Nat) : (s.serve i).ir = s.ir &&& ~~~bitMask i := rfl

/-- The words of the store that the channel spares, after an instruction exception (R366). -/
theorem raise_wordRead {s : State} (hm : s.im.getMsbD 0 = true) (h : s.storeRising) {b : Word}
    (hb : s.spares 3 (wordNumber b)) :
    s.raise.wordRead b = if wordNumber b = 5 then s.ic else if wordNumber b = 4 then 0 else s.wordRead b := by
  have hp : (State.pend { s with amPending := none } 0).storeRising := h
  rw [raise_eq hm, serve_wordRead hp 0 ((spares_congr (s := s) rfl _ _).2 hb), pend_ic, pend_wordRead]
  exact if_congr Iff.rfl rfl (if_congr Iff.rfl rfl (wordRead_congr rfl rfl b))

theorem raise_ic {s : State} (hm : s.im.getMsbD 0 = true) : s.raise.ic = evenAddress (s.raise.wordRead 12) := by
  rw [raise_eq hm]; exact serve_ic _ 0

theorem raise_steals {s : State} (hm : s.im.getMsbD 0 = true) : s.raise.steals = s.steals.drop 3 := by
  rw [raise_eq hm, serve_steals]; rfl

theorem raise_monitorMode {s : State} (hm : s.im.getMsbD 0 = true) : s.raise.monitorMode = true := by
  rw [raise_eq hm]; rfl

theorem raise_interruptDisabled {s : State} (hm : s.im.getMsbD 0 = true) : s.raise.interruptDisabled = true := by
  rw [raise_eq hm]; rfl

@[simp] theorem raise_amPending (s : State) : s.raise.amPending = none := service_amPending _

/-! ## The invariant -/

theorem State.Inv.storeRising {s : State} (h : s.Inv) : s.storeRising := h.store.1

theorem State.Inv.limit {s : State} (h : s.Inv) : 16383 ≤ s.inst.wordLimit := h.installation.1.1

/-- Serving a request keeps the invariant. -/
theorem serve_inv {s : State} (h : s.Inv) (i : Nat) : (s.serve i).Inv := by
  have hl := h.limit
  refine ⟨h.installation, evenAddress_bit23 _, h.protection0, h.mask0, ?_, h.keys, h.autoload⟩
  have h8 : wordNumber 8 ≤ s.inst.wordLimit := by simp [wordNumber]; omega
  have h10 : wordNumber 10 ≤ s.inst.wordLimit := by simp [wordNumber]; omega
  have m1 := memory_wf_wordWrite (memory_wf_steal h.store) h8 (BitVec.ofNat 24 (2 * i))
  have m2 := memory_wf_steal (s := s.steal.wordWrite 8 (BitVec.ofNat 24 (2 * i))) (by simpa using m1)
  have m3 := memory_wf_wordWrite m2 (a := 10) (by simpa using h10) s.ic
  have m4 := memory_wf_steal (s := (s.steal.wordWrite 8 (BitVec.ofNat 24 (2 * i))).steal.wordWrite 10 s.ic)
    (by simpa using m3)
  rw [serve_store]
  simpa using m4

theorem service_inv {s : State} (h : s.Inv) : s.service.Inv := by
  unfold State.service
  split
  · exact serve_inv h _
  · exact h

theorem raise_inv {s : State} (h : s.Inv) : s.raise.Inv :=
  service_inv ⟨h.installation, h.evenIc, h.protection0, h.mask0, h.store, h.keys, h.autoload⟩

theorem poll_inv {s : State} (h : s.Inv) : s.poll.Inv := by
  unfold State.poll
  split
  · exact h
  · exact service_inv h

end Sys2Proof.Machine
end

