-- ==== Sys2Proof/Laws/Cycle.lean ====
section
/-! SUPPORT. The instruction cycle (40_cycle_and_address_handling.md): the three ways through the decode, the two ways
through each test, and the updates that keep the invariant. -/

namespace Sys2Proof.Machine

/-! ## Decode and tests -/

variable {s t : State} {a : AddressPart} {addr : Word} {op : Word → State → Out} {rest : Out}

/-- The fetch is permitted and the effective address exists: the operation runs. -/
theorem cycle_reaches (h : s.reaches a addr) : cycle a s op = op addr (s.entered a) := by
  simp [cycle, h.1, h.2]

/-- Task mode and an instruction in a protected word (R122). -/
theorem cycle_forbidden (h : s.forbids s.ic = true) :
    cycle a s op = .next (State.raise { s with ic := s.ic + 2, amPending := none }) := by
  simp [cycle, h, trap]

/-- The indirect word does not exist (R122, R124). -/
theorem cycle_missing (h : s.forbids s.ic = false) (ha : s.effectiveAddress a = none) :
    cycle a s op = .next s.decoded.raise := by
  simp [cycle, h, ha, trap]

/-- The three ways through the decode. -/
theorem cycle_cases (a : AddressPart) (s : State) (op : Word → State → Out) :
    cycle a s op = .next (State.raise { s with ic := s.ic + 2, amPending := none }) ∨
    cycle a s op = .next s.decoded.raise ∨
    ∃ addr, s.reaches a addr ∧ cycle a s op = op addr (s.entered a) := by
  cases h : s.forbids s.ic
  · cases ha : s.effectiveAddress a with
    | none => exact .inr (.inl (cycle_missing h ha))
    | some addr => exact .inr (.inr ⟨addr, ⟨h, ha⟩, cycle_reaches ⟨h, ha⟩⟩)
  · exact .inl (cycle_forbidden h)

theorem testAddress_exists (h : t.missing addr = false) : testAddress t addr rest = rest := by
  simp [testAddress, h]

theorem testAddress_missing (h : t.missing addr = true) : testAddress t addr rest = .next t.raise := by
  simp [testAddress, h, trap]

theorem testProtection_allowed (h : t.forbids addr = false) : testProtection t addr rest = rest := by
  simp [testProtection, h]

theorem testProtection_forbidden (h : t.forbids addr = true) : testProtection t addr rest = .next t.raise := by
  simp [testProtection, h, trap]

theorem testMode_monitor (h : t.monitorMode = true) : testMode t rest = rest := by
  simp [testMode, h]

theorem testMode_task (h : t.monitorMode = false) : testMode t rest = .next t.raise := by
  simp [testMode, h, trap]

/-- Whether task mode forbids an access is decided by the mode the decode has set. -/
theorem decoded_forbids (s : State) (addr : Word) :
    s.decoded.forbids addr = (!s.isProtected s.ic && s.isProtected addr) := rfl

theorem decoded_monitorMode (s : State) : s.decoded.monitorMode = s.isProtected s.ic := rfl

theorem decoded_ic (s : State) : s.decoded.ic = s.ic + 2 := rfl

theorem decoded_amPending (s : State) : s.decoded.amPending = none := rfl

/-- Every instruction goes through the same decode (R122). -/
theorem exec_eq_cycle (i : Instr) : ∃ op : Word → State → Out, ∀ s, exec i s = cycle i.address s op := by
  cases i <;>
    simp only [exec, Instr.address, execAw, execIo, execBl, execHl, execLa, execLo, execLx, execWa, execWs, execAm, execWm, execAl, execMl,
      execJl, execJd, execJe, execXl, execBs, execBa, execBz, execRl, execSp, execKl, execRs, execWd, execRx,
      execHs, execXs, execPl, execPs, execMs, execIs, execCi, execAc, execNs, execNd, execAs, execAd, execLs,
      execLd, execSh, execSl, execSe, execSn, execSo, execSz, execSx, execIc, execFa, execFs, execFm, execKs,
      execFd, execCf, execDl, execDs, execAa, execSs] <;>
    exact ⟨_, fun _ => rfl⟩

/-- The instruction in a word has the word's address part (30_encoding.md R91). -/
theorem decode_address {v : Word} {i : Instr} (h : decode v = some i) : i.address = addressPart v := by
  unfold decode decodeBy at h
  obtain ⟨make, hm, rfl⟩ := Option.map_eq_some_iff.1 h
  have all : ∀ p ∈ opcodeMap, ∀ r a, (p.2 r a).address = a := by
    simp [opcodeMap, opcodesLow, opcodesHigh, Instr.address]
  obtain ⟨l, r, hl, -⟩ := List.lookup_eq_some_iff.1 hm
  exact all ((fieldF v).toNat, make) (by rw [hl]; simp) _ _

/-- The execution of every word, one with an unassigned code included, is the decode of its address part and then an
operation (R122, R126). -/
theorem executeWord_eq_cycle (v : Word) :
    ∃ op : Word → State → Out, ∀ s, executeWord v s = cycle (addressPart v) s op := by
  cases h : decode v with
  | none => exact ⟨fun _ t => trap t, fun s => by simp only [executeWord, h]⟩
  | some i =>
    obtain ⟨op, hop⟩ := exec_eq_cycle i
    exact ⟨op, fun s => by simp only [executeWord, h, hop, decode_address h]⟩

/-- Each of the eight privileged instructions tests the mode first (R129). -/
theorem exec_privileged {i : Instr} (h : i.privileged) :
    ∃ op : Word → State → Out, ∀ s, exec i s = cycle i.address s fun a t => testMode t (op a t) := by
  cases i <;> first
    | exact False.elim h
    | (simp only [exec, Instr.address, execAw, execIo, execMl, execJd, execJe, execPl, execIc, execKs]
       exact ⟨_, fun _ => rfl⟩)

/-! ## A property of every next state -/

/-- The outcome, if it is a next state, has the property. -/
def Out.ensures (o : Out) (P : State → Prop) : Prop := ∀ t, o = .next t → P t

theorem ensures_next {P : State → Prop} (h : P t) : Out.ensures (.next t) P := by
  intro u hu; cases hu; exact h

theorem ensures_cycle {P : State → Prop} (h1 : P (State.raise { s with ic := s.ic + 2, amPending := none }))
    (h2 : P s.decoded.raise) (h3 : ∀ addr, s.reaches a addr → Out.ensures (op addr (s.entered a)) P) :
    Out.ensures (cycle a s op) P := by
  rcases cycle_cases a s op with h | h | ⟨addr, hr, h⟩
  · rw [h]; exact ensures_next h1
  · rw [h]; exact ensures_next h2
  · rw [h]; exact h3 addr hr

theorem ensures_testAddress {P : State → Prop} (h1 : P t.raise)
    (h2 : t.missing addr = false → Out.ensures rest P) : Out.ensures (testAddress t addr rest) P := by
  cases h : t.missing addr
  · rw [testAddress_exists h]; exact h2 h
  · rw [testAddress_missing h]; exact ensures_next h1

theorem ensures_testProtection {P : State → Prop} (h1 : P t.raise)
    (h2 : t.forbids addr = false → Out.ensures rest P) : Out.ensures (testProtection t addr rest) P := by
  cases h : t.forbids addr
  · rw [testProtection_allowed h]; exact h2 h
  · rw [testProtection_forbidden h]; exact ensures_next h1

theorem ensures_testMode {P : State → Prop} (h1 : P t.raise)
    (h2 : t.monitorMode = true → Out.ensures rest P) : Out.ensures (testMode t rest) P := by
  cases h : t.monitorMode
  · rw [testMode_task h]; exact ensures_next h1
  · rw [testMode_monitor h]; exact h2 h

/-! ## Addresses -/

theorem missing_eq_false : s.missing addr = false ↔ wordNumber addr ≤ s.inst.wordLimit := by
  simp [State.missing]

/-- The first word of a double word exists if the second does (R64). -/
theorem firstWordAddress_exists (h : s.Inv) (ha : s.missing addr = false) :
    s.missing (firstWordAddress addr) = false := by
  have := h.limit
  rw [missing_eq_false] at ha ⊢
  rw [wordNumber_firstWordAddress]
  split <;> omega

/-- The first word of a double word is another word than the second. -/
theorem wordNumber_firstWordAddress_ne (addr : Word) : wordNumber (firstWordAddress addr) ≠ wordNumber addr := by
  rw [wordNumber_firstWordAddress]
  split <;> omega

theorem ic_add_two {v : Word} (h : v.getMsbD 23 = false) : (v + 2).getMsbD 23 = false := by
  have bit (v : Word) : v.getMsbD 23 = decide (v.toNat % 2 = 1) := by
    simp [BitVec.getMsbD, BitVec.getLsbD, Nat.testBit_zero]
  rw [bit, decide_eq_false_iff_not] at *
  rw [BitVec.toNat_add]
  simp
  omega

/-! ## Updates that keep the invariant -/

theorem decoded_inv (h : s.Inv) : s.decoded.Inv :=
  ⟨h.installation, ic_add_two h.evenIc, h.protection0, h.mask0, h.store, h.keys, h.autoload⟩

theorem advanced_inv (h : s.Inv) : State.Inv { s with ic := s.ic + 2, amPending := none } :=
  ⟨h.installation, ic_add_two h.evenIc, h.protection0, h.mask0, h.store, h.keys, h.autoload⟩

/-- An update that leaves what the invariant speaks of. -/
theorem inv_of_eq {t : State} (h : s.Inv) (h1 : t.inst = s.inst) (h2 : t.ic = s.ic) (h3 : t.pr = s.pr)
    (h4 : t.im = s.im) (h5 : t.store = s.store) (h6 : t.keys = s.keys) (h7 : t.run = s.run) : t.Inv :=
  ⟨h1 ▸ h.installation, h2 ▸ h.evenIc, h3 ▸ h.protection0, h4 ▸ h.mask0, by rw [h1, h5]; exact h.store,
    by rw [h1, h6]; exact h.keys, h7 ▸ h.autoload⟩

theorem steal_inv (h : s.Inv) : s.steal.Inv :=
  ⟨h.installation, h.evenIc, h.protection0, h.mask0, memory_wf_steal h.store, h.keys, h.autoload⟩

theorem transfer_inv (h : s.Inv) (x : Transfer) : (s.transfer x).Inv :=
  ⟨h.installation, h.evenIc, h.protection0, h.mask0, memory_wf_transferred h.store x, h.keys, h.autoload⟩

/-- The operation of every instruction starts with the invariant. -/
theorem entered_inv (h : s.Inv) (a : AddressPart) : (s.entered a).Inv := by
  unfold State.entered
  split
  · exact decoded_inv (steal_inv (steal_inv h))
  · exact decoded_inv (steal_inv h)

theorem setReg_inv (h : s.Inv) (r : Reg) (v : Word) : (s.setReg r v).Inv := inv_of_eq h rfl rfl rfl rfl rfl rfl rfl

theorem setPair_inv (h : s.Inv) (r : Reg) (v : DoubleWord) : (s.setPair r v).Inv :=
  setReg_inv (setReg_inv h _ _) _ _

theorem setEx_inv (h : s.Inv) (o c : Bool) : (s.setEx o c).Inv := inv_of_eq h rfl rfl rfl rfl rfl rfl rfl

theorem clearEx_inv (h : s.Inv) : s.clearEx.Inv := setEx_inv h _ _

theorem pend_inv (h : s.Inv) (i : Nat) : (s.pend i).Inv := inv_of_eq h rfl rfl rfl rfl rfl rfl rfl

theorem integerOverflow_inv (h : s.Inv) : s.integerOverflow.Inv := pend_inv (setEx_inv h _ _) _

theorem floatingOverflow_inv (h : s.Inv) : s.floatingOverflow.Inv := pend_inv (setEx_inv h _ _) _

theorem testInteger_inv (h : s.Inv) (r : BitVec 25) (c : Bool) : (s.testInteger r c).Inv := by
  unfold State.testInteger
  split
  · exact integerOverflow_inv (setEx_inv h _ _)
  · exact setEx_inv h _ _

theorem testExponent_inv (h : s.Inv) (sc : BitVec 13) : (s.testExponent sc).Inv := by
  unfold State.testExponent
  split
  · exact floatingOverflow_inv h
  · exact h

theorem testLost_inv (h : s.Inv) (lost : Bool) : (s.testLost lost).Inv := by
  unfold State.testLost
  split
  · exact integerOverflow_inv h
  · exact h

theorem storeFloating_inv (h : s.Inv) (w : Reg) (af : BitVec 39) (sc : BitVec 13) : (s.storeFloating w af sc).Inv :=
  setPair_inv h _ _

theorem finishFloating_inv (h : s.Inv) (w : Reg) (af : BitVec 39) (sc : BitVec 13) : (s.finishFloating w af sc).Inv :=
  storeFloating_inv (testExponent_inv h _) _ _ _

theorem jump_inv (h : s.Inv) (w : Reg) (addr : Word) : (s.jump w addr).Inv := by
  unfold State.jump
  split
  · exact ⟨h.installation, evenAddress_bit23 _, h.protection0, h.mask0, h.store, h.keys, h.autoload⟩
  · exact ⟨h.installation, evenAddress_bit23 _, h.protection0, h.mask0, h.store, h.keys, h.autoload⟩

theorem skipIf_inv (h : s.Inv) (c : Bool) : (s.skipIf c).Inv := by
  unfold State.skipIf
  split
  · exact ⟨h.installation, ic_add_two h.evenIc, h.protection0, h.mask0, h.store, h.keys, h.autoload⟩
  · exact h

theorem writeWordAt_inv (h : s.Inv) {n : Nat} (hn : n ≤ s.inst.wordLimit) (v : Word) : (s.writeWordAt n v).Inv :=
  ⟨by simpa using h.installation, by simpa using h.evenIc, by simpa using h.protection0, by simpa using h.mask0,
    by simpa using memory_wf_writeWordAt h.store hn v, by simpa using h.keys, by simpa using h.autoload⟩

theorem wordWrite_inv (h : s.Inv) (ha : s.missing addr = false) (v : Word) : (s.wordWrite addr v).Inv :=
  writeWordAt_inv h (missing_eq_false.1 ha) v

theorem byteWrite_inv (h : s.Inv) (ha : s.missing addr = false) (v : Byte) : (s.byteWrite addr v).Inv :=
  wordWrite_inv h ha _

theorem keyWrite_inv (h : s.Inv) (ha : s.missing addr = false) (k : Key) : (s.keyWrite addr k).Inv :=
  ⟨h.installation, h.evenIc, h.protection0, h.mask0, h.store, keys_wf_keyWrite h.keys (missing_eq_false.1 ha) k,
    h.autoload⟩

end Sys2Proof.Machine
end

