-- ==== Sys2Proof/Laws/Environment.lean ====
section
/-! SUPPORT. The environment (10_state.md R20), reset and Autoload Word: what they leave alone, and that they keep the
invariant. -/

namespace Sys2Proof.Machine

/-! ## Devices -/

/-- Changing the device with one number leaves the others. -/
theorem lookup_changeDevice (f : Device → Device) (n m : Nat) (l : List (Nat × Device)) :
    (changeDevice f n l).lookup m = if n = m then (l.lookup m).map f else l.lookup m := by
  induction l with
  | nil => simp [changeDevice]
  | cons c l ih =>
    obtain ⟨k, d⟩ := c
    unfold changeDevice
    by_cases h : n = k
    · subst h
      by_cases hm : n = m
      · subst hm; simp
      · have : (m == n) = false := by simp [Ne.symm hm]
        simp [List.lookup, this, hm]
    · rw [if_neg h]
      by_cases hm : m = k
      · subst hm
        simp [h]
      · have : (m == k) = false := by simp [hm]
        simp [List.lookup, this, ih]

/-- A device command that is accepted changes the device it names only, and no other part of the machine. -/
theorem device_changeDevice (s : State) (n m : Nat) (f : Device → Device) :
    (s.changeDevice n f).device? m = if n = m then (s.device? m).map f else s.device? m :=
  lookup_changeDevice f n m s.devices

/-- A change that leaves what a device is leaves the population (00_scope.md R7). -/
theorem population_changeDevice {f : Device → Device} (h : ∀ d, (f d).kind = d.kind ∧ (f d).used = d.used) (n : Nat)
    (s : State) : (s.changeDevice n f).population = s.population := by
  show (Machine.changeDevice f n s.devices).map _ = s.devices.map _
  induction s.devices with
  | nil => rfl
  | cons c l ih =>
    obtain ⟨k, d⟩ := c
    unfold Machine.changeDevice
    split
    · simp [h d]
    · simp [ih]

/-- Power on changes the buffers and conditions of the devices present, and no number. -/
theorem lookup_powerOnDevices (values : List (Nat × DeviceValues)) (n : Nat) (l : List (Nat × Device)) :
    (powerOnDevices values l).lookup n = (l.lookup n).map fun d => d.powerOn (values.lookup n) := by
  induction l with
  | nil => rfl
  | cons c l ih =>
    obtain ⟨k, d⟩ := c
    by_cases h : n = k
    · subst h; simp [powerOnDevices]
    · have : (n == k) = false := by simp [h]
      simpa [powerOnDevices, List.lookup, this] using ih

/-! ## Reset and power -/

theorem powerOnState_inv {s : State} (h : s.Inv) : s.powerOnState.Inv :=
  ⟨h.installation, h.evenIc, h.protection0, h.mask0, h.store, h.keys, trivial⟩

theorem resetSystem_inv {s : State} (h : s.Inv) : s.resetSystem.Inv := by
  have hl := h.limit
  exact powerOnState_inv (wordWrite_inv (steal_inv h) (missing_eq_false.2 (by simp [wordNumber]; omega)) _)

theorem powerDown_inv {s : State} (h : s.Inv) : s.powerDown.Inv := by
  have hr := resetSystem_inv h
  exact ⟨hr.installation, hr.evenIc, hr.protection0, hr.mask0, hr.store, hr.keys, trivial⟩

theorem powerOn_inv {s : State} (h : s.Inv) (v : PowerOnValues) : (s.powerOn v).Inv :=
  powerOnState_inv ⟨h.installation, evenAddress_bit23 _, by simp [BitVec.getMsbD_or], by
    simp only [BitVec.getMsbD_or, getMsbD_bitMask_self (i := 0) (by decide), Bool.or_true], h.store, h.keys, h.autoload⟩

/-! ## Events -/

theorem changeDevice_inv {s : State} (h : s.Inv) (n : Nat) (f : Device → Device) : (s.changeDevice n f).Inv :=
  inv_of_eq h rfl rfl rfl rfl rfl rfl rfl

theorem event_inv {s : State} (h : s.Inv) (e : EnvEvent) : (s.event e).Inv := by
  cases e <;> simp only [State.event]
  case transfer x => exact transfer_inv h x
  case powerFail => split <;> [exact h; exact inv_of_eq h rfl rfl rfl rfl rfl rfl rfl]
  case powerOn v => split <;> [exact powerOn_inv h v; exact h]
  all_goals exact inv_of_eq h rfl rfl rfl rfl rfl rfl rfl

theorem events_inv (es : List EnvEvent) : ∀ {s : State}, s.Inv → (s.events es).Inv := by
  induction es with
  | nil => exact fun h => h
  | cons e es ih => exact fun h => ih (event_inv h e)

theorem takeEvents_inv {s : State} (h : s.Inv) : s.takeEvents.Inv := by
  unfold State.takeEvents
  split
  · exact h
  · exact events_inv _ (inv_of_eq h rfl rfl rfl rfl rfl rfl rfl)

/-- Without a script nothing happens between steps. -/
theorem takeEvents_nil {s : State} (h : s.schedule = []) : s.takeEvents = s := by
  unfold State.takeEvents; rw [h]

/-! ## Autoload Word -/

theorem deviceCommand_inv {s : State} (h : s.Inv) (n : Nat) (c : BitVec 6) (d : Option Word) :
    (s.deviceCommand n c d).Inv := by
  unfold State.deviceCommand
  simp only
  split <;> exact inv_of_eq h rfl rfl rfl rfl rfl rfl rfl

theorem finishAutoload_inv {s : State} (h : s.Inv) (target acc : Word) : (s.finishAutoload target acc).Inv := by
  have h1 : State.Inv { s with run := .running } :=
    ⟨h.installation, h.evenIc, h.protection0, h.mask0, h.store, h.keys, trivial⟩
  unfold State.finishAutoload
  simp only
  split
  · exact raise_inv h1
  · next hm =>
    simp only [Bool.not_eq_true] at hm
    exact keyWrite_inv (steal_inv (wordWrite_inv (steal_inv h1) (by simpa using hm) _)) (by simpa using hm) _

/-- The invariant of the outcome of one look at device 0. -/
def AutoloadResult.Inv : AutoloadResult → Prop
  | .over t => t.Inv
  | .goesOn q t => t.Inv ∧ 1 ≤ q.remaining ∧ q.remaining ≤ 4

/-- One look at device 0 keeps the invariant, and the number of characters stays between 1 and 4. -/
theorem autoloadLook_inv {s : State} (h : s.Inv) (p : Autoload) (hp : 1 ≤ p.remaining ∧ p.remaining ≤ 4) :
    (s.autoloadLook p).Inv := by
  unfold State.autoloadLook
  cases s.condition 0 with
  | disconnected => exact resetSystem_inv h
  | busy => exact ⟨h, hp⟩
  | available =>
    simp only
    split
    · split
      · exact ⟨clearEx_inv h, hp⟩
      · split
        · exact resetSystem_inv (clearEx_inv h)
        · split
          · exact finishAutoload_inv (clearEx_inv h) _ _
          · exact ⟨clearEx_inv h, by simp; omega⟩
    · exact ⟨clearEx_inv (deviceCommand_inv h _ _ _), hp⟩

theorem goesOn_inv {t : State} {q : Autoload} (h : t.Inv) (hq : 1 ≤ q.remaining ∧ q.remaining ≤ 4)
    (l : List (List EnvEvent)) : State.Inv { t with run := .autoloading q, schedule := l } :=
  ⟨h.installation, h.evenIc, h.protection0, h.mask0, h.store, h.keys, hq⟩

theorem runAutoload_inv (sched : List (List EnvEvent)) : ∀ {s : State} {p : Autoload}, s.Inv →
    1 ≤ p.remaining ∧ p.remaining ≤ 4 → (runAutoload sched p s).Inv := by
  induction sched with
  | nil =>
    intro s p h hp
    have hl := autoloadLook_inv h p hp
    unfold runAutoload
    rcases heq : s.autoloadLook p with t | ⟨q, t⟩
    · rw [heq] at hl; exact inv_of_eq (s := t) hl rfl rfl rfl rfl rfl rfl rfl
    · rw [heq] at hl; exact goesOn_inv hl.1 hl.2 []
  | cons es sched ih =>
    intro s p h hp
    have hl := autoloadLook_inv h p hp
    unfold runAutoload
    rcases heq : s.autoloadLook p with t | ⟨q, t⟩
    · rw [heq] at hl; exact inv_of_eq (s := t) hl rfl rfl rfl rfl rfl rfl rfl
    · rw [heq] at hl; exact ih (events_inv _ (goesOn_inv hl.1 hl.2 sched)) hl.2

theorem autoload_inv {s : State} (h : s.Inv) (addr : Word) : (s.autoload addr).Inv :=
  runAutoload_inv _ (p := ⟨addr, 0, 4, false⟩) (goesOn_inv h ⟨by simp, by simp⟩ s.schedule) ⟨by simp, by simp⟩

end Sys2Proof.Machine
end

