-- ==== Sys2Proof/Laws/Frame.lean ====
section
/-! SUPPORT. The frames of `Sys2Proof/Safety.lean`: what the primitive updates leave of the storage, and how frames
compose. -/

namespace Sys2Proof.Machine

/-! ## Storage -/

theorem wordNumber_mem_wordBytes {addr b : Word} (h : b ∈ wordBytes addr) : wordNumber b = wordNumber addr := by
  have ha := toNat_evenAddress addr
  have hl := wordNumber_lt addr
  rcases List.mem_cons.1 h with rfl | h
  · simp
  · obtain rfl := List.mem_singleton.1 h
    rw [wordNumber, BitVec.toNat_add, ha]; simp; omega

theorem mem_wordBytes {addr b : Word} : b ∈ wordBytes addr ↔ wordNumber b = wordNumber addr := by
  refine ⟨wordNumber_mem_wordBytes, fun h => ?_⟩
  have ha := toNat_evenAddress addr
  have hl := wordNumber_lt addr
  have hb := b.isLt
  have h1 : (evenAddress addr + 1).toNat = 2 * wordNumber addr + 1 := by
    rw [BitVec.toNat_add, ha]; simp; omega
  have hw : b.toNat / 2 = wordNumber addr := h
  rcases Nat.mod_two_eq_zero_or_one b.toNat with h0 | h0
  · exact List.mem_cons.2 (.inl (BitVec.eq_of_toNat_eq (by omega)))
  · exact List.mem_cons.2 (.inr (List.mem_singleton.2 (BitVec.eq_of_toNat_eq (by omega))))

theorem sameStorage_refl (s : State) : SameStorage s s [] [] := ⟨fun _ _ _ => rfl, fun _ _ _ => rfl⟩

/-- Registers and store decide the storage. -/
theorem sameStorage_of_eq {s t : State} (h1 : t.regs = s.regs) (h2 : t.store = s.store) : SameStorage s t [] [] :=
  ⟨fun r _ _ => by simp only [State.reg, h1],
    fun b _ _ => by simp only [State.byteRead, wordRead_congr h1 h2]⟩

theorem sameStorage_trans {s t u : State} {r1 r2 : List Reg} {b1 b2 : List Word} (h : SameStorage s t r1 b1)
    (h' : SameStorage t u r2 b2) : SameStorage s u (r1 ++ r2) (b1 ++ b2) := by
  refine ⟨fun r hr hb => ?_, fun b hb hr => ?_⟩
  · simp only [List.mem_append, not_or] at hr
    rw [h'.1 r hr.2 fun b hm => hb b (List.mem_append.2 (.inr hm)),
      h.1 r hr.1 fun b hm => hb b (List.mem_append.2 (.inl hm))]
  · simp only [List.mem_append, not_or] at hb
    rw [h'.2 b hb.2 fun r hm => hr r (List.mem_append.2 (.inr hm)),
      h.2 b hb.1 fun r hm => hr r (List.mem_append.2 (.inl hm))]

theorem sameStorage_mono {s t : State} {r1 r2 : List Reg} {b1 b2 : List Word} (h : SameStorage s t r1 b1)
    (hr : r1 ⊆ r2) (hb : b1 ⊆ b2) : SameStorage s t r2 b2 :=
  ⟨fun r hn hs => h.1 r (fun hm => hn (hr hm)) fun b hm => hs b (hb hm),
    fun b hn hs => h.2 b (fun hm => hn (hb hm)) fun r hm => hs r (hr hm)⟩

/-- A storage frame from and to states with the same registers and store. -/
theorem sameStorage_congr {s s' t t' : State} {r : List Reg} {b : List Word} (h : SameStorage s t r b)
    (h1 : s'.regs = s.regs) (h2 : s'.store = s.store) (h3 : t'.regs = t.regs) (h4 : t'.store = t.store) :
    SameStorage s' t' r b := by
  have hs := sameStorage_trans (sameStorage_of_eq h1.symm h2.symm) (sameStorage_trans h (sameStorage_of_eq h3 h4))
  simpa using hs

theorem sameStorage_setReg (s : State) (w : Reg) (v : Word) : SameStorage s (s.setReg w v) [w] [] := by
  refine ⟨fun r hr _ => ?_, fun b _ hr => ?_⟩
  · have : w ≠ r := fun h => hr (by simp [h])
    simp [this]
  · have hw : wordNumber b ≠ registerNumber w := hr w (by simp)
    simp only [State.byteRead, wordRead_setReg, if_neg hw]

theorem sameStorage_setPair (s : State) (w : Reg) (v : DoubleWord) :
    SameStorage s (s.setPair w v) [preceding w, w] [] :=
  sameStorage_trans (sameStorage_setReg s _ _) (sameStorage_setReg _ w _)

theorem sameStorage_wordWrite (s : State) (addr v : Word) : SameStorage s (s.wordWrite addr v) [] (wordBytes addr) := by
  refine ⟨fun r _ hb => ?_, fun b hb _ => ?_⟩
  · rw [reg_wordWrite, if_neg]
    have := hb (evenAddress addr) (by simp)
    simpa using this
  · rw [mem_wordBytes] at hb
    exact byteRead_wordWrite_other s v (Ne.symm hb)

theorem sameStorage_byteWrite {s : State} (h : s.storeRising) (addr : Word) (v : Byte) :
    SameStorage s (s.byteWrite addr v) [] [addr] := by
  refine ⟨fun r _ hb => ?_, fun b hb _ => ?_⟩
  · rw [State.byteWrite, reg_wordWrite, if_neg (hb addr (by simp))]
  · rw [byteRead_byteWrite h, if_neg]
    rintro rfl; exact hb (by simp)

/-- Cycles that the channel steals change no register, and no byte of a word that it spares. -/
theorem sameStorageSparing_steal {k : Nat} {s t : State} {regs : List Reg} {stored : List Word}
    (h : SameStorageSparing k s.steal t regs stored) : SameStorageSparing (k + 1) s t regs stored :=
  ⟨fun r hr hb => h.1 r hr hb, fun b hb hs hr => by
    rw [h.2 b hb (spares_steal hs) hr, steal_byteRead_spared hs]⟩

theorem sameStorageSparing_of_sameStorage {s t : State} {regs : List Reg} {stored : List Word}
    (h : SameStorage s t regs stored) (k : Nat) : SameStorageSparing k s t regs stored :=
  ⟨h.1, fun b hb _ hr => h.2 b hb hr⟩

/-- Interruption service stores words 8 and 10 and nothing else. -/
theorem sameStorage_serve {s : State} (h : s.storeRising) (i : Nat) :
    SameStorageSparing 3 s (s.serve i) [] (wordBytes 8 ++ wordBytes 10) := by
  refine ⟨fun r _ _ => by simp only [State.reg, serve_regs], fun b hb hs _ => ?_⟩
  simp only [List.mem_append, not_or, mem_wordBytes] at hb
  have h4 : wordNumber b ≠ 4 := hb.1
  have h5 : wordNumber b ≠ 5 := hb.2
  rw [State.byteRead, serve_wordRead h i hs, if_neg h5, if_neg h4, State.byteRead]

theorem sameStorage_raise {s : State} (hm : s.im.getMsbD 0 = true) (h : s.storeRising) :
    SameStorageSparing 3 s s.raise [] (wordBytes 8 ++ wordBytes 10) := by
  refine ⟨fun r _ _ => by simp, fun b hb hs _ => ?_⟩
  simp only [List.mem_append, not_or, mem_wordBytes] at hb
  have h4 : wordNumber b ≠ 4 := hb.1
  have h5 : wordNumber b ≠ 5 := hb.2
  rw [State.byteRead, raise_wordRead hm h hs, if_neg h5, if_neg h4, State.byteRead]

/-! ## Whole frames -/

/-- The frame of an operation that runs on the state after the decode and changes registers, storage, EX, IR and IC only.
The last access to the store follows `u`. -/
theorem frame_of_entered {s u t : State} {a : AddressPart} {regs : List Reg} {stored : List Word}
    (h : SameStorage u t regs stored) (h1 : SameControl (s.entered a) t) (h2 : SameDevices (s.entered a) t)
    (h3 : SameConsole (s.entered a) t) (h4 : t.amPending = none) (h5 : t.monitorMode = (s.entered a).monitorMode)
    (h6 : t.steals = u.steals) : Frame s u t regs stored :=
  ⟨h, by simpa [SameControl] using h1, by simpa [SameDevices] using h2, by simpa [SameConsole] using h3,
    ⟨h4, by rw [h5, entered_monitorMode]⟩, h6⟩

theorem frame_entered (s : State) (a : AddressPart) : Frame s (s.entered a) (s.entered a) [] [] :=
  frame_of_entered (sameStorage_refl _) ⟨rfl, rfl, rfl, rfl⟩ ⟨rfl, rfl⟩ ⟨rfl, rfl, rfl, rfl, rfl, rfl, rfl⟩
    (entered_amPending s a) rfl rfl

theorem frame_mono {s u t : State} {r1 r2 : List Reg} {b1 b2 : List Word} (h : Frame s u t r1 b1) (hr : r1 ⊆ r2)
    (hb : b1 ⊆ b2) : Frame s u t r2 b2 :=
  ⟨sameStorage_mono h.1 hr hb, h.2⟩

/-- What a frame says does not depend on IC, EX and IR. -/
theorem frame_congr {s u t t' : State} {r : List Reg} {b : List Word} (h : Frame s u t r b)
    (heq : t' = { t with ic := t'.ic, ex := t'.ex, ir := t'.ir }) : Frame s u t' r b := by
  rw [heq]
  exact ⟨sameStorage_congr h.1 rfl rfl rfl rfl, h.2⟩

theorem frame_setReg {s u t : State} {r : List Reg} {b : List Word} (h : Frame s u t r b) (w : Reg) (v : Word) :
    Frame s u (t.setReg w v) (r ++ [w]) b :=
  ⟨by simpa using sameStorage_trans h.1 (sameStorage_setReg t w v), h.2⟩

theorem frame_setPair {s u t : State} {r : List Reg} {b : List Word} (h : Frame s u t r b) (w : Reg)
    (v : DoubleWord) : Frame s u (t.setPair w v) (r ++ [preceding w, w]) b :=
  ⟨by simpa using sameStorage_trans h.1 (sameStorage_setPair t w v), h.2⟩

theorem frame_wordWrite {s u t : State} {r : List Reg} {b : List Word} (h : Frame s u t r b) (addr v : Word) :
    Frame s u (t.wordWrite addr v) r (b ++ wordBytes addr) := by
  refine ⟨by simpa using sameStorage_trans h.1 (sameStorage_wordWrite t addr v), ?_⟩
  simpa [SameControl, SameDevices, SameConsole, DecodeDone] using h.2

theorem frame_byteWrite {s u t : State} {r : List Reg} {b : List Word} (h : Frame s u t r b) (ht : t.storeRising)
    (addr : Word) (v : Byte) : Frame s u (t.byteWrite addr v) r (b ++ [addr]) := by
  refine ⟨by simpa using sameStorage_trans h.1 (sameStorage_byteWrite ht addr v), ?_⟩
  simpa [SameControl, SameDevices, SameConsole, DecodeDone] using h.2

/-- Before a second access the channel steals cycles; the registers written in between do not matter to it. -/
theorem frame_steal {s u t : State} {r : List Reg} {b : List Word} (h : Frame s u t r b)
    (hs : t.steal.store = u.steal.store) : Frame s u.steal t.steal r b := by
  refine ⟨?_, h.2.1, h.2.2.1, h.2.2.2.1, h.2.2.2.2.1, ?_⟩
  · refine ⟨fun q hq hb => h.1.1 q hq hb, fun c hc hr => ?_⟩
    have key := h.1.2 c hc hr
    have e : ∀ x y : State, x.store = y.store → ∀ n, 4 ≤ n → x.readWordAt n = y.readWordAt n := by
      intro x y hxy n hn
      simp only [State.readWordAt, registerAt_eq_none.2 hn, hxy]
    by_cases h4 : 4 ≤ wordNumber c
    · rw [State.byteRead, State.byteRead, State.wordRead, State.wordRead, e _ _ hs _ h4]
    · have l1 : t.steal.wordRead c = t.wordRead c := steal_readWordAt (.inr (by omega))
      have l2 : u.steal.wordRead c = u.wordRead c := steal_readWordAt (.inr (by omega))
      rw [State.byteRead, State.byteRead, l1, l2]
      exact key
  · show t.steals.tail = u.steals.tail
    rw [h.2.2.2.2.2]

/-! ## Reports -/

theorem setEx_bits (s : State) (o c : Bool) :
    (s.setEx o c).ex = BitVec.ofBool (s.ex.getMsbD 0) ++ BitVec.ofBool o ++ BitVec.ofBool c := rfl

theorem ex_append_bits (p o c : Bool) :
    (BitVec.ofBool p ++ BitVec.ofBool o ++ BitVec.ofBool c : BitVec 3).getMsbD 0 = p ∧
    (BitVec.ofBool p ++ BitVec.ofBool o ++ BitVec.ofBool c : BitVec 3).getMsbD 1 = o ∧
    (BitVec.ofBool p ++ BitVec.ofBool o ++ BitVec.ofBool c : BitVec 3).getMsbD 2 = c := by
  cases p <;> cases o <;> cases c <;> decide

/-- What Test Integer leaves after EX(22:23) was cleared: overflow, carry and request 1 (R130). -/
theorem testInteger_reports {s t : State} (r : BitVec 25) (c : Bool) (hex : t.ex = s.clearEx.ex) (hir : t.ir = s.ir) :
    Reports s (t.testInteger r c) 1 (decide (r.toInt < -2 ^ 23 ∨ 2 ^ 23 ≤ r.toInt)) c := by
  have hd := topBits_differ (n := 23) r
  have bits := ex_append_bits (s.ex.getMsbD 0) false false
  have hex' : t.ex = BitVec.ofBool (s.ex.getMsbD 0) ++ BitVec.ofBool false ++ BitVec.ofBool false := hex
  unfold State.testInteger Reports
  by_cases h : r.getMsbD 0 ≠ r.getMsbD 1
  · have hlow := ex_append_bits (s.ex.getMsbD 0) false c
    rw [if_pos h, decide_eq_true (hd.1 h)]
    refine ⟨?_, ?_⟩
    · show (BitVec.ofBool ((t.setEx (t.ex.getMsbD 1) c).ex.getMsbD 0) ++ BitVec.ofBool true ++
        BitVec.ofBool ((t.setEx (t.ex.getMsbD 1) c).ex.getMsbD 2) : BitVec 3) = _
      rw [setEx_bits, hex', bits.1, bits.2.1, hlow.1, hlow.2.2]
    · show t.ir ||| bitMask 1 = _
      rw [hir]; rfl
  · rw [if_neg h, decide_eq_false (fun hh => h (hd.2 hh))]
    refine ⟨?_, ?_⟩
    · show (BitVec.ofBool (t.ex.getMsbD 0) ++ BitVec.ofBool (t.ex.getMsbD 1) ++ BitVec.ofBool c : BitVec 3) = _
      rw [hex', bits.1, bits.2.1]
    · show t.ir = _
      rw [hir]; rfl

/-- An overflow request after EX(22:23) was cleared. -/
theorem overflow_reports {s t : State} (i : Nat) (hex : t.ex = s.clearEx.ex) (hir : t.ir = s.ir) :
    Reports s (t.setOverflow.pend i) i true false := by
  have hex' : t.ex = BitVec.ofBool (s.ex.getMsbD 0) ++ BitVec.ofBool false ++ BitVec.ofBool false := hex
  have bits := ex_append_bits (s.ex.getMsbD 0) false false
  refine ⟨?_, ?_⟩
  · show (BitVec.ofBool (t.ex.getMsbD 0) ++ BitVec.ofBool true ++ BitVec.ofBool (t.ex.getMsbD 2) : BitVec 3) = _
    rw [hex', bits.1, bits.2.2]
  · show t.ir ||| bitMask i = _
    rw [hir]; rfl

/-- No overflow: EX(22:23) = 00 and no request. -/
theorem clear_reports {s t : State} (i : Nat) (hex : t.ex = s.clearEx.ex) (hir : t.ir = s.ir) :
    Reports s t i false false :=
  ⟨hex, by rw [hir]; rfl⟩

end Sys2Proof.Machine
end

