-- ==== Sys2Proof/Laws/PerInstr.lean ====
section
/-! SUPPORT. A statement about every instruction as syntax, one lemma per constructor, and the fields of an assembled
word (30_encoding.md R91, R99). -/

namespace Sys2Proof.Laws

/-! ## The operation code of an instruction is the one the table lists for it -/

/-- The table of R99 lists, under the operation code of `i`, the instruction that `i` is. -/
def Listed.Statement (i : Instr) : Prop :=
  i.code < 58 ∧ ∃ make, opcodeMap.lookup i.code = some make ∧ make i.result i.address = i

theorem Listed.aw (w : Reg) (a : AddressPart) : Listed.Statement (.aw w a) :=
  ⟨by simp [Instr.code], .aw, rfl, rfl⟩

theorem Listed.io (w : Reg) (a : AddressPart) : Listed.Statement (.io w a) :=
  ⟨by simp [Instr.code], .io, rfl, rfl⟩

theorem Listed.bl (w : Reg) (a : AddressPart) : Listed.Statement (.bl w a) :=
  ⟨by simp [Instr.code], .bl, rfl, rfl⟩

theorem Listed.hl (w : Reg) (a : AddressPart) : Listed.Statement (.hl w a) :=
  ⟨by simp [Instr.code], .hl, rfl, rfl⟩

theorem Listed.la (w : Reg) (a : AddressPart) : Listed.Statement (.la w a) :=
  ⟨by simp [Instr.code], .la, rfl, rfl⟩

theorem Listed.lo (w : Reg) (a : AddressPart) : Listed.Statement (.lo w a) :=
  ⟨by simp [Instr.code], .lo, rfl, rfl⟩

theorem Listed.lx (w : Reg) (a : AddressPart) : Listed.Statement (.lx w a) :=
  ⟨by simp [Instr.code], .lx, rfl, rfl⟩

theorem Listed.wa (w : Reg) (a : AddressPart) : Listed.Statement (.wa w a) :=
  ⟨by simp [Instr.code], .wa, rfl, rfl⟩

theorem Listed.ws (w : Reg) (a : AddressPart) : Listed.Statement (.ws w a) :=
  ⟨by simp [Instr.code], .ws, rfl, rfl⟩

theorem Listed.am (w : Reg) (a : AddressPart) : Listed.Statement (.am w a) :=
  ⟨by simp [Instr.code], .am, rfl, rfl⟩

theorem Listed.wm (w : Reg) (a : AddressPart) : Listed.Statement (.wm w a) :=
  ⟨by simp [Instr.code], .wm, rfl, rfl⟩

theorem Listed.al (w : Reg) (a : AddressPart) : Listed.Statement (.al w a) :=
  ⟨by simp [Instr.code], .al, rfl, rfl⟩

theorem Listed.ml (w : Reg) (a : AddressPart) : Listed.Statement (.ml w a) :=
  ⟨by simp [Instr.code], .ml, rfl, rfl⟩

theorem Listed.jl (w : Reg) (a : AddressPart) : Listed.Statement (.jl w a) :=
  ⟨by simp [Instr.code], .jl, rfl, rfl⟩

theorem Listed.jd (w : Reg) (a : AddressPart) : Listed.Statement (.jd w a) :=
  ⟨by simp [Instr.code], .jd, rfl, rfl⟩

theorem Listed.je (w : Reg) (a : AddressPart) : Listed.Statement (.je w a) :=
  ⟨by simp [Instr.code], .je, rfl, rfl⟩

theorem Listed.xl (w : Reg) (a : AddressPart) : Listed.Statement (.xl w a) :=
  ⟨by simp [Instr.code], .xl, rfl, rfl⟩

theorem Listed.bs (w : Reg) (a : AddressPart) : Listed.Statement (.bs w a) :=
  ⟨by simp [Instr.code], .bs, rfl, rfl⟩

theorem Listed.ba (w : Reg) (a : AddressPart) : Listed.Statement (.ba w a) :=
  ⟨by simp [Instr.code], .ba, rfl, rfl⟩

theorem Listed.bz (w : Reg) (a : AddressPart) : Listed.Statement (.bz w a) :=
  ⟨by simp [Instr.code], .bz, rfl, rfl⟩

theorem Listed.rl (w : Reg) (a : AddressPart) : Listed.Statement (.rl w a) :=
  ⟨by simp [Instr.code], .rl, rfl, rfl⟩

theorem Listed.sp (w : Reg) (a : AddressPart) : Listed.Statement (.sp w a) :=
  ⟨by simp [Instr.code], .sp, rfl, rfl⟩

theorem Listed.kl (w : Reg) (a : AddressPart) : Listed.Statement (.kl w a) :=
  ⟨by simp [Instr.code], .kl, rfl, rfl⟩

theorem Listed.rs (w : Reg) (a : AddressPart) : Listed.Statement (.rs w a) :=
  ⟨by simp [Instr.code], .rs, rfl, rfl⟩

theorem Listed.wd (w : Reg) (a : AddressPart) : Listed.Statement (.wd w a) :=
  ⟨by simp [Instr.code], .wd, rfl, rfl⟩

theorem Listed.rx (w : Reg) (a : AddressPart) : Listed.Statement (.rx w a) :=
  ⟨by simp [Instr.code], .rx, rfl, rfl⟩

theorem Listed.hs (w : Reg) (a : AddressPart) : Listed.Statement (.hs w a) :=
  ⟨by simp [Instr.code], .hs, rfl, rfl⟩

theorem Listed.xs (w : Reg) (a : AddressPart) : Listed.Statement (.xs w a) :=
  ⟨by simp [Instr.code], .xs, rfl, rfl⟩

theorem Listed.pl (w : Reg) (a : AddressPart) : Listed.Statement (.pl w a) :=
  ⟨by simp [Instr.code], .pl, rfl, rfl⟩

theorem Listed.ps (w : Reg) (a : AddressPart) : Listed.Statement (.ps w a) :=
  ⟨by simp [Instr.code], .ps, rfl, rfl⟩

theorem Listed.ms (w : Reg) (a : AddressPart) : Listed.Statement (.ms w a) :=
  ⟨by simp [Instr.code], .ms, rfl, rfl⟩

theorem Listed.is (w : Reg) (a : AddressPart) : Listed.Statement (.is w a) :=
  ⟨by simp [Instr.code], .is, rfl, rfl⟩

theorem Listed.ci (w : Reg) (a : AddressPart) : Listed.Statement (.ci w a) :=
  ⟨by simp [Instr.code], .ci, rfl, rfl⟩

theorem Listed.ac (w : Reg) (a : AddressPart) : Listed.Statement (.ac w a) :=
  ⟨by simp [Instr.code], .ac, rfl, rfl⟩

theorem Listed.ns (w : Reg) (a : AddressPart) : Listed.Statement (.ns w a) :=
  ⟨by simp [Instr.code], .ns, rfl, rfl⟩

theorem Listed.nd (w : Reg) (a : AddressPart) : Listed.Statement (.nd w a) :=
  ⟨by simp [Instr.code], .nd, rfl, rfl⟩

theorem Listed.as (w : Reg) (a : AddressPart) : Listed.Statement (.as w a) :=
  ⟨by simp [Instr.code], .as, rfl, rfl⟩

theorem Listed.ad (w : Reg) (a : AddressPart) : Listed.Statement (.ad w a) :=
  ⟨by simp [Instr.code], .ad, rfl, rfl⟩

theorem Listed.ls (w : Reg) (a : AddressPart) : Listed.Statement (.ls w a) :=
  ⟨by simp [Instr.code], .ls, rfl, rfl⟩

theorem Listed.ld (w : Reg) (a : AddressPart) : Listed.Statement (.ld w a) :=
  ⟨by simp [Instr.code], .ld, rfl, rfl⟩

theorem Listed.sh (w : Reg) (a : AddressPart) : Listed.Statement (.sh w a) :=
  ⟨by simp [Instr.code], .sh, rfl, rfl⟩

theorem Listed.sl (w : Reg) (a : AddressPart) : Listed.Statement (.sl w a) :=
  ⟨by simp [Instr.code], .sl, rfl, rfl⟩

theorem Listed.se (w : Reg) (a : AddressPart) : Listed.Statement (.se w a) :=
  ⟨by simp [Instr.code], .se, rfl, rfl⟩

theorem Listed.sn (w : Reg) (a : AddressPart) : Listed.Statement (.sn w a) :=
  ⟨by simp [Instr.code], .sn, rfl, rfl⟩

theorem Listed.so (w : Reg) (a : AddressPart) : Listed.Statement (.so w a) :=
  ⟨by simp [Instr.code], .so, rfl, rfl⟩

theorem Listed.sz (w : Reg) (a : AddressPart) : Listed.Statement (.sz w a) :=
  ⟨by simp [Instr.code], .sz, rfl, rfl⟩

theorem Listed.sx (w : Reg) (a : AddressPart) : Listed.Statement (.sx w a) :=
  ⟨by simp [Instr.code], .sx, rfl, rfl⟩

theorem Listed.ic (w : Reg) (a : AddressPart) : Listed.Statement (.ic w a) :=
  ⟨by simp [Instr.code], .ic, rfl, rfl⟩

theorem Listed.fa (w : Reg) (a : AddressPart) : Listed.Statement (.fa w a) :=
  ⟨by simp [Instr.code], .fa, rfl, rfl⟩

theorem Listed.fs (w : Reg) (a : AddressPart) : Listed.Statement (.fs w a) :=
  ⟨by simp [Instr.code], .fs, rfl, rfl⟩

theorem Listed.fm (w : Reg) (a : AddressPart) : Listed.Statement (.fm w a) :=
  ⟨by simp [Instr.code], .fm, rfl, rfl⟩

theorem Listed.ks (w : Reg) (a : AddressPart) : Listed.Statement (.ks w a) :=
  ⟨by simp [Instr.code], .ks, rfl, rfl⟩

theorem Listed.fd (w : Reg) (a : AddressPart) : Listed.Statement (.fd w a) :=
  ⟨by simp [Instr.code], .fd, rfl, rfl⟩

theorem Listed.cf (w : Reg) (a : AddressPart) : Listed.Statement (.cf w a) :=
  ⟨by simp [Instr.code], .cf, rfl, rfl⟩

theorem Listed.dl (w : Reg) (a : AddressPart) : Listed.Statement (.dl w a) :=
  ⟨by simp [Instr.code], .dl, rfl, rfl⟩

theorem Listed.ds (w : Reg) (a : AddressPart) : Listed.Statement (.ds w a) :=
  ⟨by simp [Instr.code], .ds, rfl, rfl⟩

theorem Listed.aa (w : Reg) (a : AddressPart) : Listed.Statement (.aa w a) :=
  ⟨by simp [Instr.code], .aa, rfl, rfl⟩

theorem Listed.ss (w : Reg) (a : AddressPart) : Listed.Statement (.ss w a) :=
  ⟨by simp [Instr.code], .ss, rfl, rfl⟩

/-! ## The fields of an assembled word -/

/-- The left part of a concatenation. -/
theorem extract_left {n m : Nat} (x : BitVec n) (y : BitVec m) : (x ++ y).extractLsb' m n = x := by
  ext i hi
  simp [BitVec.getElem_extractLsb', BitVec.getLsbD_append, hi]

/-- The right part of a concatenation. -/
theorem extract_right {n m : Nat} (x : BitVec n) (y : BitVec m) : (x ++ y).extractLsb' 0 m = y := by
  ext i hi
  simp [BitVec.getElem_extractLsb', BitVec.getLsbD_append, hi]

/-- A field within the left part of a concatenation. -/
theorem extract_inner {n m : Nat} (x : BitVec n) (y : BitVec m) (k l : Nat) (h : m ≤ k) :
    (x ++ y).extractLsb' k l = x.extractLsb' (k - m) l := by
  ext i hi
  simp [BitVec.getElem_extractLsb', BitVec.getLsbD_append, show ¬k + i < m by omega, show k - m + i = k + i - m by omega]

theorem fieldF_assemble (code : Nat) (w : Reg) (a : AddressPart) :
    fieldF (assemble code w a) = BitVec.ofNat 6 code := by
  unfold fieldF assemble
  rw [extract_inner _ _ _ _ (by decide), extract_inner _ _ _ _ (by decide), extract_inner _ _ _ _ (by decide)]
  exact extract_left _ _

theorem fieldW_assemble (code : Nat) (w : Reg) (a : AddressPart) : fieldW (assemble code w a) = w.bits := by
  unfold fieldW assemble
  rw [extract_inner _ _ _ _ (by decide), extract_inner _ _ _ _ (by decide), extract_inner _ _ _ _ (by decide)]
  exact extract_right _ _

theorem fieldM_assemble (code : Nat) (w : Reg) (a : AddressPart) :
    fieldM (assemble code w a) = BitVec.ofBool a.relative ++ BitVec.ofBool a.indirect := by
  unfold fieldM assemble
  rw [extract_inner _ _ _ _ (by decide), extract_inner _ _ _ _ (by decide)]
  exact extract_right _ _

theorem fieldX_assemble (code : Nat) (w : Reg) (a : AddressPart) : fieldX (assemble code w a) = a.index.bits := by
  unfold fieldX assemble
  rw [extract_inner _ _ _ _ (by decide)]
  exact extract_right _ _

theorem fieldD_assemble (code : Nat) (w : Reg) (a : AddressPart) :
    fieldD (assemble code w a) = BitVec.ofInt 12 a.displacement :=
  extract_right _ _

@[simp] theorem Reg_ofBits_bits (w : Reg) : Reg.ofBits w.bits = w := by cases w <;> rfl

@[simp] theorem Index_ofBits_bits (x : Index) : Index.ofBits x.bits = x := by cases x <;> rfl

end Sys2Proof.Laws
end

