-- ==== Sys2Proof/Laws/Shift.lean ====
section
/-! SUPPORT. The shift and normalization loops (44_logical_and_shift.md R246 to R253) and the multiplication and
normalization of fractions (43_floating_point.md R206, R218) in terms of integers. -/

namespace Sys2Proof.Machine

open Sys2Proof.Laws

/-! ## Left shifts -/

/-- A left shift by one place doubles a value whose two leftmost bits agree. -/
theorem toInt_shiftLeft_one {n : Nat} {v : BitVec (n + 2)} (h : v.getMsbD 0 = v.getMsbD 1) :
    (v <<< 1).toInt = 2 * v.toInt := by
  have hb : ¬v.getMsbD 0 ≠ v.getMsbD 1 := by simpa using h
  rw [topBits_differ] at hb
  have e : v <<< 1 = v + v := by
    apply BitVec.eq_of_toNat_eq
    simp [BitVec.toNat_add, Nat.shiftLeft_eq, Nat.mul_two]
  have h2 : (2 : Int) ^ (n + 2) = 4 * 2 ^ n := by ring
  rw [e, BitVec.toInt_add, Int.bmod_eq_of_le (by push_cast; omega) (by push_cast; omega)]
  omega

/-- `k` single shifts are one shift by `k`. -/
theorem shiftLeftTested_fst {n : Nat} (k : Nat) : ∀ (v : BitVec n) (lost : Bool),
    (shiftLeftTested k v lost).1 = v <<< k := by
  induction k with
  | zero => simp [shiftLeftTested]
  | succ k ih =>
    intro v lost
    rw [shiftLeftTested, ih, ← BitVec.shiftLeft_add, Nat.add_comm]

/-- A significant digit is lost exactly when the product by `2^k` does not fit. -/
theorem shiftLeftTested_snd {n : Nat} (k : Nat) : ∀ (v : BitVec (n + 2)) (lost : Bool),
    (shiftLeftTested k v lost).2 =
      (lost || decide (v.toInt * 2 ^ k < -2 ^ (n + 1) ∨ 2 ^ (n + 1) ≤ v.toInt * 2 ^ k)) := by
  have h1 : (2 : Int) ^ (n + 1) = 2 * 2 ^ n := by ring
  induction k with
  | zero =>
    intro v lost
    have hl := BitVec.le_toInt v
    have hu := BitVec.toInt_lt (x := v)
    simp only [shiftLeftTested, pow_zero, mul_one]
    rw [show n + 2 - 1 = n + 1 by omega] at hl hu
    rw [decide_eq_false (by omega), Bool.or_false]
  | succ k ih =>
    intro v lost
    have hp : (0 : Int) < 2 ^ n := by positivity
    have hk : (1 : Int) ≤ 2 ^ k := one_le_pow₀ (by decide)
    rw [shiftLeftTested, ih]
    by_cases hb : v.getMsbD 0 = v.getMsbD 1
    · rw [toInt_shiftLeft_one hb, hb, bne_self_eq_false, Bool.or_false]
      congr 2
      rw [show v.toInt * 2 ^ (k + 1) = 2 * v.toInt * 2 ^ k by ring]
    · have hr := (topBits_differ v).1 hb
      have hbig : v.toInt * 2 ^ (k + 1) < -2 ^ (n + 1) ∨ 2 ^ (n + 1) ≤ v.toInt * 2 ^ (k + 1) := by
        rw [pow_succ (2 : Int) k, h1]
        rcases hr with h | h
        · left; nlinarith
        · right; nlinarith
      rw [decide_eq_true hbig]
      simp [hb]

/-! ## Normalization -/

/-- The loop of R252 and R253, with enough passes: the value is multiplied until its two leftmost bits differ. -/
theorem normalizeShifts_spec {n : Nat} (m : Nat) : ∀ (v : BitVec (n + 2)) (c : Nat),
    (v.toInt * 2 ^ m < -2 ^ n ∨ 2 ^ n ≤ v.toInt * 2 ^ m) →
    ∃ k ≤ m, (normalizeShifts m v c).2 = c + k ∧ (normalizeShifts m v c).1.toInt = v.toInt * 2 ^ k ∧
      (normalizeShifts m v c).1.getMsbD 0 ≠ (normalizeShifts m v c).1.getMsbD 1 := by
  induction m with
  | zero =>
    intro v c h
    rw [pow_zero, mul_one] at h
    exact ⟨0, le_rfl, rfl, by simp [normalizeShifts], (topBits_differ v).2 h⟩
  | succ m ih =>
    intro v c h
    by_cases hb : v.getMsbD 0 = v.getMsbD 1
    · have hd := toInt_shiftLeft_one hb
      obtain ⟨k, hk, h1, h2, h3⟩ := ih (v <<< 1) (c + 1)
        (by rw [hd, show 2 * v.toInt * 2 ^ m = v.toInt * 2 ^ (m + 1) by ring]; exact h)
      rw [normalizeShifts, if_pos hb]
      refine ⟨k + 1, by omega, by rw [h1]; omega, ?_, h3⟩
      rw [h2, hd]
      ring
    · rw [normalizeShifts, if_neg hb]
      exact ⟨0, by omega, rfl, by simp, hb⟩

/-- The normalization of a nonzero value: it is multiplied by `2^k`, and the byte is `-k`. -/
theorem normalize_spec {n : Nat} {v : BitVec (n + 2)} (hv : v ≠ 0) :
    ∃ k ≤ n + 1, (normalize v).1.toInt = v.toInt * 2 ^ k ∧
      (normalize v).1.getMsbD 0 ≠ (normalize v).1.getMsbD 1 ∧ (normalize v).2 = BitVec.ofInt 12 (-k) := by
  have hne : v.toInt ≠ 0 := by
    intro h
    exact hv (BitVec.eq_of_toInt_eq (by rw [h]; simp))
  have hp : (0 : Int) < 2 ^ n := by positivity
  have e : (2 : Int) ^ (n + 2) = 4 * 2 ^ n := by ring
  have hbig : v.toInt * 2 ^ (n + 2) < -2 ^ n ∨ 2 ^ n ≤ v.toInt * 2 ^ (n + 2) := by
    rw [e]
    rcases lt_or_gt_of_ne hne with h | h
    · left; nlinarith
    · right; nlinarith
  obtain ⟨k, -, h1, h2, h3⟩ := normalizeShifts_spec (n + 2) v 0 hbig
  have hk : k ≤ n + 1 := by
    by_contra hk
    have hl := BitVec.le_toInt (normalizeShifts (n + 2) v 0).1
    have hu := BitVec.toInt_lt (x := (normalizeShifts (n + 2) v 0).1)
    rw [h2, show n + 2 - 1 = n + 1 by omega] at hl hu
    have hpow : (2 : Int) ^ (n + 2) ≤ 2 ^ k := pow_le_pow_right₀ (by decide) (by omega)
    have e1 : (2 : Int) ^ (n + 1) = 2 * 2 ^ n := by ring
    rcases lt_or_gt_of_ne hne with h | h
    · nlinarith
    · nlinarith
  refine ⟨k, hk, ?_, ?_, ?_⟩
  · rw [normalize, if_neg hv]; exact h2
  · rw [normalize, if_neg hv]; exact h3
  · rw [normalize, if_neg hv]; simp [h1]

/-! ## Fractions (43_floating_point.md) -/

/-- The left shifts of Normalize and Round Floating, with enough passes (R206). -/
theorem normalizeLoop_spec (m : Nat) : ∀ (af : BitVec 39) (sc : BitVec 13),
    -2 ^ 37 ≤ af.toInt → af.toInt < 2 ^ 37 → (af.toInt * 2 ^ m < -2 ^ 36 ∨ 2 ^ 36 ≤ af.toInt * 2 ^ m) →
    ∃ k ≤ m, (normalizeLoop m af sc).1.toInt = af.toInt * 2 ^ k ∧
      (normalizeLoop m af sc).2 = sc - BitVec.ofNat 13 k ∧
      -2 ^ 37 ≤ af.toInt * 2 ^ k ∧ af.toInt * 2 ^ k < 2 ^ 37 ∧
      (af.toInt * 2 ^ k < -2 ^ 36 ∨ 2 ^ 36 ≤ af.toInt * 2 ^ k) := by
  induction m with
  | zero =>
    intro af sc hl hu h
    rw [pow_zero, mul_one] at h
    exact ⟨0, le_rfl, by simp [normalizeLoop], by simp [normalizeLoop], by simpa, by simpa, by simpa⟩
  | succ m ih =>
    intro af sc hl hu h
    have hbits : af.getMsbD 1 = af.getMsbD 2 ↔ -2 ^ 36 ≤ af.toInt ∧ af.toInt < 2 ^ 36 := by
      have hx : (af.setWidth 38).toInt = af.toInt := by
        rw [BitVec.toInt_setWidth]
        have := af.toInt_eq_toNat_bmod
        rw [Int.bmod_def] at *
        omega
      have := topBits_differ (n := 36) (af.setWidth 38)
      rw [hx] at this
      have e0 : (af.setWidth 38).getMsbD 0 = af.getMsbD 1 := by simp [BitVec.getMsbD]
      have e1 : (af.setWidth 38).getMsbD 1 = af.getMsbD 2 := by simp [BitVec.getMsbD]
      rw [e0, e1] at this
      constructor
      · intro heq; by_contra hc; exact this.2 (by omega) heq
      · intro hr; by_contra hne; have := this.1 hne; omega
    by_cases hb : af.getMsbD 1 = af.getMsbD 2
    · have hr := hbits.1 hb
      have hd := toInt_double af (by omega)
      obtain ⟨k, hk, h1, h2, h3, h4, h5⟩ := ih (af <<< 1) (sc - 1) (by omega) (by omega)
        (by rw [hd, show 2 * af.toInt * 2 ^ m = af.toInt * 2 ^ (m + 1) by ring]; exact h)
      rw [hd, show 2 * af.toInt * 2 ^ k = af.toInt * 2 ^ (k + 1) by ring] at *
      rw [normalizeLoop, if_pos hb]
      refine ⟨k + 1, by omega, h1, ?_, h3, h4, h5⟩
      rw [h2]
      apply BitVec.eq_of_toNat_eq
      simp
      omega
    · rw [normalizeLoop, if_neg hb]
      have : ¬(-2 ^ 36 ≤ af.toInt ∧ af.toInt < 2 ^ 36) := fun h => hb (hbits.2 h)
      exact ⟨0, by omega, by simp, by simp, by simpa, by simpa, by simp; omega⟩

/-- Halving a partial product, rounding down. -/
theorem toInt_half (af : BitVec 39) : (af.sshiftRight 1).toInt = af.toInt / 2 := by
  rw [BitVec.toInt_sshiftRight, Int.shiftRight_eq_div_pow]
  rfl

/-- The add-and-shift cycle of R218: `n` passes take in the `n` rightmost bits of the multiplier. -/
theorem multiplyLoop_spec (sf : BitVec 38) (n : Nat) : ∀ (af : BitVec 39) (bf : BitVec 36),
    -2 ^ 37 ≤ af.toInt → af.toInt < 2 ^ 37 →
    (multiplyLoop sf n af bf).1.toInt = (af.toInt + sf.toInt * (bf.toNat % 2 ^ n : Nat)) / 2 ^ n ∧
      (multiplyLoop sf n af bf).2 = bf >>> n := by
  have hs := toInt_sf_bounds sf
  induction n with
  | zero => intro af bf _ _; simp [multiplyLoop, Nat.mod_one]
  | succ n ih =>
    intro af bf hl hu
    have hbit : bf.getMsbD 35 = decide (bf.toNat % 2 = 1) := by
      simp [BitVec.getMsbD, BitVec.getLsbD, Nat.testBit_zero]
    have hsum : (if bf.getMsbD 35 then af + extendSF sf else af).toInt =
        af.toInt + sf.toInt * (bf.toNat % 2 : Nat) := by
      rw [hbit]
      rcases Nat.mod_two_eq_zero_or_one bf.toNat with h | h
      · simp [h]
      · have := toInt_step af sf false (by simp; omega)
        simpa [h] using this
    have hhalf : ((if bf.getMsbD 35 then af + extendSF sf else af).sshiftRight 1).toInt =
        (af.toInt + sf.toInt * (bf.toNat % 2 : Nat)) / 2 := by rw [toInt_half, hsum]
    have hmod : bf.toNat % 2 < 2 := Nat.mod_lt _ (by decide)
    have hrange : -2 ^ 38 ≤ af.toInt + sf.toInt * (bf.toNat % 2 : Nat) ∧
        af.toInt + sf.toInt * (bf.toNat % 2 : Nat) < 2 ^ 38 := by
      interval_cases bf.toNat % 2 <;> simp <;> omega
    have h := ih ((if bf.getMsbD 35 then af + extendSF sf else af).sshiftRight 1) (bf >>> 1)
      (by rw [hhalf]; omega) (by rw [hhalf]; omega)
    rw [multiplyLoop]
    refine ⟨?_, ?_⟩
    · rw [h.1, hhalf]
      have hb : bf.toNat % 2 ^ (n + 1) = bf.toNat % 2 + 2 * ((bf >>> 1).toNat % 2 ^ n) := by
        rw [BitVec.toNat_ushiftRight, Nat.shiftRight_eq_div_pow, pow_one, pow_succ, Nat.mul_comm (2 ^ n) 2,
          Nat.mod_mul]
      rw [hb, pow_succ, mul_comm ((2 : Int) ^ n) 2, ← Int.ediv_ediv_of_nonneg (by decide)]
      congr 1
      push_cast
      generalize ((bf.toNat : Nat) : Int) % 2 = b
      generalize ((((bf >>> 1).toNat : Nat) : Int) % 2 ^ n) = r
      rw [show af.toInt + sf.toInt * (b + 2 * r) = af.toInt + sf.toInt * b + sf.toInt * r * 2 by ring,
        Int.add_mul_ediv_right _ _ (by decide)]
    · rw [h.2, ← BitVec.shiftRight_add, Nat.add_comm]

/-- The product of the fractions, rounded down to AF (R218). -/
theorem multiplyFractions_toInt (bf : BitVec 36) (sf : BitVec 38) :
    (multiplyFractions bf sf).toInt = sf.toInt * bf.toInt / 2 ^ 35 := by
  have hs := toInt_sf_bounds sf
  have h := multiplyLoop_spec sf 35 0 bf (by simp) (by simp)
  have hlt := bf.isLt
  have hsign : (multiplyLoop sf 35 0 bf).2.getMsbD 35 = decide (2 ^ 35 ≤ bf.toNat) := by
    rw [h.2]
    simp [BitVec.getMsbD, BitVec.getLsbD, Nat.testBit_eq_decide_div_mod_eq]
    omega
  have e1 : (multiplyLoop sf 35 0 bf).1.toInt = sf.toInt * (bf.toNat % 2 ^ 35 : Nat) / 2 ^ 35 := by
    simpa using h.1
  unfold multiplyFractions
  dsimp only
  rw [hsign, BitVec.toInt_eq_toNat_cond bf]
  by_cases hb : 2 ^ 35 ≤ bf.toNat
  · have hm : bf.toNat % 2 ^ 35 = bf.toNat - 2 ^ 35 := by omega
    rw [hm, Nat.cast_sub hb] at e1
    have hq : -2 ^ 37 ≤ (multiplyLoop sf 35 0 bf).1.toInt ∧ (multiplyLoop sf 35 0 bf).1.toInt < 2 ^ 37 := by
      rw [e1]
      exact ⟨Int.le_ediv_of_mul_le (by decide) (by push_cast; nlinarith),
        Int.ediv_lt_of_lt_mul (by decide) (by push_cast; nlinarith)⟩
    have := toInt_step (multiplyLoop sf 35 0 bf).1 sf true (by simp only [if_true]; omega)
    simp only [if_true] at this
    rw [decide_eq_true hb, if_pos rfl, this, if_neg (by omega), e1]
    push_cast
    generalize (bf.toNat : Int) = b
    rw [show sf.toInt * (b - 68719476736) = sf.toInt * (b - 34359738368) + -sf.toInt * 34359738368 by ring,
      Int.add_mul_ediv_right _ _ (by decide)]
  · rw [decide_eq_false hb, if_neg Bool.false_ne_true, e1, if_pos (by omega), Nat.mod_eq_of_lt (by omega)]

end Sys2Proof.Machine
end

