-- ==== Sys2Proof/Tests/Slice0.lean ====
section
/-! SUPPORT. Tests: what WellFormed refuses, a word for every constructor, vectors of 95_test_vectors.md, and for every
statement with hypotheses a state that meets them. -/

namespace Sys2Proof.Tests

open Sys2Proof Sys2Proof.Machine

/-! ## WellFormed refuses -/

theorem test_displacement_above_refused : ¬(Instr.rl .w1 ⟨false, false, .none, 2048⟩).wf := by decide

theorem test_displacement_below_refused : ¬(Instr.rl .w1 ⟨false, false, .none, -2049⟩).wf := by decide

theorem test_small_store_refused : ¬({ Installation.basic with wordLimit := 16382 } : Installation).wf := by decide

theorem test_large_store_refused : ¬({ Installation.basic with wordLimit := 8388608 } : Installation).wf := by decide

theorem test_device_bits_refused : ¬({ Installation.basic with deviceAddressBits := 19 } : Installation).wf := by decide

theorem test_internal_line_refused : ¬(⟨2, .line 0⟩ : ExternalLine).wf := by decide

theorem test_line_24_refused : ¬({ Installation.basic with externalLines := [⟨24, .device 1⟩] } : Installation).wf := by
  decide

/-! ## Decoding: words written out from the fields of 30_encoding.md R91 and the codes of R99 -/

theorem test_decode_address :
  decode 0b001001_00_01_10_100000000000 = some (.am .w0 ⟨false, true, .x2, -2048⟩) ∧
  decode 0b001011_01_00_11_011111111111 = some (.al .w1 ⟨false, false, .x3, 2047⟩) ∧
  decode 0b100001_10_11_00_000001100100 = some (.ac .w2 ⟨true, true, .none, 100⟩) := by
  decide

theorem test_decode_register :
  decode 0b000011_11_10_01_111111111111 = some (.hl .w3 ⟨true, false, .x1, -1⟩) ∧
  decode 0b011010_00_01_10_000000000001 = some (.hs .w0 ⟨false, true, .x2, 1⟩) ∧
  decode 0b010100_01_00_11_111111111100 = some (.rl .w1 ⟨false, false, .x3, -4⟩) ∧
  decode 0b010111_10_11_00_000100101100 = some (.rs .w2 ⟨true, true, .none, 300⟩) ∧
  decode 0b011001_11_10_01_000000000010 = some (.rx .w3 ⟨true, false, .x1, 2⟩) ∧
  decode 0b110110_00_01_10_010101010101 = some (.dl .w0 ⟨false, true, .x2, 1365⟩) ∧
  decode 0b110111_01_00_11_101010101010 = some (.ds .w1 ⟨false, false, .x3, -1366⟩) := by
  decide

theorem test_decode_integer :
  decode 0b010011_10_11_00_100000000000 = some (.bz .w2 ⟨true, true, .none, -2048⟩) ∧
  decode 0b000010_11_10_01_011111111111 = some (.bl .w3 ⟨true, false, .x1, 2047⟩) ∧
  decode 0b010010_00_01_10_000001100100 = some (.ba .w0 ⟨false, true, .x2, 100⟩) ∧
  decode 0b010001_01_00_11_111111111111 = some (.bs .w1 ⟨false, false, .x3, -1⟩) ∧
  decode 0b000111_10_11_00_000000000001 = some (.wa .w2 ⟨true, true, .none, 1⟩) ∧
  decode 0b001000_11_10_01_111111111100 = some (.ws .w3 ⟨true, false, .x1, -4⟩) ∧
  decode 0b001010_00_01_10_000100101100 = some (.wm .w0 ⟨false, true, .x2, 300⟩) ∧
  decode 0b011000_01_00_11_000000000010 = some (.wd .w1 ⟨false, false, .x3, 2⟩) ∧
  decode 0b111000_10_11_00_010101010101 = some (.aa .w2 ⟨true, true, .none, 1365⟩) ∧
  decode 0b111001_11_10_01_101010101010 = some (.ss .w3 ⟨true, false, .x1, -1366⟩) := by
  decide

theorem test_decode_floating :
  decode 0b100000_00_01_10_100000000000 = some (.ci .w0 ⟨false, true, .x2, -2048⟩) ∧
  decode 0b110101_01_00_11_011111111111 = some (.cf .w1 ⟨false, false, .x3, 2047⟩) ∧
  decode 0b110000_10_11_00_000001100100 = some (.fa .w2 ⟨true, true, .none, 100⟩) ∧
  decode 0b110001_11_10_01_111111111111 = some (.fs .w3 ⟨true, false, .x1, -1⟩) ∧
  decode 0b110010_00_01_10_000000000001 = some (.fm .w0 ⟨false, true, .x2, 1⟩) ∧
  decode 0b110100_01_00_11_111111111100 = some (.fd .w1 ⟨false, false, .x3, -4⟩) := by
  decide

theorem test_decode_logical :
  decode 0b000100_10_11_00_000100101100 = some (.la .w2 ⟨true, true, .none, 300⟩) ∧
  decode 0b000101_11_10_01_000000000010 = some (.lo .w3 ⟨true, false, .x1, 2⟩) ∧
  decode 0b000110_00_01_10_010101010101 = some (.lx .w0 ⟨false, true, .x2, 1365⟩) ∧
  decode 0b100100_01_00_11_101010101010 = some (.as .w1 ⟨false, false, .x3, -1366⟩) ∧
  decode 0b100101_10_11_00_100000000000 = some (.ad .w2 ⟨true, true, .none, -2048⟩) ∧
  decode 0b100110_11_10_01_011111111111 = some (.ls .w3 ⟨true, false, .x1, 2047⟩) ∧
  decode 0b100111_00_01_10_000001100100 = some (.ld .w0 ⟨false, true, .x2, 100⟩) ∧
  decode 0b100010_01_00_11_111111111111 = some (.ns .w1 ⟨false, false, .x3, -1⟩) ∧
  decode 0b100011_10_11_00_000000000001 = some (.nd .w2 ⟨true, true, .none, 1⟩) := by
  decide

theorem test_decode_sequencing :
  decode 0b001101_11_10_01_111111111100 = some (.jl .w3 ⟨true, false, .x1, -4⟩) ∧
  decode 0b101000_00_01_10_000100101100 = some (.sh .w0 ⟨false, true, .x2, 300⟩) ∧
  decode 0b101001_01_00_11_000000000010 = some (.sl .w1 ⟨false, false, .x3, 2⟩) ∧
  decode 0b101010_10_11_00_010101010101 = some (.se .w2 ⟨true, true, .none, 1365⟩) ∧
  decode 0b101011_11_10_01_101010101010 = some (.sn .w3 ⟨true, false, .x1, -1366⟩) ∧
  decode 0b101100_00_01_10_100000000000 = some (.so .w0 ⟨false, true, .x2, -2048⟩) ∧
  decode 0b101101_01_00_11_011111111111 = some (.sz .w1 ⟨false, false, .x3, 2047⟩) ∧
  decode 0b101110_10_11_00_000001100100 = some (.sx .w2 ⟨true, true, .none, 100⟩) ∧
  decode 0b010101_11_10_01_111111111111 = some (.sp .w3 ⟨true, false, .x1, -1⟩) := by
  decide

theorem test_decode_monitor :
  decode 0b001111_00_01_10_000000000001 = some (.je .w0 ⟨false, true, .x2, 1⟩) ∧
  decode 0b001110_01_00_11_111111111100 = some (.jd .w1 ⟨false, false, .x3, -4⟩) ∧
  decode 0b101111_10_11_00_000100101100 = some (.ic .w2 ⟨true, true, .none, 300⟩) ∧
  decode 0b011111_11_10_01_000000000010 = some (.is .w3 ⟨true, false, .x1, 2⟩) ∧
  decode 0b001100_00_01_10_010101010101 = some (.ml .w0 ⟨false, true, .x2, 1365⟩) ∧
  decode 0b011110_01_00_11_101010101010 = some (.ms .w1 ⟨false, false, .x3, -1366⟩) ∧
  decode 0b010000_10_11_00_100000000000 = some (.xl .w2 ⟨true, true, .none, -2048⟩) ∧
  decode 0b011011_11_10_01_011111111111 = some (.xs .w3 ⟨true, false, .x1, 2047⟩) ∧
  decode 0b011100_00_01_10_000001100100 = some (.pl .w0 ⟨false, true, .x2, 100⟩) ∧
  decode 0b011101_01_00_11_111111111111 = some (.ps .w1 ⟨false, false, .x3, -1⟩) ∧
  decode 0b010110_10_11_00_000000000001 = some (.kl .w2 ⟨true, true, .none, 1⟩) ∧
  decode 0b110011_11_10_01_111111111100 = some (.ks .w3 ⟨true, false, .x1, -4⟩) := by
  decide

theorem test_decode_io :
  decode 0b000001_00_01_10_000100101100 = some (.io .w0 ⟨false, true, .x2, 300⟩) ∧
  decode 0b000000_01_00_11_000000000010 = some (.aw .w1 ⟨false, false, .x3, 2⟩) := by
  decide

/-- The host numbers a word as the opcode table does. -/
theorem test_decodeTableWord : decodeTableWord 24 0x510064 = some (.rl .w1 ⟨false, false, .none, 100⟩) := by
  decide

/-! ## Vectors -/

/-- The start state of the vectors: running at 1000. -/
def base : State := { State.reset with run := .running, ic := 1000 }

/-- Store words at byte addresses. -/
def stored (s : State) (l : List (Nat × Nat)) : State :=
  l.foldl (fun s p => s.wordWrite (BitVec.ofNat 24 p.1) (BitVec.ofNat 24 p.2)) s

/-- Set protection keys at byte addresses. -/
def keyed (s : State) (l : List (Nat × Nat)) : State :=
  l.foldl (fun s p => s.keyWrite (BitVec.ofNat 24 p.1) (BitVec.ofNat 3 p.2)) s

/-- A device with all buffer bits. -/
def dev (buffer : Nat) (c : Condition) : Device := ⟨.ordinary, 0xFFFFFF, BitVec.ofNat 24 buffer, c, false⟩

/-- One step answers a next state with the property. -/
def after (s : State) (p : State → Bool) : Bool :=
  match step s with
  | .next t => p t
  | _ => false

/-- A3, the AM: the modifier is carried to the next instruction. -/
theorem test_am_A3 : after (stored base [(1000, 0x24412C), (300, 0x000200)])
    (fun t => t.amPending == some 0x200 && t.ic == 1002) := by
  decide

/-- A3, the modified instruction. -/
theorem test_am_A3_next : after (stored ({ base with ic := 1002, amPending := some 0x200 } : State)
    [(1002, 0x500006), (518, 0xABCDEF)]) (fun t => t.wordRead 0 == 0xABCDEF && t.ic == 1004 && t.amPending == none) := by
  decide

/-- A4. -/
theorem test_al_A4 :
    after (stored base [(1000, 0x2D8000)])
    (fun t => t.wordRead 2 == 0x3E8) := by
  decide

/-- A7. -/
theorem test_al_A7 :
    after (stored base [(1000, 0x2D1FFF)])
    (fun t => t.wordRead 2 == 0xFFFFFF) := by
  decide

/-- A9. -/
theorem test_ac_A9 :
    after (stored ({ base with ex := 0b111 } : State) [(1000, 0x850000), (2, 5)])
    (fun t => t.wordRead 2 == 0 && t.ex == 0b101 && t.ir == 0) := by
  decide

/-- A10. -/
theorem test_ac_A10 :
    after (stored ({ base with ex := 0b100 } : State) [(1000, 0x852000), (4, 0x800000)])
    (fun t => t.wordRead 2 == 0x800000 && t.ex == 0b110 && t.ir == 0x400000) := by
  decide

/-- B1. -/
theorem test_hl_B1 :
    after (stored base [(1000, 0x0D012D), (2, 0xAAAAAA), (300, 0x123456)])
    (fun t => t.wordRead 2 == 0xAAA456 && t.ic == 1002) := by
  decide

/-- B2. -/
theorem test_hl_B2 :
    after (stored base [(1000, 0x0D012C), (2, 0xAAAAAA), (300, 0x123456)])
    (fun t => t.wordRead 2 == 0xAAA123 && t.ic == 1002) := by
  decide

/-- B3. -/
theorem test_hs_B3 :
    after (stored base [(1000, 0x69012C), (2, 0xABCDEF), (300, 0x123456)])
    (fun t => t.wordRead 300 == 0xDEF456 && t.ic == 1002) := by
  decide

/-- B4. -/
theorem test_hs_B4 :
    after (stored base [(1000, 0x69012D), (2, 0xABCDEF), (300, 0x123456)])
    (fun t => t.wordRead 300 == 0x123DEF && t.ic == 1002) := by
  decide

/-- B5. -/
theorem test_rl_B5 :
    after (stored base [(1000, 0x52012D), (300, 0x123456)])
    (fun t => t.wordRead 4 == 0x123456 && t.ic == 1002) := by
  decide

/-- B6. -/
theorem test_rs_B6 :
    after (stored base [(1000, 0x5E0004), (4, 0x777777)])
    (fun t => t.wordRead 4 == 0x777777 && t.wordRead 4 == 0x777777 && t.ic == 1002) := by
  decide

/-- B7. -/
theorem test_rs_B7 :
    after (stored base [(1000, 0x5D0006), (2, 0x111111), (6, 0x333333)])
    (fun t => t.wordRead 2 == 0x111111 && t.wordRead 6 == 0x111111 && t.ic == 1002) := by
  decide

/-- B8. -/
theorem test_rx_B8 :
    after (stored base [(1000, 0x65012C), (2, 0x111111), (300, 0x222222)])
    (fun t => t.wordRead 2 == 0x222222 && t.wordRead 300 == 0x111111 && t.ic == 1002) := by
  decide

/-- B10. -/
theorem test_rx_B10 :
    after (keyed (stored ({ base with pr := 0xA0, monitorMode := false } : State) [(1000, 0x65012C), (2, 0x111111),
      (300, 0x222222), (12, 0x0000C8)]) [(300, 2), (1000, 1)])
    (fun t => t.wordRead 2 == 0x222222 && t.wordRead 300 == 0x222222 && t.wordRead 8 == 0 &&
      t.wordRead 10 == 0x3EA && t.ic == 200 && t.monitorMode) := by
  decide

/-- B13. -/
theorem test_dl_B13 :
    after (stored base [(1000, 0xD8012E), (300, 0xAAAAAA), (302, 0xBBBBBB)])
    (fun t => t.wordRead 6 == 0xAAAAAA && t.wordRead 0 == 0xBBBBBB && t.ic == 1002) := by
  decide

/-- B17. -/
theorem test_dl_B17 :
    after (stored base [(1000, 0xD90004), (0, 0x101010), (2, 0x111111), (4, 0x222222)])
    (fun t => t.wordRead 0 == 0x222222 && t.wordRead 2 == 0x222222 && t.ic == 1002) := by
  decide

/-- B20. -/
theorem test_ds_B20 :
    after (stored base [(1000, 0xDD0004), (0, 0x101010), (2, 0x111111), (4, 0x222222)])
    (fun t => t.wordRead 0 == 0x101010 && t.wordRead 2 == 0x101010 && t.wordRead 4 == 0x111111 && t.ic == 1002) := by
  decide

/-- B22. -/
theorem test_ds_B22 :
    after (keyed (stored ({ base with pr := 0xA0, monitorMode := false } : State) [(1000, 0xDD012E), (0, 0xAAAAAA),
      (2, 0xBBBBBB), (12, 0x0000C8)]) [(300, 2), (302, 1), (1000, 1)])
    (fun t => t.wordRead 300 == 0 && t.wordRead 302 == 0xBBBBBB && t.wordRead 8 == 0 && t.wordRead 10 == 0x3EA &&
      t.ic == 200) := by
  decide

/-- C1. -/
theorem test_bz_C1 :
    after (stored base [(1000, 0x4D012D), (2, 0xFFFFFF), (300, 0x123800)])
    (fun t => t.wordRead 2 == 0x800 && t.ic == 1002) := by
  decide

/-- C2. -/
theorem test_bl_C2 :
    after (stored base [(1000, 0x09012D), (300, 0x123800)])
    (fun t => t.wordRead 2 == 0xFFF800 && t.ic == 1002) := by
  decide

/-- C3. -/
theorem test_bl_C3 :
    after (stored base [(1000, 0x09012C), (300, 0x7FF800)])
    (fun t => t.wordRead 2 == 0x7FF && t.ic == 1002) := by
  decide

/-- C4. -/
theorem test_bs_C4 :
    after (stored ({ base with ex := 0b110 } : State) [(1000, 0x49012D), (2, 5), (300, 0x000FFF)])
    (fun t => t.wordRead 2 == 4 && t.ex == 0b101 && t.ir == 0 && t.ic == 1002) := by
  decide

/-- C5. -/
theorem test_ba_C5 :
    after (stored base [(1000, 0x45012D), (2, 5), (300, 0x000FFF)])
    (fun t => t.wordRead 2 == 6 && t.ex == 0b000 && t.ir == 0 && t.ic == 1002) := by
  decide

/-- C6. -/
theorem test_ba_C6 :
    after (stored base [(1000, 0x45012D), (2, 0x7FFFFF), (300, 0x000FFF)])
    (fun t => t.wordRead 2 == 0x800000 && t.ex == 0b010 && t.ir == 0x400000 && t.ic == 1002) := by
  decide

/-- C8. -/
theorem test_wa_C8 :
    after (stored base [(1000, 0x1D012C), (2, 0xFFFFFF), (300, 1)])
    (fun t => t.wordRead 2 == 0 && t.ex == 0b001 && t.ir == 0 && t.ic == 1002) := by
  decide

/-- C10. -/
theorem test_wa_C10 :
    after (stored base [(1000, 0x1D0002), (2, 0x400000)])
    (fun t => t.wordRead 2 == 0x800000 && t.ex == 0b010 && t.ir == 0x400000 && t.ic == 1002) := by
  decide

/-- C12. -/
theorem test_ws_C12 :
    after (stored base [(1000, 0x21012C), (2, 7), (300, 5)])
    (fun t => t.wordRead 2 == 2 && t.ex == 0b001 && t.ir == 0 && t.ic == 1002) := by
  decide

/-- C15. -/
theorem test_ws_C15 :
    after (stored base [(1000, 0x21012C), (300, 0x800000)])
    (fun t => t.wordRead 2 == 0x800000 && t.ex == 0b010 && t.ir == 0x400000 && t.ic == 1002) := by
  decide

/-- C16. -/
theorem test_wm_C16 :
    after (stored ({ base with ex := 0b011 } : State) [(1000, 0x29012C), (0, 0x555555), (2, 0xFFFFFD), (300, 7)])
    (fun t => t.wordRead 0 == 0xFFFFFF && t.wordRead 2 == 0xFFFFEB && t.ex == 0b011 && t.ir == 0 &&
      t.ic == 1002) := by
  decide

/-- C17. -/
theorem test_wm_C17 :
    after (stored base [(1000, 0x29012C), (2, 0x800000), (300, 0x800000)])
    (fun t => t.wordRead 0 == 0x400000 && t.wordRead 2 == 0 && t.ex == 0b000 && t.ic == 1002) := by
  decide

/-- C22. -/
theorem test_wd_C22 :
    after (stored base [(1000, 0x61012C), (0, 0xFFFFFF), (2, 0xFFFFF9), (300, 2)])
    (fun t => t.wordRead 0 == 0xFFFFFF && t.wordRead 2 == 0xFFFFFD && t.ex == 0b000 && t.ir == 0 &&
      t.ic == 1002) := by
  decide

/-- C26. -/
theorem test_wd_C26 :
    after (stored base [(1000, 0x61012C), (2, 0x800000), (300, 1)])
    (fun t => t.wordRead 0 == 0 && t.wordRead 2 == 0x800000 && t.ex == 0b010 && t.ir == 0x400000 &&
      t.ic == 1002) := by
  decide

/-- C30. -/
theorem test_aa_C30 :
    after (stored base [(1000, 0xE1012E), (0, 1), (2, 0xFFFFFF), (300, 2), (302, 1)])
    (fun t => t.wordRead 0 == 4 && t.wordRead 2 == 0 && t.ex == 0b000 && t.ir == 0 && t.ic == 1002) := by
  decide

/-- C31. -/
theorem test_aa_C31 :
    after (stored base [(1000, 0xE1012E), (0, 0x7FFFFF), (2, 0xFFFFFF), (302, 1)])
    (fun t => t.wordRead 0 == 0x800000 && t.wordRead 2 == 0 && t.ex == 0b010 && t.ir == 0x400000 &&
      t.ic == 1002) := by
  decide

/-- C34. -/
theorem test_ss_C34 :
    after (stored base [(1000, 0xE5012E), (0, 5), (300, 2), (302, 1)])
    (fun t => t.wordRead 0 == 2 && t.wordRead 2 == 0xFFFFFF && t.ex == 0b001 && t.ir == 0 && t.ic == 1002) := by
  decide

/-- C35. -/
theorem test_ss_C35 :
    after (stored base [(1000, 0xE5012E), (0, 0x800000), (302, 1)])
    (fun t => t.wordRead 0 == 0x7FFFFF && t.wordRead 2 == 0xFFFFFF && t.ex == 0b011 && t.ir == 0x400000 &&
      t.ic == 1002) := by
  decide

/-- D9. -/
theorem test_ci_D9 :
    after (stored base [(1000, 0x8107FF), (2, 1)])
    (fun t => t.wordRead 0 == 0x400000 && t.wordRead 2 == 0x800 && t.ex == 0b010 && t.ir == 0x200000 &&
      t.ic == 1002) := by
  decide

/-- D13. -/
theorem test_ci_D13 :
    after (stored base [(1000, 0x812801), (2, 0xFFFFFF), (4, 0xFFFFFE)])
    (fun t => t.wordRead 0 == 0x800000 && t.wordRead 2 == 0x7FF && t.ex == 0b010 && t.ir == 0x200000 &&
      t.ic == 1002) := by
  decide

/-- D25. -/
theorem test_cf_D25 :
    after (stored base [(1000, 0xD50000), (0, 0xA00000), (2, 1)])
    (fun t => t.wordRead 2 == 0xFFFFFF && t.ex == 0b000 && t.ir == 0 && t.ic == 1002) := by
  decide

/-- D29. -/
theorem test_cf_D29 :
    after (stored base [(1000, 0xD50000), (0, 0xBFFFFF), (2, 0xC00018)])
    (fun t => t.wordRead 2 == 0xC00018 && t.ex == 0b010 && t.ir == 0x400000 && t.ic == 1002) := by
  decide

/-- D52. -/
theorem test_fa_D52 :
    after (stored base [(1000, 0xC1012E), (0, 0x400000), (2, 0x001001), (300, 0x400000), (302, 0x001FDD)])
    (fun t => t.wordRead 0 == 0x400000 && t.wordRead 2 == 0x1001 && t.ex == 0b000 && t.ir == 0 && t.ic == 1002) := by
  decide

/-- D83. -/
theorem test_fa_D83 :
    after (stored ({ base with ex := 0b100 } : State) [(1000, 0xC1012E), (0, 0x400000), (2, 0x001001),
      (300, 0x400000), (302, 0x001FDD)])
    (fun t => t.wordRead 0 == 0x400000 && t.wordRead 2 == 1 && t.ex == 0b100 && t.ir == 0 && t.ic == 1002) := by
  decide

/-- D43. -/
theorem test_fs_D43 :
    after (stored base [(1000, 0xC5012E), (2, 0x000800), (300, 0xC00000), (302, 1)])
    (fun t => t.wordRead 0 == 0x400000 && t.wordRead 2 == 1 && t.ex == 0b000 && t.ir == 0 && t.ic == 1002) := by
  decide

/-- D49. -/
theorem test_fs_D49 :
    after (stored base [(1000, 0xC5012E), (0, 0x400000), (2, 0x000800), (300, 0x7FFFFF), (302, 0xFFF800)])
    (fun t => t.wordRead 0 == 0x800000 && t.wordRead 2 == 0x27FF && t.ex == 0b010 && t.ir == 0x200000 &&
      t.ic == 1002) := by
  decide

/-- D62. -/
theorem test_fm_D62 :
    after (stored base [(1000, 0xC9012E), (0, 0x800000), (300, 0x800000)])
    (fun t => t.wordRead 0 == 0x400000 && t.wordRead 2 == 1 && t.ex == 0b000 && t.ir == 0 && t.ic == 1002) := by
  decide +kernel

/-- D84. -/
theorem test_fm_D84 :
    after (stored ({ base with ex := 0b100 } : State) [(1000, 0xC9012E), (0, 0x555555), (2, 0x555FFF),
      (300, 0x600000), (302, 2)])
    (fun t => t.wordRead 0 == 0x400000 && t.wordRead 2 == 1 && t.ex == 0b100 && t.ir == 0 && t.ic == 1002) := by
  decide +kernel

/-- D78. -/
theorem test_fd_D78 :
    after (stored base [(1000, 0xD1012E), (0, 0x400000), (2, 1), (300, 0x800000)])
    (fun t => t.wordRead 0 == 0x800000 && t.wordRead 2 == 0 && t.ex == 0b000 && t.ir == 0 && t.ic == 1002) := by
  decide

/-- D81. -/
theorem test_fd_D81 :
    after (stored base [(1000, 0xD1012E), (0, 0x400000), (2, 0x000800), (300, 0x7FFFFF), (302, 0xFFF7FF)])
    (fun t => t.wordRead 0 == 0x400000 && t.wordRead 2 == 0x1001 && t.ex == 0b010 && t.ir == 0x200000 &&
      t.ic == 1002) := by
  decide

/-- E1. -/
theorem test_la_E1 :
    after (stored ({ base with ex := 0b101 } : State) [(1000, 0x11012C), (2, 0xF0F0F0), (300, 0xFF00FF)])
    (fun t => t.wordRead 2 == 0xF000F0 && t.ex == 0b101 && t.ic == 1002) := by
  decide

/-- E2. -/
theorem test_lo_E2 :
    after (stored base [(1000, 0x15012C), (2, 0xF0F0F0), (300, 0xFF00FF)])
    (fun t => t.wordRead 2 == 0xFFF0FF && t.ic == 1002) := by
  decide

/-- E3. -/
theorem test_lx_E3 :
    after (stored base [(1000, 0x19012C), (2, 0xF0F0F0), (300, 0xFF00FF)])
    (fun t => t.wordRead 2 == 0xFF00F && t.ic == 1002) := by
  decide

/-- E5. -/
theorem test_as_E5 :
    after (stored ({ base with ex := 0b011 } : State) [(1000, 0x910FFF), (2, 0x800001)])
    (fun t => t.wordRead 2 == 0xC00000 && t.ex == 0b000 && t.ir == 0 && t.ic == 1002) := by
  decide

/-- E10. -/
theorem test_as_E10 :
    after (stored base [(1000, 0x910002), (2, 0xA00000)])
    (fun t => t.wordRead 2 == 0x800000 && t.ex == 0b010 && t.ir == 0x400000 && t.ic == 1002) := by
  decide

/-- E12. -/
theorem test_ad_E12 :
    after (stored base [(1000, 0x950004), (0, 1), (2, 0x800000)])
    (fun t => t.wordRead 0 == 0x18 && t.wordRead 2 == 0 && t.ex == 0b000 && t.ir == 0 && t.ic == 1002) := by
  decide

/-- E13. -/
theorem test_ad_E13 :
    after (stored base [(1000, 0x950FFC), (0, 0x800000), (2, 0x00000F)])
    (fun t => t.wordRead 0 == 0xF80000 && t.wordRead 2 == 0 && t.ex == 0b000 && t.ir == 0 && t.ic == 1002) := by
  decide

/-- E16. -/
theorem test_ls_E16 :
    after (stored ({ base with ex := 0b011 } : State) [(1000, 0x990004), (2, 0xF00F0F)])
    (fun t => t.wordRead 2 == 0xF0F0 && t.ex == 0b011 && t.ic == 1002) := by
  decide

/-- E17. -/
theorem test_ls_E17 :
    after (stored base [(1000, 0x990FFC), (2, 0xF00F0F)])
    (fun t => t.wordRead 2 == 0xF00F0 && t.ic == 1002) := by
  decide

/-- E20. -/
theorem test_ld_E20 :
    after (stored base [(1000, 0x9D000C), (0, 0x123456), (2, 0x789ABC)])
    (fun t => t.wordRead 0 == 0x456789 && t.wordRead 2 == 0xABC000 && t.ic == 1002) := by
  decide

/-- E22. -/
theorem test_ld_E22 :
    after (stored base [(1000, 0x9C0008), (6, 0x123456), (0, 0x789ABC)])
    (fun t => t.wordRead 6 == 0x345678 && t.wordRead 0 == 0x9ABC00 && t.ic == 1002) := by
  decide

/-- E26. -/
theorem test_ns_E26 :
    after (stored base [(1000, 0x89012D), (2, 0xFFFFFF)])
    (fun t => t.wordRead 2 == 0x800000 && t.wordRead 300 == 0xFE9 && t.ic == 1002) := by
  decide

/-- E33. -/
theorem test_ns_E33 :
    after (stored base [(1000, 0x890003), (2, 1)])
    (fun t => t.wordRead 2 == 0x400FEA && t.ic == 1002) := by
  decide

/-- E30. -/
theorem test_nd_E30 :
    after (stored base [(1000, 0x8D012D), (2, 1)])
    (fun t => t.wordRead 0 == 0x400000 && t.wordRead 2 == 0 && t.wordRead 300 == 0xFD2 && t.ic == 1002) := by
  decide

/-- E31. -/
theorem test_nd_E31 :
    after (stored base [(1000, 0x8D012D)])
    (fun t => t.wordRead 0 == 0 && t.wordRead 2 == 0 && t.wordRead 300 == 0x800 && t.ic == 1002) := by
  decide

/-- F1. -/
theorem test_jl_F1 :
    after (stored base [(1000, 0x3707D0)])
    (fun t => t.wordRead 6 == 0x3EA && t.ic == 2000) := by
  decide

/-- F3. -/
theorem test_jl_F3 :
    after (stored base [(1000, 0x351000), (2, 0x0001F4)])
    (fun t => t.wordRead 2 == 0x3EA && t.ic == 500) := by
  decide

/-- F9. -/
theorem test_sh_F9 :
    after (stored base [(1000, 0xA10FFF)])
    (fun t => t.ic == 1004) := by
  decide

/-- F11. -/
theorem test_sh_F11 :
    after (stored base [(1000, 0xA10000), (2, 0x800000)])
    (fun t => t.ic == 1002) := by
  decide

/-- F12. -/
theorem test_sl_F12 :
    after (stored base [(1000, 0xA50000), (2, 0x800000)])
    (fun t => t.ic == 1004) := by
  decide

/-- F13. -/
theorem test_sl_F13 :
    after (stored base [(1000, 0xA52000), (2, 0x7FFFFF), (4, 0x800000)])
    (fun t => t.ic == 1002) := by
  decide

/-- F14. -/
theorem test_se_F14 :
    after (stored base [(1000, 0xA90FFF), (2, 0xFFFFFF)])
    (fun t => t.ic == 1004) := by
  decide

/-- F15. -/
theorem test_se_F15 :
    after (stored base [(1000, 0xA90FFF), (2, 0x000FFF)])
    (fun t => t.ic == 1002) := by
  decide

/-- F16. -/
theorem test_sn_F16 :
    after (stored base [(1000, 0xAD0003), (2, 3)])
    (fun t => t.ic == 1002) := by
  decide

/-- F17. -/
theorem test_sn_F17 :
    after (stored base [(1000, 0xAD0003), (2, 4)])
    (fun t => t.ic == 1004) := by
  decide

/-- F18. -/
theorem test_so_F18 :
    after (stored base [(1000, 0xB10005), (2, 7)])
    (fun t => t.ic == 1004) := by
  decide

/-- F19. -/
theorem test_so_F19 :
    after (stored base [(1000, 0xB10005), (2, 4)])
    (fun t => t.ic == 1002) := by
  decide

/-- F21. -/
theorem test_sz_F21 :
    after (stored base [(1000, 0xB50005), (2, 0x00000A)])
    (fun t => t.ic == 1004) := by
  decide

/-- F22. -/
theorem test_sz_F22 :
    after (stored base [(1000, 0xB50005), (2, 4)])
    (fun t => t.ic == 1002) := by
  decide

/-- F23. -/
theorem test_sx_F23 :
    after (stored ({ base with ex := 0b100 } : State) [(1000, 0xB80003)])
    (fun t => t.ic == 1004 && t.ex == 0b100) := by
  decide

/-- F24. -/
theorem test_sx_F24 :
    after (stored ({ base with ex := 0b010 } : State) [(1000, 0xB80003)])
    (fun t => t.ic == 1002 && t.ex == 0b010) := by
  decide

/-- F28. -/
theorem test_sp_F28 :
    after (keyed (stored ({ base with pr := 0x90 } : State) [(1000, 0x54012C)]) [(300, 2)])
    (fun t => t.ic == 1004) := by
  decide

/-- F29. -/
theorem test_sp_F29 :
    after (stored ({ base with pr := 0x90 } : State) [(1000, 0x54012C)])
    (fun t => t.ic == 1002) := by
  decide

/-- G1. -/
theorem test_xl_G1 :
    after (stored base [(1000, 0x40012D), (300, 0x000FFD)])
    (fun t => t.ex == 0b101 && t.ic == 1002) := by
  decide

/-- G2. -/
theorem test_xs_G2 :
    after (stored ({ base with ex := 0b110 } : State) [(1000, 0x6C012D), (300, 0xABCDEF)])
    (fun t => t.wordRead 300 == 0xABC006 && t.ex == 0b110 && t.ic == 1002) := by
  decide

/-- G4. -/
theorem test_pl_G4 :
    after (stored base [(1000, 0x70012D), (300, 0x123456)])
    (fun t => t.pr == 0xD6 && t.ic == 1002) := by
  decide

/-- G5. -/
theorem test_pl_G5 :
    after (stored base [(1000, 0x70012C), (300, 0xF00000)])
    (fun t => t.pr == 0x80 && t.ic == 1002) := by
  decide

/-- G6. -/
theorem test_ps_G6 :
    after (stored ({ base with pr := 0xA5 } : State) [(1000, 0x74012C), (300, 0xFFFFFF)])
    (fun t => t.wordRead 300 == 0xA5FFF && t.ic == 1002) := by
  decide

/-- G7. -/
theorem test_kl_G7 :
    after (keyed (stored base [(1000, 0x59012C), (2, 0xFFFFFF)]) [(300, 5)])
    (fun t => t.wordRead 2 == 5 && t.ic == 1002) := by
  decide

/-- G8. -/
theorem test_ks_G8 :
    after (keyed (stored base [(1000, 0xCD012D), (2, 0xFFFFFE)]) [(300, 1)])
    (fun t => t.keyRead 300 == 6 && t.wordRead 2 == 0xFFFFFE && t.wordRead 300 == 0 && t.ic == 1002) := by
  decide

/-- G10. -/
theorem test_is_G10 :
    after (stored ({ base with ir := 0x500001 } : State) [(1000, 0x7C012C)])
    (fun t => t.wordRead 300 == 0x500001 && t.ir == 0x500001 && t.ic == 1002) := by
  decide

/-- G11. -/
theorem test_ms_G11 :
    after (stored ({ base with im := 0xC00001 } : State) [(1000, 0x78012C)])
    (fun t => t.wordRead 300 == 0xC00001 && t.ic == 1002) := by
  decide

/-- G12. -/
theorem test_ml_G12 :
    after (stored base [(1000, 0x30012C), (300, 0x400001)])
    (fun t => t.im == 0xC00001 && t.ic == 1002) := by
  decide

/-- G14. -/
theorem test_ic_G14 :
    after (stored ({ base with ir := 0x7FFFFF } : State) [(1000, 0xBC0005)])
    (fun t => t.ir == 0x7FFFFA && t.ic == 1002) := by
  decide

/-- G18. -/
theorem test_jd_G18 :
    after (stored ({ base with interruptDisabled := false } : State) [(1000, 0x3807D0)])
    (fun t => t.ic == 2000 && t.interruptDisabled) := by
  decide

/-- G17. -/
theorem test_je_G17 :
    after (stored base [(1000, 0x3E07D0)])
    (fun t => t.wordRead 4 == 0x3EA && t.ic == 2000 && !t.interruptDisabled && t.monitorMode) := by
  decide

/-- G20. -/
theorem test_je_G20 :
    after (keyed (stored ({ base with monitorMode := false, ex := 0b011 } : State) [(1000, 0x3D012C), (2, 7),
      (12, 0x0000C8), (300, 0x111111)]) [(1000, 1), (300, 1)])
    (fun t => t.ic == 200 && t.wordRead 8 == 0 && t.wordRead 10 == 0x3EA && t.monitorMode && t.interruptDisabled &&
      t.ex == 0b011 && t.pr == 0x80 && t.im == 0x800000 && t.keyRead 300 == 1 && t.wordRead 300 == 0x111111) := by
  decide

/-- I1. -/
theorem test_io_I1 :
    after (stored ({ base with ex := 0b111, devices := [(5, dev 0x2A .available)] } : State) [(1000, 0x050140),
      (2, 0x777777)])
    (fun t => t.wordRead 2 == 0x2A && t.ex == 0b100 && t.commands == [⟨5, 0, none⟩] &&
      (t.devices.lookup 5).map (·.buffer) == some 0x2A && t.ic == 1002) := by
  decide

/-- I4. -/
theorem test_io_I4 :
    after (stored ({ base with devices := [(5, dev 0x2A .available)] } : State) [(1000, 0x050143), (2, 0x000041)])
    (fun t => t.wordRead 2 == 0x41 && t.ex == 0b000 && t.commands == [⟨5, 3, some 65⟩] &&
      (t.devices.lookup 5).map (·.buffer) == some 0x41 && t.ic == 1002) := by
  decide

/-- I10. -/
theorem test_aw_I10 :
    after (keyed (stored ({ base with ex := 0b111, devices := [(0, dev 0 .available)], schedule := [] :: [[], [],
      [.complete 0 (some 0xd)], [], [], [], [.complete 0 (some 0x0)], [], [], [], [.complete 0 (some 0x0)], [], [],
      [], [.complete 0 (some 0x10)], []] } : State) [(1000, 0x030010), (16, 0x777777)]) [(16, 5)])
    (fun t => t.wordRead 16 == 0x340010 && t.keyRead 16 == 0 && t.ex == 0b100 && t.ic == 1002 &&
      t.wordRead 6 == 0) := by
  decide

/-- I12. -/
theorem test_aw_I12 :
    after (stored ({ base with devices := [(0, dev 0 .available)], schedule := [] :: [[], [],
      [.complete 0 (some 0x1)], [], [], [], [.complete 0 (some 0x400000)], []] } : State) [(1000, 0x00012C),
      (300, 0x555555), (10, 0x111111)])
    (fun t => t.wordRead 300 == 0x555555 && t.wordRead 10 == 0x3EA && t.run == .resetState && t.ic == 1002 &&
      t.monitorMode && t.interruptDisabled) := by
  decide

/-- H1. -/
theorem test_unassigned_H1 :
    after (stored base [(1000, 0xE80000), (2, 1), (12, 0x0000C8)])
    (fun t => t.ic == 200 && t.wordRead 8 == 0 && t.wordRead 10 == 0x3EA && t.monitorMode && t.interruptDisabled &&
      t.wordRead 2 == 1) := by
  decide

/-- H6. -/
theorem test_interrupt_H6 :
    after (stored ({ base with interruptDisabled := false, ir := 0x140000, im := 0x940000 } : State) [(200, 0x3400C8),
      (1000, 0x2D0001), (12, 0x0000C8)])
    (fun t => t.ic == 200 && t.wordRead 8 == 6 && t.wordRead 10 == 0x3E8 && t.ir == 0x40000 && t.wordRead 2 == 0 &&
      t.interruptDisabled && t.monitorMode) := by
  decide

/-- H8. -/
theorem test_interrupt_masked_H8 :
    after (stored ({ base with interruptDisabled := false, ir := 0x140000 } : State) [(1000, 0x2D0001),
      (12, 0x0000C8)])
    (fun t => t.ic == 1002 && t.wordRead 8 == 0 && t.wordRead 10 == 0 && t.ir == 0x140000 && t.wordRead 2 == 1 &&
      !t.interruptDisabled) := by
  decide

/-- H12. -/
theorem test_reset_key_H12 :
    after (stored ({ base with resetKey := true } : State) [(1000, 0x2D0001), (10, 0x555555)])
    (fun t => t.ic == 1000 && t.wordRead 10 == 0x3E8 && t.wordRead 2 == 0 && t.run == .resetState && t.monitorMode &&
      t.interruptDisabled) := by
  decide

/-! ## The high-speed channel: hand calculations from 20_memory.md R74, R77 and 92_eei_decisions.md D18 -/

/-- A disk, device 5, that writes the word at 16 in the cycle before access 3, 4, ... of the step (`before` lists are
empty: the fetch, the operand). -/
def disked (before : Nat) (word : Nat) : State :=
  { stored base [(1000, word), (16, 1), (18, 2)] with
    devices := [(5, ⟨.highSpeed, 0xFFFFFF, 0, .busy, true⟩)], steals := List.replicate before [] ++ [[⟨5, 8, 7⟩]] }

/-- RL W1 16 reads what the channel writes after the fetch. -/
theorem test_channel_before_operand : after (disked 1 0x510010) (fun t => t.regs.w1 == 7) := by decide

/-- RX W1 16: the channel's word is lost between the read and the write. -/
theorem test_channel_lost_by_exchange :
    after (disked 2 0x650010) (fun t => t.regs.w1 == 1 && t.wordRead 16 == 0) := by decide

/-- DL W1 18: the first word is read after the channel has written it. -/
theorem test_channel_between_two_words :
    after (disked 2 0xD90012) (fun t => t.regs.w1 == 2 && t.regs.w0 == 7) := by decide

/-- A device that is available writes nothing. -/
theorem test_channel_until_available :
    after { disked 1 0x510010 with devices := [(5, ⟨.highSpeed, 0xFFFFFF, 0, .available, true⟩)] }
      (fun t => t.regs.w1 == 1) := by decide

/-- A device that was disconnected during its block transfer writes on; it ends when the device is available again. -/
theorem test_channel_after_disconnection :
    let s := (disked 1 0x510010).event (.disconnect 5)
    after s (fun t => t.regs.w1 == 7) ∧ after (s.event (.connect 5)) (fun t => t.regs.w1 == 1) := by decide

/-- IO W1 321: the control command to device 5 starts a block transfer (47_input_output.md R340). -/
theorem test_control_starts_transfer :
    after { stored base [(1000, 0x050141)] with devices := [(5, ⟨.highSpeed, 0xFFFFFF, 0, .available, false⟩)] }
      (fun t => t.transferring 5) := by decide

/-- While the power is off the store stays (70_reset_and_hazards.md R408). -/
theorem test_channel_power_off :
    ({ disked 0 0 with run := .powerOff }.event (.transfer ⟨5, 8, 7⟩)).wordRead 16 = 1 := by decide

/-- Power on gives the device present a buffer and a condition, and makes no device at a number that has none
(00_scope.md R7, 10_state.md R45). -/
theorem test_power_on_keeps_population :
    let v : PowerOnValues := ⟨⟨1, 2, 3, 4⟩, 0, 0, 0, 0, 0, [(5, ⟨9, .disconnected⟩), (6, ⟨9, .available⟩)]⟩
    let t := ({ disked 0 0 with run := .powerOff }).event (.powerOn v)
    t.device? 5 = some ⟨.highSpeed, 0xFFFFFF, 9, .disconnected, true⟩ ∧ t.device? 6 = none := by decide

/-! ## Witnesses: the hypotheses of the statements are met. A hypothesis that a pair belongs to a list written out in the
statement is met by every pair of that list, and `u = s.entered a` by that state. -/

def direct (n : Int) : AddressPart := ⟨false, false, .none, n⟩

def via (x : Index) : AddressPart := ⟨false, false, x, 0⟩

/-- Monitor mode; W1 is the address of the first nonexistent word, W2 of the last existing byte, W3 is -2**23. -/
def monitor : State := { base with regs := ⟨5, 0x008000, 0x007FFF, 0x800000⟩ }

/-- Task mode; of the words that are not instructions only those at 16 and 18 are unprotected. -/
def task : State := { monitor with monitorMode := false, keys := [(8, 1), (9, 1), (500, 1), (501, 1)] }

/-- Task mode in a protected word. -/
def locked : State := { monitor with monitorMode := false }

/-- IC after the last word. -/
def beyond : State := { monitor with ic := 0x008000 }

/-- IC at the last word. -/
def lastWord : State := { monitor with ic := 0x007FFE }

/-- Interrupts enabled, with all requests pending but that of bit 0, and `mask` beside IM(0). -/
def enabled (mask : Word) : State :=
  { monitor with interruptDisabled := false, ir := 0x7FFFFF, im := 0x800000 ||| mask }

/-- An instruction exception pending. -/
def pending : State := { monitor with ir := 0xFFFFFF }

/-- W0 and W1 as the dividend, the word at 16 as the divisor. -/
def dividing (w0 w1 d : Word) (minOverflows : Bool) : State :=
  State.wordWrite { base with
    regs := ⟨w0, w1, 0, 0⟩, inst := { Installation.basic with wdMinQuotientOverflows := minOverflows } } 16 d

/-- W0 and W1 as a floating-point number, 0.5 at 18, zero at 22. -/
def floating (w0 w1 : Word) : State :=
  stored { base with regs := ⟨w0, w1, 0, 0⟩ } [(16, 0x400000), (18, 0), (22, 0x000800)]

/-- The device with the greatest number. -/
def connected (c : Condition) : State := { monitor with devices := [(262143, dev 0x2A c)] }

/-- Line 1 wired to the interrupt bits 3 and 23, and to bit 2, which is no external one; an interval timer and an
external interrupt register. -/
def wired : State :=
  { monitor with
    inst := { Installation.basic with externalLines := [⟨3, .line 1⟩, ⟨23, .line 1⟩, ⟨2, .line 1⟩] }
    devices := [(1, ⟨.intervalTimer, 0, 2, .available, false⟩), (2, ⟨.interruptRegister, 0xFFFFFF, 3, .available, false⟩)] }

/-- Device 0 and the script of four characters. -/
def loader : State :=
  { monitor with
    devices := [(0, dev 0 .available)]
    schedule := [[.complete 0 (some 1)], [], [.complete 0 (some 2)], [], [.complete 0 (some 3)], [],
      [.complete 0 (some 63)]] }

/-- A device on the high-speed channel. -/
def disk (c : Condition) (t : Bool) : Device := ⟨.highSpeed, 0xFFFFFF, 0, c, t⟩

/-- A block transfer in progress that writes the word at 16 before the second access of the next operation. -/
def stealing : State :=
  { stored monitor [(16, 1), (18, 2)] with devices := [(5, disk .busy true)], steals := [[], [⟨5, 8, 7⟩]] }

/-- Autoload Word in its loops. -/
def waiting (c : Condition) (buffer : Nat) (reading : Bool) (remaining : Nat) : State :=
  { monitor with devices := [(0, dev buffer c)], run := .autoloading ⟨16, 1, remaining, reading⟩ }

/-- The reset state with the autoload and the start key pressed, device 0 and the script of four characters. -/
def autoloader : State :=
  { loader with
    schedule := [] :: loader.schedule, run := .resetState, interruptDisabled := true, autoloadKey := true, startKey := true }

/-- The power off. -/
def dark : State := { stealing with run := .powerOff }

/-- The reset key pressed. -/
def pressed : State := { monitor with resetKey := true }

/-- What the poll at the fetch finds: the reset key, a power failure. -/
def polled (key failure : Bool) : State := { monitor with resetKey := key, powerFailing := failure }

/-- An outcome is a next state. -/
def completes (o : Out) : Bool :=
  match o with
  | .next _ => true
  | _ => false

theorem completes_iff {o : Out} : completes o = true ↔ ∃ t, o = .next t := by
  cases o <;> simp [completes]

theorem spares_quiet {s : State} (h : s.steals = []) (k n : Nat) : s.spares k n := by
  intro l hl; simp [h] at hl

theorem monitor_inv : monitor.Inv :=
  ⟨by decide, by decide, by decide, by decide, by decide, by decide, trivial⟩

theorem polled_inv (key failure : Bool) : (polled key failure).Inv :=
  ⟨monitor_inv.installation, monitor_inv.evenIc, monitor_inv.protection0, monitor_inv.mask0, monitor_inv.store,
    monitor_inv.keys, trivial⟩

theorem task_inv : task.Inv := ⟨by decide, by decide, by decide, by decide, by decide, by decide, trivial⟩

theorem beyond_inv : beyond.Inv := ⟨by decide, by decide, by decide, by decide, by decide, by decide, trivial⟩

theorem enabled_inv : (enabled 1).Inv := ⟨by decide, by decide, by decide, by decide, by decide, by decide, trivial⟩

theorem pending_inv : pending.Inv := ⟨by decide, by decide, by decide, by decide, by decide, by decide, trivial⟩

theorem loader_inv : loader.Inv := ⟨by decide, by decide, by decide, by decide, by decide, by decide, trivial⟩

theorem stealing_inv : stealing.Inv := ⟨by decide, by decide, by decide, by decide, by decide, by decide, trivial⟩

theorem waiting_inv (c : Condition) (b : Nat) (reading : Bool) (n : Nat) (h : 1 ≤ n ∧ n ≤ 4) :
    (waiting c b reading n).Inv :=
  ⟨monitor_inv.installation, monitor_inv.evenIc, monitor_inv.protection0, monitor_inv.mask0, monitor_inv.store,
    monitor_inv.keys, h⟩

theorem autoloader_inv : autoloader.takeEvents.Inv :=
  ⟨by decide, by decide, by decide, by decide, by decide, by decide, trivial⟩

theorem pressed_inv : pressed.Inv := ⟨by decide, by decide, by decide, by decide, by decide, by decide, trivial⟩

/-- Both ends of the displacement. -/
theorem witness_EncodedInstructionsDecodeToThemselves :
    (Instr.jl .w3 ⟨true, true, .x3, -2048⟩).wf ∧
    (Instr.aw .w0 (direct 2047)).wf :=
  by decide

/-- The last assigned code with every field full; the first and the last unassigned code. -/
theorem witness_DecodedWordsEncodeBackToTheSameWord :
    decode 0xE7FFFF = some (.ss .w3 ⟨true, true, .x3, -1⟩) ∧
    58 ≤ (fieldF 0xE80000).toNat ∧
    58 ≤ (fieldF 0xFFFFFF).toNat :=
  by decide

/-- A word that decodes, at IC. -/
theorem witness_StepRunsTheDecodedInstruction :
    let s : State := stored monitor [(1000, 0x510064)]
    s.takeEvents.run = .running ∧ s.takeEvents.poll.steal.missing s.takeEvents.poll.steal.ic = false ∧
      (s.takeEvents.poll.steal.amPending = none →
        s.takeEvents.poll.steal.resetKey = false ∧ s.takeEvents.poll.steal.powerFailing = false) ∧
      decode (s.takeEvents.poll.steal.wordRead s.takeEvents.poll.steal.ic) = some (.rl .w1 (direct 100)) := by
  decide

/-- The same with a carried modifier: then the reset key does not matter. -/
theorem witness_StepRunsTheDecodedInstruction_modified :
    let s : State := { stored monitor [(1000, 0x510064)] with amPending := some 4, resetKey := true }
    s.takeEvents.run = .running ∧ s.takeEvents.poll.steal.missing s.takeEvents.poll.steal.ic = false ∧
      (s.takeEvents.poll.steal.amPending = none →
        s.takeEvents.poll.steal.resetKey = false ∧ s.takeEvents.poll.steal.powerFailing = false) ∧
      decode (s.takeEvents.poll.steal.wordRead s.takeEvents.poll.steal.ic) = some (.rl .w1 (direct 100)) := by
  decide

/-- The first unassigned code, with a direct address; the last one, with an indirect word that does not exist; one in a
protected word in task mode. -/
theorem witness_UnassignedCodesTakeAnInstructionException :
    (let u := (stored monitor [(1000, 0xE80000)]).takeEvents.poll.steal
     u.run = .running ∧ u.missing u.ic = false ∧ u.resetKey = false ∧ u.powerFailing = false ∧
       (fieldF (u.wordRead u.ic)).toNat = 58 ∧ u.reaches (addressPart (u.wordRead u.ic)) 0) ∧
    (let u := (stored monitor [(1000, 0xFC5000)]).takeEvents.poll.steal
     u.run = .running ∧ u.missing u.ic = false ∧ u.resetKey = false ∧ u.powerFailing = false ∧
       (fieldF (u.wordRead u.ic)).toNat = 63 ∧ u.forbids u.ic = false ∧ (addressPart (u.wordRead u.ic)).indirect = true ∧
       u.missing (u.address0 (addressPart (u.wordRead u.ic))) = true) ∧
    let u := (stored locked [(1000, 0xE80000)]).takeEvents.poll.steal
    u.run = .running ∧ u.missing u.ic = false ∧ u.resetKey = false ∧ u.powerFailing = false ∧
      58 ≤ (fieldF (u.wordRead u.ic)).toNat ∧ u.monitorMode = false ∧ u.isProtected u.ic = true := by
  decide

/-- IC names the first nonexistent word. -/
theorem witness_FetchOfANonexistentWordTraps :
    beyond.Inv ∧
    beyond.takeEvents.run = .running ∧
    beyond.takeEvents.poll.steal.missing beyond.takeEvents.poll.steal.ic = true :=
  ⟨beyond_inv, by decide⟩

/-- Interrupts disabled; enabled without an honoured request; enabled with the rightmost one. -/
theorem witness_InterruptsArePolledOnceBeforeTheFetch :
    monitor.run = .running ∧
    monitor.schedule = [] ∧
    monitor.amPending = none ∧
    monitor.interruptDisabled = true ∧
    (enabled 0).run = .running ∧
    (enabled 0).schedule = [] ∧
    (enabled 0).amPending = none ∧
    (enabled 0).interruptDisabled = false ∧
    (enabled 0).honoured = none ∧
    (enabled 1).run = .running ∧
    (enabled 1).schedule = [] ∧
    (enabled 1).amPending = none ∧
    (enabled 1).interruptDisabled = false ∧
    (enabled 1).honoured = some 23 :=
  by decide

/-- No unmasked request; the leftmost bit; the rightmost bit alone. -/
theorem witness_ServiceTakesTheLeftmostUnmaskedRequest :
    (monitor.Inv ∧ ∀ j < 24, monitor.ir.getMsbD j = true → monitor.im.getMsbD j = false) ∧
    (pending.Inv ∧ pending.ir.getMsbD 0 = true ∧ pending.im.getMsbD 0 = true) ∧
    (enabled 1).Inv ∧ (enabled 1).ir.getMsbD 23 = true ∧ (enabled 1).im.getMsbD 23 = true ∧
      ∀ j < 23, (enabled 1).ir.getMsbD j = true → (enabled 1).im.getMsbD j = false :=
  ⟨⟨monitor_inv, by decide⟩, ⟨pending_inv, by decide⟩, enabled_inv, by decide⟩

theorem witness_InstructionExceptionsAreServedAtOnce : (enabled 1).Inv := enabled_inv

/-- Task mode in a protected word; an indirect word that does not exist. -/
theorem witness_TheDecodeTestsComeBeforeEveryOperation :
    locked.monitorMode = false ∧
    locked.isProtected locked.ic = true ∧
    monitor.forbids monitor.ic = false ∧
    (Instr.rl .w0 ⟨false, true, .x1, 0⟩).address.indirect = true ∧
    (addressPart 0xFC5000).indirect = true ∧
    monitor.missing (monitor.address0 (addressPart 0xFC5000)) = true ∧
    monitor.missing (monitor.address0 ⟨false, true, .x1, 0⟩) = true :=
  by decide

/-- A privileged instruction in task mode. -/
theorem witness_PrivilegedInstructionsTrapInTaskMode :
    (Instr.aw .w0 (direct 20)).privileged ∧ task.reaches (direct 20) 20 ∧ task.isProtected task.ic = false :=
  ⟨trivial, by decide⟩

/-- A transfer that names the first word of the operand at 18, and the word at 16. -/
theorem witness_TheChannelWritesBetweenTwoAccesses :
    stealing.Inv ∧
    stealing.steals = [] :: [⟨5, 8, 7⟩] :: [] ∧
    [⟨5, 8, 7⟩] = [] ++ [(⟨5, 8, 7⟩ : Transfer)] ∧
    stealing.mayTransfer ⟨5, 8, 7⟩ = true ∧
    stealing.reaches (direct 18) 18 ∧
    stealing.missing 18 = false ∧
    (⟨5, 8, 7⟩ : Transfer).wordNumber = wordNumber (firstWordAddress 18) ∧
    stealing.reaches (direct 16) 16 ∧
    (⟨5, 8, 7⟩ : Transfer).wordNumber = wordNumber 16 ∧
    ¬stealing.storeForbidden 16 ∧
    (direct 16).indirect = false ∧
    ∀ l ∈ stealing.steals.take 2, ∀ x ∈ l, x.wordNumber ≠ 9 :=
  ⟨stealing_inv, by decide⟩

/-- A direct address; an indirect word that exists, at the last byte of the store; one that does not. -/
theorem witness_AlDeliversTheAddressOfEachMode :
    monitor.forbids monitor.ic = false ∧
    (0x007FFF : Word) = BitVec.ofInt 24 0 + monitor.amPending.getD 0 + 0 + monitor.reg .w2 ∧
    (via .x2).indirect = false ∧
    (⟨false, true, .x2, 0⟩ : AddressPart).indirect = true ∧
    monitor.missing 0x007FFF = false ∧
    (0x008000 : Word) = BitVec.ofInt 24 0 + monitor.amPending.getD 0 + 0 + monitor.reg .w1 ∧
    monitor.missing 0x008000 = true :=
  by decide

/-- The most negative address and the address 0. -/
theorem witness_AcDeliversTheComplementOfTheAddress :
    monitor.reaches (via .x3) 0x800000 ∧
    monitor.reaches (direct 0) 0 :=
  by decide

/-- The next word exists, or is the first that does not. -/
theorem witness_AmModifiesTheNextAddress :
    monitor.reaches (direct 5) 5 ∧
    monitor.missing (monitor.ic + 2) = false ∧
    lastWord.reaches (direct 5) 5 ∧
    lastWord.missing (lastWord.ic + 2) = true :=
  by decide

/-- The last existing byte, and the first that does not exist. -/
theorem witness_LoadsDeliverTheOperandAddressed :
    monitor.reaches (via .x2) 0x007FFF ∧ monitor.missing 0x007FFF = false ∧
    monitor.reaches (via .x1) 0x008000 ∧ monitor.missing 0x008000 = true :=
  by decide

/-- The last existing byte, and the first that does not exist. -/
theorem witness_IntegerAdditionDeliversSumOverflowAndCarry :
    monitor.reaches (via .x2) 0x007FFF ∧ monitor.missing 0x007FFF = false ∧
    monitor.reaches (via .x1) 0x008000 ∧ monitor.missing 0x008000 = true :=
  by decide

/-- The last existing byte, and the first that does not exist. -/
theorem witness_IntegerSubtractionDeliversDifferenceOverflowAndCarry :
    monitor.reaches (via .x2) 0x007FFF ∧ monitor.missing 0x007FFF = false ∧
    monitor.reaches (via .x1) 0x008000 ∧ monitor.missing 0x008000 = true :=
  by decide

/-- The last existing byte, and the first that does not exist. -/
theorem witness_WmDeliversTheExactProduct :
    monitor.reaches (via .x2) 0x007FFF ∧ monitor.missing 0x007FFF = false ∧
    monitor.reaches (via .x1) 0x008000 ∧ monitor.missing 0x008000 = true :=
  by decide

/-- The last existing byte, and the first that does not exist. -/
theorem witness_LogicalOperationsCombineBitByBit :
    monitor.reaches (via .x2) 0x007FFF ∧ monitor.missing 0x007FFF = false ∧
    monitor.reaches (via .x1) 0x008000 ∧ monitor.missing 0x008000 = true :=
  by decide

/-- The last existing byte, and the first that does not exist. -/
theorem witness_FmMultipliesTheFractions :
    monitor.reaches (via .x2) 0x007FFF ∧ monitor.missing 0x007FFF = false ∧
    monitor.reaches (via .x1) 0x008000 ∧ monitor.missing 0x008000 = true :=
  by decide

/-- The last existing byte, and the first that does not exist. -/
theorem witness_XlLoadsTheExceptionRegister :
    monitor.reaches (via .x2) 0x007FFF ∧ monitor.missing 0x007FFF = false ∧
    monitor.reaches (via .x1) 0x008000 ∧ monitor.missing 0x008000 = true :=
  by decide

/-- A nonexistent word; a protected word in task mode; the last byte in monitor mode; an unprotected word in task mode. -/
theorem witness_WordStoresReachTheWordAddressed :
    monitor.Inv ∧
    task.Inv ∧
    monitor.reaches (via .x1) 0x008000 ∧ monitor.missing 0x008000 = true ∧
    task.reaches (direct 20) 20 ∧ task.missing 20 = false ∧ task.storeForbidden 20 ∧
    monitor.reaches (via .x2) 0x007FFF ∧ monitor.missing 0x007FFF = false ∧ ¬monitor.storeForbidden 0x007FFF ∧
    task.reaches (direct 16) 16 ∧ task.missing 16 = false ∧ ¬task.storeForbidden 16 :=
  ⟨monitor_inv, task_inv, by decide⟩

/-- A nonexistent word; a protected word in task mode; the last byte in monitor mode; an unprotected word in task mode. -/
theorem witness_ByteStoresReachTheByteAddressed :
    monitor.Inv ∧
    task.Inv ∧
    monitor.reaches (via .x1) 0x008000 ∧ monitor.missing 0x008000 = true ∧
    task.reaches (direct 20) 20 ∧ task.missing 20 = false ∧ task.storeForbidden 20 ∧
    monitor.reaches (via .x2) 0x007FFF ∧ monitor.missing 0x007FFF = false ∧ ¬monitor.storeForbidden 0x007FFF ∧
    task.reaches (direct 16) 16 ∧ task.missing 16 = false ∧ ¬task.storeForbidden 16 :=
  ⟨monitor_inv, task_inv, by decide⟩

/-- A nonexistent word; a protected word in task mode; the last byte in monitor mode; an unprotected word in task mode. -/
theorem witness_RxExchangesRegisterAndStore :
    monitor.Inv ∧
    task.Inv ∧
    monitor.reaches (via .x1) 0x008000 ∧ monitor.missing 0x008000 = true ∧
    task.reaches (direct 20) 20 ∧ task.missing 20 = false ∧ task.storeForbidden 20 ∧
    monitor.reaches (via .x2) 0x007FFF ∧ monitor.missing 0x007FFF = false ∧ ¬monitor.storeForbidden 0x007FFF ∧
    task.reaches (direct 16) 16 ∧ task.missing 16 = false ∧ ¬task.storeForbidden 16 :=
  ⟨monitor_inv, task_inv, by decide⟩

/-- A nonexistent target; a protected one in task mode; two permitted ones. -/
theorem witness_JlLinksAndJumps :
    monitor.reaches (via .x1) 0x008000 ∧ monitor.missing 0x008000 = true ∧
    task.reaches (direct 20) 20 ∧ task.missing 20 = false ∧ task.storeForbidden 20 ∧
    monitor.reaches (via .x2) 0x007FFF ∧ monitor.missing 0x007FFF = false ∧ ¬monitor.storeForbidden 0x007FFF ∧
    task.reaches (direct 16) 16 ∧ task.missing 16 = false ∧ ¬task.storeForbidden 16 :=
  by decide

/-- A nonexistent word; the second word protected; the first word protected; both permitted, in each mode. -/
theorem witness_DlAndDsMoveTheSecondWordFirst :
    monitor.Inv ∧
    task.Inv ∧
    (task.entered (direct 18)).spares 1 (wordNumber 18) ∧
    monitor.reaches (via .x1) 0x008000 ∧ monitor.missing 0x008000 = true ∧
    task.reaches (direct 20) 20 ∧ task.missing 20 = false ∧ task.storeForbidden 20 ∧
    task.reaches (direct 16) 16 ∧
    task.missing 16 = false ∧
    ¬task.storeForbidden 16 ∧
    task.storeForbidden (firstWordAddress 16) ∧
    task.reaches (direct 18) 18 ∧
    task.missing 18 = false ∧
    ¬task.storeForbidden 18 ∧
    ¬task.storeForbidden (firstWordAddress 18) ∧
    monitor.reaches (direct 0) 0 ∧
    ¬monitor.storeForbidden 0 ∧
    ¬monitor.storeForbidden (firstWordAddress 0) ∧
    wordNumber 0 < 4 :=
  ⟨monitor_inv, task_inv, spares_quiet rfl 1 _, by decide⟩

/-- A nonexistent divisor; a zero divisor; the quotients 2**23, 2**23 - 1 and -2**23, the last under both settings. -/
theorem witness_WdDeliversQuotientAndRemainder :
    monitor.reaches (via .x1) 0x008000 ∧ monitor.missing 0x008000 = true ∧
    (dividing 0 5 0 false).reaches (direct 16) 16 ∧
    (dividing 0 5 0 false).missing 16 = false ∧
    (((dividing 0 5 0 false).entered (direct 16)).wordRead 16).toInt = 0 ∧
    ((dividing 0 0x800000 1 false).pair .w1).toInt.tdiv (((dividing 0 0x800000 1 false).entered (direct 16)).wordRead 16).toInt = 2 ^ 23 ∧
    ((dividing 0 0x7FFFFF 1 false).pair .w1).toInt.tdiv (((dividing 0 0x7FFFFF 1 false).entered (direct 16)).wordRead 16).toInt = 2 ^ 23 - 1 ∧
    ((dividing 0xFFFFFF 0x800000 1 true).pair .w1).toInt.tdiv (((dividing 0xFFFFFF 0x800000 1 true).entered (direct 16)).wordRead 16).toInt = -2 ^ 23 ∧
    (dividing 0xFFFFFF 0x800000 1 true).inst.wdMinQuotientOverflows = true ∧
    ((dividing 0xFFFFFF 0x800000 1 false).pair .w1).toInt.tdiv (((dividing 0xFFFFFF 0x800000 1 false).entered (direct 16)).wordRead 16).toInt = -2 ^ 23 ∧
    (dividing 0xFFFFFF 0x800000 1 false).inst.wdMinQuotientOverflows = false ∧
    (dividing 0xFFFFFF 0x800000 1 false).reaches (direct 16) 16 ∧
    (dividing 0xFFFFFF 0x800000 1 false).missing 16 = false :=
  by decide

/-- A first word that is in the store, and one that is the W register. -/
theorem witness_AaDeliversTheDoubleSum :
    monitor.reaches (via .x2) 0x007FFF ∧ monitor.missing 0x007FFF = false ∧
    monitor.reaches (via .x1) 0x008000 ∧ monitor.missing 0x008000 = true ∧
    wordNumber (firstWordAddress 0x007FFF) ≠ registerNumber .w1 ∧
    monitor.reaches (direct 4) 4 ∧
    monitor.missing 4 = false ∧
    wordNumber (firstWordAddress 4) = registerNumber .w1 :=
  by decide

/-- A first word that is in the store, and one that is the W register. -/
theorem witness_SsDeliversTheDoubleDifference :
    monitor.reaches (via .x2) 0x007FFF ∧ monitor.missing 0x007FFF = false ∧
    monitor.reaches (via .x1) 0x008000 ∧ monitor.missing 0x008000 = true ∧
    wordNumber (firstWordAddress 0x007FFF) ≠ registerNumber .w1 ∧
    monitor.reaches (direct 4) 4 ∧
    monitor.missing 4 = false ∧
    wordNumber (firstWordAddress 4) = registerNumber .w1 :=
  by decide

/-- The counts -1, 0, 63 and 64, and the most negative one. -/
theorem witness_ArithmeticShiftsMultiplyAndDivide :
    monitor.reaches (direct (-1)) 0xFFFFFF ∧
    (0xFFFFFF : Word).toInt < 0 ∧
    monitor.reaches (direct 0) 0 ∧
    monitor.reaches (direct 63) 63 ∧
    0 ≤ (63 : Word).toInt ∧
    monitor.reaches (direct 64) 64 ∧
    0 ≤ (64 : Word).toInt ∧
    monitor.reaches (via .x3) 0x800000 ∧
    (0x800000 : Word).toInt < 0 :=
  by decide

/-- The counts 0 and 64, and the most negative one. -/
theorem witness_LogicalShiftsActOnTheUnsignedPattern :
    monitor.reaches (direct 0) 0 ∧
    monitor.reaches (direct 64) 64 ∧
    monitor.reaches (via .x3) 0x800000 :=
  by decide

/-- A zero and a nonzero operand; the three outcomes of the store. -/
theorem witness_NsAndNdNormalizeAndStoreTheCount :
    monitor.Inv ∧
    task.Inv ∧
    base.reg .w0 = 0 ∧
    monitor.reg .w0 ≠ 0 ∧
    base.pair .w1 = 0 ∧
    monitor.pair .w1 ≠ 0 ∧
    monitor.reaches (via .x1) 0x008000 ∧ monitor.missing 0x008000 = true ∧
    task.reaches (direct 20) 20 ∧ task.missing 20 = false ∧ task.storeForbidden 20 ∧
    monitor.reaches (via .x2) 0x007FFF ∧ monitor.missing 0x007FFF = false ∧ ¬monitor.storeForbidden 0x007FFF ∧
    task.reaches (direct 16) 16 ∧ task.missing 16 = false ∧ ¬task.storeForbidden 16 ∧
    monitor.reaches (direct 1) 1 ∧
    ¬monitor.storeForbidden 1 :=
  ⟨monitor_inv, task_inv, by decide⟩

/-- A zero AF, and the smallest positive one. -/
theorem witness_NormalizeAndRoundDeliversTheNearestFraction :
    (0 : BitVec 39) = 0 ∧
    (1 : BitVec 39) ≠ 0 :=
  by decide

/-- A zero and a nonzero integer. -/
theorem witness_CiConvertsIntegersExactly :
    monitor.reaches (direct 2047) 2047 ∧
    monitor.reg .w0 ≠ 0 ∧
    base.reaches (direct (-2048)) 0xFFF800 ∧
    base.reg .w0 = 0 :=
  by decide

/-- No room for a nonzero number; the value 2**23; zero; the value -2**23. -/
theorem witness_CfRoundsToTheNearestInteger :
    (floating 0x400000 0x000018).reaches (direct 0) 0 ∧
    ((23 : Word) - 0 - (exponentOf ((floating 0x400000 0x000018).pair .w1)).signExtend 24).toInt < 0 ∧
    (fractionOf ((floating 0x400000 0x000018).pair .w1)).toInt ≠ 0 ∧
    ((23 : Word) - 0 - (exponentOf ((floating 0x7FFFFF 0x800017).pair .w1)).signExtend 24).toInt = 0 ∧
    2 ^ 23 ≤ ((fractionOf ((floating 0x7FFFFF 0x800017).pair .w1)).toInt + 2 ^ 11) / 2 ^ 12 ∧
    ((23 : Word) - 0 - (exponentOf ((floating 0 0x000018).pair .w1)).signExtend 24).toInt < 0 ∧
    (fractionOf ((floating 0 0x000018).pair .w1)).toInt = 0 ∧
    ((23 : Word) - 0 - (exponentOf ((floating 0x800000 0x000017).pair .w1)).signExtend 24).toInt = 0 ∧
    ((fractionOf ((floating 0x800000 0x000017).pair .w1)).toInt + 2 ^ 11) / 2 ^ 12 = -2 ^ 23 :=
  by decide

/-- A nonexistent operand; exponents 38 apart in each direction; 37 apart in each direction. -/
theorem witness_FaAndFsAlignAddAndRound :
    monitor.reaches (via .x1) 0x008000 ∧ monitor.missing 0x008000 = true ∧
    (floating 0x400000 0x000026).reaches (direct 18) 18 ∧
    (floating 0x400000 0x000026).missing 18 = false ∧
    (exponentOf ((floating 0x400000 0x000026).pair .w1)).toInt - (exponentOf (((floating 0x400000 0x000026).entered (direct 18)).doubleRead 18)).toInt = 38 ∧
    (floating 0x400000 0x000FDA).reaches (direct 18) 18 ∧
    (floating 0x400000 0x000FDA).missing 18 = false ∧
    (exponentOf ((floating 0x400000 0x000FDA).pair .w1)).toInt - (exponentOf (((floating 0x400000 0x000FDA).entered (direct 18)).doubleRead 18)).toInt = -38 ∧
    (floating 0x400000 0x000025).reaches (direct 18) 18 ∧
    (floating 0x400000 0x000025).missing 18 = false ∧
    (exponentOf ((floating 0x400000 0x000025).pair .w1)).toInt - (exponentOf (((floating 0x400000 0x000025).entered (direct 18)).doubleRead 18)).toInt = 37 ∧
    (floating 0x400000 0x000FDB).reaches (direct 18) 18 ∧
    (floating 0x400000 0x000FDB).missing 18 = false ∧
    (exponentOf ((floating 0x400000 0x000FDB).pair .w1)).toInt - (exponentOf (((floating 0x400000 0x000FDB).entered (direct 18)).doubleRead 18)).toInt = -37 :=
  by decide

/-- A nonexistent divisor; a divisor whose first word is zero; a dividend whose first word is zero; neither. -/
theorem witness_FdDividesTheFractions :
    monitor.reaches (via .x1) 0x008000 ∧ monitor.missing 0x008000 = true ∧
    (floating 0x400000 0x000001).reaches (direct 22) 22 ∧
    (floating 0x400000 0x000001).missing 22 = false ∧
    (((floating 0x400000 0x000001).entered (direct 22)).doubleRead 22).extractLsb' 24 24 = 0 ∧
    (floating 0 1).reaches (direct 18) 18 ∧
    (floating 0 1).missing 18 = false ∧
    (((floating 0 1).entered (direct 18)).doubleRead 18).extractLsb' 24 24 ≠ 0 ∧
    (floating 0 1).reg (preceding .w1) = 0 ∧
    (floating 0x400000 0x000001).reaches (direct 18) 18 ∧
    (((floating 0x400000 0x000001).entered (direct 18)).doubleRead 18).extractLsb' 24 24 ≠ 0 ∧
    (floating 0x400000 0x000001).reg (preceding .w1) ≠ 0 :=
  by decide

/-- The smallest positive and the greatest negative normalized fraction. -/
theorem witness_DivisionOfNormalizedFractionsIsAccurate :
    normalizedFraction 0x400000000 ∧
    normalizedFraction 0xBFFFFFFFF :=
  by decide

/-- A positive address, -1 and the most negative one; for SP the last existing byte, and the first that does not exist. -/
theorem witness_SkipsFollowTheirConditions :
    monitor.reaches (direct 2047) 2047 ∧
    monitor.reaches (direct (-1)) 0xFFFFFF ∧
    monitor.reaches (via .x3) 0x800000 ∧
    monitor.reaches (via .x2) 0x007FFF ∧ monitor.missing 0x007FFF = false ∧
    monitor.reaches (via .x1) 0x008000 ∧ monitor.missing 0x008000 = true :=
  by decide

/-- Task mode; a nonexistent target; an existing one. -/
theorem witness_JeAndJdSetTheInterruptSwitchAndJump :
    task.reaches (direct 16) 16 ∧
    ¬task.privilegedAt ∧
    monitor.reaches (via .x1) 0x008000 ∧ monitor.missing 0x008000 = true ∧
    monitor.privilegedAt ∧
    monitor.reaches (via .x2) 0x007FFF ∧ monitor.missing 0x007FFF = false :=
  by decide

/-- Each mode. -/
theorem witness_IcClearsTheSelectedRequests :
    task.reaches (direct 16) 16 ∧
    ¬task.privilegedAt ∧
    monitor.reaches (via .x3) 0x800000 ∧
    monitor.privilegedAt :=
  by decide

/-- Task mode; a nonexistent operand; an existing one. -/
theorem witness_MlAndPlKeepBitZeroOne :
    task.reaches (direct 16) 16 ∧
    ¬task.privilegedAt ∧
    monitor.reaches (via .x1) 0x008000 ∧ monitor.missing 0x008000 = true ∧
    monitor.privilegedAt ∧
    monitor.reaches (via .x2) 0x007FFF ∧ monitor.missing 0x007FFF = false :=
  by decide

/-- Task mode; a nonexistent word; an existing one. -/
theorem witness_KsChangesOneKeyAndNoData :
    monitor.Inv ∧
    task.Inv ∧
    task.reaches (direct 16) 16 ∧
    ¬task.privilegedAt ∧
    monitor.reaches (via .x1) 0x008000 ∧ monitor.missing 0x008000 = true ∧
    monitor.privilegedAt ∧
    monitor.reaches (via .x2) 0x007FFF ∧ monitor.missing 0x007FFF = false :=
  ⟨monitor_inv, task_inv, by decide⟩

/-- A busy device, and a number without a device. -/
theorem witness_IoRejectsDisconnectedAndBusyDevices :
    (connected .busy).reaches (direct (-64)) 0xFFFFC0 ∧
    (connected .busy).privilegedAt ∧
    (0xFFFFC0 : Word).toNat / 64 % 2 ^ (connected .busy).inst.deviceAddressBits = 262143 ∧
    (connected .busy).condition 262143 = .busy ∧
    (connected .busy).reaches (direct 64) 64 ∧
    (connected .busy).condition 1 = .disconnected :=
  by decide

/-- The four basic commands to the device with the greatest number. -/
theorem witness_IoSendsItsCommandToAnAvailableDevice :
    (connected .available).reaches (direct (-64)) 0xFFFFC0 ∧
    (connected .available).privilegedAt ∧
    (0xFFFFC0 : Word).toNat / 64 % 2 ^ (connected .available).inst.deviceAddressBits = 262143 ∧
    (connected .available).device? 262143 = some (dev 0x2A .available) ∧
    (dev 0x2A .available).state = .available ∧
    (0xFFFFC0 : Word).toNat % 4 = 0 ∧
    (connected .available).reaches (direct (-63)) 0xFFFFC1 ∧
    (0xFFFFC1 : Word).toNat % 4 = 1 ∧
    (connected .available).reaches (direct (-62)) 0xFFFFC2 ∧
    (0xFFFFC2 : Word).toNat % 4 = 2 ∧
    (connected .available).reaches (direct (-61)) 0xFFFFC3 ∧
    (0xFFFFC3 : Word).toNat % 4 = 3 :=
  by decide

/-- The script of four characters, for an existing and a nonexistent word. -/
theorem witness_AwLoadsFourCharactersAndClearsTheKey :
    loader.Inv ∧
    loader.reaches (via .x2) 0x007FFF ∧
    loader.privilegedAt ∧
    loader.run = .running ∧
    loader.device? 0 = some (dev 0 .available) ∧
    (dev 0 .available).kind = .ordinary ∧
    (dev 0 .available).used &&& 0x00003F = 0x00003F ∧
    loader.schedule = [[.complete 0 (some ((1 : BitVec 6).setWidth 24))], [], [.complete 0 (some ((2 : BitVec 6).setWidth 24))], [],
      [.complete 0 (some ((3 : BitVec 6).setWidth 24))], [], [.complete 0 (some ((63 : BitVec 6).setWidth 24))]] ++ [] ∧
    loader.missing 0x007FFF = false ∧
    loader.reaches (via .x1) 0x008000 ∧
    loader.missing 0x008000 = true :=
  ⟨loader_inv, by decide⟩

/-- Entering the loops; a wait that outlasts one look, and one that does not; each outcome of a look. -/
theorem witness_AutoloadWordTakesOneLookAtATime :
    (∃ t, step (waiting .busy 0 true 4) = .next t ∧ t.run = .autoloading ⟨16, 1, 4, true⟩) ∧
    (∃ t, step (waiting .disconnected 0 true 4) = .next t ∧ ∀ q, t.run ≠ .autoloading q) ∧
    (waiting .available 0xFFF true 4).Inv ∧ (waiting .available 0xFFF true 1).Inv ∧
    loader.reaches (via .x2) 0x007FFF ∧ loader.privilegedAt ∧
    (waiting .busy 0 true 4).condition 0 = .busy ∧
    (waiting .available 0 false 4).condition 0 = .available ∧
    (waiting .available 0 false 4).device? 0 = some (dev 0 .available) ∧
    (dev 0 .available).kind = .ordinary ∧
    ((waiting .available 0x800000 true 4).sensedWord 0).getMsbD 0 = true ∧
    (∀ b < 12, ((waiting .available 0xFFF true 4).sensedWord 0).getMsbD b = false) ∧
    ((waiting .available 0x1000 true 1).sensedWord 0).getMsbD 0 = false ∧
    ((waiting .available 0x1000 true 1).sensedWord 0).getMsbD 11 = true ∧
    (waiting .disconnected 0 true 4).condition 0 = .disconnected :=
  ⟨⟨_, rfl, by decide⟩, ⟨_, rfl, nofun⟩, waiting_inv _ _ _ _ (by decide), waiting_inv _ _ _ _ (by decide), by decide⟩

/-- The reset key pressed; a power failure; both at one poll. -/
theorem witness_TheResetActionSavesIcInWord10 :
    (polled true false).Inv ∧ (polled false true).Inv ∧ (polled true true).Inv ∧
    ∀ s ∈ [polled true false, polled false true, polled true true],
      s.takeEvents.run = .running ∧ s.takeEvents.poll.steal.missing s.takeEvents.poll.steal.ic = false ∧
      s.takeEvents.poll.steal.amPending = none ∧
      s.takeEvents.poll.steal.resetKey = s.resetKey ∧ s.takeEvents.poll.steal.powerFailing = s.powerFailing ∧
      (s.resetKey = true ∨ s.powerFailing = true) :=
  ⟨polled_inv _ _, polled_inv _ _, polled_inv _ _, by decide⟩

/-- Without and with the start key. -/
theorem witness_TheResetStateWaitsForTheStartKey :
    State.reset.run = .resetState ∧
    State.reset.schedule = [] ∧
    State.reset.powerFailing = false ∧
    State.reset.autoloadKey = false ∧
    State.reset.startKey = false ∧
    ({ State.reset with startKey := true } : State).run = .resetState ∧
    ({ State.reset with startKey := true } : State).startKey = true ∧
    ({ State.reset with startKey := true } : State).resetModes :=
  by decide

/-- Both keys pressed, with the script of four characters; device 0 missing. -/
theorem witness_TheAutoloadKeyLoadsRegisterZero :
    autoloader.takeEvents.Inv ∧
    autoloader.takeEvents.resetModes ∧
    autoloader.takeEvents.run = .resetState ∧
    autoloader.takeEvents.powerFailing = false ∧
    autoloader.takeEvents.autoloadKey = true ∧
    autoloader.takeEvents.device? 0 = some (dev 0 .available) ∧
    (dev 0 .available).kind = .ordinary ∧
    (dev 0 .available).condition = .available ∧
    (dev 0 .available).used &&& 0x00003F = 0x00003F ∧
    autoloader.takeEvents.schedule = loader.schedule ++ [] ∧
    ({ State.reset with autoloadKey := true } : State).takeEvents.condition 0 = .disconnected :=
  ⟨autoloader_inv, by decide⟩

/-- Power on with the power off; the power off; a power failure in the reset state. -/
theorem witness_ResetLeavesTheMachineAsPowerOnDoes :
    dark.run = .powerOff ∧
    dark.schedule = [] ∧
    (∀ v, EnvEvent.transfer ⟨5, 8, 7⟩ ≠ .powerOn v) ∧
    ({ State.reset with powerFailing := true } : State).run = .resetState ∧
    ({ State.reset with powerFailing := true } : State).schedule = [] :=
  ⟨rfl, rfl, nofun, rfl, rfl⟩

/-- A machine with power; lines at both ends of the wired bits; a device of each sort; a permitted transfer. -/
theorem witness_TheEnvironmentSetsItsInputsAndLeavesTheProcessorAlone :
    stealing.Inv ∧ stealing.mayTransfer ⟨5, 8, 7⟩ = true ∧ monitor.run ≠ .powerOff ∧
    (wired.event (.signal (.line 1))).ir = 0x100001 ∧ (wired.event (.signal (.device 1))).ir = 0 ∧
    ((wired.event (.timerAdvance 1 0x3FFF)).device? 1).map Device.buffer = some 1 ∧
    ((wired.event (.externalBits 2 5)).device? 2).map Device.buffer = some 7 ∧
    (connected .busy).device? 262143 = some (dev 0x2A .busy) ∧
    (connected .disconnected).device? 262143 = some (dev 0x2A .disconnected) :=
  ⟨stealing_inv, by decide⟩

/-- A running step from a state with the invariant; a step that enters the reset state. -/
theorem witness_EveryStepKeepsTheInvariant :
    (monitor.Inv ∧ monitor.resetModes ∧ ∃ t, step monitor = .next t) ∧
    ∃ t, step pressed = .next t ∧ t.run = .resetState :=
  ⟨⟨monitor_inv, nofun, completes_iff.1 (by decide)⟩, _, rfl, by decide⟩

/-- An instruction that does not write EX, and one that does. -/
theorem witness_OnlyTheNamedInstructionsChangeEx :
    monitor.run = .running ∧ ¬(Instr.rl .w1 (direct 16)).writesEx ∧
      (∃ t, exec (.rl .w1 (direct 16)) monitor = .next t) ∧ ∃ t, exec (.wa .w1 (direct 16)) monitor = .next t :=
  ⟨rfl, id, completes_iff.1 (by decide), completes_iff.1 (by decide)⟩

theorem witness_ProtectionStateHasItsOwnWriters :
    monitor.run = .running ∧ ∃ t, exec (.wa .w1 (direct 16)) monitor = .next t :=
  ⟨rfl, completes_iff.1 (by decide)⟩

/-- In task mode an instruction that runs and one that traps. -/
theorem witness_TaskModeCannotTouchProtectedState :
    task.Inv ∧ task.monitorMode = false ∧ (∃ t, exec (.rs .w1 (direct 16)) task = .next t ∧ t.monitorMode = false) ∧
      ∃ t, exec (.rs .w1 (direct 20)) task = .next t ∧ t.monitorMode = true :=
  ⟨task_inv, rfl, ⟨_, rfl, by decide⟩, ⟨_, rfl, by decide⟩⟩

end Sys2Proof.Tests
end

section
/-! The promises about all instructions of 10_state.md (R25 to R33). What an instruction can do to the state is said
once, as a chain of elementary updates (`Update`, `exec_updates`); each promise is then a property of the single
update. -/

namespace Sys2Proof.Machine

open Relation (ReflTransGen)

/-! ## The elementary updates of an instruction -/

/-- One elementary change that an instruction can make to the state. The index names the instruction where only some may
make the change: EX(22:23) belongs to those of 10_state.md R27, EX(21) to XL, PR to PL, IM to ML, the keys to KS and AW,
the interrupt disabling to JE and JD. -/
inductive Update : Instr → State → State → Prop
  | steal {i : Instr} (s : State) : Update i s s.steal
  /-- The fetch is forbidden: IC has advanced and the mode is not updated (R123). -/
  | advance {i : Instr} (s : State) : Update i s { s with ic := s.ic + 2, amPending := none }
  | decode {i : Instr} {s : State} : s.run = .running → Update i s s.decoded
  | raise {i : Instr} (s : State) : Update i s s.raise
  | setReg {i : Instr} (s : State) (r : Reg) (v : Word) : Update i s (s.setReg r v)
  /-- The word exists; for the first word of a double word that follows from the smallest store (00_scope.md R6). -/
  | wordWrite {i : Instr} {s : State} {b : Word} (v : Word) :
    (s.Inv → s.missing b = false) → Update i s (s.wordWrite b v)
  | pend {i : Instr} (s : State) (n : Nat) : Update i s (s.pend n)
  | jumpTo {i : Instr} (s : State) (b : Word) : Update i s { s with ic := evenAddress b }
  | skip {i : Instr} (s : State) : Update i s { s with ic := s.ic + 2 }
  | setEx {i : Instr} (s : State) (o c : Bool) : i.writesEx → Update i s (s.setEx o c)
  | modify {w : Reg} {a : AddressPart} (s : State) (v : Word) : Update (.am w a) s { s with amPending := some v }
  | clearRequests {w : Reg} {a : AddressPart} (s : State) (v : Word) :
    Update (.ic w a) s { s with ir := s.ir &&& ~~~v }
  | loadEx {w : Reg} {a : AddressPart} (s : State) (v : BitVec 3) : Update (.xl w a) s { s with ex := v }
  | loadProtection {w : Reg} {a : AddressPart} (s : State) (v : BitVec 8) :
    Update (.pl w a) s { s with pr := v ||| 0x80 }
  | loadMask {w : Reg} {a : AddressPart} (s : State) (v : Word) : Update (.ml w a) s { s with im := v ||| bitMask 0 }
  | storeKey {w : Reg} {a : AddressPart} {s : State} {b : Word} (k : Key) :
    s.missing b = false → Update (.ks w a) s (s.keyWrite b k)
  | enable {w : Reg} {a : AddressPart} {s : State} :
    s.run = .running → Update (.je w a) s { s with interruptDisabled := false }
  | disable {w : Reg} {a : AddressPart} {s : State} :
    s.run = .running → Update (.jd w a) s { s with interruptDisabled := true }
  | command {w : Reg} {a : AddressPart} (s : State) (n : Nat) (c : BitVec 6) (d : Option Word) :
    Update (.io w a) s (s.deviceCommand n c d)
  | autoload {w : Reg} {a : AddressPart} (s : State) (b : Word) : Update (.aw w a) s (s.autoload b)

/-- A chain of updates that instruction `i` can make. -/
abbrev Updates (i : Instr) : State → State → Prop := ReflTransGen (Update i)

/-- What no single update changes, no chain of them changes. -/
theorem Updates.const {i : Instr} {s t : State} {α : Type} (f : State → α)
    (hf : ∀ {u v : State}, Update i u v → f v = f u) (h : Updates i s t) : f t = f s := by
  induction h with
  | refl => rfl
  | tail _ hu ih => exact (hf hu).trans ih

/-- What every single update keeps, every chain of them keeps. -/
theorem Updates.keeps {i : Instr} {s t : State} {P : State → Prop}
    (hP : ∀ {u v : State}, P u → Update i u v → P v) (h : Updates i s t) (hs : P s) : P t := by
  induction h with
  | refl => exact hs
  | tail _ hu ih => exact hP ih hu

/-! ## The operations on the state as chains of updates -/

section
variable {i : Instr} {s t : State}

theorem Updates.setReg (h : Updates i s t) (r : Reg) (v : Word) : Updates i s (t.setReg r v) := h.tail (.setReg t r v)

theorem Updates.setPair (h : Updates i s t) (r : Reg) (v : DoubleWord) : Updates i s (t.setPair r v) :=
  (h.setReg _ _).setReg _ _

theorem Updates.steal (h : Updates i s t) : Updates i s t.steal := h.tail (.steal t)

theorem Updates.raise (h : Updates i s t) : Updates i s t.raise := h.tail (.raise t)

theorem Updates.pend (h : Updates i s t) (n : Nat) : Updates i s (t.pend n) := h.tail (.pend t n)

theorem Updates.wordWrite (h : Updates i s t) {b : Word} (hb : t.missing b = false) (v : Word) :
    Updates i s (t.wordWrite b v) := h.tail (.wordWrite v fun _ => hb)

theorem Updates.byteWrite (h : Updates i s t) {b : Word} (hb : t.missing b = false) (v : Byte) :
    Updates i s (t.byteWrite b v) := h.wordWrite hb _

theorem Updates.jump (h : Updates i s t) (w : Reg) (b : Word) : Updates i s (t.jump w b) := by
  unfold State.jump
  split
  · exact h.tail (.jumpTo _ b)
  · exact (h.setReg _ _).tail (.jumpTo _ b)

theorem Updates.skipIf (h : Updates i s t) (c : Bool) : Updates i s (t.skipIf c) := by
  unfold State.skipIf
  split
  · exact h.tail (.skip t)
  · exact h

theorem Updates.setEx (h : Updates i s t) (hi : i.writesEx) (o c : Bool) : Updates i s (t.setEx o c) :=
  h.tail (.setEx t o c hi)

theorem Updates.clearEx (h : Updates i s t) (hi : i.writesEx) : Updates i s t.clearEx := h.setEx hi _ _

theorem Updates.integerOverflow (h : Updates i s t) (hi : i.writesEx) : Updates i s t.integerOverflow :=
  (h.setEx hi _ _).pend 1

theorem Updates.floatingOverflow (h : Updates i s t) (hi : i.writesEx) : Updates i s t.floatingOverflow :=
  (h.setEx hi _ _).pend 2

theorem Updates.testInteger (h : Updates i s t) (hi : i.writesEx) (r : BitVec 25) (c : Bool) :
    Updates i s (t.testInteger r c) := by
  unfold State.testInteger
  split
  · exact (h.setEx hi _ _).integerOverflow hi
  · exact h.setEx hi _ _

theorem Updates.addToReg (h : Updates i s t) (hi : i.writesEx) (w : Reg) (y : Word) : Updates i s (t.addToReg w y) :=
  (h.setReg _ _).testInteger hi _ _

theorem Updates.subtractFromReg (h : Updates i s t) (hi : i.writesEx) (w : Reg) (y : Word) :
    Updates i s (t.subtractFromReg w y) :=
  (h.setReg _ _).testInteger hi _ _

theorem Updates.testLost (h : Updates i s t) (hi : i.writesEx) (lost : Bool) : Updates i s (t.testLost lost) := by
  unfold State.testLost
  split
  · exact h.integerOverflow hi
  · exact h

theorem Updates.testExponent (h : Updates i s t) (hi : i.writesEx) (sc : BitVec 13) :
    Updates i s (t.testExponent sc) := by
  unfold State.testExponent
  split
  · exact h.floatingOverflow hi
  · exact h

theorem Updates.storeFloating (h : Updates i s t) (w : Reg) (af : BitVec 39) (sc : BitVec 13) :
    Updates i s (t.storeFloating w af sc) := h.setPair _ _

theorem Updates.finishFloating (h : Updates i s t) (hi : i.writesEx) (w : Reg) (af : BitVec 39) (sc : BitVec 13) :
    Updates i s (t.finishFloating w af sc) := (h.testExponent hi _).storeFloating _ _ _

theorem Updates.floatingSum (h : Updates i s t) (hi : i.writesEx) (add : Bool) (w : Reg) (m : DoubleWord) :
    Updates i s (t.floatingSum add w m) := by
  unfold State.floatingSum
  extract_lets
  split
  · exact h.storeFloating _ _ _
  · split
    · exact h.storeFloating _ _ _
    · exact h.finishFloating hi _ _ _

/-! ## The decode and the tests -/

theorem Updates.entered (hrun : s.run = .running) (a : AddressPart) : Updates i s (s.entered a) := by
  have h : Updates i s s.steal := .single (.steal s)
  unfold State.entered
  split
  · exact h.steal.tail (.decode hrun)
  · exact h.tail (.decode hrun)

variable {a : AddressPart} {addr : Word} {op : Word → State → Out} {rest : Out}

/-- A fault is no next state. -/
theorem ensures_fault {P : State → Prop} (r : Fault) : Out.ensures (.fault r) P := by
  intro t h
  cases h

/-- The decode is a chain of updates, so an instruction is one if its operation is. -/
theorem updates_cycle (hrun : s.run = .running)
    (hop : ∀ (addr : Word) (t : State), Updates i s t → t.run = .running → Out.ensures (op addr t) (Updates i s)) :
    Out.ensures (cycle a s op) (Updates i s) := by
  refine ensures_cycle ?forbidden ?missing fun addr _ => hop addr _ (.entered hrun a) (by simpa using hrun)
  case forbidden => exact .raise (.single (.advance s))
  case missing => exact .raise (.single (.decode hrun))

theorem updates_testAddress (h : Updates i s t) (hrest : t.missing addr = false → Out.ensures rest (Updates i s)) :
    Out.ensures (testAddress t addr rest) (Updates i s) := ensures_testAddress h.raise hrest

theorem updates_testProtection (h : Updates i s t) (hrest : Out.ensures rest (Updates i s)) :
    Out.ensures (testProtection t addr rest) (Updates i s) := ensures_testProtection h.raise fun _ => hrest

theorem updates_testMode (h : Updates i s t) (hrest : Out.ensures rest (Updates i s)) :
    Out.ensures (testMode t rest) (Updates i s) := ensures_testMode h.raise fun _ => hrest

/-! ## The shapes that several instructions share -/

/-- The instructions that load a register from a storage word, byte or key. -/
theorem updates_load (hrun : s.run = .running) (w : Reg) (v : Word → State → Word) :
    Out.ensures (cycle a s fun addr t => testAddress t addr (.next (t.setReg w (v addr t)))) (Updates i s) :=
  updates_cycle hrun fun _ _ h _ => updates_testAddress h fun _ => ensures_next (h.setReg w _)

/-- The instructions that store one word, or one byte of it. -/
theorem updates_store (hrun : s.run = .running) (v : Word → State → Word) :
    Out.ensures
      (cycle a s fun addr t => testAddress t addr (testProtection t addr (.next (t.wordWrite addr (v addr t)))))
      (Updates i s) :=
  updates_cycle hrun fun _ _ h _ => updates_testAddress h fun hm =>
    updates_testProtection h (ensures_next (h.wordWrite hm _))

/-- The instructions that compare the effective address with something and skip. -/
theorem updates_skip (hrun : s.run = .running) (c : Word → State → Bool) :
    Out.ensures (cycle a s fun addr t => .next (t.skipIf (c addr t))) (Updates i s) :=
  updates_cycle hrun fun _ _ h _ => ensures_next (h.skipIf _)

/-- The instructions that clear EX(22:23) and then test the address of their operand. -/
theorem updates_arithmetic (hrun : s.run = .running) (hi : i.writesEx) {rest : Word → State → Out}
    (hrest : ∀ (addr : Word) (t : State), Updates i s t.clearEx → Out.ensures (rest addr t) (Updates i s)) :
    Out.ensures (cycle a s fun addr t => testAddress t.clearEx addr (rest addr t)) (Updates i s) :=
  updates_cycle hrun fun addr t h _ => updates_testAddress (h.clearEx hi) fun _ => hrest addr t (h.clearEx hi)

end

/-! ## Every instruction is a chain of its updates -/

section
variable {s : State}

theorem updates_io (hrun : s.run = .running) (w : Reg) (a : AddressPart) :
    Out.ensures (execIo w a s) (Updates (.io w a) s) :=
  updates_cycle hrun fun addr t h _ => updates_testMode h <| by
    extract_lets n
    split
    · exact ensures_next (h.setEx trivial _ _)
    · split
      · exact ensures_next (h.setEx trivial _ _)
      · exact ensures_next (h.setEx trivial _ _)
      · unfold State.acceptedIo
        extract_lets c
        have hc := h.clearEx (i := .io w a) trivial
        split
        · exact ensures_next (Updates.setReg (hc.tail (.command ..)) _ _)
        · exact ensures_next (hc.tail (.command ..))

theorem updates_ci (hrun : s.run = .running) (w : Reg) (a : AddressPart) :
    Out.ensures (execCi w a s) (Updates (.ci w a) s) :=
  updates_cycle hrun fun addr t h _ => by
    have hc := h.clearEx (i := .ci w a) trivial
    extract_lets u af p sc
    split
    · exact ensures_next (hc.setPair _ _)
    · exact ensures_next (((hc.testExponent trivial _).testExponent trivial _).setPair _ _)

theorem updates_cf (hrun : s.run = .running) (w : Reg) (a : AddressPart) :
    Out.ensures (execCf w a s) (Updates (.cf w a) s) :=
  updates_cycle hrun fun addr t h _ => by
    have hc := h.clearEx (i := .cf w a) trivial
    extract_lets u d
    split
    · exact ensures_next (hc.integerOverflow trivial)
    · exact ensures_next (hc.setReg _ _)

theorem updates_wd (hrun : s.run = .running) (w : Reg) (a : AddressPart) :
    Out.ensures (execWd w a s) (Updates (.wd w a) s) :=
  updates_arithmetic hrun trivial fun addr t h => by
    split
    · exact ensures_next (h.integerOverflow trivial)
    · exact ensures_next ((h.setReg _ _).setReg _ _)

theorem updates_fd (hrun : s.run = .running) (w : Reg) (a : AddressPart) :
    Out.ensures (execFd w a s) (Updates (.fd w a) s) :=
  updates_arithmetic hrun trivial fun addr t h => by
    extract_lets d m u divisorZero
    split
    · exact ensures_next (h.steal.setReg _ _)
    · split
      · exact ensures_next (h.steal.floatingOverflow trivial)
      · split
        · exact ensures_fault _
        · exact ensures_next (h.steal.finishFloating trivial _ _ _)

/-- RX loads the register before the protection test (41_register_transfer.md R158). -/
theorem updates_rx (hrun : s.run = .running) (w : Reg) (a : AddressPart) :
    Out.ensures (execRx w a s) (Updates (.rx w a) s) :=
  updates_cycle hrun fun _ _ h _ => updates_testAddress h fun hm =>
    updates_testProtection (h.setReg _ _) (ensures_next ((h.setReg _ _).steal.wordWrite hm _))

/-- DS stores two words, each after its own protection test (R162). -/
theorem updates_ds (hrun : s.run = .running) (w : Reg) (a : AddressPart) :
    Out.ensures (execDs w a s) (Updates (.ds w a) s) :=
  updates_cycle hrun fun addr t h _ => updates_testAddress h fun hm => updates_testProtection h <| by
    have h1 := h.wordWrite hm (t.reg w)
    refine updates_testProtection h1 (ensures_next (h1.steal.tail (.wordWrite _ fun hinv => ?_)))
    exact firstWordAddress_exists hinv (by simpa using hm)

/-- NS and ND normalize before the address is tested (44_logical_and_shift.md R252). -/
theorem updates_countShifts {i : Instr} {t : State} {addr : Word} (h : Updates i s t) (b : Byte) :
    Out.ensures (testAddress t addr (testProtection t addr (.next (t.byteWrite addr b)))) (Updates i s) :=
  updates_testAddress h fun hm => updates_testProtection h (ensures_next (h.byteWrite hm b))

/-- What an instruction makes of a running state is a chain of the updates that it may make. -/
theorem exec_updates (i : Instr) (hrun : s.run = .running) : Out.ensures (exec i s) (Updates i s) := by
  unfold exec
  cases i with
  | hl w a | rl w a | bz w a | bl w a | la w a | lo w a | lx w a | kl w a => exact updates_load hrun _ _
  | rs w a | is w a | ms w a | hs w a | xs w a | ps w a => exact updates_store hrun _
  | sh w a | sl w a | se w a | sn w a | so w a | sz w a | sx w a => exact updates_skip hrun _
  | sp w a =>
    exact updates_cycle hrun fun _ _ h _ => updates_testAddress h fun _ => ensures_next (h.skipIf _)
  | jl w a =>
    exact updates_cycle hrun fun _ _ h _ => updates_testAddress h fun _ =>
      updates_testProtection h (ensures_next (h.jump _ _))
  | je w a =>
    exact updates_cycle hrun fun _ _ h ht => updates_testMode h <| updates_testAddress h fun _ =>
      ensures_next (Updates.jump (h.tail (.enable ht)) _ _)
  | jd w a =>
    exact updates_cycle hrun fun _ _ h ht => updates_testMode h <| updates_testAddress h fun _ =>
      ensures_next (Updates.jump (h.tail (.disable ht)) _ _)
  | rx w a => exact updates_rx hrun w a
  | dl w a =>
    exact updates_cycle hrun fun _ _ h _ => updates_testAddress h fun _ =>
      ensures_next ((h.setReg _ _).steal.setReg _ _)
  | ds w a => exact updates_ds hrun w a
  | am w a => exact updates_cycle hrun fun _ _ h _ => updates_testAddress h fun _ => ensures_next (h.tail (.modify ..))
  | al w a => exact updates_cycle hrun fun _ _ h _ => ensures_next (h.setReg _ _)
  | ac w a =>
    exact updates_cycle hrun fun _ _ h _ => ensures_next (((h.clearEx trivial).setReg _ _).testInteger trivial _ _)
  | ba w a | wa w a => exact updates_arithmetic hrun trivial fun _ _ h => ensures_next (h.addToReg trivial _ _)
  | bs w a | ws w a => exact updates_arithmetic hrun trivial fun _ _ h => ensures_next (h.subtractFromReg trivial _ _)
  | aa w a | ss w a =>
    exact updates_arithmetic hrun trivial fun _ _ h =>
      ensures_next (((h.setReg _ _).steal.setReg _ _).testInteger trivial _ _)
  | wm w a => exact updates_cycle hrun fun _ _ h _ => updates_testAddress h fun _ => ensures_next (h.setPair _ _)
  | wd w a => exact updates_wd hrun w a
  | as w a =>
    exact updates_cycle hrun fun _ _ h _ => ensures_next (((h.clearEx trivial).testLost trivial _).setReg _ _)
  | ad w a =>
    exact updates_cycle hrun fun _ _ h _ => ensures_next (((h.clearEx trivial).testLost trivial _).setPair _ _)
  | ls w a => exact updates_cycle hrun fun _ _ h _ => ensures_next (h.setReg _ _)
  | ld w a => exact updates_cycle hrun fun _ _ h _ => ensures_next (h.setPair _ _)
  | ns w a => exact updates_cycle hrun fun _ _ h _ => updates_countShifts (h.setReg _ _) _
  | nd w a => exact updates_cycle hrun fun _ _ h _ => updates_countShifts (h.setPair _ _) _
  | ci w a => exact updates_ci hrun w a
  | cf w a => exact updates_cf hrun w a
  | fa w a | fs w a =>
    exact updates_arithmetic hrun trivial fun _ _ h => ensures_next (h.steal.floatingSum trivial _ _ _)
  | fm w a => exact updates_arithmetic hrun trivial fun _ _ h => ensures_next (h.steal.finishFloating trivial _ _ _)
  | fd w a => exact updates_fd hrun w a
  | ic w a => exact updates_cycle hrun fun _ _ h _ => updates_testMode h (ensures_next (h.tail (.clearRequests ..)))
  | ml w a =>
    exact updates_cycle hrun fun _ _ h _ => updates_testMode h <| updates_testAddress h fun _ =>
      ensures_next (h.tail (.loadMask ..))
  | pl w a =>
    exact updates_cycle hrun fun _ _ h _ => updates_testMode h <| updates_testAddress h fun _ =>
      ensures_next (h.tail (.loadProtection ..))
  | xl w a => exact updates_cycle hrun fun _ _ h _ => updates_testAddress h fun _ => ensures_next (h.tail (.loadEx ..))
  | ks w a =>
    exact updates_cycle hrun fun _ _ h _ => updates_testMode h <| updates_testAddress h fun hm =>
      ensures_next (h.tail (.storeKey _ hm))
  | io w a => exact updates_io hrun w a
  | aw w a => exact updates_cycle hrun fun _ _ h _ => updates_testMode h (ensures_next (h.tail (.autoload ..)))

end

/-! ## What Autoload Word and the environment leave alone -/

section
variable {s t : State}

/-- The registers that neither Autoload Word nor, with the power on, the environment writes: EX(21), PR and IM. -/
structure SameModeRegisters (s t : State) : Prop where
  precision : t.ex.getMsbD 0 = s.ex.getMsbD 0
  protection : t.pr = s.pr
  mask : t.im = s.im

theorem SameModeRegisters.refl (s : State) : SameModeRegisters s s := ⟨rfl, rfl, rfl⟩

theorem SameModeRegisters.trans {u : State} (h : SameModeRegisters s t) (h' : SameModeRegisters t u) :
    SameModeRegisters s u :=
  ⟨h'.precision.trans h.precision, h'.protection.trans h.protection, h'.mask.trans h.mask⟩

theorem sameModeRegisters_of_eq (h1 : t.ex = s.ex) (h2 : t.pr = s.pr) (h3 : t.im = s.im) : SameModeRegisters s t :=
  ⟨congrArg (·.getMsbD 0) h1, h2, h3⟩

/-- EX(21) is not written with EX(22:23). -/
theorem setEx_precision (s : State) (o c : Bool) : (s.setEx o c).ex.getMsbD 0 = s.ex.getMsbD 0 := by
  rw [setEx_bits]
  exact (ex_append_bits _ o c).1

theorem sameModeRegisters_clearEx (s : State) : SameModeRegisters s s.clearEx := ⟨setEx_precision s _ _, rfl, rfl⟩

@[simp] theorem deviceCommand_ex (s : State) (n : Nat) (c : BitVec 6) (d : Option Word) :
    (s.deviceCommand n c d).ex = s.ex := by
  unfold State.deviceCommand; extract_lets; split <;> rfl

@[simp] theorem deviceCommand_pr (s : State) (n : Nat) (c : BitVec 6) (d : Option Word) :
    (s.deviceCommand n c d).pr = s.pr := by
  unfold State.deviceCommand; extract_lets; split <;> rfl

@[simp] theorem deviceCommand_monitorMode (s : State) (n : Nat) (c : BitVec 6) (d : Option Word) :
    (s.deviceCommand n c d).monitorMode = s.monitorMode := by
  unfold State.deviceCommand; extract_lets; split <;> rfl

@[simp] theorem deviceCommand_im (s : State) (n : Nat) (c : BitVec 6) (d : Option Word) :
    (s.deviceCommand n c d).im = s.im := by
  unfold State.deviceCommand; extract_lets; split <;> rfl

@[simp] theorem deviceCommand_interruptDisabled (s : State) (n : Nat) (c : BitVec 6) (d : Option Word) :
    (s.deviceCommand n c d).interruptDisabled = s.interruptDisabled := by
  unfold State.deviceCommand; extract_lets; split <;> rfl

@[simp] theorem deviceCommand_keys (s : State) (n : Nat) (c : BitVec 6) (d : Option Word) :
    (s.deviceCommand n c d).keys = s.keys := by
  unfold State.deviceCommand; extract_lets; split <;> rfl

@[simp] theorem deviceCommand_run (s : State) (n : Nat) (c : BitVec 6) (d : Option Word) :
    (s.deviceCommand n c d).run = s.run := by
  unfold State.deviceCommand; extract_lets; split <;> rfl

/-- With the power on an event leaves the control state, and the mode registers. -/
theorem event_powered (hs : s.run ≠ .powerOff) (e : EnvEvent) :
    (s.event e).run = s.run ∧ SameModeRegisters s (s.event e) := by
  cases e with
  | powerFail => simp only [State.event, if_neg hs]; exact ⟨trivial, rfl, rfl, rfl⟩
  | powerOn => simp only [State.event, if_neg hs]; exact ⟨trivial, .refl s⟩
  | _ => exact ⟨rfl, rfl, rfl, rfl⟩

theorem events_sameModeRegisters (es : List EnvEvent) : ∀ {s : State}, s.run ≠ .powerOff →
    SameModeRegisters s (s.events es) := by
  induction es with
  | nil => exact fun _ => .refl _
  | cons e es ih =>
    intro s hs
    obtain ⟨hrun, hsame⟩ := event_powered hs e
    exact hsame.trans (ih (hrun ▸ hs))

theorem finishAutoload_sameModeRegisters (s : State) (target acc : Word) :
    SameModeRegisters s (s.finishAutoload target acc) := by
  unfold State.finishAutoload
  extract_lets u
  split
  · exact sameModeRegisters_of_eq (raise_ex u) (raise_pr u) (raise_im u)
  · exact sameModeRegisters_of_eq (by simp [u]) (by simp [u]) (by simp [u])

/-- The state in which a look at device 0 ends. -/
def AutoloadResult.state : AutoloadResult → State
  | .over t => t
  | .goesOn _ t => t

theorem autoloadLook_sameModeRegisters (s : State) (p : Autoload) :
    SameModeRegisters s (s.autoloadLook p).state := by
  have hreset (u : State) : SameModeRegisters u u.resetSystem :=
    sameModeRegisters_of_eq (resetSystem_ex u) (resetSystem_pr u) (resetSystem_im u)
  have hclear := sameModeRegisters_clearEx s
  unfold State.autoloadLook
  cases s.condition 0 with
  | disconnected => exact hreset s
  | busy => exact .refl s
  | available =>
    simp only
    split
    · split
      · exact hclear
      · split
        · exact hclear.trans (hreset _)
        · split
          · exact hclear.trans (finishAutoload_sameModeRegisters _ _ _)
          · exact hclear
    · have hcommand := sameModeRegisters_of_eq (deviceCommand_ex s 0 2 none) (deviceCommand_pr ..) (deviceCommand_im ..)
      exact hcommand.trans (sameModeRegisters_clearEx _)

theorem runAutoload_sameModeRegisters (sched : List (List EnvEvent)) : ∀ (p : Autoload) (s : State),
    SameModeRegisters s (runAutoload sched p s) := by
  induction sched with
  | nil =>
    intro p s
    have hlook := autoloadLook_sameModeRegisters s p
    unfold runAutoload
    rcases heq : s.autoloadLook p with t | ⟨q, t⟩
    · rw [heq] at hlook; exact ⟨hlook.precision, hlook.protection, hlook.mask⟩
    · rw [heq] at hlook; exact ⟨hlook.precision, hlook.protection, hlook.mask⟩
  | cons es sched ih =>
    intro p s
    have hlook := autoloadLook_sameModeRegisters s p
    unfold runAutoload
    rcases heq : s.autoloadLook p with t | ⟨q, t⟩
    · rw [heq] at hlook; exact ⟨hlook.precision, hlook.protection, hlook.mask⟩
    · rw [heq] at hlook
      let u : State := { t with run := .autoloading q, schedule := sched }
      have hgoesOn : SameModeRegisters s u := ⟨hlook.precision, hlook.protection, hlook.mask⟩
      have hevents : SameModeRegisters u (u.events es) := events_sameModeRegisters es nofun
      exact (hgoesOn.trans hevents).trans (ih q _)

theorem autoload_sameModeRegisters (s : State) (addr : Word) : SameModeRegisters s (s.autoload addr) := by
  let u : State := { s with run := .autoloading ⟨addr, 0, 4, false⟩ }
  have hrun : SameModeRegisters s u := ⟨rfl, rfl, rfl⟩
  exact hrun.trans (runAutoload_sameModeRegisters _ _ u)

/-! ## The modes of the reset state -/

theorem finishAutoload_run (s : State) (target acc : Word) : (s.finishAutoload target acc).run = .running := by
  unfold State.finishAutoload
  extract_lets u
  split <;> simp [u]

/-- A look at device 0 that ends the AW in the reset state has performed the reset action. -/
theorem autoloadLook_resetModes {p : Autoload} (h : s.autoloadLook p = .over t) : t.resetModes := by
  unfold State.autoloadLook at h
  cases hc : s.condition 0 with
  | disconnected => simp only [hc, AutoloadResult.over.injEq] at h; subst h; exact fun _ => ⟨rfl, rfl⟩
  | busy => simp only [hc, reduceCtorEq] at h
  | available =>
    simp only [hc] at h
    split at h
    · split at h
      · cases h
      · split at h
        · cases h; exact fun _ => ⟨rfl, rfl⟩
        · split at h
          · cases h; exact fun hr => by simp [finishAutoload_run] at hr
          · cases h
    · cases h

theorem runAutoload_resetModes (sched : List (List EnvEvent)) : ∀ (p : Autoload) (s : State),
    (runAutoload sched p s).resetModes := by
  induction sched with
  | nil =>
    intro p s
    unfold runAutoload
    rcases heq : s.autoloadLook p with t | ⟨q, t⟩
    · have hover := autoloadLook_resetModes heq
      exact hover
    · exact nofun
  | cons es sched ih =>
    intro p s
    unfold runAutoload
    rcases heq : s.autoloadLook p with t | ⟨q, t⟩
    · have hover := autoloadLook_resetModes heq
      exact hover
    · exact ih q _

theorem serve_resetModes (s : State) (i : Nat) : (s.serve i).resetModes := fun _ => ⟨rfl, rfl⟩

theorem service_resetModes (h : s.resetModes) : s.service.resetModes := by
  unfold State.service
  split
  · exact serve_resetModes s _
  · exact h

theorem raise_resetModes (h : s.resetModes) : s.raise.resetModes :=
  service_resetModes (s := State.pend { s with amPending := none } 0) h

theorem resetModes_of_running (h : s.run = .running) : s.resetModes := fun hr => by simp [h] at hr

theorem event_resetModes (h : s.resetModes) (e : EnvEvent) : (s.event e).resetModes := by
  cases e with
  | powerFail => simp only [State.event]; split <;> exact h
  | powerOn v =>
    simp only [State.event]
    split
    · exact fun _ => ⟨rfl, rfl⟩
    · exact h
  | _ => exact h

theorem events_resetModes (es : List EnvEvent) : ∀ {s : State}, s.resetModes → (s.events es).resetModes := by
  induction es with
  | nil => exact fun h => h
  | cons e es ih => exact fun h => ih (event_resetModes h e)

theorem takeEvents_resetModes (h : s.resetModes) : s.takeEvents.resetModes := by
  unfold State.takeEvents
  split
  · exact h
  · exact events_resetModes _ (s := { s with schedule := _ }) h

theorem poll_run (s : State) : s.poll.run = s.run := by
  unfold State.poll
  split
  · rfl
  · exact service_run s

end

/-! ## What each update keeps -/

section
variable {i : Instr} {s t : State}

theorem Update.inv (h : s.Inv) (hu : Update i s t) : t.Inv := by
  cases hu with
  | steal => exact steal_inv h
  | advance => exact advanced_inv h
  | decode => exact decoded_inv h
  | raise => exact raise_inv h
  | wordWrite v hb => exact wordWrite_inv h (hb h) v
  | jumpTo _ b => exact ⟨h.installation, evenAddress_bit23 b, h.protection0, h.mask0, h.store, h.keys, h.autoload⟩
  | skip => exact ⟨h.installation, ic_add_two h.evenIc, h.protection0, h.mask0, h.store, h.keys, h.autoload⟩
  | loadProtection =>
    exact ⟨h.installation, h.evenIc, by simp [BitVec.getMsbD_or], h.mask0, h.store, h.keys, h.autoload⟩
  | loadMask _ v =>
    refine ⟨h.installation, h.evenIc, h.protection0, ?_, h.store, h.keys, h.autoload⟩
    rw [getMsbD_or_bitMask v (i := 0) (j := 0) (by decide) (by decide), decide_eq_true rfl, Bool.or_true]
  | storeKey k hb => exact keyWrite_inv h hb k
  | command _ n c d => exact deviceCommand_inv h n c d
  | autoload _ b => exact autoload_inv h b
  | setReg | pend | setEx | modify | clearRequests | loadEx | enable | disable =>
    exact inv_of_eq h rfl rfl rfl rfl rfl rfl rfl

theorem Update.resetModes (h : s.resetModes) (hu : Update i s t) : t.resetModes := by
  cases hu with
  | raise => exact raise_resetModes h
  | wordWrite | command => simpa [State.resetModes] using h
  | decode hrun | enable hrun | disable hrun => exact resetModes_of_running hrun
  | autoload _ b => exact runAutoload_resetModes _ _ _
  | _ => exact h

/-- Only the instructions named in 10_state.md R27 make an update that writes EX. -/
theorem Update.ex (hi : ¬i.writesEx) (hu : Update i s t) : t.ex = s.ex := by
  cases hu with
  | setEx _ _ _ hw => exact absurd hw hi
  | loadEx | autoload | command => exact absurd trivial hi
  | raise => exact raise_ex s
  | wordWrite => exact wordWrite_ex ..
  | _ => rfl

/-- Only XL makes an update that writes EX(21). -/
theorem Update.precision (hi : ∀ w a, i ≠ .xl w a) (hu : Update i s t) : t.ex.getMsbD 0 = s.ex.getMsbD 0 := by
  cases hu with
  | setEx => exact setEx_precision ..
  | loadEx => exact absurd rfl (hi _ _)
  | autoload _ b => exact (autoload_sameModeRegisters s b).precision
  | command => rw [deviceCommand_ex]
  | raise => rw [raise_ex]
  | wordWrite => rw [wordWrite_ex]
  | _ => rfl

/-- Only PL makes an update that writes PR. -/
theorem Update.pr (hi : ∀ w a, i ≠ .pl w a) (hu : Update i s t) : t.pr = s.pr := by
  cases hu with
  | loadProtection => exact absurd rfl (hi _ _)
  | autoload _ b => exact (autoload_sameModeRegisters s b).protection
  | command => exact deviceCommand_pr ..
  | raise => exact raise_pr s
  | wordWrite => exact wordWrite_pr ..
  | _ => rfl

/-- Only ML makes an update that writes IM. -/
theorem Update.im (hi : ∀ w a, i ≠ .ml w a) (hu : Update i s t) : t.im = s.im := by
  cases hu with
  | loadMask => exact absurd rfl (hi _ _)
  | autoload _ b => exact (autoload_sameModeRegisters s b).mask
  | command => exact deviceCommand_im ..
  | raise => exact raise_im s
  | wordWrite => exact wordWrite_im ..
  | _ => rfl

/-- Only KS and AW make an update that writes keys. -/
theorem Update.keys (hi : ∀ w a, i ≠ .ks w a ∧ i ≠ .aw w a) (hu : Update i s t) : t.keys = s.keys := by
  cases hu with
  | storeKey => exact absurd rfl (hi _ _).1
  | autoload => exact absurd rfl (hi _ _).2
  | command => exact deviceCommand_keys ..
  | raise => exact raise_keys s
  | wordWrite => exact wordWrite_keys ..
  | _ => rfl

end

/-! ## The promises about instructions -/

/-- Settles O58: the instructions that R27 does not name make no update that writes EX, and only XL one that writes
EX(21). -/
theorem onlyTheNamedInstructionsChangeEx : Obligations.OnlyTheNamedInstructionsChangeEx := by
  intro i s t hrun ht
  have h : Updates i s t := exec_updates i hrun t ht
  exact ⟨fun hi => h.const (·.ex) (Update.ex hi), fun hi => h.const (·.ex.getMsbD 0) (Update.precision hi)⟩

/-- Settles O59: PR, IM and the keys each have one update that writes them, beside Autoload Word for the keys. -/
theorem protectionStateHasItsOwnWriters : Obligations.ProtectionStateHasItsOwnWriters := by
  intro i s t hrun ht
  have h : Updates i s t := exec_updates i hrun t ht
  exact ⟨fun hi => h.const (·.pr) (Update.pr hi), fun hi => h.const (·.im) (Update.im hi),
    fun hi => h.const (·.keys) (Update.keys hi)⟩

/-! ## Every step keeps the invariant -/

/-- What O57 says of a state that a step can leave running, or enters. -/
def State.Sound (s : State) : Prop := s.Inv ∧ s.resetModes

/-- What O57 says of a step from `s` to `t`: the modes of the reset state are kept, the invariant is met. -/
def KeepsSound (s t : State) : Prop := t.Inv ∧ (s.resetModes → t.resetModes)

section
variable {s : State}

/-- Trapping in a running state. -/
theorem raise_sound (h : s.Inv) (hrun : s.run = .running) : s.raise.Sound :=
  ⟨raise_inv h, raise_resetModes (resetModes_of_running hrun)⟩

theorem exec_sound (h : s.Inv) (hrun : s.run = .running) (i : Instr) : Out.ensures (exec i s) State.Sound :=
  fun _ ht =>
    have hu := exec_updates i hrun _ ht
    ⟨hu.keeps Update.inv h, hu.keeps Update.resetModes (resetModes_of_running hrun)⟩

theorem executeWord_sound (h : s.Inv) (hrun : s.run = .running) (v : Word) :
    Out.ensures (executeWord v s) State.Sound := by
  unfold executeWord
  split
  · exact exec_sound h hrun _
  · refine ensures_cycle (raise_sound (advanced_inv h) hrun) (raise_sound (decoded_inv h) hrun) fun _ _ => ?_
    exact ensures_next (raise_sound (entered_inv h _) (by simpa using hrun))

theorem resetSystem_sound (h : s.Inv) : s.resetSystem.Sound := ⟨resetSystem_inv h, fun _ => ⟨rfl, rfl⟩⟩

theorem powerDown_sound (h : s.Inv) : s.powerDown.Sound := ⟨powerDown_inv h, nofun⟩

theorem fetchAndExecute_sound (h : s.Inv) (hrun : s.run = .running) :
    Out.ensures (fetchAndExecute s) State.Sound := by
  have hs := steal_inv h
  unfold fetchAndExecute
  extract_lets u
  split
  · exact ensures_next (raise_sound hs hrun)
  · exact ensures_next (resetSystem_sound hs)
  · exact ensures_next (powerDown_sound hs)
  · exact executeWord_sound hs hrun _

theorem autoload_sound (h : s.Inv) (addr : Word) : (s.autoload addr).Sound :=
  ⟨autoload_inv h addr, runAutoload_resetModes _ _ _⟩

theorem keepsSound_of_sound {t : State} (h : t.Sound) : KeepsSound s t := ⟨h.1, fun _ => h.2⟩

theorem ensures_keepsSound {o : Out} (h : Out.ensures o State.Sound) : Out.ensures o (KeepsSound s) :=
  fun t ht => keepsSound_of_sound (h t ht)

/-- One look at the keys in the reset state (70_reset_and_hazards.md R402): the step is over, or it fetches. -/
theorem afterReset_keepsSound (h : s.Inv) :
    (∃ t, s.afterReset = .stays t ∧ KeepsSound s t) ∨ ∃ t, s.afterReset = .fetches t ∧ t.Inv ∧ t.run = .running := by
  unfold State.afterReset
  split
  · have hoff : State.Inv { s with run := .powerOff, powerFailing := false } :=
      ⟨h.installation, h.evenIc, h.protection0, h.mask0, h.store, h.keys, trivial⟩
    exact .inl ⟨_, rfl, hoff, fun _ => nofun⟩
  · split
    · have hstart : State.Inv { s with run := .running, ic := 0 } :=
        ⟨h.installation, BitVec.getMsbD_zero, h.protection0, h.mask0, h.store, h.keys, trivial⟩
      refine .inl ⟨_, rfl, keepsSound_of_sound ?_⟩
      split
      · exact autoload_sound hstart 0
      · exact raise_sound hstart rfl
    · split
      · have hs := steal_inv h
        refine .inr ⟨_, rfl, ?_, rfl⟩
        exact ⟨hs.installation, evenAddress_bit23 _, hs.protection0, hs.mask0, hs.store, hs.keys, trivial⟩
      · exact .inl ⟨s, rfl, h, id⟩

theorem processorStep_keepsSound (h : s.Inv) : Out.ensures (processorStep s) (KeepsSound s) := by
  unfold processorStep
  cases hrun : s.run with
  | running => exact ensures_keepsSound (fetchAndExecute_sound (poll_inv h) ((poll_run s).trans hrun))
  | resetState =>
    rcases afterReset_keepsSound h with ⟨t, ht, hkeeps⟩ | ⟨t, ht, hinv, htrun⟩
    · simp only [ht]; exact ensures_next hkeeps
    · simp only [ht]; exact ensures_keepsSound (fetchAndExecute_sound hinv htrun)
  | autoloading p =>
    have hp : s.run.wf := h.autoload
    rw [hrun] at hp
    exact ensures_next (keepsSound_of_sound ⟨runAutoload_inv _ h hp, runAutoload_resetModes _ _ _⟩)
  | powerOff => exact ensures_next ⟨h, id⟩

end

/-- Settles O57: the environment's actions keep the invariant and the modes of the reset state, and so does each control
state's pass of the processor; while running, by the updates that an instruction can make. -/
theorem everyStepKeepsTheInvariant : Obligations.EveryStepKeepsTheInvariant := by
  intro s t h ht
  obtain ⟨hinv, hmodes⟩ := processorStep_keepsSound (takeEvents_inv h) t ht
  exact ⟨hinv, fun hs => hmodes (takeEvents_resetModes hs)⟩

/-- Settles O56: the state right after Power On (70_reset_and_hazards.md R401), field by field. -/
theorem theInvariantHoldsAtReset : Obligations.TheInvariantHoldsAtReset where
  left := {
    installation := by decide
    evenIc := by decide
    protection0 := by decide
    mask0 := by decide
    store := ⟨.nil, nofun⟩
    keys := ⟨.nil, nofun⟩
    autoload := trivial }
  right := fun _ => ⟨rfl, rfl⟩

end Sys2Proof.Machine
end

section
/-! The high-speed channel between two accesses of the processor (20_memory.md R74, R77, R78): what the channel may
write, what one stolen cycle leaves, and what DL and RX find if a transfer comes between their two accesses. -/

namespace Sys2Proof.Machine

section
variable {s : State} {a : AddressPart} {addr : Word} {w : Reg} {x : Transfer} {l : List Transfer}
  {rest : List (List Transfer)}

/-! ## What the channel may do -/

/-- A block transfer is in progress on a high-speed device that a control command has started and that has not become
available since (47_input_output.md R340). -/
theorem transferring_iff {n : Nat} : s.transferring n = true ↔
    ∃ d, s.device? n = some d ∧ d.kind = .highSpeed ∧ d.condition ≠ .available ∧ d.transferring = true := by
  unfold State.transferring
  cases s.device? n with
  | none => simp
  | some d => simp [and_assoc]

theorem mayTransfer_iff : s.mayTransfer x = true ↔
    s.run ≠ .powerOff ∧ s.transferring x.device = true ∧ 4 ≤ x.wordNumber ∧ x.wordNumber ≤ s.inst.wordLimit := by
  simp [State.mayTransfer, and_assoc]

/-! ## The cycles stolen before one access -/

/-- The channel uses up one list of its script and changes nothing else but the store. -/
theorem steal_eq (h : s.steals = l :: rest) : s.steal = { s with store := s.steal.store, steals := rest } := by
  simp [State.steal, h]

theorem steal_idle (h : s.steals = [] :: rest) : s.steal = { s with steals := rest } := by
  simp [State.steal, h]

/-- A byte stays if the channel may make none of the transfers to its word. -/
theorem readPlane_foldl_transferred_idle {n k : Nat} (hk : k / 2 = n) :
    ∀ l : List Transfer, (∀ x ∈ l, x.wordNumber = n → s.mayTransfer x = false) → ∀ m : Memory,
      readPlane (l.foldl s.transferred m) k = readPlane m k
  | [], _, _ => rfl
  | x :: l, h, m => by
    obtain ⟨hx, hl⟩ := List.forall_mem_cons.1 h
    have first : readPlane (s.transferred m x) k = readPlane m k := by
      by_cases hn : x.wordNumber = n
      · simp [State.transferred, hx hn]
      · exact readPlane_transferred_other s m (by omega) (by omega)
    rw [List.foldl_cons, readPlane_foldl_transferred_idle hk l hl, first]

/-- A word stays if the channel may make none of the transfers to it. -/
theorem steal_readWordAt_idle {n : Nat} (hs : s.steals = l :: rest)
    (h : ∀ x ∈ l, x.wordNumber = n → s.mayTransfer x = false) : s.steal.readWordAt n = s.readWordAt n := by
  unfold State.readWordAt
  cases registerAt n with
  | some r => simp
  | none =>
    have plane : ∀ k, k / 2 = n → readPlane s.steal.store k = readPlane s.store k := fun k hk => by
      simpa [State.steal, hs] using readPlane_foldl_transferred_idle hk l h s.store
    simp only [plane (2 * n) (by omega), plane (2 * n + 1) (by omega)]

/-! ## The two accesses of DL and RX -/

/-- DL and RX between their accesses: the register holds the word that the first access read, and the channel has stolen
the cycles before the second. -/
def State.afterFirstAccess (s : State) (w : Reg) (a : AddressPart) (addr : Word) : State :=
  ((s.entered a).setReg w ((s.entered a).wordRead addr)).steal

@[simp] theorem afterFirstAccess_reg : (s.afterFirstAccess w a addr).reg w = (s.entered a).wordRead addr := by
  simp [State.afterFirstAccess]

theorem afterFirstAccess_storeRising (h : s.storeRising) : (s.afterFirstAccess w a addr).storeRising :=
  steal_storeRising (s := (s.entered a).setReg w ((s.entered a).wordRead addr)) (entered_storeRising h a)

/-- The first word that DL loads is read after the second (R160). -/
theorem exec_dl (h : s.reaches a addr) (hm : s.missing addr = false) :
    exec (.dl w a) s = .next ((s.afterFirstAccess w a addr).setReg (preceding w)
      ((s.afterFirstAccess w a addr).wordRead (firstWordAddress addr))) := by
  show execDl w a s = _
  rw [execDl, cycle_reaches h, testAddress_exists (by simpa using hm)]
  rfl

/-- RX stores what the register held at the start over whatever the word now holds (R158). -/
theorem exec_rx (h : s.reaches a addr) (hm : s.missing addr = false) (hp : ¬s.storeForbidden addr) :
    exec (.rx w a) s = .next ((s.afterFirstAccess w a addr).wordWrite addr (s.reg w)) := by
  have hf : ((s.entered a).setReg w ((s.entered a).wordRead addr)).forbids addr = false := by
    simpa [entered_forbids] using hp
  show execRx w a s = _
  rw [execRx, cycle_reaches h, testAddress_exists (by simpa using hm), testProtection_allowed hf, entered_reg]
  rfl

/-- With a direct address and no transfer before the operation, the first access finds the word as it was. -/
theorem entered_wordRead_idle (ha : a.indirect = false) (hs : s.steals = [] :: rest) (b : Word) :
    (s.entered a).wordRead b = s.wordRead b := by
  rw [entered_direct ha, steal_idle hs]
  exact wordRead_congr rfl rfl b

theorem entered_steals_idle (ha : a.indirect = false) (hs : s.steals = [] :: rest) : (s.entered a).steals = rest := by
  rw [entered_direct ha, steal_idle hs]
  rfl

/-- A word transferred between the two accesses is what the second access finds. -/
theorem afterFirstAccess_wordRead (hr : s.storeRising) (ha : a.indirect = false)
    (hs : s.steals = [] :: [x] :: rest) (hx : s.mayTransfer x = true) {b : Word} (hb : x.wordNumber = wordNumber b) :
    (s.afterFirstAccess w a addr).wordRead b = x.data := by
  have hsteals : (s.entered a).steals = ([] ++ [x]) :: rest := entered_steals_idle ha hs
  rw [State.wordRead, ← hb]
  exact steal_readWordAt_last (s := (s.entered a).setReg w ((s.entered a).wordRead addr)) (entered_storeRising hr a)
    hsteals (by simpa using hx)

/-- DL mixes an old second word with a first word that the channel wrote after it (R77). -/
theorem dl_first_word_transferred (hr : s.storeRising) (h : s.reaches a addr) (ha : a.indirect = false)
    (hm : s.missing addr = false) (hs : s.steals = [] :: [x] :: rest) (hx : s.mayTransfer x = true)
    (hn : x.wordNumber = wordNumber (firstWordAddress addr)) :
    ∃ t, exec (.dl w a) s = .next t ∧ t.reg w = s.wordRead addr ∧ t.reg (preceding w) = x.data := by
  refine ⟨_, exec_dl h hm, ?_, ?_⟩
  · simp [entered_wordRead_idle ha hs]
  · simp [afterFirstAccess_wordRead hr ha hs hx hn]

/-- RX stores over what the channel wrote between its two accesses (R77). -/
theorem rx_transfer_lost (hr : s.storeRising) (h : s.reaches a addr) (ha : a.indirect = false)
    (hm : s.missing addr = false) (hp : ¬s.storeForbidden addr) (hs : s.steals = [] :: [x] :: rest)
    (hx : s.mayTransfer x = true) (hn : x.wordNumber = wordNumber addr) :
    ∃ t, exec (.rx w a) s = .next t ∧ t.reg w = s.wordRead addr ∧ t.wordRead addr = s.reg w := by
  have hreg : wordNumber addr ≠ registerNumber w := by
    have := (mayTransfer_word hx).1
    cases w <;> simp only [registerNumber] <;> omega
  refine ⟨_, exec_rx h hm hp, ?_, ?_⟩
  · simp [reg_wordWrite, hreg, entered_wordRead_idle ha hs]
  · simp [wordRead_wordWrite (afterFirstAccess_storeRising hr)]

end

/-! ## The statement -/

/-- Settles O13: the cycles stolen before one access, the condition under which the channel may write, and the two
instructions whose accesses a transfer can separate. -/
theorem theChannelWritesBetweenTwoAccesses : Obligations.TheChannelWritesBetweenTwoAccesses := by
  refine ⟨fun s a => ⟨fun hs => entered_quiet hs a, fun _ => entered_readWordAt_spared⟩, ?_, ?_, ?_⟩
  · intro s l rest hinv hs
    refine ⟨steal_eq hs, fun _ => steal_readWordAt_idle hs, ?_⟩
    rintro k x rfl hx
    exact steal_readWordAt_last hinv.storeRising hs hx
  · intro s x
    rw [mayTransfer_iff, transferring_iff]
    tauto
  · intro s w a addr x rest hinv h ha hm hs hx
    exact ⟨dl_first_word_transferred hinv.storeRising h ha hm hs hx,
      fun hn hp => rx_transfer_lost hinv.storeRising h ha hm hp hs hx hn⟩

end Sys2Proof.Machine
end

section
/-! The encoding (30_encoding.md R91, R96 to R99): a word is its five fields, the table of R99 lists each instruction
under its own code, and so decoding and encoding undo each other. -/

namespace Sys2Proof.Laws

open Sys2Proof.Machine (decode_address)

/-! ## A word is its five fields -/

/-- No bit of a word lies outside the five fields (R91). -/
theorem fields_append (v : Word) : fieldF v ++ fieldW v ++ fieldM v ++ fieldX v ++ fieldD v = v := by
  simp only [fieldF, fieldW, fieldM, fieldX, fieldD]
  rw [BitVec.extractLsb'_append_extractLsb'_eq_extractLsb', BitVec.extractLsb'_append_extractLsb'_eq_extractLsb',
    BitVec.extractLsb'_append_extractLsb'_eq_extractLsb', BitVec.extractLsb'_append_extractLsb'_eq_extractLsb']
  · exact BitVec.extractLsb'_eq_self
  all_goals rfl

/-! ## What the fields stand for -/

@[simp] theorem Reg_bits_ofBits (b : BitVec 2) : (Reg.ofBits b).bits = b := by
  revert b; decide

@[simp] theorem Index_bits_ofBits (b : BitVec 2) : (Index.ofBits b).bits = b := by
  revert b; decide

theorem ofBool_getMsbD_append (b : BitVec 2) : BitVec.ofBool (b.getMsbD 0) ++ BitVec.ofBool (b.getMsbD 1) = b := by
  revert b; decide

theorem getMsbD_ofBool_append (x y : Bool) :
    (BitVec.ofBool x ++ BitVec.ofBool y).getMsbD 0 = x ∧ (BitVec.ofBool x ++ BitVec.ofBool y).getMsbD 1 = y := by
  revert x y; decide

/-- The 12 bits of D read back as the displacement if it fits (R96). -/
theorem toInt_ofInt_of_wf {a : AddressPart} (h : a.wf) : (BitVec.ofInt 12 a.displacement).toInt = a.displacement := by
  obtain ⟨hlow, hhigh⟩ := h
  exact BitVec.toInt_ofInt_eq_self (by decide) (by simpa using hlow) (by simpa using Int.lt_add_one_of_le hhigh)

theorem addressPart_wf (v : Word) : (addressPart v).wf := by
  have hlow := BitVec.le_toInt (fieldD v)
  have hhigh := BitVec.toInt_lt (x := fieldD v)
  simp only [AddressPart.wf, addressPart]
  omega

theorem addressPart_assemble (code : Nat) (w : Reg) {a : AddressPart} (h : a.wf) :
    addressPart (assemble code w a) = a := by
  obtain ⟨hrel, hind⟩ := getMsbD_ofBool_append a.relative a.indirect
  simp only [addressPart, fieldM_assemble, fieldX_assemble, fieldD_assemble, hrel, hind, Index_ofBits_bits,
    toInt_ofInt_of_wf h]

/-- Assembling what the fields of a word stand for gives the word (R91, R97). -/
theorem assemble_fields (v : Word) :
    assemble (fieldF v).toNat (Reg.ofBits (fieldW v)) (addressPart v) = v := by
  have hF : BitVec.ofNat 6 (fieldF v).toNat = fieldF v := by rw [BitVec.ofNat_toNat, BitVec.setWidth_eq]
  have hM : BitVec.ofBool (addressPart v).relative ++ BitVec.ofBool (addressPart v).indirect = fieldM v :=
    ofBool_getMsbD_append _
  have hX : (addressPart v).index.bits = fieldX v := Index_bits_ofBits _
  have hD : BitVec.ofInt 12 (addressPart v).displacement = fieldD v := BitVec.ofInt_toInt
  rw [assemble, hF, Reg_bits_ofBits, hM, hX, hD]
  exact fields_append v

/-! ## The table of operation codes -/

/-- Every instruction is listed under its own code. -/
theorem Listed.all (i : Instr) : Listed.Statement i :=
  Instr.casesOn i Listed.aw Listed.io Listed.bl Listed.hl Listed.la Listed.lo Listed.lx Listed.wa Listed.ws Listed.am
    Listed.wm Listed.al Listed.ml Listed.jl Listed.jd Listed.je Listed.xl Listed.bs Listed.ba Listed.bz Listed.rl
    Listed.sp Listed.kl Listed.rs Listed.wd Listed.rx Listed.hs Listed.xs Listed.pl Listed.ps Listed.ms Listed.is
    Listed.ci Listed.ac Listed.ns Listed.nd Listed.as Listed.ad Listed.ls Listed.ld Listed.sh Listed.sl Listed.se
    Listed.sn Listed.so Listed.sz Listed.sx Listed.ic Listed.fa Listed.fs Listed.fm Listed.ks Listed.fd Listed.cf
    Listed.dl Listed.ds Listed.aa Listed.ss

/-- The assigned codes are 0 to 57 (R98, R99). -/
theorem opcodeMap_codes : opcodeMap.map Prod.fst = List.range 58 := rfl

/-- A row of the table makes an instruction with the row's code and the given result register. -/
theorem opcodeMap_row :
    ∀ p ∈ opcodeMap, ∀ (r : Reg) (a : AddressPart), (p.2 r a).code = p.1 ∧ (p.2 r a).result = r := by
  simp [opcodeMap, opcodesLow, opcodesHigh, Instr.code, Instr.result]

theorem opcodeMap_lookup_eq_none (n : Nat) : opcodeMap.lookup n = none ↔ 58 ≤ n :=
  calc opcodeMap.lookup n = none
    _ ↔ n ∉ opcodeMap.map Prod.fst := by
      simp only [List.lookup_eq_none_iff, bne_iff_ne, List.mem_map, not_exists, not_and, ne_comm]
    _ ↔ 58 ≤ n := by rw [opcodeMap_codes, List.mem_range, not_lt]

/-! ## Decoding and encoding -/

theorem fieldF_encode (i : Instr) : (fieldF (encode i)).toNat = i.code := by
  have hcode : i.code < 58 := (Listed.all i).1
  rw [encode, fieldF_assemble, BitVec.toNat_ofNat, Nat.mod_eq_of_lt (by omega)]

theorem decode_encode {i : Instr} (h : i.wf) : decode (encode i) = some i := by
  obtain ⟨-, make, hlookup, hmake⟩ := Listed.all i
  have hresult : Reg.ofBits (fieldW (encode i)) = i.result := by rw [encode, fieldW_assemble, Reg_ofBits_bits]
  have haddress : addressPart (encode i) = i.address := addressPart_assemble _ _ h
  rw [decode, decodeBy, fieldF_encode, hlookup, Option.map_some, hresult, haddress, hmake]

/-- The operation code and the result register of a decoded instruction are the F and W fields of the word; for the
address part see `decode_address`. -/
theorem decode_code_result {v : Word} {i : Instr} (h : decode v = some i) :
    i.code = (fieldF v).toNat ∧ i.result = Reg.ofBits (fieldW v) := by
  obtain ⟨make, hlookup, rfl⟩ := Option.map_eq_some_iff.1 h
  obtain ⟨l, r, hrow, -⟩ := List.lookup_eq_some_iff.1 hlookup
  exact opcodeMap_row ((fieldF v).toNat, make) (by rw [hrow]; simp) _ _

theorem encode_of_decode {v : Word} {i : Instr} (h : decode v = some i) : encode i = v := by
  obtain ⟨hcode, hresult⟩ := decode_code_result h
  rw [encode, hcode, hresult, decode_address h, assemble_fields]

theorem wf_of_decode {v : Word} {i : Instr} (h : decode v = some i) : i.wf := by
  rw [Instr.wf, decode_address h]
  exact addressPart_wf v

/-- The words that decode are the encodings of the well-formed instructions. -/
theorem decode_eq_some_iff {v : Word} {i : Instr} : decode v = some i ↔ i.wf ∧ encode i = v :=
  ⟨fun h => ⟨wf_of_decode h, encode_of_decode h⟩, fun ⟨hwf, hv⟩ => hv ▸ decode_encode hwf⟩

theorem decode_eq_none_iff (v : Word) : decode v = none ↔ 58 ≤ (fieldF v).toNat := by
  rw [decode, decodeBy, Option.map_eq_none_iff, opcodeMap_lookup_eq_none]

/-! ## The statements -/

/-- Settles O1, field by field. -/
theorem encodedInstructionsDecodeToThemselves : Obligations.EncodedInstructionsDecodeToThemselves :=
  fun _ => decode_encode

/-- Settles O2: the fields of the word determine the instruction, and the table lists the codes 0 to 57. -/
theorem decodedWordsEncodeBackToTheSameWord : Obligations.DecodedWordsEncodeBackToTheSameWord :=
  ⟨fun _ _ => decode_eq_some_iff.1, decode_eq_none_iff⟩

/-- Settles O3: the words are the encodings of the instructions written beside them. -/
theorem wordsOfTheSpecDecodeAsTheSpecSays : Obligations.WordsOfTheSpecDecodeAsTheSpecSays := by
  simp only [Obligations.WordsOfTheSpecDecodeAsTheSpecSays, decode_eq_some_iff]
  decide

end Sys2Proof.Laws
end

section
/-! The instruction cycle and address handling (40_cycle_and_address_handling.md R120 to R133): what a running step does
once the environment has acted, the tests of the decode, and AM, AL and AC. -/

namespace Sys2Proof.Machine

section
variable {s u : State} {a : AddressPart} {addr : Word} {w : Reg}

/-! ## Fetch Instruction (R121) -/

theorem fetch_missing (h : s.missing s.ic = true) : s.fetch = .nonexistent := by
  simp [State.fetch, h]

/-- With a carried modifier the keys are not polled (R131); without one they must not ask for anything. -/
theorem fetch_word (h : s.missing s.ic = false)
    (hkeys : s.amPending = none → s.resetKey = false ∧ s.powerFailing = false) :
    s.fetch = .word (s.wordRead s.ic) := by
  cases hm : s.amPending with
  | some m => simp [State.fetch, h, hm]
  | none =>
    obtain ⟨hreset, hpower⟩ := hkeys hm
    simp [State.fetch, h, hreset, hpower]

/-- In the running state a step is the interrupt poll and then the fetch (R120). -/
theorem step_running (hrun : s.takeEvents.run = .running) : step s = fetchAndExecute s.takeEvents.poll := by
  rw [step, processorStep, hrun]

theorem step_nonexistent (hrun : s.takeEvents.run = .running) (hu : u = s.takeEvents.poll.steal)
    (hm : u.missing u.ic = true) : step s = .next u.raise := by
  subst hu
  rw [step_running hrun]
  simp only [fetchAndExecute, fetch_missing hm, trap]

theorem step_executeWord (hrun : s.takeEvents.run = .running) (hu : u = s.takeEvents.poll.steal)
    (hm : u.missing u.ic = false) (hkeys : u.amPending = none → u.resetKey = false ∧ u.powerFailing = false) :
    step s = executeWord (u.wordRead u.ic) u := by
  subst hu
  rw [step_running hrun]
  simp only [fetchAndExecute, fetch_word hm hkeys]

/-! ## The execution of a word (R126) -/

theorem executeWord_decoded {v : Word} {i : Instr} (h : decode v = some i) (s : State) :
    executeWord v s = exec i s := by
  simp only [executeWord, h]

/-- A word with an unassigned code is decoded like any other and then traps (30_encoding.md R98). -/
theorem executeWord_unassigned {v : Word} (h : 58 ≤ (fieldF v).toNat) (s : State) :
    executeWord v s = cycle (addressPart v) s fun _ t => trap t := by
  simp only [executeWord, (Laws.decode_eq_none_iff v).2 h]

/-! ## The tests of the decode (R122, R123) -/

/-- Task mode does not execute the words of a protected part of the store (R122). -/
theorem forbids_of_task {b : Word} (hmode : s.monitorMode = false) (hprot : s.isProtected b = true) :
    s.forbids b = true := by
  simp [State.forbids, hmode, hprot]

theorem effectiveAddress_direct (ha : a.indirect = false) : s.effectiveAddress a = some (s.address0 a) := by
  simp [State.effectiveAddress, ha]

theorem effectiveAddress_indirect (ha : a.indirect = true) (hm : s.missing (s.address0 a) = false) :
    s.effectiveAddress a = some (s.steal.wordRead (s.address0 a)) := by
  simp [State.effectiveAddress, ha, hm]

theorem effectiveAddress_missing (ha : a.indirect = true) (hm : s.missing (s.address0 a) = true) :
    s.effectiveAddress a = none := by
  simp [State.effectiveAddress, ha, hm]

/-! ## AM, AL and AC -/

theorem exec_am (h : s.reaches a addr) :
    exec (.am w a) s =
      testAddress (s.entered a) (s.entered a).ic (.next { s.entered a with amPending := some addr }) := by
  show execAm a s = _
  rw [execAm, cycle_reaches h]

/-- AM where the next word exists: the modifier is handed on, and nothing else changes. -/
theorem am_hands_on (h : s.reaches a addr) (hm : s.missing (s.ic + 2) = false) :
    exec (.am w a) s = .next { s.entered a with amPending := some addr } := by
  rw [exec_am h, testAddress_exists (by simpa using hm)]

theorem exec_al (h : s.reaches a addr) : exec (.al w a) s = .next ((s.entered a).setReg w addr) := by
  show execAl w a s = _
  rw [execAl, cycle_reaches h]

/-- AL where the address exists: the register is loaded, and nothing else changes. -/
theorem al_loads (h : s.reaches a addr) :
    ∃ t, exec (.al w a) s = .next t ∧ t.reg w = addr ∧ Frame s (s.entered a) t [w] [] ∧ Quiet s t ∧
      Continues s t false := by
  refine ⟨_, exec_al h, ?_, frame_setReg (frame_entered s a) w addr, ?_, ?_⟩
  · simp
  · simp [Quiet]
  · simp [Continues]

/-- The result of AC: the register loaded, then Test Integer on EX(22:23) = 00 (R133). -/
def State.complemented (s : State) (w : Reg) (a : AddressPart) (addr : Word) : State :=
  ((s.entered a).clearEx.setReg w (sum24 (intSub 0 addr true).1)).testInteger (intSub 0 addr true).1
    (s.reportedCarry addr true (intSub 0 addr true).2)

@[simp] theorem entered_reportedCarry (s : State) (a : AddressPart) (y : Word) (cin c : Bool) :
    (s.entered a).reportedCarry y cin c = s.reportedCarry y cin c := by
  simp only [State.reportedCarry, entered_inst]

theorem exec_ac (h : s.reaches a addr) : exec (.ac w a) s = .next (s.complemented w a addr) := by
  show execAc w a s = _
  rw [execAc, cycle_reaches h]
  simp only [entered_reportedCarry, State.complemented]

/-- Test Integer changes EX and IR only (R130). -/
theorem testInteger_eq (s : State) (r : BitVec 25) (c : Bool) :
    s.testInteger r c = { s with ex := (s.testInteger r c).ex, ir := (s.testInteger r c).ir } := by
  unfold State.testInteger
  split <;> rfl

theorem complemented_frame (s : State) (w : Reg) (a : AddressPart) (addr : Word) :
    Frame s (s.entered a) (s.complemented w a addr) [w] [] := by
  refine frame_congr (frame_setReg (frame_entered s a) w (sum24 (intSub 0 addr true).1)) ?_
  rw [State.complemented, testInteger_eq]
  rfl

/-- The 25-bit difference 0 - A. -/
theorem toInt_intSub_zero (v : Word) : (intSub 0 v true).1.toInt = -v.toInt := by
  simp [toInt_intSub]

theorem sum24_intSub_zero (v : Word) : sum24 (intSub 0 v true).1 = -v := by
  rw [sum24_eq, toInt_intSub_zero, BitVec.ofInt_neg, BitVec.ofInt_toInt]

/-- Only the complement of -2**23 needs a 25th bit (R133). -/
theorem intSub_zero_overflow (v : Word) :
    ((intSub 0 v true).1.toInt < -2 ^ 23 ∨ 2 ^ 23 ≤ (intSub 0 v true).1.toInt) ↔ v = 0x800000 := by
  obtain ⟨hlow, hhigh⟩ := word_toInt_bounds v
  have hmin : (0x800000 : Word).toInt = -2 ^ 23 := by decide
  rw [toInt_intSub_zero, ← BitVec.toInt_inj, hmin]
  omega

/-- There is no borrow only from 0 - 0, whose carry is the installation's choice (92_eei_decisions.md D23). -/
theorem reportedCarry_intSub_zero (s : State) (v : Word) :
    s.reportedCarry v true (intSub 0 v true).2 = (decide (v = 0) && s.inst.subtractZeroCarry) := by
  have hcarry : (intSub 0 v true).2 = decide (v = 0) := by
    rw [intSub_carry, decide_eq_decide, ← BitVec.toNat_inj]
    simp
  rw [State.reportedCarry, hcarry]
  by_cases hv : v = 0
  · simp [hv]
  · simp only [decide_eq_false hv, ite_self, Bool.false_and]

theorem complemented_reports (s : State) (w : Reg) (a : AddressPart) (addr : Word) :
    Reports s (s.complemented w a addr) 1 (decide (addr = 0x800000))
      (decide (addr = 0) && s.inst.subtractZeroCarry) := by
  have hex : (s.entered a).clearEx.ex = s.clearEx.ex := by
    simp only [State.clearEx, setEx_bits, entered_ex]
  have hreports := testInteger_reports
    (t := (s.entered a).clearEx.setReg w (sum24 (intSub 0 addr true).1)) (intSub 0 addr true).1
    (s.reportedCarry addr true (intSub 0 addr true).2) hex (by simp)
  rw [decide_eq_decide.2 (intSub_zero_overflow addr), reportedCarry_intSub_zero] at hreports
  rwa [State.complemented, reportedCarry_intSub_zero]

end

/-! ## The statements -/

/-- Settles O7: the channel's cycles before the fetch keep the invariant, and the step is then one instruction
exception. -/
theorem fetchOfANonexistentWordTraps : Obligations.FetchOfANonexistentWordTraps := by
  intro s u hs hrun hu hm
  have hinv : u.Inv := hu ▸ steal_inv (poll_inv (takeEvents_inv hs))
  have hmask := hinv.mask0
  have hrising := hinv.storeRising
  refine ⟨u.raise, step_nonexistent hrun hu hm, fun h8 => ?_, fun h10 => ?_, raise_ic hmask,
    raise_monitorMode hmask, raise_interruptDisabled hmask, raise_amPending u, raise_ex u,
    sameStorage_raise hmask hrising⟩
  · rw [raise_wordRead hmask hrising (b := 8) h8, if_neg (by decide), if_pos (by decide)]
  · rw [raise_wordRead hmask hrising (b := 10) h10, if_pos (by decide)]

/-- Settles O11: whatever the operation, it stands behind the same decode. -/
theorem theDecodeTestsComeBeforeEveryOperation : Obligations.TheDecodeTestsComeBeforeEveryOperation := by
  intro s a o ho
  obtain ⟨op, rfl⟩ : ∃ op, o = cycle a s op := by
    rcases ho with ⟨i, rfl, rfl⟩ | ⟨v, rfl, rfl⟩
    · exact (exec_eq_cycle i).imp fun _ hop => hop s
    · exact (executeWord_eq_cycle v).imp fun _ hop => hop s
  exact ⟨fun hmode hprot => cycle_forbidden (forbids_of_task hmode hprot),
    fun hf ha hm => cycle_missing hf (effectiveAddress_missing ha hm)⟩

/-- Settles O14: the four modes are a direct or an indirect address with a base that is relative or not. -/
theorem alDeliversTheAddressOfEachMode : Obligations.AlDeliversTheAddressOfEachMode := by
  intro s u w a base hf hu hbase
  have hbase : base = s.address0 a := hbase
  subst hu hbase
  exact ⟨fun ha => al_loads ⟨hf, effectiveAddress_direct ha⟩,
    fun ha hm => al_loads ⟨hf, effectiveAddress_indirect ha hm⟩,
    (theDecodeTestsComeBeforeEveryOperation s a _ (.inl ⟨.al w a, rfl, rfl⟩)).2 hf⟩

/-- Settles O15: AC is one subtraction from zero, tested like every integer result. -/
theorem acDeliversTheComplementOfTheAddress : Obligations.AcDeliversTheComplementOfTheAddress := by
  rintro s u w a addr h rfl
  refine ⟨_, exec_ac h, ?_, complemented_frame s w a addr, ?_, complemented_reports s w a addr⟩
  · simp only [State.complemented, testInteger_reg, reg_setReg, sum24_intSub_zero, if_true]
  · simp [Continues, State.complemented]

/-- Settles O16: the carried modifier suppresses both polls and is an addend of every address. -/
theorem amModifiesTheNextAddress : Obligations.AmModifiesTheNextAddress := by
  rintro s u w a addr h rfl
  refine ⟨fun hm => ?_, fun hm => ⟨_, am_hands_on h hm, sameStorage_of_eq rfl rfl, ?_, ?_, ?_, rfl, ?_, ?_,
    entered_monitorMode s a, ?_, fetch_word ?_ nofun, fun _ => rfl⟩⟩
  · rw [exec_am h, testAddress_missing (by simpa using hm)]
  · simp [SameControl]
  · simp [SameDevices]
  · simp [SameConsole]
  · simp [Quiet]
  · simp [Continues]
  · simp [State.poll]
  · show (s.entered a).missing (s.entered a).ic = false
    simpa using hm

/-- Settles O4: the poll and the fetch lead to the execution of the word at IC. -/
theorem stepRunsTheDecodedInstruction : Obligations.StepRunsTheDecodedInstruction := by
  intro s u hrun hu hm hkeys
  have hstep := step_executeWord hrun hu hm hkeys
  exact ⟨hstep, fun i hi => hstep.trans (executeWord_decoded hi u)⟩

/-- Settles O5: the decode tests are those of every word, and the operation of an unassigned code is the exception. -/
theorem unassignedCodesTakeAnInstructionException : Obligations.UnassignedCodesTakeAnInstructionException := by
  rintro s u a hrun hu hm hkeys hcode rfl
  have hstep := step_executeWord hrun hu hm hkeys
  obtain ⟨hforbidden, hmissing⟩ := theDecodeTestsComeBeforeEveryOperation u _ (step s) (.inr ⟨_, rfl, hstep⟩)
  refine ⟨hforbidden, hmissing, fun addr h => ?_⟩
  rw [hstep, executeWord_unassigned hcode, cycle_reaches h, trap]

/-- Settles O12: each of the eight tests the mode that the decode has set before anything else. -/
theorem privilegedInstructionsTrapInTaskMode : Obligations.PrivilegedInstructionsTrapInTaskMode := by
  intro s i addr hi h hprot
  have hmode : (s.entered i.address).monitorMode = false := by rw [entered_monitorMode, hprot]
  obtain ⟨op, hop⟩ := exec_privileged hi
  exact ⟨hmode, by rw [hop, cycle_reaches h, testMode_task hmode]⟩

end Sys2Proof.Machine
end

section
/-! The register transfer instructions and the other loads and stores (41_register_transfer.md R150 to R162;
42_integer_arithmetic.md R171, R172; 46_monitor_control.md R295 to R308): one outcome per shape of instruction, a load
behind the address test or a store behind the address test and the protection test, and then the four instructions with
two accesses. -/

namespace Sys2Proof.Machine

section
variable {s : State} {a : AddressPart} {addr : Word} {w : Reg} {i : Instr}

/-! ## The tests of the operand -/

/-- A nonexistent operand abandons the operation before anything else (R127). -/
theorem testAddress_entered_missing (hm : s.missing addr = true) (rest : Out) :
    testAddress (s.entered a) addr rest = .next (s.entered a).raise :=
  testAddress_missing (by simpa using hm)

theorem testAddress_entered_exists (hm : s.missing addr = false) (rest : Out) :
    testAddress (s.entered a) addr rest = rest :=
  testAddress_exists (by simpa using hm)

/-- The protection test of the operation is that of the mode which the decode has set (R122, R128). -/
theorem entered_forbids_iff : (s.entered a).forbids addr = true ↔ s.storeForbidden addr := by
  simp [entered_forbids]

theorem testProtection_entered_forbidden (hp : s.storeForbidden addr) (rest : Out) :
    testProtection (s.entered a) addr rest = .next (s.entered a).raise :=
  testProtection_forbidden (entered_forbids_iff.2 hp)

theorem testProtection_entered_allowed (hp : ¬s.storeForbidden addr) (rest : Out) :
    testProtection (s.entered a) addr rest = rest :=
  testProtection_allowed (Bool.eq_false_iff.2 fun hf => hp (entered_forbids_iff.1 hf))

/-! ## Loads -/

/-- A load delivers what `f` reads at the effective address when the operation starts, and changes nothing else. -/
theorem load_outcome (f : Word → State → Word) {v : Word}
    (hexec : exec i s = cycle a s fun addr t => testAddress t addr (.next (t.setReg w (f addr t))))
    (h : s.reaches a addr) (hv : f addr (s.entered a) = v) :
    (s.missing addr = true → exec i s = .next (s.entered a).raise) ∧
    (s.missing addr = false → ∃ t, exec i s = .next t ∧ t.reg w = v ∧ Frame s (s.entered a) t [w] [] ∧ Quiet s t ∧
      Continues s t false) := by
  rw [hexec, cycle_reaches h, hv]
  refine ⟨fun hm => testAddress_entered_missing hm _, fun hm =>
    ⟨_, testAddress_entered_exists hm _, ?_, frame_setReg (frame_entered s a) w v, ?_, ?_⟩⟩
  · simp
  · simp [Quiet]
  · simp [Continues]

/-! ## Stores -/

/-- A store behind both tests of its operand: it traps in the state in which it started, or does the rest. -/
theorem store_outcome {rest : Word → State → Out}
    (hexec : exec i s = cycle a s fun addr t => testAddress t addr (testProtection t addr (rest addr t)))
    (h : s.reaches a addr) :
    (s.missing addr = true → exec i s = .next (s.entered a).raise) ∧
    (s.missing addr = false → s.storeForbidden addr → exec i s = .next (s.entered a).raise) ∧
    (s.missing addr = false → ¬s.storeForbidden addr → exec i s = rest addr (s.entered a)) := by
  rw [hexec, cycle_reaches h]
  refine ⟨fun hm => testAddress_entered_missing hm _, fun hm hp => ?forbidden, fun hm hp => ?allowed⟩
  case forbidden => rw [testAddress_entered_exists hm, testProtection_entered_forbidden hp]
  case allowed => rw [testAddress_entered_exists hm, testProtection_entered_allowed hp]

/-- The instructions that store a word: the word addressed receives what `f` reads, and nothing else changes. -/
theorem wordStore_outcome (f : State → Word) {v : Word}
    (hexec : exec i s = cycle a s fun addr t =>
      testAddress t addr (testProtection t addr (.next (t.wordWrite addr (f t)))))
    (hs : s.storeRising) (h : s.reaches a addr) (hv : f (s.entered a) = v) :
    (s.missing addr = true → exec i s = .next (s.entered a).raise) ∧
    (s.missing addr = false → s.storeForbidden addr → exec i s = .next (s.entered a).raise) ∧
    (s.missing addr = false → ¬s.storeForbidden addr → ∃ t, exec i s = .next t ∧ t.wordRead addr = v ∧
      Frame s (s.entered a) t [] (wordBytes addr) ∧ Quiet s t ∧ Continues s t false) := by
  obtain ⟨hmissing, hforbidden, hallowed⟩ := store_outcome hexec h
  rw [hv] at hallowed
  refine ⟨hmissing, hforbidden, fun hm hp =>
    ⟨_, hallowed hm hp, ?_, frame_wordWrite (frame_entered s a) addr v, ?_, ?_⟩⟩
  · simp [wordRead_wordWrite (entered_storeRising hs a)]
  · simp [Quiet]
  · simp [Continues]

/-- The instructions that store a byte, likewise; the other byte of the word is outside the frame's one address. -/
theorem byteStore_outcome (f : State → Byte) {v : Byte}
    (hexec : exec i s = cycle a s fun addr t =>
      testAddress t addr (testProtection t addr (.next (t.byteWrite addr (f t)))))
    (hs : s.storeRising) (h : s.reaches a addr) (hv : f (s.entered a) = v) :
    (s.missing addr = true → exec i s = .next (s.entered a).raise) ∧
    (s.missing addr = false → s.storeForbidden addr → exec i s = .next (s.entered a).raise) ∧
    (s.missing addr = false → ¬s.storeForbidden addr → ∃ t, exec i s = .next t ∧ t.byteRead addr = v ∧
      Frame s (s.entered a) t [] [addr] ∧ Quiet s t ∧ Continues s t false) := by
  have hrising := entered_storeRising hs a
  obtain ⟨hmissing, hforbidden, hallowed⟩ := store_outcome hexec h
  rw [hv] at hallowed
  refine ⟨hmissing, hforbidden, fun hm hp =>
    ⟨_, hallowed hm hp, ?_, frame_byteWrite (frame_entered s a) hrising addr v, ?_, ?_⟩⟩
  · simp [byteRead_byteWrite hrising]
  · simp [Quiet]
  · simp [Continues]

/-! ## The channel between the two accesses (20_memory.md R74) -/

/-- The channel acts alike whatever the registers hold. -/
theorem steal_setReg (s : State) (r : Reg) (v : Word) : (s.setReg r v).steal = s.steal.setReg r v := rfl

/-- The state between the accesses of DL and RX: the cycles stolen, and then the register loaded. -/
theorem afterFirstAccess_eq (s : State) (w : Reg) (a : AddressPart) (addr : Word) :
    s.afterFirstAccess w a addr = (s.entered a).steal.setReg w ((s.entered a).wordRead addr) := steal_setReg ..

/-- With nothing changed yet, the frame before a second access is the empty one. -/
theorem frame_entered_steal (s : State) (a : AddressPart) :
    Frame s (s.entered a).steal (s.entered a).steal [] [] := frame_steal (frame_entered s a) rfl

theorem frame_afterFirstAccess (s : State) (w : Reg) (a : AddressPart) (addr : Word) :
    Frame s (s.entered a).steal (s.afterFirstAccess w a addr) [w] [] := by
  rw [afterFirstAccess_eq]
  exact frame_setReg (frame_entered_steal s a) w _

/-! ## DL and RX -/

/-- The word that the second access of DL or RX reads: the register's, if it is that word (R24), or what the channel has
left. -/
theorem afterFirstAccess_wordRead_eq (b : Word) :
    (s.afterFirstAccess w a addr).wordRead b =
      if wordNumber b = registerNumber w then (s.entered a).wordRead addr else (s.entered a).steal.wordRead b := by
  rw [afterFirstAccess_eq, wordRead_setReg]

theorem exec_dl_missing (h : s.reaches a addr) (hm : s.missing addr = true) :
    exec (.dl w a) s = .next (s.entered a).raise := by
  show execDl w a s = _
  rw [execDl, cycle_reaches h, testAddress_entered_missing hm]

/-- DL where the second word exists (R160). -/
theorem dl_loads (h : s.reaches a addr) (hm : s.missing addr = false) :
    ∃ t, exec (.dl w a) s = .next t ∧ t.reg w = (s.entered a).wordRead addr ∧
      t.reg (preceding w) = (if wordNumber (firstWordAddress addr) = registerNumber w then (s.entered a).wordRead addr
        else (s.entered a).steal.wordRead (firstWordAddress addr)) ∧
      Frame s (s.entered a).steal t [preceding w, w] [] ∧ Quiet s t ∧ Continues s t false := by
  have hframe := frame_setReg (frame_afterFirstAccess s w a addr) (preceding w)
    ((s.afterFirstAccess w a addr).wordRead (firstWordAddress addr))
  refine ⟨_, exec_dl h hm, ?_, ?_, frame_mono hframe (by simp) (List.Subset.refl _), ?_, ?_⟩
  · simp
  · simp [afterFirstAccess_wordRead_eq]
  · simp [Quiet, afterFirstAccess_eq]
  · simp [Continues, afterFirstAccess_eq]

theorem exec_rx_missing (h : s.reaches a addr) (hm : s.missing addr = true) :
    exec (.rx w a) s = .next (s.entered a).raise := by
  show execRx w a s = _
  rw [execRx, cycle_reaches h, testAddress_entered_missing hm]

/-- RX has loaded the register when the protection test traps (R158). -/
theorem exec_rx_forbidden (h : s.reaches a addr) (hm : s.missing addr = false) (hp : s.storeForbidden addr) :
    exec (.rx w a) s = .next ((s.entered a).setReg w ((s.entered a).wordRead addr)).raise := by
  have hf : ((s.entered a).setReg w ((s.entered a).wordRead addr)).forbids addr = true := entered_forbids_iff.2 hp
  show execRx w a s = _
  rw [execRx, cycle_reaches h, testAddress_entered_exists hm]
  exact testProtection_forbidden hf

/-- RX where both tests pass. If the word is the register itself, both hold what they held (R24). -/
theorem rx_exchanges (hs : s.storeRising) (h : s.reaches a addr) (hm : s.missing addr = false)
    (hp : ¬s.storeForbidden addr) :
    ∃ t, exec (.rx w a) s = .next t ∧ t.reg w = (s.entered a).wordRead addr ∧ t.wordRead addr = s.reg w ∧
      Frame s (s.entered a).steal t [w] (wordBytes addr) ∧ Quiet s t ∧ Continues s t false := by
  refine ⟨_, exec_rx h hm hp, ?_, ?_, frame_wordWrite (frame_afterFirstAccess s w a addr) addr (s.reg w), ?_, ?_⟩
  · rw [reg_wordWrite, afterFirstAccess_reg]
    split
    · next hw => rw [State.wordRead, hw, readWordAt_registerNumber, entered_reg]
    · rfl
  · rw [wordRead_wordWrite (afterFirstAccess_storeRising hs), if_pos rfl]
  · simp [Quiet, afterFirstAccess_eq]
  · simp [Continues, afterFirstAccess_eq]

/-! ## DS -/

/-- DS between its accesses: the second word is stored, and the channel has stolen the cycles before the next access. -/
def State.afterFirstStore (s : State) (w : Reg) (a : AddressPart) (addr : Word) : State :=
  ((s.entered a).wordWrite addr (s.reg w)).steal

/-- DS behind the tests of its second word: that word is stored, and then the first one is tested (R162). -/
def storeBothWords (w : Reg) (addr : Word) (t : State) : Out :=
  testProtection (t.wordWrite addr (t.reg w)) (firstWordAddress addr)
    (.next ((t.wordWrite addr (t.reg w)).steal.wordWrite (firstWordAddress addr)
      ((t.wordWrite addr (t.reg w)).reg (preceding w))))

theorem exec_ds_eq_cycle (w : Reg) (a : AddressPart) (s : State) :
    exec (.ds w a) s =
      cycle a s fun addr t => testAddress t addr (testProtection t addr (storeBothWords w addr t)) := rfl

theorem storeBothWords_forbidden (hp1 : s.storeForbidden (firstWordAddress addr)) :
    storeBothWords w addr (s.entered a) = .next ((s.entered a).wordWrite addr (s.reg w)).raise := by
  have hf : ((s.entered a).wordWrite addr (s.reg w)).forbids (firstWordAddress addr) = true := by
    rw [wordWrite_forbids]
    exact entered_forbids_iff.2 hp1
  rw [storeBothWords, entered_reg, testProtection_forbidden hf]

theorem storeBothWords_allowed (hp1 : ¬s.storeForbidden (firstWordAddress addr)) :
    storeBothWords w addr (s.entered a) = .next ((s.afterFirstStore w a addr).wordWrite (firstWordAddress addr)
      (((s.entered a).wordWrite addr (s.reg w)).reg (preceding w))) := by
  have hf : ((s.entered a).wordWrite addr (s.reg w)).forbids (firstWordAddress addr) = false := by
    rw [wordWrite_forbids, Bool.eq_false_iff]
    exact fun hf => hp1 (entered_forbids_iff.1 hf)
  rw [storeBothWords, entered_reg, testProtection_allowed hf, State.afterFirstStore]

theorem afterFirstStore_storeRising (hs : s.storeRising) : (s.afterFirstStore w a addr).storeRising :=
  steal_storeRising (storeRising_wordWrite (entered_storeRising hs a) _ _)

/-- The word stored first stays if it is a working register or the channel spares it. -/
theorem afterFirstStore_wordRead (hs : s.storeRising)
    (hspared : wordNumber addr < 4 ∨ (s.entered a).spares 1 (wordNumber addr)) :
    (s.afterFirstStore w a addr).wordRead addr = s.reg w := by
  have hsteal : (s.afterFirstStore w a addr).wordRead addr =
      ((s.entered a).wordWrite addr (s.reg w)).wordRead addr := by
    rcases hspared with hregister | hspares
    · exact steal_readWordAt (.inr hregister)
    · exact steal_wordRead_spared (k := 0) ((spares_congr (wordWrite_steals ..) _ _).2 hspares)
  rw [hsteal, wordRead_wordWrite (entered_storeRising hs a), if_pos rfl]

/-- Outside the word stored, the channel leaves what it would have left without the store. -/
theorem sameStorage_wordWrite_steal {u : State} (hu : u.storeRising) (b v : Word) :
    SameStorage u.steal (u.wordWrite b v).steal [] (wordBytes b) := by
  refine ⟨fun r hr hb => (sameStorage_wordWrite u b v).1 r hr hb, fun c hc _ => ?_⟩
  rw [mem_wordBytes] at hc
  rw [State.byteRead, State.byteRead, steal_wordWrite_other hu v (Ne.symm hc)]

theorem frame_afterFirstStore (hs : s.storeRising) (w : Reg) (a : AddressPart) (addr : Word) :
    Frame s (s.entered a).steal (s.afterFirstStore w a addr) [] (wordBytes addr) := by
  have hsteals : (s.afterFirstStore w a addr).steals = (s.entered a).steal.steals :=
    congrArg List.tail (wordWrite_steals ..)
  refine ⟨sameStorage_wordWrite_steal (entered_storeRising hs a) addr (s.reg w), ?_, ?_, ?_, ?_, hsteals⟩
  · simp [SameControl, State.afterFirstStore]
  · simp [SameDevices, State.afterFirstStore]
  · simp [SameConsole, State.afterFirstStore]
  · simp [DecodeDone, State.afterFirstStore]

/-- What DS leaves where all three tests pass. -/
theorem ds_stores (hs : s.storeRising) (w : Reg) (a : AddressPart) (addr : Word) {t : State}
    (ht : t = (s.afterFirstStore w a addr).wordWrite (firstWordAddress addr)
      (((s.entered a).wordWrite addr (s.reg w)).reg (preceding w))) :
    (wordNumber addr < 4 ∨ (s.entered a).spares 1 (wordNumber addr) → t.wordRead addr = s.reg w) ∧
    t.wordRead (firstWordAddress addr) =
      (if wordNumber addr = registerNumber (preceding w) then s.reg w else s.reg (preceding w)) ∧
    Frame s (s.entered a).steal t [] (doubleBytes addr) ∧ Quiet s t ∧ Continues s t false := by
  subst ht
  have hframe := frame_wordWrite (frame_afterFirstStore hs w a addr) (firstWordAddress addr)
    (((s.entered a).wordWrite addr (s.reg w)).reg (preceding w))
  refine ⟨fun hspared => ?second, ?first, frame_mono hframe (List.Subset.refl _) List.perm_append_comm.subset,
    ?quiet, ?continues⟩
  case second =>
    rw [wordRead_wordWrite_other _ _ (wordNumber_firstWordAddress_ne addr), afterFirstStore_wordRead hs hspared]
  case first =>
    rw [wordRead_wordWrite (afterFirstStore_storeRising hs), if_pos rfl, reg_wordWrite, entered_reg]
  case quiet => simp [Quiet, State.afterFirstStore]
  case continues => simp [Continues, State.afterFirstStore]

end

/-! ## The statements -/

/-- Settles O17: the five are one load each, behind the test of the address. -/
theorem loadsDeliverTheOperandAddressed : Obligations.LoadsDeliverTheOperandAddressed := by
  rintro s u w a addr h rfl i v hiv
  simp only [List.mem_cons, List.not_mem_nil, or_false, Prod.mk.injEq] at hiv
  obtain ⟨rfl, rfl⟩ | ⟨rfl, rfl⟩ | ⟨rfl, rfl⟩ | ⟨rfl, rfl⟩ | ⟨rfl, rfl⟩ := hiv
  · exact load_outcome (fun addr t => t.wordRead addr) rfl h rfl
  · exact load_outcome (fun addr t => ((t.reg w).extractLsb' 12 12 : Byte) ++ t.byteRead addr) rfl h
      (by rw [entered_reg])
  · exact load_outcome (fun addr t => (t.byteRead addr).setWidth 24) rfl h rfl
  · exact load_outcome (fun addr t => (t.byteRead addr).signExtend 24) rfl h rfl
  · exact load_outcome (fun addr t => (t.keyRead addr).setWidth 24) rfl h (by rw [entered_keyRead])

/-- Settles O18: the three store a register that the decode and the channel leave. -/
theorem wordStoresReachTheWordAddressed : Obligations.WordStoresReachTheWordAddressed := by
  rintro s u w a addr hs h rfl i v hiv
  simp only [List.mem_cons, List.not_mem_nil, or_false, Prod.mk.injEq] at hiv
  obtain ⟨rfl, rfl⟩ | ⟨rfl, rfl⟩ | ⟨rfl, rfl⟩ := hiv
  · exact wordStore_outcome (fun t => t.reg w) rfl hs.storeRising h (entered_reg ..)
  · exact wordStore_outcome (fun t => t.ir) rfl hs.storeRising h (entered_ir ..)
  · exact wordStore_outcome (fun t => t.im) rfl hs.storeRising h (entered_im ..)

/-- Settles O19, likewise for the bytes of W, EX and PR. -/
theorem byteStoresReachTheByteAddressed : Obligations.ByteStoresReachTheByteAddressed := by
  rintro s u w a addr hs h rfl i v hiv
  simp only [List.mem_cons, List.not_mem_nil, or_false, Prod.mk.injEq] at hiv
  obtain ⟨rfl, rfl⟩ | ⟨rfl, rfl⟩ | ⟨rfl, rfl⟩ := hiv
  · exact byteStore_outcome (fun t => (t.reg w).extractLsb' 0 12) rfl hs.storeRising h (by rw [entered_reg])
  · exact byteStore_outcome (fun t => t.ex.setWidth 12) rfl hs.storeRising h (by rw [entered_ex])
  · exact byteStore_outcome (fun t => t.pr.setWidth 12) rfl hs.storeRising h (by rw [entered_pr])

/-- Settles O20: the three ways through RX's two tests. -/
theorem rxExchangesRegisterAndStore : Obligations.RxExchangesRegisterAndStore := by
  rintro s u w a addr hs h rfl
  exact ⟨exec_rx_missing h, exec_rx_forbidden h, rx_exchanges hs.storeRising h⟩

/-- Settles O21: the two ways through DL's one test, and the four through DS's three. -/
theorem dlAndDsMoveTheSecondWordFirst : Obligations.DlAndDsMoveTheSecondWordFirst := by
  rintro s u w a addr h rfl
  obtain ⟨hmissing, hforbidden, hstore⟩ := store_outcome (exec_ds_eq_cycle w a s) h
  exact ⟨⟨exec_dl_missing h, dl_loads h⟩, fun hs => ⟨hmissing, hforbidden,
    fun hm hp hp1 => (hstore hm hp).trans (storeBothWords_forbidden hp1),
    fun hm hp hp1 => ⟨_, (hstore hm hp).trans (storeBothWords_allowed hp1),
      ds_stores hs.storeRising w a addr rfl⟩⟩⟩

end Sys2Proof.Machine
end

section
/-! Integer arithmetic (42_integer_arithmetic.md R173 to R187): what the 25-bit adder delivers for one word and, with the
carry between the words, for two; the exact product and the quotient; and then one outcome per shape of instruction. -/

namespace Sys2Proof.Machine

/-! ## The adder in numbers (R130) -/

/-- No bit is lost between the 24-bit sum and the carry. -/
theorem toNat_add25 (a b : BitVec 25) (cin : Bool) :
    (sum24 (add25 a b cin).1).toNat + 2 ^ 24 * (add25 a b cin).2.toNat =
      a.toNat % 2 ^ 24 + b.toNat % 2 ^ 24 + cin.toNat := by
  have hcin := Bool.toNat_le cin
  have hcarry : (add25 a b cin).2.toNat = (a.toNat % 2 ^ 24 + b.toNat % 2 ^ 24 + cin.toNat) / 2 ^ 24 := by
    rw [add25]
    by_cases hreach : 2 ^ 24 ≤ a.toNat % 2 ^ 24 + b.toNat % 2 ^ 24 + cin.toNat
    · rw [decide_eq_true hreach, Bool.toNat_true]
      omega
    · rw [decide_eq_false hreach, Bool.toNat_false]
      omega
  rw [hcarry]
  simp only [sum24, add25, BitVec.extractLsb'_toNat, BitVec.toNat_add, BitVec.toNat_ofNat]
  omega

theorem toNat_intAdd (x y : Word) (cin : Bool) :
    (sum24 (intAdd x y cin).1).toNat + 2 ^ 24 * (intAdd x y cin).2.toNat = x.toNat + y.toNat + cin.toNat := by
  rw [intAdd, toNat_add25, low_signExtend, low_signExtend]

/-- A carry out of a subtraction is the borrow that it did not need. -/
theorem toNat_intSub (x y : Word) (cin : Bool) :
    (sum24 (intSub x y cin).1).toNat + 2 ^ 24 * (intSub x y cin).2.toNat + y.toNat + 1 =
      x.toNat + 2 ^ 24 + cin.toNat := by
  have hy := y.isLt
  have hcomplement : (~~~(y.signExtend 25)).toNat % 2 ^ 24 = 2 ^ 24 - 1 - y.toNat := by
    have hlow := low_signExtend y
    rw [BitVec.toNat_not]
    omega
  rw [intSub, toNat_add25, low_signExtend, hcomplement]
  omega

/-! ## One word -/

theorem sum24_intAdd (x y : Word) : sum24 (intAdd x y false).1 = x + y := by
  apply BitVec.eq_of_toNat_eq
  have hnumbers := toNat_intAdd x y false
  rw [Bool.toNat_false] at hnumbers
  bv_omega

theorem sum24_intSub (x y : Word) : sum24 (intSub x y true).1 = x - y := by
  apply BitVec.eq_of_toNat_eq
  have hnumbers := toNat_intSub x y true
  rw [Bool.toNat_true] at hnumbers
  bv_omega

theorem intSub_noBorrow (x y : Word) : (intSub x y true).2 = decide (y.toNat ≤ x.toNat) := by
  rw [intSub_carry, Bool.toNat_true, decide_eq_decide, Nat.lt_succ_iff]

/-- What a plain subtraction reports in EX(23): there is no borrow when the subtrahend is zero, and then the installation
decides (92_eei_decisions.md D23). -/
theorem reportedCarry_intSub (s : State) (x y : Word) :
    s.reportedCarry y true (intSub x y true).2 =
      if y = 0 then s.inst.subtractZeroCarry else decide (y.toNat ≤ x.toNat) := by
  rw [State.reportedCarry, intSub_noBorrow]
  by_cases hy : y = 0
  · simp [hy]
  · rw [if_neg hy, if_neg fun hzero => hy hzero.1]

/-! ## Two words (R186, R187) -/

theorem toNat_words (x₁ x₀ : Word) : (x₁ ++ x₀ : DoubleWord).toNat = x₁.toNat * 2 ^ 24 + x₀.toNat := by
  rw [BitVec.toNat_append, ← Nat.shiftLeft_add_eq_or_of_lt x₀.isLt, Nat.shiftLeft_eq]

theorem toInt_words (x₁ x₀ : Word) : (x₁ ++ x₀ : DoubleWord).toInt = x₁.toInt * 2 ^ 24 + x₀.toNat := by
  rw [BitVec.toInt_append, if_neg (by decide), Int.mul_comm]

section
variable (x₁ x₀ y₁ y₀ : Word)

/-- The carry of the right-hand words makes two passes through the adder one addition. -/
theorem sum24_intAdd_words :
    (sum24 (intAdd x₁ y₁ (intAdd x₀ y₀ false).2).1 ++ sum24 (intAdd x₀ y₀ false).1 : DoubleWord) =
      (x₁ ++ x₀) + (y₁ ++ y₀) := by
  apply BitVec.eq_of_toNat_eq
  have hright := toNat_intAdd x₀ y₀ false
  have hleft := toNat_intAdd x₁ y₁ (intAdd x₀ y₀ false).2
  rw [Bool.toNat_false] at hright
  rw [BitVec.toNat_add, toNat_words, toNat_words, toNat_words]
  omega

theorem intAdd_words_overflow :
    ((intAdd x₁ y₁ (intAdd x₀ y₀ false).2).1.toInt < -2 ^ 23 ∨
      2 ^ 23 ≤ (intAdd x₁ y₁ (intAdd x₀ y₀ false).2).1.toInt) ↔
    ((x₁ ++ x₀ : DoubleWord).toInt + (y₁ ++ y₀ : DoubleWord).toInt < -2 ^ 47 ∨
      2 ^ 47 ≤ (x₁ ++ x₀ : DoubleWord).toInt + (y₁ ++ y₀ : DoubleWord).toInt) := by
  have hright := toNat_intAdd x₀ y₀ false
  rw [Bool.toNat_false] at hright
  rw [toInt_intAdd, toInt_words, toInt_words]
  omega

theorem intAdd_words_carry :
    (intAdd x₁ y₁ (intAdd x₀ y₀ false).2).2 =
      decide (2 ^ 48 ≤ (x₁ ++ x₀ : DoubleWord).toNat + (y₁ ++ y₀ : DoubleWord).toNat) := by
  have hright := toNat_intAdd x₀ y₀ false
  rw [Bool.toNat_false] at hright
  rw [intAdd_carry, toNat_words, toNat_words, decide_eq_decide]
  omega

/-- The borrow of the right-hand words makes two passes through the adder one subtraction. -/
theorem sum24_intSub_words :
    (sum24 (intSub x₁ y₁ (intSub x₀ y₀ true).2).1 ++ sum24 (intSub x₀ y₀ true).1 : DoubleWord) =
      (x₁ ++ x₀) - (y₁ ++ y₀) := by
  apply BitVec.eq_of_toNat_eq
  have hright := toNat_intSub x₀ y₀ true
  have hleft := toNat_intSub x₁ y₁ (intSub x₀ y₀ true).2
  rw [Bool.toNat_true] at hright
  rw [BitVec.toNat_sub, toNat_words, toNat_words, toNat_words]
  omega

theorem intSub_words_overflow :
    ((intSub x₁ y₁ (intSub x₀ y₀ true).2).1.toInt < -2 ^ 23 ∨
      2 ^ 23 ≤ (intSub x₁ y₁ (intSub x₀ y₀ true).2).1.toInt) ↔
    ((x₁ ++ x₀ : DoubleWord).toInt - (y₁ ++ y₀ : DoubleWord).toInt < -2 ^ 47 ∨
      2 ^ 47 ≤ (x₁ ++ x₀ : DoubleWord).toInt - (y₁ ++ y₀ : DoubleWord).toInt) := by
  have hright := toNat_intSub x₀ y₀ true
  rw [Bool.toNat_true] at hright
  rw [toInt_intSub, toInt_words, toInt_words]
  omega

theorem intSub_words_noBorrow :
    (intSub x₁ y₁ (intSub x₀ y₀ true).2).2 =
      decide ((y₁ ++ y₀ : DoubleWord).toNat ≤ (x₁ ++ x₀ : DoubleWord).toNat) := by
  have hright := toNat_intSub x₀ y₀ true
  rw [Bool.toNat_true] at hright
  rw [intSub_carry, toNat_words, toNat_words, decide_eq_decide]
  omega

/-- What SS reports in EX(23): the installation decides for a left-hand word of zero without a borrow into it, and the
whole difference has no borrow then (notes/assumptions/13.md). -/
theorem reportedCarry_intSub_words (s : State) :
    s.reportedCarry y₁ (intSub x₀ y₀ true).2 (intSub x₁ y₁ (intSub x₀ y₀ true).2).2 =
      if y₁ = 0 ∧ y₀.toNat ≤ x₀.toNat then s.inst.subtractZeroCarry
      else decide ((y₁ ++ y₀ : DoubleWord).toNat ≤ (x₁ ++ x₀ : DoubleWord).toNat) := by
  rw [State.reportedCarry, intSub_words_noBorrow, intSub_noBorrow]
  by_cases hzero : y₁ = 0 ∧ y₀.toNat ≤ x₀.toNat
  · have hnoBorrow : (y₁ ++ y₀ : DoubleWord).toNat ≤ (x₁ ++ x₀ : DoubleWord).toNat := by
      obtain ⟨rfl, hle⟩ := hzero
      rw [toNat_words, toNat_words]
      bv_omega
    rw [if_pos hzero, decide_eq_true hnoBorrow]
    simp [hzero]
  · rw [if_neg hzero, if_neg fun hwords => hzero ⟨hwords.1, of_decide_eq_true hwords.2.1⟩]

end

/-! ## Products and quotients (R180, R183) -/

/-- No product of two words needs more than 48 bits. -/
theorem toInt_ofInt_product (x y : Word) : (BitVec.ofInt 48 (x.toInt * y.toInt)).toInt = x.toInt * y.toInt := by
  obtain ⟨hx, hx'⟩ := word_toInt_bounds x
  obtain ⟨hy, hy'⟩ := word_toInt_bounds y
  have hproduct : |x.toInt * y.toInt| ≤ 2 ^ 23 * 2 ^ 23 := by
    rw [abs_mul]
    exact mul_le_mul (abs_le.2 ⟨hx, hx'.le⟩) (abs_le.2 ⟨hy, hy'.le⟩) (abs_nonneg _) (by norm_num)
  obtain ⟨hlow, hhigh⟩ := abs_le.1 hproduct
  exact BitVec.toInt_ofInt_eq_self (by decide) (by omega) (by omega)

theorem divideInteger_eq_none {minOverflows : Bool} {n d : Int}
    (h : d = 0 ∨ 2 ^ 23 ≤ n.tdiv d ∨ n.tdiv d < -2 ^ 23 ∨ (n.tdiv d = -2 ^ 23 ∧ minOverflows = true)) :
    divideInteger minOverflows n d = none := by
  by_cases hd : d = 0
  · simp only [divideInteger, if_pos hd]
  · have hout : 2 ^ 23 - 1 < n.tdiv d ∨ n.tdiv d < -2 ^ 23 ∨ (n.tdiv d = -2 ^ 23 ∧ minOverflows = true) :=
      (h.resolve_left hd).imp_left fun hhigh => by omega
    simp only [divideInteger, if_neg hd, if_pos hout]

theorem divideInteger_eq_some {minOverflows : Bool} {n d : Int} (hd : d ≠ 0) (hhigh : n.tdiv d < 2 ^ 23)
    (hlow : -2 ^ 23 ≤ n.tdiv d) (hmin : n.tdiv d = -2 ^ 23 → minOverflows = false) :
    divideInteger minOverflows n d = some (n.tdiv d, n - n.tdiv d * d) := by
  have hin : ¬(2 ^ 23 - 1 < n.tdiv d ∨ n.tdiv d < -2 ^ 23 ∨ (n.tdiv d = -2 ^ 23 ∧ minOverflows = true)) := by
    rintro (h | h | ⟨h, h'⟩)
    · omega
    · omega
    · simp [hmin h] at h'
  simp only [divideInteger, if_neg hd, if_neg hin]

theorem remainder_eq_tmod (n d : Int) : n - n.tdiv d * d = n.tmod d := by
  rw [Int.tmod_def, Int.mul_comm]

theorem abs_remainder_lt {n d : Int} (hd : d ≠ 0) : |n - n.tdiv d * d| < |d| := by
  rw [remainder_eq_tmod, Int.abs_eq_natAbs, Int.abs_eq_natAbs, Int.natAbs_tmod]
  exact_mod_cast Nat.mod_lt _ (Int.natAbs_pos.2 hd)

theorem sign_remainder {n d : Int} (h : n - n.tdiv d * d ≠ 0) : (n - n.tdiv d * d).sign = n.sign := by
  rw [remainder_eq_tmod] at h ⊢
  rw [Int.sign_tmod, if_neg fun hdvd => h (Int.tmod_eq_zero_of_dvd hdvd)]

/-- A remainder by a word fits in a word. -/
theorem toInt_ofInt_remainder {n : Int} {v : Word} (hv : v.toInt ≠ 0) :
    (BitVec.ofInt 24 (n - n.tdiv v.toInt * v.toInt)).toInt = n - n.tdiv v.toInt * v.toInt := by
  obtain ⟨hlow, hhigh⟩ := word_toInt_bounds v
  have hdivisor : |v.toInt| ≤ 2 ^ 23 := abs_le.2 ⟨hlow, hhigh.le⟩
  obtain ⟨hlow', hhigh'⟩ := abs_lt.1 ((abs_remainder_lt (n := n) hv).trans_le hdivisor)
  exact BitVec.toInt_ofInt_eq_self (by decide) hlow'.le hhigh'

section
variable {s u t : State} {a : AddressPart} {addr y : Word} {w : Reg} {i : Instr}

/-! ## The state behind the address test (R27) -/

@[simp] theorem entered_clearEx_ex (s : State) (a : AddressPart) : (s.entered a).clearEx.ex = s.clearEx.ex := by
  simp only [State.clearEx, setEx_bits, entered_ex]

theorem frame_entered_clearEx (s : State) (a : AddressPart) :
    Frame s (s.entered a) (s.entered a).clearEx [] [] := frame_congr (frame_entered s a) rfl

/-- An instruction that clears EX(22:23) before the address test traps with them cleared, or does the rest. -/
theorem clearing_outcome {o : Out} {rest : Word → State → Out}
    (ho : o = cycle a s fun addr t => testAddress t.clearEx addr (rest addr t)) (h : s.reaches a addr) :
    (s.missing addr = true → o = .next (s.entered a).clearEx.raise) ∧
    (s.missing addr = false → o = rest addr (s.entered a)) := by
  rw [ho, cycle_reaches h]
  exact ⟨fun hm => testAddress_missing (by simpa using hm), fun hm => testAddress_exists (by simpa using hm)⟩

/-! ## The delivery of a sum or difference (R175) -/

/-- The register receives the 25-bit result, and Test Integer reports on it. -/
def State.deliver (t : State) (w : Reg) (r : BitVec 25) (c : Bool) : State :=
  (t.setReg w (sum24 r)).testInteger r c

theorem addToReg_eq_deliver (t : State) (w : Reg) (y : Word) :
    t.addToReg w y = t.deliver w (intAdd (t.reg w) y false).1 (intAdd (t.reg w) y false).2 := rfl

theorem subtractFromReg_eq_deliver (t : State) (w : Reg) (y : Word) :
    t.subtractFromReg w y =
      t.deliver w (intSub (t.reg w) y true).1 (t.reportedCarry y true (intSub (t.reg w) y true).2) := rfl

theorem deliver_reg (t : State) (w q : Reg) (r : BitVec 25) (c : Bool) :
    (t.deliver w r c).reg q = if w = q then sum24 r else t.reg q := by
  simp [State.deliver]

/-- A delivery into a state whose EX(22:23) is cleared and whose IC is advanced. -/
theorem deliver_outcome {regs : List Reg} (hframe : Frame s u t regs []) (hex : t.ex = s.clearEx.ex)
    (hir : t.ir = s.ir) (hic : t.ic = s.ic + 2) (w : Reg) (r : BitVec 25) (c : Bool) :
    Frame s u (t.deliver w r c) (regs ++ [w]) [] ∧ Continues s (t.deliver w r c) false ∧
      Reports s (t.deliver w r c) 1 (decide (r.toInt < -2 ^ 23 ∨ 2 ^ 23 ≤ r.toInt)) c := by
  refine ⟨frame_congr (frame_setReg hframe w (sum24 r)) ?_, ?_, testInteger_reports r c hex hir⟩
  · rw [State.deliver, testInteger_eq]
  · simpa [Continues, State.deliver] using hic

/-! ## WA, BA, WS and BS -/

/-- An addition to the register of what `f` reads at the effective address. -/
theorem addition_outcome (f : Word → State → Word)
    (hexec : exec i s = cycle a s fun addr t =>
      testAddress t.clearEx addr (.next (t.clearEx.addToReg w (f addr t.clearEx))))
    (h : s.reaches a addr) (hy : f addr (s.entered a).clearEx = y) :
    (s.missing addr = true → exec i s = .next (s.entered a).clearEx.raise) ∧
    (s.missing addr = false →
      ∃ t, exec i s = .next t ∧ t.reg w = s.reg w + y ∧ Frame s (s.entered a) t [w] [] ∧ Continues s t false ∧
        Reports s t 1
          (decide ((s.reg w).toInt + y.toInt < -2 ^ 23 ∨ 2 ^ 23 ≤ (s.reg w).toInt + y.toInt))
          (decide (2 ^ 24 ≤ (s.reg w).toNat + y.toNat))) := by
  obtain ⟨hmissing, hexists⟩ := clearing_outcome hexec h
  obtain ⟨hframe, hcontinues, hreports⟩ := deliver_outcome (frame_entered_clearEx s a) (entered_clearEx_ex s a)
    (entered_ir s a) (entered_ic s a) w (intAdd (s.reg w) y false).1 (intAdd (s.reg w) y false).2
  simp only [hy, addToReg_eq_deliver, clearEx_reg, entered_reg] at hexists
  refine ⟨hmissing, fun hm => ⟨_, hexists hm, ?_, hframe, hcontinues, ?_⟩⟩
  · simp [deliver_reg, sum24_intAdd]
  · simpa [toInt_intAdd, intAdd_carry] using hreports

/-- A subtraction from the register of what `f` reads at the effective address. -/
theorem subtraction_outcome (f : Word → State → Word)
    (hexec : exec i s = cycle a s fun addr t =>
      testAddress t.clearEx addr (.next (t.clearEx.subtractFromReg w (f addr t.clearEx))))
    (h : s.reaches a addr) (hy : f addr (s.entered a).clearEx = y) :
    (s.missing addr = true → exec i s = .next (s.entered a).clearEx.raise) ∧
    (s.missing addr = false →
      ∃ t, exec i s = .next t ∧ t.reg w = s.reg w - y ∧ Frame s (s.entered a) t [w] [] ∧ Continues s t false ∧
        Reports s t 1
          (decide ((s.reg w).toInt - y.toInt < -2 ^ 23 ∨ 2 ^ 23 ≤ (s.reg w).toInt - y.toInt))
          (if y = 0 then s.inst.subtractZeroCarry else decide (y.toNat ≤ (s.reg w).toNat))) := by
  have hcarry : (s.entered a).clearEx.reportedCarry y true (intSub (s.reg w) y true).2 =
      if y = 0 then s.inst.subtractZeroCarry else decide (y.toNat ≤ (s.reg w).toNat) := by
    rw [reportedCarry_intSub, clearEx_inst, entered_inst]
  obtain ⟨hmissing, hexists⟩ := clearing_outcome hexec h
  obtain ⟨hframe, hcontinues, hreports⟩ := deliver_outcome (frame_entered_clearEx s a) (entered_clearEx_ex s a)
    (entered_ir s a) (entered_ic s a) w (intSub (s.reg w) y true).1
    (if y = 0 then s.inst.subtractZeroCarry else decide (y.toNat ≤ (s.reg w).toNat))
  simp only [hy, subtractFromReg_eq_deliver, clearEx_reg, entered_reg, hcarry] at hexists
  refine ⟨hmissing, fun hm => ⟨_, hexists hm, ?_, hframe, hcontinues, ?_⟩⟩
  · simp [deliver_reg, sum24_intSub]
  · simpa [toInt_intSub] using hreports

/-! ## WM and WD -/

/-- WM where the operand exists (R180). -/
theorem wm_multiplies (h : s.reaches a addr) (hm : s.missing addr = false) :
    ∃ t, exec (.wm w a) s = .next t ∧ (t.pair w).toInt = (s.reg w).toInt * ((s.entered a).wordRead addr).toInt ∧
      Frame s (s.entered a) t [preceding w, w] [] ∧ Quiet s t ∧ Continues s t false := by
  have hexec : exec (.wm w a) s = .next ((s.entered a).setPair w
      (BitVec.ofInt 48 ((s.reg w).toInt * ((s.entered a).wordRead addr).toInt))) := by
    show execWm w a s = _
    rw [execWm, cycle_reaches h, testAddress_entered_exists hm, entered_reg]
  refine ⟨_, hexec, ?_, frame_setPair (frame_entered s a) w _, ?_, ?_⟩
  · rw [pair_setPair, toInt_ofInt_product]
  · simp [Quiet]
  · simp [Continues]

theorem exec_wm_missing (h : s.reaches a addr) (hm : s.missing addr = true) :
    exec (.wm w a) s = .next (s.entered a).raise := by
  show execWm w a s = _
  rw [execWm, cycle_reaches h, testAddress_entered_missing hm]

/-- WD without a quotient: the overflow is reported, and the registers stay (R183). -/
theorem wd_overflows (h : s.reaches a addr) (hm : s.missing addr = false)
    (hdiv : divideInteger s.inst.wdMinQuotientOverflows (s.pair w).toInt ((s.entered a).wordRead addr).toInt = none) :
    ∃ t, exec (.wd w a) s = .next t ∧ Frame s (s.entered a) t [] [] ∧ Continues s t false ∧
      Reports s t 1 true false := by
  have hexec : exec (.wd w a) s = .next (s.entered a).clearEx.integerOverflow := by
    refine ((clearing_outcome (o := execWd w a s) rfl h).2 hm).trans ?_
    simp only [clearEx_inst, entered_inst, clearEx_pair, entered_pair, clearEx_wordRead, hdiv]
  refine ⟨_, hexec, frame_congr (frame_entered_clearEx s a) rfl, ?_,
    overflow_reports 1 (entered_clearEx_ex s a) (entered_ir s a)⟩
  simp [Continues]

/-- WD with a quotient and a remainder, each of them a word (R183). -/
theorem wd_divides (h : s.reaches a addr) (hm : s.missing addr = false) {q r : Int}
    (hdiv : divideInteger s.inst.wdMinQuotientOverflows (s.pair w).toInt ((s.entered a).wordRead addr).toInt =
      some (q, r)) :
    ∃ t, exec (.wd w a) s = .next t ∧ t.reg w = BitVec.ofInt 24 q ∧ t.reg (preceding w) = BitVec.ofInt 24 r ∧
      Frame s (s.entered a) t [preceding w, w] [] ∧ Continues s t false ∧ Reports s t 1 false false := by
  have hexec : exec (.wd w a) s = .next
      (((s.entered a).clearEx.setReg (preceding w) (BitVec.ofInt 24 r)).setReg w (BitVec.ofInt 24 q)) := by
    refine ((clearing_outcome (o := execWd w a s) rfl h).2 hm).trans ?_
    simp only [clearEx_inst, entered_inst, clearEx_pair, entered_pair, clearEx_wordRead, hdiv]
  refine ⟨_, hexec, ?_, ?_, frame_setReg (frame_setReg (frame_entered_clearEx s a) (preceding w) _) w _, ?_,
    clear_reports 1 (entered_clearEx_ex s a) (entered_ir s a)⟩
  · simp
  · simp
  · simp [Continues]

/-! ## AA and SS -/

/-- AA and SS between their accesses: the register holds the right-hand result `v`, and the channel has stolen the cycles
before the left-hand word is read. -/
def State.afterRightWord (s : State) (w : Reg) (a : AddressPart) (v : Word) : State :=
  ((s.entered a).clearEx.setReg w v).steal

theorem afterRightWord_eq (s : State) (w : Reg) (a : AddressPart) (v : Word) :
    s.afterRightWord w a v = (s.entered a).steal.clearEx.setReg w v := rfl

@[simp] theorem afterRightWord_inst (s : State) (w : Reg) (a : AddressPart) (v : Word) :
    (s.afterRightWord w a v).inst = s.inst := entered_inst s a

@[simp] theorem afterRightWord_reg (s : State) (w q : Reg) (a : AddressPart) (v : Word) :
    (s.afterRightWord w a v).reg q = if w = q then v else s.reg q := by
  simp [afterRightWord_eq]

/-- The left-hand word, which is the right-hand result if it is the register itself (R24). -/
theorem afterRightWord_wordRead (s : State) (w : Reg) (a : AddressPart) (v b : Word) :
    (s.afterRightWord w a v).wordRead b =
      if wordNumber b = registerNumber w then v else (s.entered a).steal.wordRead b := by
  rw [afterRightWord_eq, wordRead_setReg, clearEx_wordRead]

/-- The left-hand result delivered behind the right-hand one. -/
theorem deliver_afterRightWord (s : State) (w : Reg) (a : AddressPart) {v : Word} {r : BitVec 25} {c : Bool}
    {result : DoubleWord} {overflow : Prop} [Decidable overflow] (hresult : sum24 r ++ v = result)
    (hoverflow : (r.toInt < -2 ^ 23 ∨ 2 ^ 23 ≤ r.toInt) ↔ overflow) :
    ((s.afterRightWord w a v).deliver (preceding w) r c).pair w = result ∧
    Frame s (s.entered a).steal ((s.afterRightWord w a v).deliver (preceding w) r c) [preceding w, w] [] ∧
    Continues s ((s.afterRightWord w a v).deliver (preceding w) r c) false ∧
    Reports s ((s.afterRightWord w a v).deliver (preceding w) r c) 1 (decide overflow) c := by
  have hbetween : Frame s (s.entered a).steal (s.afterRightWord w a v) [w] [] :=
    frame_congr (frame_setReg (frame_entered_steal s a) w v) rfl
  obtain ⟨hframe, hcontinues, hreports⟩ := deliver_outcome hbetween (entered_clearEx_ex s a) (entered_ir s a)
    (entered_ic s a) (preceding w) r c
  refine ⟨?_, frame_mono hframe (by simp) (List.Subset.refl _), hcontinues, ?_⟩
  · simp [State.pair, deliver_reg, hresult]
  · rwa [decide_eq_decide.2 hoverflow] at hreports

theorem exec_aa (h : s.reaches a addr) (hm : s.missing addr = false) {r : BitVec 25 × Bool} {t : State}
    (hr : r = intAdd (s.reg w) ((s.entered a).wordRead addr) false) (ht : t = s.afterRightWord w a (sum24 r.1)) :
    exec (.aa w a) s = .next (t.deliver (preceding w)
      (intAdd (t.reg (preceding w)) (t.wordRead (firstWordAddress addr)) r.2).1
      (intAdd (t.reg (preceding w)) (t.wordRead (firstWordAddress addr)) r.2).2) := by
  subst ht hr
  refine ((clearing_outcome (o := execAa w a s) rfl h).2 hm).trans ?_
  simp only [clearEx_reg, entered_reg, clearEx_wordRead]
  rfl

theorem exec_ss (h : s.reaches a addr) (hm : s.missing addr = false) {r : BitVec 25 × Bool} {t : State}
    (hr : r = intSub (s.reg w) ((s.entered a).wordRead addr) true) (ht : t = s.afterRightWord w a (sum24 r.1)) :
    exec (.ss w a) s = .next (t.deliver (preceding w)
      (intSub (t.reg (preceding w)) (t.wordRead (firstWordAddress addr)) r.2).1
      (t.reportedCarry (t.wordRead (firstWordAddress addr)) r.2
        (intSub (t.reg (preceding w)) (t.wordRead (firstWordAddress addr)) r.2).2)) := by
  subst ht hr
  refine ((clearing_outcome (o := execSs w a s) rfl h).2 hm).trans ?_
  simp only [clearEx_reg, entered_reg, clearEx_wordRead]
  rfl

/-- AA where the operand exists: `left` and `right` are its words (R186). -/
theorem aa_adds (h : s.reaches a addr) (hm : s.missing addr = false) {left right : Word}
    (hright : right = (s.entered a).wordRead addr)
    (hleft : left = if wordNumber (firstWordAddress addr) = registerNumber w then s.reg w + right
      else (s.entered a).steal.wordRead (firstWordAddress addr)) :
    ∃ t, exec (.aa w a) s = .next t ∧ t.pair w = s.pair w + (left ++ right) ∧
      Frame s (s.entered a).steal t [preceding w, w] [] ∧ Continues s t false ∧
      Reports s t 1
        (decide ((s.pair w).toInt + (left ++ right : DoubleWord).toInt < -2 ^ 47 ∨
          2 ^ 47 ≤ (s.pair w).toInt + (left ++ right : DoubleWord).toInt))
        (decide (2 ^ 48 ≤ (s.pair w).toNat + (left ++ right : DoubleWord).toNat)) := by
  have hexec := exec_aa (w := w) h hm rfl rfl
  rw [afterRightWord_wordRead, sum24_intAdd, ← hright, ← hleft, ← sum24_intAdd, afterRightWord_reg,
    if_neg (ne_preceding w), intAdd_words_carry] at hexec
  exact ⟨_, hexec, deliver_afterRightWord s w a (sum24_intAdd_words ..) (intAdd_words_overflow ..)⟩

/-- SS where the operand exists (R187). -/
theorem ss_subtracts (h : s.reaches a addr) (hm : s.missing addr = false) {left right : Word}
    (hright : right = (s.entered a).wordRead addr)
    (hleft : left = if wordNumber (firstWordAddress addr) = registerNumber w then s.reg w - right
      else (s.entered a).steal.wordRead (firstWordAddress addr)) :
    ∃ t, exec (.ss w a) s = .next t ∧ t.pair w = s.pair w - (left ++ right) ∧
      Frame s (s.entered a).steal t [preceding w, w] [] ∧ Continues s t false ∧
      Reports s t 1
        (decide ((s.pair w).toInt - (left ++ right : DoubleWord).toInt < -2 ^ 47 ∨
          2 ^ 47 ≤ (s.pair w).toInt - (left ++ right : DoubleWord).toInt))
        (if left = 0 ∧ right.toNat ≤ (s.reg w).toNat then s.inst.subtractZeroCarry
          else decide ((left ++ right : DoubleWord).toNat ≤ (s.pair w).toNat)) := by
  have hexec := exec_ss (w := w) h hm rfl rfl
  rw [afterRightWord_wordRead, sum24_intSub, ← hright, ← hleft, ← sum24_intSub, afterRightWord_reg,
    if_neg (ne_preceding w), reportedCarry_intSub_words, afterRightWord_inst] at hexec
  exact ⟨_, hexec, deliver_afterRightWord s w a (sum24_intSub_words ..) (intSub_words_overflow ..)⟩

end

/-! ## The statements -/

/-- Settles O22: WA and BA are one addition, of a word or of a sign-extended byte. -/
theorem integerAdditionDeliversSumOverflowAndCarry : Obligations.IntegerAdditionDeliversSumOverflowAndCarry := by
  rintro s u w a addr h rfl i y hiy
  simp only [List.mem_cons, List.not_mem_nil, or_false, Prod.mk.injEq] at hiy
  obtain ⟨rfl, rfl⟩ | ⟨rfl, rfl⟩ := hiy
  · exact addition_outcome (fun addr t => t.wordRead addr) rfl h (clearEx_wordRead ..)
  · exact addition_outcome (fun addr t => (t.byteRead addr).signExtend 24) rfl h (by rw [clearEx_byteRead])

/-- Settles O23: WS and BS are one subtraction, likewise. -/
theorem integerSubtractionDeliversDifferenceOverflowAndCarry :
    Obligations.IntegerSubtractionDeliversDifferenceOverflowAndCarry := by
  rintro s u w a addr h rfl i y hiy
  simp only [List.mem_cons, List.not_mem_nil, or_false, Prod.mk.injEq] at hiy
  obtain ⟨rfl, rfl⟩ | ⟨rfl, rfl⟩ := hiy
  · exact subtraction_outcome (fun addr t => t.wordRead addr) rfl h (clearEx_wordRead ..)
  · exact subtraction_outcome (fun addr t => (t.byteRead addr).signExtend 24) rfl h (by rw [clearEx_byteRead])

/-- Settles O24: the product is exact because two words never need more than 48 bits. -/
theorem wmDeliversTheExactProduct : Obligations.WmDeliversTheExactProduct := by
  rintro s u w a addr h rfl
  exact ⟨exec_wm_missing h, wm_multiplies h⟩

/-- Settles O25: the quotient overflows or not, and the remainder is that of the division which rounds toward zero. -/
theorem wdDeliversQuotientAndRemainder : Obligations.WdDeliversQuotientAndRemainder := by
  rintro s u w a addr n d q h rfl rfl rfl rfl
  refine ⟨(clearing_outcome (o := execWd w a s) rfl h).1, fun hm hout => wd_overflows h hm (divideInteger_eq_none hout),
    fun hm hd hhigh hlow hmin => ?_⟩
  obtain ⟨t, hexec, hquotient, hremainder, hrest⟩ := wd_divides h hm (divideInteger_eq_some hd hhigh hlow hmin)
  refine ⟨t, hexec, ?_, ?_, abs_remainder_lt hd, sign_remainder, hrest⟩
  · rw [hquotient]
    exact BitVec.toInt_ofInt_eq_self (by decide) hlow hhigh
  · rw [hremainder, toInt_ofInt_remainder hd]

/-- Settles O26: the carry between the words makes the two additions one. -/
theorem aaDeliversTheDoubleSum : Obligations.AaDeliversTheDoubleSum := by
  rintro s u w a addr m h rfl rfl
  exact ⟨(clearing_outcome (o := execAa w a s) rfl h).1, fun hm => aa_adds h hm rfl rfl⟩

/-- Settles O27, likewise with the borrow. -/
theorem ssDeliversTheDoubleDifference : Obligations.SsDeliversTheDoubleDifference := by
  rintro s u w a addr left m h rfl hleft rfl
  exact ⟨(clearing_outcome (o := execSs w a s) rfl h).1, fun hm => ss_subtracts h hm rfl hleft⟩

end Sys2Proof.Machine
end

section
/-! What a floating-point instruction stores (43_floating_point.md R204 to R208): the fields of AF, the rounded fraction
in numbers, and the normalization and rounding of R206. -/

namespace Sys2Proof.Machine

open Sys2Proof.Laws

/-! ## The stored double word, bit by bit (R207, R208) -/

/-- Only bits 34 and 35 of a fraction differ in low precision, and they repeat bit 33. -/
theorem lowPrecisionFraction_getMsbD (f : BitVec 36) {b : Nat} (hb : b < 36) :
    (lowPrecisionFraction f).getMsbD b = f.getMsbD (if b = 34 ∨ b = 35 then 33 else b) := by
  have hmask : (3#36).getMsbD b = decide (b = 34 ∨ b = 35) := by
    have hall : ∀ i : Fin 36, (3#36).getMsbD i = decide (i.val = 34 ∨ i.val = 35) := by decide
    exact hall ⟨b, hb⟩
  rw [lowPrecisionFraction]
  cases hbit : f.getMsbD 33
  · rw [if_neg Bool.false_ne_true, BitVec.getMsbD_and, BitVec.getMsbD_not, hmask]
    by_cases hlast : b = 34 ∨ b = 35 <;> simp [hlast, hbit, hb]
  · rw [if_pos rfl, show f ||| 3 = f ||| 3#36 from rfl, BitVec.getMsbD_or, hmask]
    by_cases hlast : b = 34 ∨ b = 35 <;> simp [hlast, hbit]

theorem floatingResult_getMsbD_fraction (low : Bool) (p : BitVec 39 × BitVec 13) {b : Nat} (hb : b < 36) :
    (floatingResult low p).getMsbD b =
      (if low then lowPrecisionFraction (p.1.extractLsb' 2 36) else p.1.extractLsb' 2 36).getMsbD b := by
  simp only [floatingResult, BitVec.getMsbD_append]
  rw [if_neg (by omega)]

theorem floatingResult_getMsbD_exponent (low : Bool) (p : BitVec 39 × BitVec 13) (b : Nat) :
    (floatingResult low p).getMsbD (36 + b) = (p.2.extractLsb' 0 12).getMsbD b := by
  simp only [floatingResult, BitVec.getMsbD_append]
  rw [if_pos (by omega), Nat.add_sub_cancel_left]

/-- Settles O33: the fraction bits are compared with `lowPrecisionFraction`, the exponent bits are the same. -/
theorem lowPrecisionCopiesBit33 : Obligations.LowPrecisionCopiesBit33 := by
  intro p
  refine ⟨fun b hb => ?_, fun b hb => ?_, fun b hb => ?_⟩
  · by_cases hfraction : b < 36
    · have hcopied : (if b = 34 ∨ b = 35 then 33 else b) < 36 := by split <;> omega
      rw [floatingResult_getMsbD_fraction _ _ hfraction, floatingResult_getMsbD_fraction _ _ hcopied]
      exact lowPrecisionFraction_getMsbD _ hfraction
    · obtain ⟨c, rfl⟩ := Nat.exists_eq_add_of_le (Nat.le_of_not_lt hfraction)
      rw [if_neg (by omega), floatingResult_getMsbD_exponent, floatingResult_getMsbD_exponent]
  · rw [floatingResult_getMsbD_fraction _ _ hb]
    simp [BitVec.getMsbD, hb, show b + 1 < 39 by omega, show 35 - b < 36 by omega,
      show 2 + (35 - b) = 37 - b by omega]
  · rw [floatingResult_getMsbD_exponent]
    simp [BitVec.getMsbD, hb, show b + 1 < 13 by omega, show 11 - b < 12 by omega]

/-! ## The fields of AF in numbers (R204) -/

/-- AF(-1:35) and AF(36:37) are the quotient and the remainder by 4. -/
theorem af_fields (af : BitVec 39) :
    (af.extractLsb' 2 37).toInt = af.toInt / 4 ∧ ((af.extractLsb' 0 2).toNat : ℤ) = af.toInt % 4 := by
  have hjoin : af.extractLsb' 2 37 ++ af.extractLsb' 0 2 = af := by
    apply BitVec.eq_of_getLsbD_eq
    intro i hi
    rw [BitVec.getLsbD_append]
    split
    · simp [‹i < 2›]
    · simp [show i - 2 < 37 by omega, show 2 + (i - 2) = i by omega]
  have hsum := congrArg BitVec.toInt hjoin
  rw [BitVec.toInt_append, if_neg (by decide)] at hsum
  have hlow := (af.extractLsb' 0 2).isLt
  omega

/-- Bit 36 of AF asks for a rounding. -/
theorem af_getMsbD_37 (af : BitVec 39) : af.getMsbD 37 = decide (2 ≤ af.toInt % 4) := by
  have hlow := (af_fields af).2
  have hbit : af.getMsbD 37 = decide (2 ≤ (af.extractLsb' 0 2).toNat) := by
    rw [BitVec.extractLsb'_toNat]
    simp [BitVec.getMsbD, BitVec.getLsbD, Nat.testBit_eq_decide_div_mod_eq]
    omega
  rw [hbit, decide_eq_decide]
  omega

/-- AF(36:37) cleared. -/
theorem toInt_clear_low (af : BitVec 39) : (af &&& ~~~3#39).toInt = 4 * (af.toInt / 4) := by
  have hjoin : af &&& ~~~3#39 = af.extractLsb' 2 37 ++ 0#2 := by
    apply BitVec.eq_of_getLsbD_eq
    intro i hi
    have hmask : (3#39).getLsbD i = decide (i < 2) := by
      have hall : ∀ j : Fin 39, (3#39).getLsbD j = decide (j.val < 2) := by decide
      exact hall ⟨i, hi⟩
    rw [BitVec.getLsbD_and, BitVec.getLsbD_not, hmask, BitVec.getLsbD_append]
    by_cases hlow : i < 2
    · simp [hlow]
    · simp [hlow, show i < 39 by omega, show i - 2 < 37 by omega, show 2 + (i - 2) = i by omega]
  rw [hjoin, BitVec.toInt_append, if_neg (by decide), (af_fields af).1]
  simp

/-- The fraction of an AF whose two leftmost bits agree. -/
theorem toInt_fraction {af : BitVec 39} (hl : -2 ^ 37 ≤ af.toInt) (hu : af.toInt < 2 ^ 37) :
    (af.extractLsb' 2 36).toInt = af.toInt / 4 := by
  have hcut : af.extractLsb' 2 36 = (af.extractLsb' 2 37).setWidth 36 := by
    ext i hi
    simp [show i < 37 by omega]
  have hfield := (af_fields af).1
  rw [BitVec.toInt_eq_toNat_bmod] at hfield
  rw [hcut, BitVec.toInt_setWidth]
  rw [Int.bmod_def] at *
  omega

/-- The two leftmost bits of a two's complement value agree exactly when it fits in one bit less. -/
theorem topBits_agree {n : ℕ} {r : BitVec (n + 2)} :
    r.getMsbD 0 = r.getMsbD 1 ↔ -2 ^ n ≤ r.toInt ∧ r.toInt < 2 ^ n := by
  rw [← not_iff_not, ← ne_eq, topBits_differ]
  omega

theorem toInt_eq_zero_iff {n : ℕ} {v : BitVec n} : v.toInt = 0 ↔ v = 0 := by
  rw [← BitVec.toInt_inj, show (0 : BitVec n).toInt = 0 from BitVec.toInt_zero]

theorem normalizedFraction_iff {f : BitVec 36} :
    normalizedFraction f ↔ f.toInt < -2 ^ 34 ∨ 2 ^ 34 ≤ f.toInt := topBits_differ (n := 34) f

/-! ## Normalize and Round Floating (R206) -/

/-- `v` has the magnitude of a normalized AF. -/
abbrev NormalMagnitude (v : ℤ) : Prop := (2 ^ 36 ≤ v ∧ v < 2 ^ 37) ∨ (-2 ^ 37 ≤ v ∧ v < -2 ^ 36)

/-- After a fraction overflow one right shift normalizes, losing the rightmost bit. -/
theorem normalizePass_overflow {af : BitVec 39} (sc : BitVec 13) (h : af.toInt < -2 ^ 37 ∨ 2 ^ 37 ≤ af.toInt) :
    (normalizePass af sc).1.toInt = af.toInt / 2 ∧ (normalizePass af sc).2 = sc + 1 ∧
      NormalMagnitude (af.toInt / 2) := by
  have hl := BitVec.le_toInt af
  have hu := BitVec.toInt_lt (x := af)
  rw [normalizePass, if_pos ((topBits_differ (n := 37) af).2 h)]
  exact ⟨toInt_half af, rfl, by omega⟩

/-- Any other nonzero AF is normalized by left shifts, which lose nothing. -/
theorem normalizePass_shifts {af : BitVec 39} (sc : BitVec 13) (h0 : af ≠ 0) (hl : -2 ^ 37 ≤ af.toInt)
    (hu : af.toInt < 2 ^ 37) :
    ∃ k ≤ 37, (normalizePass af sc).1.toInt = af.toInt * 2 ^ k ∧
      (normalizePass af sc).2 = sc - BitVec.ofNat 13 k ∧ NormalMagnitude (af.toInt * 2 ^ k) := by
  have hne : af.toInt ≠ 0 := toInt_eq_zero_iff.not.2 h0
  have hbits : ¬af.getMsbD 0 ≠ af.getMsbD 1 := not_not.2 ((topBits_agree (n := 37)).2 ⟨hl, hu⟩)
  rw [normalizePass, if_neg hbits, if_neg h0]
  obtain ⟨k, -, hvalue, hcount, hlow, hhigh, hnormal⟩ := normalizeLoop_spec 38 af sc hl hu (by omega)
  have hk : k ≤ 37 := by
    by_contra hk
    have hpow : (2 : ℤ) ^ 38 ≤ 2 ^ k := pow_le_pow_right₀ (by decide) (by omega)
    rcases lt_or_gt_of_ne hne with h | h <;> nlinarith
  exact ⟨k, hk, hvalue, hcount, by omega⟩

/-! ## Rounding -/

/-- Counting down by `k` is counting up by `-k`. -/
theorem sub_ofNat (sc : BitVec 13) (k : ℕ) : sc - BitVec.ofNat 13 k = sc + BitVec.ofInt 13 (-k) := by
  rw [BitVec.sub_eq_add_neg, BitVec.ofInt_neg, BitVec.ofInt_natCast]

/-- A normalized AF without a digit in AF(36) is the result. -/
theorem normalizeAndRound_exact (n : ℕ) {af : BitVec 39} {sc : BitVec 13}
    (h : (normalizePass af sc).1.toInt % 4 < 2) : normalizeAndRound (n + 1) af sc = normalizePass af sc := by
  have hbit : (normalizePass af sc).1.getMsbD 37 = false := by
    rw [af_getMsbD_37, decide_eq_false (by omega)]
  simp only [normalizeAndRound, hbit, Bool.false_eq_true, if_false]

/-- A digit in AF(36) is rounded away, and the sum is normalized again. -/
theorem normalizeAndRound_rounds (n : ℕ) {af : BitVec 39} {sc : BitVec 13}
    (h : 2 ≤ (normalizePass af sc).1.toInt % 4) :
    normalizeAndRound (n + 1) af sc =
      normalizeAndRound n (((normalizePass af sc).1 + 4) &&& ~~~3#39) (normalizePass af sc).2 := by
  have hbit : (normalizePass af sc).1.getMsbD 37 = true := by
    rw [af_getMsbD_37, decide_eq_true h]
  simp only [normalizeAndRound, hbit, if_true]

theorem toInt_round {af : BitVec 39} (hmag : NormalMagnitude af.toInt) (hbit : 2 ≤ af.toInt % 4) :
    ((af + 4) &&& ~~~3#39).toInt = 4 * ((af.toInt + 2) / 4) := by
  have hsum : (af + 4).toInt = af.toInt + 4 := by
    rw [BitVec.toInt_add, show (4 : BitVec 39).toInt = 4 by decide, Int.bmod_eq_of_le (by omega) (by omega)]
  rw [toInt_clear_low, hsum]
  omega

/-- What the normalization of a rounded fraction `r` does: nothing, but for the two values that the rounding has brought
to another power of two, which moves the exponent by `i`. -/
theorem normalizePass_rounded {af : BitVec 39} (sc : BitVec 13) {r : ℤ} (haf : af.toInt = 4 * r)
    (hr : (2 ^ 34 ≤ r ∧ r ≤ 2 ^ 35) ∨ (-2 ^ 35 ≤ r ∧ r ≤ -2 ^ 34)) :
    ∃ (i f : ℤ), (f : ℚ) * 2 ^ i = r ∧ (normalizePass af sc).1.toInt = 4 * f ∧
      (normalizePass af sc).2 = sc + BitVec.ofInt 13 i ∧ NormalMagnitude (4 * f) := by
  by_cases hcarry : r = 2 ^ 35
  · obtain ⟨hvalue, hcount, -⟩ := normalizePass_overflow sc (af := af) (by omega)
    exact ⟨1, 2 ^ 34, by rw [hcarry]; norm_num, by omega, hcount, by decide⟩
  · have h0 : af ≠ 0 := by
      rintro rfl
      simp at haf
      omega
    obtain ⟨k, -, hvalue, hcount, hnormal⟩ := normalizePass_shifts sc h0 (by omega) (by omega)
    rw [haf] at hvalue hnormal
    have hk : k < 2 := by
      by_contra hk
      have hpow : (2 : ℤ) ^ 2 ≤ 2 ^ k := pow_le_pow_right₀ (by decide) (by omega)
      rcases hr with h | h <;> rcases hnormal with h' | h' <;> nlinarith
    interval_cases k
    · exact ⟨0, r, by simp, by simpa using hvalue, by simpa using hcount, by simpa using hnormal⟩
    · exact ⟨-1, 2 * r, by push_cast; ring, by omega, hcount.trans (sub_ofNat sc 1), by omega⟩

/-- The fraction delivered is the value `r` up to a power of two, by which the exponent `sc` has moved. -/
def Delivers (result : BitVec 39 × BitVec 13) (r : ℤ) (sc : BitVec 13) : Prop :=
  ∃ i : ℤ, normalizedFraction (result.1.extractLsb' 2 36) ∧
    ((result.1.extractLsb' 2 36).toInt : ℚ) * 2 ^ i = r ∧ result.2 = sc + BitVec.ofInt 13 i

theorem delivers_of_normal {result : BitVec 39 × BitVec 13} {r f i : ℤ} {sc : BitVec 13}
    (hmag : NormalMagnitude result.1.toInt) (hf : result.1.toInt / 4 = f) (hr : (f : ℚ) * 2 ^ i = r)
    (hsc : result.2 = sc + BitVec.ofInt 13 i) : Delivers result r sc := by
  have hfraction := toInt_fraction (af := result.1) (by omega) (by omega)
  refine ⟨i, ?_, by rw [hfraction, hf, hr], hsc⟩
  rw [normalizedFraction_iff, hfraction]
  omega

/-- Normalize and Round of a nonzero AF rounds what the normalization delivers to a multiple of 4. -/
theorem normalizeAndRound_delivers {af : BitVec 39} (sc : BitVec 13) {p : ℤ}
    (hp : (normalizePass af sc).1.toInt = p) (hmag : NormalMagnitude p) :
    Delivers (normalizeAndRound 2 af sc) ((p + 2) / 4) (normalizePass af sc).2 := by
  by_cases hbit : p % 4 < 2
  · rw [normalizeAndRound_exact 1 (by omega)]
    exact delivers_of_normal (i := 0) (by rwa [hp]) (f := (p + 2) / 4) (by omega) (by simp) (by simp)
  · have hround := toInt_round (af := (normalizePass af sc).1) (by rwa [hp]) (by omega)
    rw [hp] at hround
    obtain ⟨i, f, hscale, hvalue, hcount, hnormal⟩ :=
      normalizePass_rounded (normalizePass af sc).2 hround (by omega)
    rw [normalizeAndRound_rounds 1 (by omega), normalizeAndRound_exact 0 (by omega)]
    exact delivers_of_normal (by rwa [hvalue]) (by omega) hscale hcount

/-- The normalization in rational numbers: AF is divided by a power of two, and rounded down. -/
theorem normalizePass_scales {af : BitVec 39} (sc : BitVec 13) (h0 : af ≠ 0) :
    ∃ n : ℤ, -37 ≤ n ∧ n ≤ 1 ∧ (normalizePass af sc).1.toInt = ⌊(af.toInt : ℚ) / 2 ^ n⌋ ∧
      NormalMagnitude ⌊(af.toInt : ℚ) / 2 ^ n⌋ ∧ (normalizePass af sc).2 = sc + BitVec.ofInt 13 n := by
  by_cases hover : af.toInt < -2 ^ 37 ∨ 2 ^ 37 ≤ af.toInt
  · obtain ⟨hvalue, hcount, hmag⟩ := normalizePass_overflow sc hover
    have hfloor : ⌊(af.toInt : ℚ) / 2 ^ (1 : ℤ)⌋ = af.toInt / 2 := by
      rw [zpow_one]
      exact_mod_cast Rat.floor_intCast_div_natCast af.toInt 2
    exact ⟨1, by decide, le_rfl, by rw [hvalue, hfloor], by rwa [hfloor], hcount⟩
  · obtain ⟨k, hk, hvalue, hcount, hmag⟩ := normalizePass_shifts sc h0 (by omega) (by omega)
    have hfloor : ⌊(af.toInt : ℚ) / 2 ^ (-k : ℤ)⌋ = af.toInt * 2 ^ k := by
      rw [zpow_neg, div_inv_eq_mul, zpow_natCast]
      exact_mod_cast Int.floor_intCast (af.toInt * 2 ^ k)
    exact ⟨-k, by omega, by omega, by rw [hvalue, hfloor], by rwa [hfloor], hcount.trans (sub_ofNat sc k)⟩

/-- Rounding to the nearest multiple of 4 needs no more than the integer part. -/
theorem floor_nearest (x : ℚ) : ⌊x / 4 + 1 / 2⌋ = (⌊x⌋ + 2) / 4 := by
  calc ⌊x / 4 + 1 / 2⌋ = ⌊(x + 2) / (4 : ℕ)⌋ := by congr 1; push_cast; ring
    _ = ⌊x + (2 : ℤ)⌋ / 4 := by rw [Int.floor_div_natCast]; norm_num
    _ = (⌊x⌋ + 2) / 4 := by rw [Int.floor_add_intCast]

/-- Whether a number is between two integers is decided by its integer part. -/
theorem magnitude_of_floor {x : ℚ} (h : NormalMagnitude ⌊x⌋) :
    (2 ^ 36 ≤ x ∧ x < 2 ^ 37) ∨ (-2 ^ 37 ≤ x ∧ x < -2 ^ 36) := by
  refine h.imp (fun ⟨hl, hu⟩ => ⟨?_, ?_⟩) fun ⟨hl, hu⟩ => ⟨?_, ?_⟩
  · exact_mod_cast Int.le_floor.1 hl
  · exact_mod_cast Int.floor_lt.1 hu
  · exact_mod_cast Int.le_floor.1 hl
  · exact_mod_cast Int.floor_lt.1 hu

theorem normalizeAndRound_zero (sc : BitVec 13) : normalizeAndRound 2 0 sc = (0, BitVec.ofInt 13 (-2048)) := by
  rw [normalizeAndRound_exact 1 (by simp [normalizePass])]
  simp [normalizePass]

/-- Settles O32: the normalization scales AF, and rounding the integer part to a multiple of 4 is rounding AF. -/
theorem normalizeAndRoundDeliversTheNearestFraction : Obligations.NormalizeAndRoundDeliversTheNearestFraction := by
  intro af sc
  refine ⟨?zero, fun h0 => ?nonzero⟩
  case zero =>
    rintro rfl low
    rw [normalizeAndRound_zero]
    cases low <;> decide
  case nonzero =>
    obtain ⟨n, hlow, hhigh, hpass, hmag, hcount⟩ := normalizePass_scales sc h0
    obtain ⟨i, hnormal, hfraction, hexponent⟩ := normalizeAndRound_delivers sc hpass hmag
    refine ⟨n, n + i, _, hlow, hhigh, magnitude_of_floor hmag, rfl, hnormal, ?_, ?_⟩
    · rw [← floor_nearest] at hfraction
      rw [zpow_add₀ (by norm_num), mul_comm (4 : ℚ), ← div_div, ← hfraction]
      ring
    · rw [hexponent, hcount, BitVec.ofInt_add, BitVec.add_assoc]

end Sys2Proof.Machine
end

section
/-! The quotient of two normalized fractions (43_floating_point.md R221). In every pass of the division cycle the
remainder AF is what the quotient in BF still lacks, and it stays within twice the divisor. -/

namespace Sys2Proof.Machine

open Sys2Proof.Laws

/-! ## The operands -/

theorem toInt_loadSF (f : BitVec 36) : (loadSF f).toInt = 4 * f.toInt := by
  rw [loadSF, BitVec.toInt_append, if_neg (by decide)]
  simp

theorem fraction_toInt_bounds (f : BitVec 36) : -2 ^ 35 ≤ f.toInt ∧ f.toInt < 2 ^ 35 :=
  ⟨BitVec.le_toInt f, BitVec.toInt_lt⟩

/-! ## One pass -/

/-- A quotient register whose two leftmost bits agree takes in the next digit. -/
theorem toInt_shift_in {bf : BitVec 36} (h : bf.getMsbD 0 = bf.getMsbD 1) (nd : Bool) :
    ((bf <<< 1) ||| (BitVec.ofBool nd).setWidth 36).toInt = 2 * bf.toInt + nd.toNat := by
  have hdouble := toInt_shiftLeft_one (n := 34) h
  have hrange := (topBits_agree (n := 34)).1 h
  cases nd
  · simpa using hdouble
  · have hsum : (bf <<< 1) ||| (BitVec.ofBool true).setWidth 36 = (bf <<< 1) + 1 := by
      rw [← BitVec.add_eq_or_of_and_eq_zero]
      · rfl
      · apply BitVec.eq_of_getLsbD_eq
        intro i hi
        cases i <;> simp
    rw [hsum, BitVec.toInt_add, hdouble, show (1 : BitVec 36).toInt = 1 by decide,
      Int.bmod_eq_of_le (by omega) (by omega)]
    rfl

/-- The digit is 1 when the remainder has the divisor's sign. -/
theorem quotientDigit_iff {af : BitVec 39} {sf : BitVec 38} :
    quotientDigit af sf = true ↔ (af.toInt < 0 ↔ sf.toInt < 0) := by
  rw [quotientDigit_eq, beq_iff_eq, decide_eq_decide]

/-- `-|b| ≤ a < |b|`. -/
abbrev Within (a b : ℤ) : Prop := (0 ≤ b ∧ -b ≤ a ∧ a < b) ∨ (b ≤ 0 ∧ b ≤ a ∧ a < -b)

/-- The sum or difference of one cycle. -/
def cycleSum (af : BitVec 39) (sf : BitVec 38) : BitVec 39 :=
  if quotientDigit af sf then af - extendSF sf else af + extendSF sf

/-- Adding or subtracting the divisor, as the signs ask, brings the remainder within the divisor. -/
theorem toInt_cycleSum {af : BitVec 39} {sf : BitVec 38} (h : Within af.toInt (2 * sf.toInt)) :
    (cycleSum af sf).toInt = af.toInt + addend (quotientDigit af sf) sf ∧ Within (cycleSum af sf).toInt sf.toInt := by
  have hsf := toInt_sf_bounds sf
  have hstep := toInt_step af sf (quotientDigit af sf)
  rw [← cycleSum] at hstep
  cases hdigit : quotientDigit af sf
  · have hsigns := quotientDigit_iff.not.1 (Bool.eq_false_iff.1 hdigit)
    simp only [hdigit, addend, Bool.false_eq_true, if_false] at hstep ⊢
    omega
  · have hsigns := quotientDigit_iff.1 hdigit
    simp only [hdigit, addend, if_true] at hstep ⊢
    omega

/-- The remainder of a cycle, shifted. The shift loses nothing, and keeps the sign. -/
theorem toInt_cycleSum_double {af : BitVec 39} {sf : BitVec 38} (h : Within af.toInt (2 * sf.toInt)) :
    (cycleSum af sf <<< 1).toInt = 2 * (cycleSum af sf).toInt ∧
      Within (cycleSum af sf <<< 1).toInt (2 * sf.toInt) ∧
      quotientDigit (cycleSum af sf) sf = quotientDigit (cycleSum af sf <<< 1) sf := by
  have hsf := toInt_sf_bounds sf
  obtain ⟨-, hwithin⟩ := toInt_cycleSum h
  have hdouble := toInt_double (cycleSum af sf) (by omega)
  refine ⟨hdouble, by omega, ?_⟩
  rw [Bool.eq_iff_iff, quotientDigit_iff, quotientDigit_iff]
  omega

/-! ## The passes of the cycle -/

/-- The remainder `af` and the quotient `bf` after `k` passes in the division of `f` by `m`. -/
structure Dividing (f m bf : BitVec 36) (af : BitVec 39) (k : ℕ) : Prop where
  remainder : af.toInt = 2 ^ (k + 3) * f.toInt - 4 * m.toInt * (4 * bf.toInt + 2)
  within : Within af.toInt (8 * m.toInt)

section
variable {f m bf : BitVec 36} {af : BitVec 39} {k : ℕ}

/-- One pass of the cycle, as long as the quotient is not normalized. -/
theorem Dividing.next (h : Dividing f m bf af k) (hbf : bf.getMsbD 0 = bf.getMsbD 1) :
    Dividing f m ((bf <<< 1) ||| (BitVec.ofBool (quotientDigit af (loadSF m))).setWidth 36)
      (cycleSum af (loadSF m) <<< 1) (k + 1) := by
  have hsf := toInt_loadSF m
  have hwithin : Within af.toInt (2 * (loadSF m).toInt) := by
    have := h.within
    omega
  obtain ⟨hsum, -⟩ := toInt_cycleSum hwithin
  obtain ⟨hdouble, hnext, -⟩ := toInt_cycleSum_double hwithin
  refine ⟨?_, by omega⟩
  rw [hdouble, hsum, h.remainder, toInt_shift_in hbf]
  cases quotientDigit af (loadSF m)
  · simp only [addend, Bool.false_eq_true, if_false, Bool.toNat_false, hsf]
    push_cast
    ring
  · simp only [addend, if_true, Bool.toNat_true, hsf]
    push_cast
    ring

/-- The remainder bounds the quotient. -/
theorem Dividing.bracket (h : Dividing f m bf af k) :
    (0 < m.toInt → 4 * (m.toInt * bf.toInt) ≤ 2 ^ (k + 1) * f.toInt ∧
      2 ^ (k + 1) * f.toInt < 4 * (m.toInt * bf.toInt) + 4 * m.toInt) ∧
    (m.toInt < 0 → 4 * (m.toInt * bf.toInt) + 4 * m.toInt ≤ 2 ^ (k + 1) * f.toInt ∧
      2 ^ (k + 1) * f.toInt < 4 * (m.toInt * bf.toInt)) := by
  have hremainder : af.toInt = 4 * (2 ^ (k + 1) * f.toInt) - 16 * (m.toInt * bf.toInt) - 8 * m.toInt := by
    rw [h.remainder]
    ring
  have hwithin := h.within
  omega

/-- For 34 passes the quotient has not reached its first digit. -/
theorem Dividing.unfinished (h : Dividing f m bf af k) (hm : normalizedFraction m) (hk : k ≤ 34) :
    bf.getMsbD 0 = bf.getMsbD 1 := by
  have hf := fraction_toInt_bounds f
  obtain ⟨hpos, hneg⟩ := h.bracket
  have hpow : (2 : ℤ) ^ (k + 1) ≤ 2 ^ 35 := pow_le_pow_right₀ (by decide) (by omega)
  have hpow0 : (0 : ℤ) < 2 ^ (k + 1) := by positivity
  by_contra hne
  rw [normalizedFraction_iff] at hm
  have hdividend : -2 ^ 70 ≤ 2 ^ (k + 1) * f.toInt ∧ 2 ^ (k + 1) * f.toInt < 2 ^ 70 := by
    constructor <;> nlinarith
  rcases (topBits_differ (n := 34) bf).1 hne with hbf | hbf <;> rcases hm with hm | hm
  · have hbracket := hneg (by omega)
    nlinarith
  · have hbracket := hpos (by omega)
    nlinarith
  · have hbracket := hneg (by omega)
    nlinarith
  · have hbracket := hpos (by omega)
    nlinarith

/-- After 36 passes it has. -/
theorem Dividing.finished (h : Dividing f m bf af 36) (hf : normalizedFraction f) (hm : normalizedFraction m) :
    bf.getMsbD 0 ≠ bf.getMsbD 1 := by
  have hmb := fraction_toInt_bounds m
  obtain ⟨hpos, hneg⟩ := h.bracket
  intro heq
  obtain ⟨hbl, hbu⟩ := (topBits_agree (n := 34)).1 heq
  rw [normalizedFraction_iff] at hf hm
  rcases hm with hm | hm
  · obtain ⟨hlow, hhigh⟩ := hneg (by omega)
    have hleast := mul_le_mul_of_nonpos_left hbl (show m.toInt ≤ 0 by omega)
    have hmost := mul_le_mul_of_nonpos_left (Int.add_one_le_of_lt hbu) (show m.toInt ≤ 0 by omega)
    rw [mul_add_one] at hmost
    omega
  · obtain ⟨hlow, hhigh⟩ := hpos (by omega)
    have hleast := mul_le_mul_of_nonneg_left hbl (show 0 ≤ m.toInt by omega)
    have hmost := mul_le_mul_of_nonneg_left (Int.add_one_le_of_lt hbu) (show 0 ≤ m.toInt by omega)
    rw [mul_add_one] at hmost
    omega

end

/-! ## The whole cycle -/

/-- One pass of the model's loop in terms of `cycleSum`. -/
theorem divideLoop_next {sf : BitVec 38} {n k : ℕ} {bf : BitVec 36} {af : BitVec 39}
    (hbf : bf.getMsbD 0 = bf.getMsbD 1) :
    divideLoop sf (n + 1) bf af (quotientDigit af sf) k =
      divideLoop sf n ((bf <<< 1) ||| (BitVec.ofBool (quotientDigit af sf)).setWidth 36) (cycleSum af sf <<< 1)
        (quotientDigit (cycleSum af sf) sf) (k + 1) := by
  rw [divideLoop, if_neg (not_not.2 hbf)]
  rfl

section
variable {f m : BitVec 36}

/-- The cycle ends after 35 or 36 passes: not before the quotient's first digit, and not long after it. -/
theorem divideLoop_normalized (hf : normalizedFraction f) (hm : normalizedFraction m) (j : ℕ) :
    ∀ {n k : ℕ} {bf : BitVec 36} {af : BitVec 39}, k + j = 36 → j < n → Dividing f m bf af k →
      ∃ bf' af' k', divideLoop (loadSF m) n bf af (quotientDigit af (loadSF m)) k = some (bf', af', k') ∧
        (k' = 35 ∨ k' = 36) ∧ Dividing f m bf' af' k' := by
  induction j with
  | zero =>
    intro n k bf af hk hn h
    obtain ⟨n, rfl⟩ := Nat.exists_eq_add_of_lt hn
    obtain rfl : k = 36 := hk
    exact ⟨bf, af, 36, by rw [Nat.zero_add, divideLoop, if_pos (h.finished hf hm)], .inr rfl, h⟩
  | succ j ih =>
    intro n k bf af hk hn h
    obtain ⟨n, rfl⟩ : ∃ l, n = l + 1 := ⟨n - 1, by omega⟩
    by_cases hbf : bf.getMsbD 0 = bf.getMsbD 1
    · have hwithin : Within af.toInt (2 * (loadSF m).toInt) := by
        have hremainder := h.within
        rw [toInt_loadSF]
        omega
      rw [divideLoop_next hbf, (toInt_cycleSum_double hwithin).2.2]
      exact ih (by omega) (by omega) (h.next hbf)
    · have hlate : ¬k ≤ 34 := fun hearly => hbf (h.unfinished hm hearly)
      exact ⟨bf, af, k, by rw [divideLoop, if_pos hbf], by omega, h⟩

/-- The first sum or difference, before any digit is taken. -/
theorem dividing_start (f : BitVec 36) (hm : normalizedFraction m) :
    Dividing f m (if quotientDigit (loadAF f) (loadSF m) then 0 else BitVec.allOnes 36)
      (cycleSum (loadAF f) (loadSF m) <<< 1) 0 := by
  have hfb := fraction_toInt_bounds f
  have hmb := fraction_toInt_bounds m
  have hsf := toInt_loadSF m
  have haf := toInt_loadAF f
  rw [normalizedFraction_iff] at hm
  have hwithin : Within (loadAF f).toInt (2 * (loadSF m).toInt) := by omega
  obtain ⟨hsum, -⟩ := toInt_cycleSum hwithin
  obtain ⟨hdouble, hnext, -⟩ := toInt_cycleSum_double hwithin
  refine ⟨?_, by omega⟩
  rw [hdouble, hsum]
  cases quotientDigit (loadAF f) (loadSF m)
  · rw [if_neg Bool.false_ne_true, show (BitVec.allOnes 36).toInt = -1 by decide]
    simp only [addend, Bool.false_eq_true, if_false]
    omega
  · rw [if_pos rfl, show (0 : BitVec 36).toInt = 0 by decide]
    simp only [addend, if_true]
    omega

theorem divideFractions_eq {f : BitVec 36} {sf : BitVec 38} {bf : BitVec 36} {af : BitVec 39} {k : ℕ}
    (h : divideLoop sf divisionPasses (if quotientDigit (loadAF f) sf then 0 else BitVec.allOnes 36)
      (cycleSum (loadAF f) sf <<< 1) (quotientDigit (cycleSum (loadAF f) sf <<< 1) sf) 0 = some (bf, af, k)) :
    divideFractions f sf = some (bf.signExtend 37 ++ (if quotientDigit af sf then 2#2 else 0#2), k) := by
  unfold cycleSum at h
  simp only [divideFractions, h]

/-- The rounding digit is half a unit of the last place. -/
theorem toInt_rounded_quotient (bf : BitVec 36) (digit : Bool) :
    (bf.signExtend 37 ++ (if digit then 2#2 else 0#2) : BitVec 39).toInt = 4 * bf.toInt + if digit then 2 else 0 := by
  rw [BitVec.toInt_append, if_neg (by decide), BitVec.toInt_signExtend_of_le (by decide)]
  cases digit <;> simp

/-- With its rounding digit the quotient lacks no more than half a unit. -/
theorem Dividing.accurate {bf : BitVec 36} {af : BitVec 39} {k : ℕ} (h : Dividing f m bf af k) {q : ℤ}
    (hq : q = 4 * bf.toInt + if quotientDigit af (loadSF m) then 2 else 0) :
    |f.toInt * 2 ^ (k + 1) - q * m.toInt| ≤ 2 * |m.toInt| := by
  have hremainder : af.toInt = 4 * (f.toInt * 2 ^ (k + 1)) - 16 * (bf.toInt * m.toInt) - 8 * m.toInt := by
    rw [h.remainder]
    ring
  have hwithin := h.within
  have hsf := toInt_loadSF m
  have hproduct : q * m.toInt =
      4 * (bf.toInt * m.toInt) + if quotientDigit af (loadSF m) then 2 * m.toInt else 0 := by
    rw [hq]
    split <;> ring
  have habs := abs_cases m.toInt
  rw [hproduct, abs_le]
  by_cases hdigit : quotientDigit af (loadSF m) = true
  · rw [if_pos hdigit]
    rw [quotientDigit_iff] at hdigit
    omega
  · rw [if_neg hdigit]
    rw [quotientDigit_iff] at hdigit
    omega

/-- Settles O39: the passes keep `Dividing`, and what the remainder lacks is accounted for by the rounding digit. -/
theorem divisionOfNormalizedFractionsIsAccurate : Obligations.DivisionOfNormalizedFractionsIsAccurate := by
  intro f m hf hm
  obtain ⟨bf, af, k, hloop, hk, hend⟩ :=
    divideLoop_normalized hf hm 36 (n := divisionPasses) rfl (by decide) (dividing_start f hm)
  exact ⟨_, k, divideFractions_eq hloop, hk, hend.accurate (toInt_rounded_quotient _ _)⟩

end

end Sys2Proof.Machine
end

section
/-! The floating-point instructions (43_floating_point.md R210 to R221): the operands in numbers, and one outcome for each
way in which an instruction ends, that is with an overflow, with the register pair stored, or with Normalize and Round. -/

namespace Sys2Proof.Machine

open Sys2Proof.Laws

/-! ## The operands in numbers (R205) -/

theorem loadAF_eq (f : BitVec 36) : loadAF f = BitVec.ofInt 39 (4 * f.toInt) := by
  rw [← toInt_loadAF, BitVec.ofInt_toInt]

theorem extendSF_loadSF (f : BitVec 36) : extendSF (loadSF f) = BitVec.ofInt 39 (4 * f.toInt) := by
  rw [← toInt_loadSF, ← toInt_extendSF, BitVec.ofInt_toInt]

/-- Aligning the register operand rounds it down. -/
theorem loadAF_aligned (f : BitVec 36) (n : ℕ) :
    (loadAF f).sshiftRight n = BitVec.ofInt 39 (4 * f.toInt / 2 ^ n) := by
  have hshift : ((loadAF f).sshiftRight n).toInt = 4 * f.toInt / 2 ^ n := by
    rw [BitVec.toInt_sshiftRight, Int.shiftRight_eq_div_pow, toInt_loadAF]
    norm_cast
  rw [← hshift, BitVec.ofInt_toInt]

/-- Aligning the storage operand, likewise. -/
theorem loadSF_aligned (f : BitVec 36) (n : ℕ) :
    extendSF ((loadSF f).sshiftRight n) = BitVec.ofInt 39 (4 * f.toInt / 2 ^ n) := by
  have hshift : (extendSF ((loadSF f).sshiftRight n)).toInt = 4 * f.toInt / 2 ^ n := by
    rw [toInt_extendSF, BitVec.toInt_sshiftRight, Int.shiftRight_eq_div_pow, toInt_loadSF]
    norm_cast
  rw [← hshift, BitVec.ofInt_toInt]

/-- The product with AF's rounding (R218). -/
theorem multiplyFractions_eq (f m : BitVec 36) :
    multiplyFractions f (loadSF m) = BitVec.ofInt 39 (4 * f.toInt * m.toInt / 2 ^ 35) := by
  rw [show 4 * f.toInt * m.toInt = (loadSF m).toInt * f.toInt by rw [toInt_loadSF]; ring, ← multiplyFractions_toInt,
    BitVec.ofInt_toInt]

/-- A double word with a nonzero first word has a nonzero fraction. -/
theorem fractionOf_ne_zero {d : DoubleWord} (h : d.extractLsb' 24 24 ≠ 0) : fractionOf d ≠ 0 := by
  intro hzero
  apply h
  apply BitVec.eq_of_getLsbD_eq
  intro i hi
  have hbit := congrArg (·.getLsbD (i + 12)) hzero
  simp only [fractionOf, BitVec.getLsbD_extractLsb', show i + 12 < 36 by omega, decide_true, Bool.true_and] at hbit
  simpa [hi, show 24 + i = 12 + (i + 12) by omega] using hbit

theorem loadSF_ne_zero {f : BitVec 36} (h : f ≠ 0) : loadSF f ≠ 0 := by
  rw [ne_eq, ← toInt_eq_zero_iff] at h ⊢
  rw [toInt_loadSF]
  omega

theorem pair_first_word (s : State) (w : Reg) : (s.pair w).extractLsb' 24 24 = s.reg (preceding w) :=
  extract_left _ _

/-! ## Ways to end -/

/-- `t` is the state `v`, in which the last access to the store was made, with EX(22:23) cleared. -/
structure Cleared (s v t : State) : Prop where
  frame : Frame s v t [] []
  ex : t.ex = s.clearEx.ex
  ir : t.ir = s.ir
  ic : t.ic = s.ic + 2
  pair : ∀ w, t.pair w = s.pair w
  reg : ∀ w, t.reg w = s.reg w

theorem cleared_entered (s : State) (a : AddressPart) : Cleared s (s.entered a) (s.entered a).clearEx where
  frame := frame_entered_clearEx s a
  ex := entered_clearEx_ex s a
  ir := entered_ir s a
  ic := entered_ic s a
  pair := entered_pair s a
  reg := entered_reg s a

/-- The state of an instruction that has fetched its two-word operand (R205). -/
theorem cleared_entered_steal (s : State) (a : AddressPart) :
    Cleared s (s.entered a).steal (s.entered a).clearEx.steal where
  frame := frame_congr (frame_entered_steal s a) rfl
  ex := entered_clearEx_ex s a
  ir := entered_ir s a
  ic := entered_ic s a
  pair := entered_pair s a
  reg := entered_reg s a

section
variable {s v t : State} {regs : List Reg} {w : Reg}

theorem Cleared.lowPrecision (h : Cleared s v t) : t.lowPrecision = s.lowPrecision := by
  rw [State.lowPrecision, h.ex]
  exact setEx_precision s false false

theorem testExponent_eq (s : State) (sc : BitVec 13) :
    s.testExponent sc = { s with ex := (s.testExponent sc).ex, ir := (s.testExponent sc).ir } := by
  unfold State.testExponent
  split <;> rfl

theorem frame_testExponent {u : State} {stored : List Word} (h : Frame s u t regs stored) (sc : BitVec 13) :
    Frame s u (t.testExponent sc) regs stored :=
  frame_congr h (by rw [testExponent_eq])

theorem testExponent_lowPrecision (s : State) (sc : BitVec 13) : (s.testExponent sc).lowPrecision = s.lowPrecision := by
  unfold State.testExponent
  split
  · exact setEx_precision s _ _
  · rfl

/-- The exponent test after EX(22:23) was cleared. -/
theorem Cleared.testExponent_reports (h : Cleared s v t) (sc : BitVec 13) :
    Reports s (t.testExponent sc) 2 (exponentOut sc) false := by
  unfold State.testExponent
  cases exponentOut sc
  · exact clear_reports 2 h.ex h.ir
  · exact overflow_reports 2 h.ex h.ir

/-- Test Precision Mode and Store is one write of the pair (R207). -/
theorem storeFloating_eq (s : State) (w : Reg) (af : BitVec 39) (sc : BitVec 13) :
    s.storeFloating w af sc = s.setPair w (floatingResult s.lowPrecision (af, sc)) := rfl

/-- An operand stored as it is: nothing is reported. -/
theorem Cleared.store (h : Cleared s v t) (w : Reg) (af : BitVec 39) (sc : BitVec 13) :
    (t.storeFloating w af sc).pair w = floatingResult s.lowPrecision (af, sc) ∧
      Frame s v (t.storeFloating w af sc) [preceding w, w] [] ∧ Continues s (t.storeFloating w af sc) false ∧
      Reports s (t.storeFloating w af sc) 2 false false := by
  rw [storeFloating_eq, h.lowPrecision]
  exact ⟨pair_setPair .., frame_setPair h.frame w _, h.ic, clear_reports 2 h.ex h.ir⟩

/-- Normalize and Round, and the store of its result; an exponent out of range is reported (R206, R207). -/
theorem Cleared.finish (h : Cleared s v t) (w : Reg) (af : BitVec 39) (sc : BitVec 13) {p : BitVec 39 × BitVec 13}
    (hp : p = normalizeAndRound 2 af sc) :
    (t.finishFloating w af sc).pair w = floatingResult s.lowPrecision p ∧
      Frame s v (t.finishFloating w af sc) [preceding w, w] [] ∧ Continues s (t.finishFloating w af sc) false ∧
      Reports s (t.finishFloating w af sc) 2 (exponentOut p.2) false := by
  subst hp
  rw [State.finishFloating, storeFloating_eq, testExponent_lowPrecision, h.lowPrecision]
  refine ⟨pair_setPair .., frame_setPair (frame_testExponent h.frame _) w _, ?_, h.testExponent_reports _⟩
  simpa [Continues] using h.ic

end

/-! ## FA and FS (R214, R215) -/

section
variable {s v t u : State} {a : AddressPart} {addr : Word} {w : Reg} {add : Bool} {m : DoubleWord} {i : Instr}

/-- The signed sum in AF. -/
theorem ofInt_signed_sum (x y : ℤ) :
    (if add then BitVec.ofInt 39 x + BitVec.ofInt 39 y else BitVec.ofInt 39 x - BitVec.ofInt 39 y) =
      BitVec.ofInt 39 (x + (if add then 1 else -1) * y) := by
  cases add
  · simp [BitVec.sub_eq_add_neg, BitVec.ofInt_add, BitVec.ofInt_neg]
  · simp [BitVec.ofInt_add]

/-- The register operand is the larger one by far. -/
theorem floatingSum_register (h : 38 ≤ (exponentOf (t.pair w)).toInt - (exponentOf m).toInt) :
    t.floatingSum add w m =
      t.storeFloating w (BitVec.ofInt 39 (4 * (fractionOf (t.pair w)).toInt))
        (BitVec.ofInt 13 (exponentOf (t.pair w)).toInt) := by
  simp only [State.floatingSum, if_pos h, loadAF_eq]

/-- The storage operand is the larger one by far, in an addition. -/
theorem floatingSum_storage (h : (exponentOf (t.pair w)).toInt - (exponentOf m).toInt ≤ -38) :
    t.floatingSum true w m =
      t.storeFloating w (BitVec.ofInt 39 (4 * (fractionOf m).toInt)) (BitVec.ofInt 13 (exponentOf m).toInt) := by
  have hsmall : ¬38 ≤ (exponentOf (t.pair w)).toInt - (exponentOf m).toInt := by omega
  simp only [State.floatingSum, if_neg hsmall, if_pos (And.intro h trivial), extendSF_loadSF]

/-- Both operands count. -/
theorem floatingSum_aligned {f g e x : ℤ} (hf : f = (fractionOf (t.pair w)).toInt) (hg : g = (fractionOf m).toInt)
    (he : e = (exponentOf (t.pair w)).toInt) (hx : x = (exponentOf m).toInt) (hlow : e - x < 38)
    (hhigh : -38 < e - x ∨ add = false) :
    t.floatingSum add w m = t.finishFloating w
      (BitVec.ofInt 39 ((if e - x ≤ -38 then 0 else 4 * f / 2 ^ (x - e).toNat) +
        (if add then 1 else -1) * (4 * g / 2 ^ (e - x).toNat)))
      (BitVec.ofInt 13 (max e x)) := by
  have hnotFar : ¬(e - x ≤ -38 ∧ add = true) := by
    rintro ⟨hfar, rfl⟩
    simp at hhigh
    omega
  have hmax : (if e - x < 0 then x else e) = max e x := by split <;> omega
  have hzero : (if e - x ≤ -38 then (0 : BitVec 39) else BitVec.ofInt 39 (4 * f / 2 ^ (x - e).toNat)) =
      BitVec.ofInt 39 (if e - x ≤ -38 then 0 else 4 * f / 2 ^ (x - e).toNat) := by split <;> rfl
  simp only [State.floatingSum, ← he, ← hx, if_neg (Int.not_le.2 hlow), if_neg hnotFar, hmax, loadAF_aligned,
    loadSF_aligned, ← hf, ← hg, Int.neg_sub, hzero, ofInt_signed_sum]

/-- FA (`add` true) and FS behind the address test. -/
theorem sum_outcome {f g e x : ℤ}
    (hexec : exec i s = cycle a s fun addr t =>
      testAddress t.clearEx addr (.next (t.clearEx.steal.floatingSum add w (t.clearEx.doubleRead addr))))
    (h : s.reaches a addr) (hf : f = (fractionOf (s.pair w)).toInt)
    (hg : g = (fractionOf ((s.entered a).doubleRead addr)).toInt) (he : e = (exponentOf (s.pair w)).toInt)
    (hx : x = (exponentOf ((s.entered a).doubleRead addr)).toInt) :
    (s.missing addr = true → exec i s = .next (s.entered a).clearEx.raise) ∧
    (s.missing addr = false → 38 ≤ e - x →
      ∃ t, exec i s = .next t ∧ t.pair w = floatingResult s.lowPrecision (BitVec.ofInt 39 (4 * f), BitVec.ofInt 13 e) ∧
        Frame s (s.entered a).steal t [preceding w, w] [] ∧ Continues s t false ∧ Reports s t 2 false false) ∧
    (s.missing addr = false → e - x ≤ -38 → add = true →
      ∃ t, exec i s = .next t ∧ t.pair w = floatingResult s.lowPrecision (BitVec.ofInt 39 (4 * g), BitVec.ofInt 13 x) ∧
        Frame s (s.entered a).steal t [preceding w, w] [] ∧ Continues s t false ∧ Reports s t 2 false false) ∧
    (s.missing addr = false → e - x < 38 → (-38 < e - x ∨ add = false) →
      ∃ (t : State) (p : BitVec 39 × BitVec 13), exec i s = .next t ∧
        p = normalizeAndRound 2
          (BitVec.ofInt 39 ((if e - x ≤ -38 then 0 else 4 * f / 2 ^ (x - e).toNat) +
            (if add then 1 else -1) * (4 * g / 2 ^ (e - x).toNat)))
          (BitVec.ofInt 13 (max e x)) ∧
        t.pair w = floatingResult s.lowPrecision p ∧
        Frame s (s.entered a).steal t [preceding w, w] [] ∧ Continues s t false ∧
        Reports s t 2 (exponentOut p.2) false) := by
  have hcleared := cleared_entered_steal s a
  obtain ⟨hmissing, hexists⟩ := clearing_outcome hexec h
  rw [clearEx_doubleRead] at hexists
  rw [← hcleared.pair w] at hf he
  refine ⟨hmissing, fun hm hfar => ⟨_, hexists hm, ?register⟩, fun hm hfar hadd => ⟨_, hexists hm, ?storage⟩,
    fun hm hlow hhigh => ⟨_, _, hexists hm, rfl, ?aligned⟩⟩
  case register =>
    rw [floatingSum_register (by rwa [← he, ← hx]), ← hf, ← he]
    exact hcleared.store ..
  case storage =>
    rw [hadd, floatingSum_storage (by rwa [← he, ← hx]), ← hg, ← hx]
    exact hcleared.store ..
  case aligned =>
    rw [floatingSum_aligned hf hg he hx hlow hhigh]
    exact hcleared.finish _ _ _ rfl

/-! ## FM (R218) and FD (R221) -/

theorem fm_multiplies (h : s.reaches a addr) (hm : s.missing addr = false) {f g e x : ℤ}
    (hf : f = (fractionOf (s.pair w)).toInt) (hg : g = (fractionOf ((s.entered a).doubleRead addr)).toInt)
    (he : e = (exponentOf (s.pair w)).toInt) (hx : x = (exponentOf ((s.entered a).doubleRead addr)).toInt) :
    exec (.fm w a) s = .next ((s.entered a).clearEx.steal.finishFloating w
      (BitVec.ofInt 39 (4 * f * g / 2 ^ 35)) (BitVec.ofInt 13 (e + x))) := by
  subst hf hg he hx
  refine ((clearing_outcome (o := execFm w a s) rfl h).2 hm).trans ?_
  simp only [clearEx_pair, entered_pair, clearEx_doubleRead, multiplyFractions_eq]

/-- The operation of FD behind the address test, on the operands `d` and `m`. -/
def divideStored (w : Reg) (d m : DoubleWord) (t : State) : Out :=
  if d.extractLsb' 24 24 == 0 && !(m.extractLsb' 24 24 == 0) then
    .next (t.setReg w (((t.reg w).extractLsb' 12 12 : Byte) ++ 0x800#12))
  else if m.extractLsb' 24 24 == 0 then .next t.floatingOverflow
  else
    match divideFractions (fractionOf d) (loadSF (fractionOf m)) with
    | none => .fault .endlessDivision
    | some (af, k) =>
      .next (t.finishFloating w af (BitVec.ofInt 13 ((exponentOf d).toInt - (exponentOf m).toInt + 36 - k)))

theorem exec_fd (h : s.reaches a addr) (hm : s.missing addr = false) :
    exec (.fd w a) s =
      divideStored w (s.pair w) ((s.entered a).doubleRead addr) (s.entered a).clearEx.steal := by
  refine ((clearing_outcome (o := execFd w a s) rfl h).2 hm).trans ?_
  simp only [clearEx_pair, entered_pair, clearEx_doubleRead]
  rfl

theorem divideStored_zero_divisor {d : DoubleWord} (hm : m.extractLsb' 24 24 = 0) :
    divideStored w d m t = .next t.floatingOverflow := by
  simp only [divideStored, beq_iff_eq.2 hm, Bool.not_true, Bool.and_false, Bool.false_eq_true, if_false, if_true]

theorem divideStored_zero_dividend {d : DoubleWord} (hm : m.extractLsb' 24 24 ≠ 0) (hd : d.extractLsb' 24 24 = 0) :
    divideStored w d m t = .next (t.setReg w (((t.reg w).extractLsb' 12 12 : Byte) ++ 0x800#12)) := by
  simp only [divideStored, beq_iff_eq.2 hd, beq_eq_false_iff_ne.2 hm, Bool.not_false, Bool.and_true, if_true]

/-- The cycle ends for all operands (`Laws.divideLoop_ends`). -/
theorem divideStored_quotient {d : DoubleWord} (hm : m.extractLsb' 24 24 ≠ 0) (hd : d.extractLsb' 24 24 ≠ 0) :
    ∃ q k, divideFractions (fractionOf d) (loadSF (fractionOf m)) = some (q, k) ∧
      divideStored w d m t =
        .next (t.finishFloating w q (BitVec.ofInt 13 ((exponentOf d).toInt - (exponentOf m).toInt + 36 - k))) := by
  obtain ⟨⟨q, k⟩, hquotient⟩ := divideLoop_ends _ _ (fractionOf_ne_zero hd) (loadSF_ne_zero (fractionOf_ne_zero hm))
  refine ⟨q, k, hquotient, ?_⟩
  simp only [divideStored, beq_eq_false_iff_ne.2 hd, beq_eq_false_iff_ne.2 hm, Bool.false_and, Bool.false_eq_true,
    if_false, hquotient]

/-! ## The statements on FA, FS, FM and FD -/

end

/-- Settles O36: FA and FS are one sum with a sign. -/
theorem faAndFsAlignAddAndRound : Obligations.FaAndFsAlignAddAndRound := by
  rintro s u w a addr f m e x h rfl hf hg he hx i sign hi
  simp only [List.mem_cons, List.not_mem_nil, or_false, Prod.mk.injEq] at hi
  obtain ⟨rfl, rfl⟩ | ⟨rfl, rfl⟩ := hi
  · simpa using sum_outcome (add := true) rfl h hf hg he hx
  · simpa using sum_outcome (add := false) rfl h hf hg he hx

/-- Settles O37: the product in numbers, and then Normalize and Round. -/
theorem fmMultipliesTheFractions : Obligations.FmMultipliesTheFractions := by
  rintro s u w a addr f m e x h rfl hf hg he hx
  exact ⟨(clearing_outcome (o := execFm w a s) rfl h).1, fun hm =>
    ⟨_, _, fm_multiplies h hm hf hg he hx, rfl, (cleared_entered_steal s a).finish _ _ _ rfl⟩⟩

/-- Settles O38: the zero tests, and otherwise the quotient, which exists for all operands. -/
theorem fdDividesTheFractions : Obligations.FdDividesTheFractions := by
  rintro s u w a addr e x h rfl rfl rfl
  have hcleared := cleared_entered_steal s a
  refine ⟨(clearing_outcome (o := execFd w a s) rfl h).1, fun hm hdivisor => ?divisorZero,
    fun hm hdivisor hdividend => ?dividendZero, fun hm hdivisor hdividend => ?quotient⟩
  case divisorZero =>
    exact ⟨_, (exec_fd h hm).trans (divideStored_zero_divisor hdivisor), frame_congr hcleared.frame rfl, hcleared.ic,
      overflow_reports 2 hcleared.ex hcleared.ir⟩
  case dividendZero =>
    rw [← pair_first_word] at hdividend
    refine ⟨_, (exec_fd h hm).trans (divideStored_zero_dividend hdivisor hdividend), ?_,
      frame_setReg hcleared.frame w _, hcleared.ic, clear_reports 2 hcleared.ex hcleared.ir⟩
    rw [reg_setReg, if_pos rfl, hcleared.reg]
  case quotient =>
    rw [← pair_first_word] at hdividend
    obtain ⟨q, k, hquotient, hresult⟩ := divideStored_quotient hdivisor hdividend
    exact ⟨_, q, k, _, (exec_fd h hm).trans hresult, hquotient, rfl, hcleared.finish _ _ _ rfl⟩

end Sys2Proof.Machine
end

section
/-! The conversions CI and CF (43_floating_point.md R210, R211). -/

namespace Sys2Proof.Machine

open Sys2Proof.Laws

/-! ## CI -/

/-- An exponent out of the 12 bits is noticed while it is within twice the range of SC. -/
theorem exponentOut_ofInt {x : ℤ} (hl : -2 ^ 12 ≤ x) (hu : x < 2 ^ 12 + 2 ^ 11) :
    exponentOut (BitVec.ofInt 13 x) = decide (x < -2048 ∨ 2047 < x) := by
  have hbits := topBits_differ (n := 11) (BitVec.ofInt 13 x)
  rw [BitVec.toInt_ofInt, Int.bmod_def] at hbits
  rw [exponentOut, Bool.eq_iff_iff, bne_iff_ne, hbits, decide_eq_true_iff]
  omega

/-- SC(12:23) is the exponent modulo 2**12. -/
theorem extract_ofInt_exponent (x : ℤ) : (BitVec.ofInt 13 x).extractLsb' 0 12 = BitVec.ofInt 12 x := by
  have hcut : (BitVec.ofInt 13 x).extractLsb' 0 12 = (BitVec.ofInt 13 x).setWidth 12 := by
    apply BitVec.eq_of_getLsbD_eq
    intro i hi
    simp [hi]
  apply BitVec.eq_of_toInt_eq
  rw [hcut, BitVec.toInt_setWidth, BitVec.toInt_ofInt, BitVec.toNat_ofInt, Int.bmod_def, Int.bmod_def]
  omega

/-- A register placed in AF for its conversion. -/
def integerAF (v : Word) : BitVec 39 := v.signExtend 25 ++ 0#14

theorem toInt_integerAF (v : Word) : (integerAF v).toInt = v.toInt * 2 ^ 14 := by
  rw [integerAF, BitVec.toInt_append, if_neg (by decide), BitVec.toInt_signExtend_of_le (by decide), mul_comm]
  simp

theorem integerAF_eq_zero {v : Word} : integerAF v = 0 ↔ v = 0 := by
  rw [← toInt_eq_zero_iff, ← toInt_eq_zero_iff, toInt_integerAF]
  omega

/-- The conversion of a nonzero integer: it is normalized by left shifts, and never rounded. The fraction is that of the
word `x`, with zeroes to its right. -/
theorem normalizeAndRound_integer {v : Word} (hv : v ≠ 0) :
    ∃ (p : ℕ) (x : Word), p ≤ 23 ∧ (normalizeAndRound 2 (integerAF v) 23).1.extractLsb' 2 36 = x ++ 0#12 ∧
      (normalizeAndRound 2 (integerAF v) 23).2 = BitVec.ofInt 13 p ∧ x.toInt = v.toInt * 2 ^ (23 - p) ∧
      x.getMsbD 0 ≠ x.getMsbD 1 := by
  have hbounds := word_toInt_bounds v
  have hvalue := toInt_integerAF v
  have hne : v.toInt ≠ 0 := toInt_eq_zero_iff.not.2 hv
  obtain ⟨k, -, haf, hcount, hmag⟩ :=
    normalizePass_shifts 23 (fun h => hv (integerAF_eq_zero.1 h)) (by omega) (by omega)
  rw [hvalue, mul_right_comm] at haf hmag
  have hk : k ≤ 23 := by
    by_contra hk
    have hpow : (2 : ℤ) ^ 24 ≤ 2 ^ k := pow_le_pow_right₀ (by decide) (by omega)
    rcases lt_or_gt_of_ne hne with h | h <;> rcases hmag with h' | h' <;> nlinarith
  have hx : (BitVec.ofInt 24 (v.toInt * 2 ^ k)).toInt = v.toInt * 2 ^ k :=
    BitVec.toInt_ofInt_eq_self (by decide) (by omega) (by omega)
  rw [normalizeAndRound_exact 1 (by omega)]
  refine ⟨23 - k, BitVec.ofInt 24 (v.toInt * 2 ^ k), by omega, ?fraction, ?exponent, ?value, ?normal⟩
  case fraction =>
    apply BitVec.eq_of_toInt_eq
    rw [toInt_fraction (by omega) (by omega), haf, BitVec.toInt_append, if_neg (by decide), hx]
    simp
    omega
  case exponent =>
    rw [hcount, sub_ofNat, show (23 : BitVec 13) = BitVec.ofInt 13 23 from rfl, ← BitVec.ofInt_add]
    congr 1
    omega
  case value => rw [hx, Nat.sub_sub_self hk]
  case normal => exact (topBits_differ (n := 22) _).2 (by omega)

/-- The two words of a fraction whose right part is one byte, and an exponent. -/
theorem extract_fraction_exponent (x : Word) (y z : Byte) :
    ((x ++ y : BitVec 36) ++ z : DoubleWord).extractLsb' 24 24 = x ∧
      ((x ++ y : BitVec 36) ++ z : DoubleWord).extractLsb' 0 24 = y ++ z := by
  constructor
  · rw [extract_inner _ _ _ _ (by decide)]
    exact extract_left x y
  · apply BitVec.eq_of_getLsbD_eq
    intro i hi
    simp only [BitVec.getLsbD_extractLsb', BitVec.getLsbD_append, hi, decide_true, Bool.true_and, Nat.zero_add]
    simp [show i - 12 < 12 by omega]

section
variable {s : State} {a : AddressPart} {addr : Word} {w : Reg}

/-- CI of zero (R210). -/
theorem exec_ci_zero (h : s.reaches a addr) (hv : s.reg w = 0) :
    exec (.ci w a) s = .next ((s.entered a).clearEx.setPair w 0x000000000800) := by
  show execCi w a s = _
  have haf : integerAF ((s.entered a).clearEx.reg w) = 0 := by
    rw [clearEx_reg, entered_reg, hv, integerAF_eq_zero]
  rw [execCi, cycle_reaches h]
  exact if_pos haf

theorem exec_ci_nonzero (h : s.reaches a addr) (hv : s.reg w ≠ 0) {result : BitVec 39 × BitVec 13}
    (hresult : result = normalizeAndRound 2 (integerAF (s.reg w)) 23) :
    exec (.ci w a) s = .next
      ((((s.entered a).clearEx.testExponent result.2).testExponent (result.2 + addr.setWidth 13)).storeFraction w
        (result.1.extractLsb' 2 36) (result.2 + addr.setWidth 13)) := by
  have haf : integerAF ((s.entered a).clearEx.reg w) = integerAF (s.reg w) := by rw [clearEx_reg, entered_reg]
  show execCi w a s = _
  rw [execCi, cycle_reaches h, hresult, ← haf]
  have hne : integerAF ((s.entered a).clearEx.reg w) ≠ 0 := by
    rw [haf]
    exact integerAF_eq_zero.not.2 hv
  exact if_neg hne

/-- CI of a nonzero integer (R210): the exponent of the integer is in range, so only the scaled one is reported. -/
theorem ci_converts (h : s.reaches a addr) (hv : s.reg w ≠ 0) :
    ∃ (p : ℕ) (x : Word), p ≤ 23 ∧ x.toInt = (s.reg w).toInt * 2 ^ (23 - p) ∧ x.getMsbD 0 ≠ x.getMsbD 1 ∧
      exec (.ci w a) s = .next
        (((s.entered a).clearEx.testExponent (BitVec.ofInt 13 (p + (addr.setWidth 13).toInt))).storeFraction w
          (x ++ 0#12) (BitVec.ofInt 13 (p + (addr.setWidth 13).toInt))) := by
  obtain ⟨p, x, hp, hfraction, hexponent, hvalue, hnormal⟩ := normalizeAndRound_integer hv
  refine ⟨p, x, hp, hvalue, hnormal, ?_⟩
  have hinRange : (s.entered a).clearEx.testExponent (BitVec.ofInt 13 p) = (s.entered a).clearEx := by
    rw [State.testExponent, exponentOut_ofInt (by omega) (by omega), decide_eq_false (by omega)]
    rfl
  have hscaled : BitVec.ofInt 13 p + addr.setWidth 13 = BitVec.ofInt 13 (p + (addr.setWidth 13).toInt) := by
    rw [BitVec.ofInt_add, BitVec.ofInt_toInt]
  rw [exec_ci_nonzero h hv rfl, hfraction, hexponent, hinRange, hscaled]

/-- What is reported does not depend on the registers. -/
theorem reports_congr {s t t' : State} {i : ℕ} {o c : Bool} (h : Reports s t i o c) (hex : t'.ex = t.ex)
    (hir : t'.ir = t.ir) : Reports s t' i o c := ⟨hex.trans h.1, hir.trans h.2⟩

/-- What CI stores. -/
theorem storeFraction_integer (t : State) (w : Reg) (x : Word) (e : ℤ) :
    (t.storeFraction w (x ++ 0#12) (BitVec.ofInt 13 e)).reg (preceding w) = x ∧
      (t.storeFraction w (x ++ 0#12) (BitVec.ofInt 13 e)).reg w = (0 : Byte) ++ BitVec.ofInt 12 e := by
  obtain ⟨hleft, hright⟩ := extract_fraction_exponent x 0#12 (BitVec.ofInt 12 e)
  rw [State.storeFraction, extract_ofInt_exponent, reg_setPair, reg_setPair, if_neg (ne_preceding w), if_pos rfl,
    if_pos rfl]
  exact ⟨hleft, hright⟩

end

/-- Settles O34: an integer is normalized without a rounding, and the scale factor is added to its exponent. -/
theorem ciConvertsIntegersExactly : Obligations.CiConvertsIntegersExactly := by
  rintro s u w a addr h rfl
  have hcleared := cleared_entered s a
  refine ⟨fun hv => ?zero, fun hv => ?nonzero⟩
  case zero =>
    refine ⟨_, exec_ci_zero h hv, ?_, ?_, frame_setPair hcleared.frame w _, hcleared.ic,
      clear_reports 2 hcleared.ex hcleared.ir⟩
    · rw [reg_setPair, if_neg (ne_preceding w), if_pos rfl]
      decide
    · rw [reg_setPair, if_pos rfl]
      decide
  case nonzero =>
    obtain ⟨p, x, hp, hvalue, hnormal, hexec⟩ := ci_converts h hv
    have hscale : -2 ^ 12 ≤ (addr.setWidth 13).toInt ∧ (addr.setWidth 13).toInt < 2 ^ 12 :=
      ⟨BitVec.le_toInt _, BitVec.toInt_lt⟩
    have hreports := hcleared.testExponent_reports (BitVec.ofInt 13 (p + (addr.setWidth 13).toInt))
    rw [exponentOut_ofInt (by omega) (by omega)] at hreports
    obtain ⟨hleft, hright⟩ := storeFraction_integer
      ((s.entered a).clearEx.testExponent (BitVec.ofInt 13 (p + (addr.setWidth 13).toInt))) w x
      (p + (addr.setWidth 13).toInt)
    refine ⟨_, p, hexec, hp, by rw [hleft, hvalue], by rwa [hleft], hright,
      frame_setPair (frame_testExponent hcleared.frame _) w _, ?_,
      reports_congr hreports (storeFraction_ex ..) (storeFraction_ir ..)⟩
    rw [Continues, storeFraction_ic, testExponent_ic]
    exact hcleared.ic

/-! ## CF -/

/-- Rounding at bit 25 of AF, to a multiple of 2**14. -/
def roundToInteger (af : BitVec 39) : BitVec 39 := if af.getMsbD 25 then af + 0x4000#39 else af

theorem toInt_roundToInteger {af : BitVec 39} (hl : -2 ^ 37 ≤ af.toInt) (hu : af.toInt < 2 ^ 37) :
    (roundToInteger af).toInt / 2 ^ 14 = (af.toInt + 2 ^ 13) / 2 ^ 14 ∧
      -2 ^ 37 ≤ (roundToInteger af).toInt ∧ (roundToInteger af).toInt < 2 ^ 37 + 2 ^ 14 := by
  have hbit : af.getMsbD 25 = decide (2 ^ 13 ≤ af.toInt % 2 ^ 14) := by
    have hlt := af.isLt
    simp only [BitVec.getMsbD, BitVec.getLsbD, Nat.testBit_eq_decide_div_mod_eq]
    rw [Bool.eq_iff_iff, BitVec.toInt_eq_toNat_cond]
    simp
    split <;> omega
  rw [roundToInteger, hbit]
  by_cases hhalf : 2 ^ 13 ≤ af.toInt % 2 ^ 14
  · rw [decide_eq_true hhalf, if_pos rfl, BitVec.toInt_add, show (0x4000#39).toInt = 2 ^ 14 by decide,
      Int.bmod_eq_of_le (by omega) (by omega)]
    omega
  · rw [decide_eq_false hhalf, if_neg Bool.false_ne_true]
    omega

/-- AF(0:23) of an AF whose two leftmost bits agree. -/
theorem toInt_integer_part {af : BitVec 39} (hl : -2 ^ 37 ≤ af.toInt) (hu : af.toInt < 2 ^ 37) :
    (af.extractLsb' 14 24).toInt = af.toInt / 2 ^ 14 := by
  have hlt := af.isLt
  rw [BitVec.toInt_eq_toNat_bmod af, Int.bmod_def] at *
  rw [BitVec.toInt_eq_toNat_bmod, BitVec.extractLsb'_toNat, Nat.shiftRight_eq_div_pow, Int.bmod_def]
  push_cast
  omega

/-- The right shifts of CF: 64 and more leave nothing. -/
def shiftedFraction (f : BitVec 36) (n : ℤ) : BitVec 39 := if 64 ≤ n then 0 else (loadAF f).sshiftRight n.toNat

theorem toInt_shiftedFraction (f : BitVec 36) (n : ℤ) :
    ((shiftedFraction f n).toInt + 2 ^ 13) / 2 ^ 14 = (f.toInt + 2 ^ (11 + n.toNat)) / 2 ^ (12 + n.toNat) ∧
      -2 ^ 37 ≤ (shiftedFraction f n).toInt ∧ (shiftedFraction f n).toInt < 2 ^ 37 := by
  have hf := fraction_toInt_bounds f
  by_cases hfar : 64 ≤ n
  · have hlow : (2 : ℤ) ^ 35 ≤ 2 ^ (11 + n.toNat) := pow_le_pow_right₀ (by decide) (by omega)
    have hhigh : (2 : ℤ) ^ (12 + n.toNat) = 2 * 2 ^ (11 + n.toNat) := by ring
    rw [shiftedFraction, if_pos hfar, hhigh, Int.ediv_eq_zero_of_lt (b := 2 * 2 ^ (11 + n.toNat)) (by omega) (by omega)]
    decide
  · have hshift : ((loadAF f).sshiftRight n.toNat).toInt = 4 * f.toInt / 2 ^ n.toNat := by
      rw [BitVec.toInt_sshiftRight, Int.shiftRight_eq_div_pow, toInt_loadAF]
      norm_cast
    have hpow : (0 : ℤ) < 2 ^ n.toNat := by positivity
    rw [shiftedFraction, if_neg hfar, hshift]
    refine ⟨?_, Int.le_ediv_of_mul_le hpow (by nlinarith), Int.ediv_lt_of_lt_mul hpow (by nlinarith)⟩
    calc (4 * f.toInt / 2 ^ n.toNat + 2 ^ 13) / 2 ^ 14
        = (4 * f.toInt + 2 ^ 13 * 2 ^ n.toNat) / 2 ^ n.toNat / 2 ^ 14 := by
          rw [Int.add_mul_ediv_right _ _ hpow.ne']
      _ = 4 * (f.toInt + 2 ^ (11 + n.toNat)) / (4 * 2 ^ (12 + n.toNat)) := by
          rw [Int.ediv_ediv_of_nonneg hpow.le]
          congr 1 <;> ring
      _ = (f.toInt + 2 ^ (11 + n.toNat)) / 2 ^ (12 + n.toNat) := Int.mul_ediv_mul_of_pos _ _ (by decide)

theorem convertToInteger_left {f : BitVec 36} {n : ℤ} (hn : n < 0) (hf : f.toInt ≠ 0) : convertToInteger f n = none := by
  have haf : loadAF f ≠ 0 := by
    rw [ne_eq, ← toInt_eq_zero_iff, toInt_loadAF]
    omega
  exact if_pos ⟨hn, haf⟩

theorem convertToInteger_right {f : BitVec 36} {n : ℤ} (hn : 0 ≤ n ∨ f.toInt = 0) :
    convertToInteger f n =
      if (roundToInteger (shiftedFraction f n)).getMsbD 0 ≠ (roundToInteger (shiftedFraction f n)).getMsbD 1 then none
      else some ((roundToInteger (shiftedFraction f n)).extractLsb' 14 24) := by
  have hright : ¬(n < 0 ∧ loadAF f ≠ 0) := by
    rintro ⟨hneg, haf⟩
    rw [ne_eq, ← toInt_eq_zero_iff, toInt_loadAF] at haf
    omega
  exact if_neg hright

/-- Right shifts and a rounding: the quotient `v`, if it is a word. -/
theorem convertToInteger_rounds {f : BitVec 36} {n v : ℤ} (hn : 0 ≤ n ∨ f.toInt = 0)
    (hv : v = (f.toInt + 2 ^ (11 + n.toNat)) / 2 ^ (12 + n.toNat)) :
    (2 ^ 23 ≤ v → convertToInteger f n = none) ∧
    (v < 2 ^ 23 → ∃ x, convertToInteger f n = some x ∧ x.toInt = v) := by
  obtain ⟨hshifted, hlow, hhigh⟩ := toInt_shiftedFraction f n
  obtain ⟨hrounded, hlow', hhigh'⟩ := toInt_roundToInteger hlow hhigh
  rw [hshifted, ← hv] at hrounded
  have hbits := topBits_differ (n := 37) (roundToInteger (shiftedFraction f n))
  rw [convertToInteger_right hn]
  refine ⟨fun hbig => if_pos (hbits.2 (by omega)), fun hsmall => ⟨_, if_neg (hbits.not.2 (by omega)), ?_⟩⟩
  rw [toInt_integer_part hlow' (by omega), hrounded]

section
variable {s : State} {a : AddressPart} {addr : Word} {w : Reg}

/-- CF of a number that is no integer of 24 bits: the overflow is reported, and the register stays. -/
theorem cf_overflows (h : s.reaches a addr)
    (hr : convertToInteger (fractionOf (s.pair w)) (cfShifts addr (exponentOf (s.pair w))) = none) :
    ∃ t, exec (.cf w a) s = .next t ∧ Frame s (s.entered a) t [] [] ∧ Continues s t false ∧
      Reports s t 1 true false := by
  have hcleared := cleared_entered s a
  have hexec : exec (.cf w a) s = .next (s.entered a).clearEx.integerOverflow := by
    show execCf w a s = _
    rw [execCf, cycle_reaches h]
    simp only [clearEx_pair, entered_pair, hr]
  exact ⟨_, hexec, frame_congr hcleared.frame rfl, hcleared.ic, overflow_reports 1 hcleared.ex hcleared.ir⟩

theorem cf_delivers (h : s.reaches a addr) {v : Word}
    (hr : convertToInteger (fractionOf (s.pair w)) (cfShifts addr (exponentOf (s.pair w))) = some v) :
    ∃ t, exec (.cf w a) s = .next t ∧ t.reg w = v ∧ Frame s (s.entered a) t [w] [] ∧ Continues s t false ∧
      Reports s t 1 false false := by
  have hcleared := cleared_entered s a
  have hexec : exec (.cf w a) s = .next ((s.entered a).clearEx.setReg w v) := by
    show execCf w a s = _
    rw [execCf, cycle_reaches h]
    simp only [clearEx_pair, entered_pair, hr]
  refine ⟨_, hexec, ?_, frame_setReg hcleared.frame w v, hcleared.ic, clear_reports 1 hcleared.ex hcleared.ir⟩
  rw [reg_setReg, if_pos rfl]

end

/-- Settles O35: left shifts of a nonzero fraction overflow; otherwise the shifted fraction is rounded to an integer,
which overflows or not. -/
theorem cfRoundsToTheNearestInteger : Obligations.CfRoundsToTheNearestInteger := by
  rintro s u w a addr f n v h rfl rfl hn hv
  have hshifts : cfShifts addr (exponentOf (s.pair w)) = n := hn.symm
  refine ⟨fun hover => cf_overflows h ?overflow, fun ⟨hneg, hzero⟩ => ?zero, fun ⟨hpos, hsmall⟩ => ?rounds⟩
  case overflow =>
    rw [hshifts]
    rcases hover with ⟨hneg, hne⟩ | ⟨hpos, hbig⟩
    · exact convertToInteger_left hneg hne
    · exact (convertToInteger_rounds (.inl hpos) hv).1 hbig
  case zero =>
    have hv0 : v = 0 := by
      rw [hv, hzero, show n.toNat = 0 by omega]
      decide
    obtain ⟨x, hx, hvalue⟩ := (convertToInteger_rounds (.inr hzero) hv).2 (by omega)
    obtain ⟨t, hexec, hreg, hrest⟩ := cf_delivers h (w := w) (hshifts ▸ hx)
    refine ⟨t, hexec, ?_, hrest⟩
    rw [hreg]
    exact toInt_eq_zero_iff.1 (hvalue.trans hv0)
  case rounds =>
    obtain ⟨x, hx, hvalue⟩ := (convertToInteger_rounds (.inl hpos) hv).2 hsmall
    obtain ⟨t, hexec, hreg, hrest⟩ := cf_delivers h (w := w) (hshifts ▸ hx)
    exact ⟨t, hexec, by rw [hreg, hvalue], hrest⟩

end Sys2Proof.Machine
end

section
/-! Every step answers a next state. The decode and the tests answer one on each of their ways, and so does every
operation; for FD that is the end of the division cycle (43_floating_point.md R221, R225). -/

namespace Sys2Proof.Machine

/-- The outcome is a next state: no fault and no refusal. -/
def Out.Answers (o : Out) : Prop := ∃ t, o = .next t

section
variable {s t : State} {a : AddressPart} {addr : Word} {op : Word → State → Out} {rest : Out}

theorem answers_next (t : State) : Out.Answers (.next t) := ⟨t, rfl⟩

theorem answers_cycle (h : ∀ addr t, Out.Answers (op addr t)) : Out.Answers (cycle a s op) := by
  rcases cycle_cases a s op with hcycle | hcycle | ⟨addr, -, hcycle⟩
  · exact ⟨_, hcycle⟩
  · exact ⟨_, hcycle⟩
  · rw [hcycle]
    exact h addr _

theorem answers_testAddress (h : Out.Answers rest) : Out.Answers (testAddress t addr rest) := by
  cases hm : t.missing addr
  · rwa [testAddress_exists hm]
  · exact ⟨_, testAddress_missing hm⟩

theorem answers_testProtection (h : Out.Answers rest) : Out.Answers (testProtection t addr rest) := by
  cases hp : t.forbids addr
  · rwa [testProtection_allowed hp]
  · exact ⟨_, testProtection_forbidden hp⟩

theorem answers_testMode (h : Out.Answers rest) : Out.Answers (testMode t rest) := by
  cases hmode : t.monitorMode
  · exact ⟨_, testMode_task hmode⟩
  · rwa [testMode_monitor hmode]

/-! ## The shapes of the operations -/

/-- An operation without a test. -/
theorem answers_plain {f : Word → State → State} : Out.Answers (cycle a s fun addr t => .next (f addr t)) :=
  answers_cycle fun _ _ => answers_next _

theorem answers_fetching {g f : Word → State → State} :
    Out.Answers (cycle a s fun addr t => testAddress (g addr t) addr (.next (f addr t))) :=
  answers_cycle fun _ _ => answers_testAddress (answers_next _)

theorem answers_storing {g f : Word → State → State} :
    Out.Answers (cycle a s fun addr t =>
      testAddress (g addr t) addr (testProtection (g addr t) addr (.next (f addr t)))) :=
  answers_cycle fun _ _ => answers_testAddress (answers_testProtection (answers_next _))

theorem answers_monitor {f : Word → State → State} :
    Out.Answers (cycle a s fun addr t => testMode t (.next (f addr t))) :=
  answers_cycle fun _ _ => answers_testMode (answers_next _)

theorem answers_monitorFetching {f : Word → State → State} :
    Out.Answers (cycle a s fun addr t => testMode t (testAddress t addr (.next (f addr t)))) :=
  answers_cycle fun _ _ => answers_testMode (answers_testAddress (answers_next _))

/-! ## The instructions with more than one way through their operation -/

variable (w : Reg) (a : AddressPart) (s : State)

theorem answers_io : Out.Answers (execIo w a s) :=
  answers_cycle fun addr t => answers_testMode <| by
    extract_lets n
    split
    · exact answers_next _
    · split <;> exact answers_next _

theorem answers_ci : Out.Answers (execCi w a s) :=
  answers_cycle fun addr t => by
    extract_lets u af p sc
    split <;> exact answers_next _

theorem answers_cf : Out.Answers (execCf w a s) :=
  answers_cycle fun addr t => by
    extract_lets u d
    split <;> exact answers_next _

theorem answers_wd : Out.Answers (execWd w a s) :=
  answers_cycle fun addr t => answers_testAddress <| by
    split <;> exact answers_next _

theorem answers_ds : Out.Answers (execDs w a s) :=
  answers_cycle fun _ _ => answers_testAddress <| answers_testProtection <| answers_testProtection (answers_next _)

/-- FD behind the address test: with nonzero first words the division cycle ends. -/
theorem answers_divideStored (d m : DoubleWord) (t : State) : Out.Answers (divideStored w d m t) := by
  by_cases hm : m.extractLsb' 24 24 = 0
  · exact ⟨_, divideStored_zero_divisor hm⟩
  · by_cases hd : d.extractLsb' 24 24 = 0
    · exact ⟨_, divideStored_zero_dividend hm hd⟩
    · obtain ⟨q, k, -, hresult⟩ := divideStored_quotient (w := w) (t := t) hm hd
      exact ⟨_, hresult⟩

theorem answers_fd : Out.Answers (execFd w a s) :=
  answers_cycle fun _ _ => answers_testAddress (answers_divideStored w _ _ _)

end

/-! ## Every instruction, every word, every step -/

theorem exec_answers (i : Instr) (s : State) : Out.Answers (exec i s) := by
  unfold exec
  cases i with
  | al w a | ac w a | as w a | ad w a | ls w a | ld w a => exact answers_plain
  | sh w a | sl w a | se w a | sn w a | so w a | sz w a | sx w a => exact answers_plain
  | hl w a | rl w a | bz w a | bl w a | la w a | lo w a | lx w a | kl w a => exact answers_fetching
  | xl w a | sp w a | dl w a => exact answers_fetching
  | am w a => exact answers_cycle fun _ _ => answers_testAddress (answers_next _)
  | ba w a | wa w a | bs w a | ws w a | aa w a | ss w a | wm w a => exact answers_fetching
  | fa w a | fs w a | fm w a => exact answers_fetching
  | rs w a | is w a | ms w a | hs w a | xs w a | ps w a | jl w a => exact answers_storing
  | ns w a | nd w a => exact answers_storing
  | rx w a => exact answers_cycle fun _ _ => answers_testAddress (answers_testProtection (answers_next _))
  | ic w a | aw w a => exact answers_monitor
  | je w a | jd w a | ml w a | pl w a | ks w a => exact answers_monitorFetching
  | io w a => exact answers_io w a s
  | ci w a => exact answers_ci w a s
  | cf w a => exact answers_cf w a s
  | wd w a => exact answers_wd w a s
  | ds w a => exact answers_ds w a s
  | fd w a => exact answers_fd w a s

theorem executeWord_answers (v : Word) (s : State) : Out.Answers (executeWord v s) := by
  unfold executeWord
  split
  · exact exec_answers _ s
  · exact answers_cycle fun _ _ => answers_next _

theorem fetchAndExecute_answers (s : State) : Out.Answers (fetchAndExecute s) := by
  unfold fetchAndExecute
  extract_lets t
  split
  · exact answers_next _
  · exact answers_next _
  · exact answers_next _
  · exact executeWord_answers _ t

theorem processorStep_answers (s : State) : Out.Answers (processorStep s) := by
  unfold processorStep
  split
  · exact fetchAndExecute_answers _
  · split
    · exact answers_next _
    · exact fetchAndExecute_answers _
  · exact answers_next _
  · exact answers_next _

/-- Settles O6: every pass of the processor answers a next state, in each control state. -/
theorem everyStepAnswersANextState : Obligations.EveryStepAnswersANextState :=
  fun s => processorStep_answers s.takeEvents

end Sys2Proof.Machine
end

section
/-! The logical operations, the shifts and the normalizations (44_logical_and_shift.md R241 to R253): the count that an
effective address stands for, what a shift by it makes of a number, and then one outcome per shape of instruction, the
same for a register and for a register pair. -/

namespace Sys2Proof.Machine

section
variable {s u t : State} {a : AddressPart} {addr : Word} {w : Reg} {i : Instr}

/-! ## Logical operations (R241 to R243) -/

/-- A logical operation is a load of the combination, so it has the outcomes of a load. -/
theorem combination_outcome {op : Word → Word → Word} {f : Bool → Bool → Bool}
    (hop : ∀ x y b, (op x y).getMsbD b = f (x.getMsbD b) (y.getMsbD b))
    (hexec : exec i s = cycle a s fun addr t =>
      testAddress t addr (.next (t.setReg w (op (t.reg w) (t.wordRead addr)))))
    (h : s.reaches a addr) :
    (s.missing addr = true → exec i s = .next (s.entered a).raise) ∧
    (s.missing addr = false → ∃ t, exec i s = .next t ∧
      (∀ b < 24, (t.reg w).getMsbD b = f ((s.reg w).getMsbD b) (((s.entered a).wordRead addr).getMsbD b)) ∧
      Frame s (s.entered a) t [w] [] ∧ Quiet s t ∧ Continues s t false) := by
  obtain ⟨hmissing, hexists⟩ := load_outcome (fun addr t => op (t.reg w) (t.wordRead addr)) hexec h rfl
  refine ⟨hmissing, fun hm => ?_⟩
  obtain ⟨t, hnext, hreg, hrest⟩ := hexists hm
  exact ⟨t, hnext, fun b _ => by rw [hreg, hop, entered_reg], hrest⟩

/-! ## The count (90_conflicts.md C6) -/

/-- The number of places by which an effective address shifts, in either direction. -/
def shiftPlaces (addr : Word) : ℕ := if 64 ≤ addr.toInt.natAbs then 48 else addr.toInt.natAbs

theorem shiftCount_of_neg (h : addr.toInt < 0) : shiftCount addr = -(shiftPlaces addr : ℤ) := by
  unfold shiftCount shiftPlaces
  split_ifs <;> omega

theorem shiftCount_of_nonneg (h : 0 ≤ addr.toInt) : shiftCount addr = shiftPlaces addr := by
  unfold shiftCount shiftPlaces
  split_ifs <;> omega

theorem shiftCount_neg_iff : shiftCount addr < 0 ↔ addr.toInt < 0 := by
  unfold shiftCount
  split_ifs <;> omega

/-! ## Shifts in numbers -/

section
variable {n : ℕ}

/-- A right shift with sign extension divides and rounds down; no digit counts as lost. -/
theorem arithmeticShift_right (h : addr.toInt < 0) (v : BitVec n) :
    (arithmeticShift (shiftCount addr) v).1.toInt = v.toInt / 2 ^ shiftPlaces addr ∧
      (arithmeticShift (shiftCount addr) v).2 = false := by
  rw [arithmeticShift, if_pos (shiftCount_neg_iff.2 h), shiftCount_of_neg h, neg_neg, Int.toNat_natCast]
  refine ⟨?_, rfl⟩
  rw [BitVec.toInt_sshiftRight, Int.shiftRight_eq_div_pow]
  norm_cast

theorem twoPow_eq_ofInt (n k : ℕ) : BitVec.twoPow n k = BitVec.ofInt n (2 ^ k) := by
  rw [show (2 : ℤ) ^ k = ((2 ^ k : ℕ) : ℤ) by norm_cast, BitVec.ofInt_natCast]
  apply BitVec.eq_of_toNat_eq
  rw [BitVec.toNat_twoPow, BitVec.toNat_ofNat]

theorem shiftLeft_eq_ofInt (v : BitVec n) (k : ℕ) : v <<< k = BitVec.ofInt n (v.toInt * 2 ^ k) := by
  rw [BitVec.shiftLeft_eq_mul_twoPow, twoPow_eq_ofInt, BitVec.ofInt_mul, BitVec.ofInt_toInt]

/-- A left shift multiplies modulo the width, and loses a digit exactly when the product does not fit. -/
theorem arithmeticShift_left (h : 0 ≤ addr.toInt) (v : BitVec (n + 2)) :
    (arithmeticShift (shiftCount addr) v).1 = BitVec.ofInt (n + 2) (v.toInt * 2 ^ shiftPlaces addr) ∧
      (arithmeticShift (shiftCount addr) v).2 =
        decide (v.toInt * 2 ^ shiftPlaces addr < -2 ^ (n + 1) ∨ 2 ^ (n + 1) ≤ v.toInt * 2 ^ shiftPlaces addr) := by
  rw [arithmeticShift, if_neg (shiftCount_neg_iff.not.2 h.not_gt), shiftCount_of_nonneg h, Int.toNat_natCast]
  exact ⟨by rw [shiftLeftTested_fst, shiftLeft_eq_ofInt], by rw [shiftLeftTested_snd, Bool.false_or]⟩

/-- A logical shift divides or multiplies the unsigned value. -/
theorem toNat_logicalShift (addr : Word) (v : BitVec n) :
    (logicalShift (shiftCount addr) v).toNat =
      if addr.toInt < 0 then v.toNat / 2 ^ shiftPlaces addr else v.toNat * 2 ^ shiftPlaces addr % 2 ^ n := by
  by_cases h : addr.toInt < 0
  · rw [logicalShift, if_pos (shiftCount_neg_iff.2 h), if_pos h, shiftCount_of_neg h, neg_neg, Int.toNat_natCast,
      BitVec.toNat_ushiftRight, Nat.shiftRight_eq_div_pow]
  · rw [logicalShift, if_neg (shiftCount_neg_iff.not.2 h), if_neg h, shiftCount_of_nonneg (not_lt.1 h),
      Int.toNat_natCast, BitVec.toNat_shiftLeft, Nat.shiftLeft_eq]

end

/-! ## AS and AD (R246, R247) -/

theorem testLost_eq (s : State) (lost : Bool) :
    s.testLost lost = { s with ex := (s.testLost lost).ex, ir := (s.testLost lost).ir } := by
  unfold State.testLost
  split <;> rfl

/-- The report of a lost digit after EX(22:23) was cleared. -/
theorem Cleared.testLost_reports (h : Cleared s u t) (lost : Bool) : Reports s (t.testLost lost) 1 lost false := by
  cases lost
  · exact clear_reports 1 h.ex h.ir
  · exact overflow_reports 1 h.ex h.ir

theorem frame_testLost {regs : List Reg} {stored : List Word} (h : Frame s u t regs stored) (lost : Bool) :
    Frame s u (t.testLost lost) regs stored :=
  frame_congr h (by rw [testLost_eq])

theorem as_shifts (h : s.reaches a addr) {v : Word} {lost : Bool}
    (hv : (arithmeticShift (shiftCount addr) (s.reg w)).1 = v)
    (hlost : (arithmeticShift (shiftCount addr) (s.reg w)).2 = lost) :
    ∃ t, exec (.as w a) s = .next t ∧ t.reg w = v ∧ Frame s (s.entered a) t [w] [] ∧ Continues s t false ∧
      Reports s t 1 lost false := by
  have hcleared := cleared_entered s a
  have hexec : exec (.as w a) s = .next (((s.entered a).clearEx.testLost lost).setReg w v) := by
    show execAs w a s = _
    simp only [execAs, cycle_reaches h, entered_reg, hv, hlost]
  refine ⟨_, hexec, ?_, frame_setReg (frame_testLost hcleared.frame lost) w v, ?_, hcleared.testLost_reports lost⟩
  · simp
  · simp [Continues]

theorem ad_shifts (h : s.reaches a addr) {v : DoubleWord} {lost : Bool}
    (hv : (arithmeticShift (shiftCount addr) (s.pair w)).1 = v)
    (hlost : (arithmeticShift (shiftCount addr) (s.pair w)).2 = lost) :
    ∃ t, exec (.ad w a) s = .next t ∧ t.pair w = v ∧ Frame s (s.entered a) t [preceding w, w] [] ∧
      Continues s t false ∧ Reports s t 1 lost false := by
  have hcleared := cleared_entered s a
  have hexec : exec (.ad w a) s = .next (((s.entered a).clearEx.testLost lost).setPair w v) := by
    show execAd w a s = _
    simp only [execAd, cycle_reaches h, entered_pair, hv, hlost]
  refine ⟨_, hexec, pair_setPair .., frame_setPair (frame_testLost hcleared.frame lost) w v, ?_,
    hcleared.testLost_reports lost⟩
  simp [Continues]

/-! ## LS and LD (R248, R249) -/

theorem ls_shifts (h : s.reaches a addr) :
    ∃ t, exec (.ls w a) s = .next t ∧ t.reg w = logicalShift (shiftCount addr) (s.reg w) ∧
      Frame s (s.entered a) t [w] [] ∧ Quiet s t ∧ Continues s t false := by
  have hexec : exec (.ls w a) s =
      .next ((s.entered a).setReg w (logicalShift (shiftCount addr) (s.reg w))) := by
    show execLs w a s = _
    rw [execLs, cycle_reaches h, entered_reg]
  refine ⟨_, hexec, ?_, frame_setReg (frame_entered s a) w _, ?_, ?_⟩
  · simp
  · simp [Quiet]
  · simp [Continues]

theorem ld_shifts (h : s.reaches a addr) :
    ∃ t, exec (.ld w a) s = .next t ∧ t.pair w = logicalShift (shiftCount addr) (s.pair w) ∧
      Frame s (s.entered a) t [preceding w, w] [] ∧ Quiet s t ∧ Continues s t false := by
  have hexec : exec (.ld w a) s =
      .next ((s.entered a).setPair w (logicalShift (shiftCount addr) (s.pair w))) := by
    show execLd w a s = _
    rw [execLd, cycle_reaches h, entered_pair]
  refine ⟨_, hexec, pair_setPair .., frame_setPair (frame_entered s a) w _, ?_, ?_⟩
  · simp [Quiet]
  · simp [Continues]

/-! ## The byte that counts the shifts -/

/-- Which addresses exist does not change behind a frame. -/
theorem Frame.missing {regs : List Reg} {stored : List Word} (h : Frame s u t regs stored) (addr : Word) :
    t.missing addr = s.missing addr := by
  obtain ⟨-, -, -, ⟨-, -, -, -, -, hinst, -⟩, -⟩ := h
  rw [State.missing, State.missing, hinst]

/-- The protection test behind a frame is that of the mode which the decode has set (R122, R128). -/
theorem Frame.forbids_iff {regs : List Reg} {stored : List Word} (h : Frame s u t regs stored) (addr : Word) :
    t.forbids addr = true ↔ s.storeForbidden addr := by
  obtain ⟨-, ⟨hpr, -, -, hkeys⟩, -, -, ⟨-, hmode⟩, -⟩ := h
  have hprotected : t.isProtected addr = s.isProtected addr := by
    rw [State.isProtected, State.isProtected, State.keyRead, State.keyRead, hpr, hkeys]
  simp [State.forbids, hmode, hprotected]

/-- A byte store into the word that is a register changes the half addressed (R24). -/
theorem reg_byteWrite (t : State) (addr : Word) (c : Byte) (r : Reg) :
    (t.byteWrite addr c).reg r = if wordNumber addr = registerNumber r then withHalf addr (t.reg r) c else t.reg r := by
  rw [State.byteWrite, reg_wordWrite, State.wordRead]
  split
  · next hr => rw [hr, readWordAt_registerNumber]
  · rfl

/-- The end of NS and ND: `t` holds the normalized operand, and the tests come behind it. -/
theorem countStore_outcome {o : Out} {c : Byte} {regs : List Reg}
    (ho : o = testAddress t addr (testProtection t addr (.next (t.byteWrite addr c))))
    (hframe : Frame s u t regs []) (hquiet : Quiet s t) (hcontinues : Continues s t false) (ht : t.storeRising) :
    (s.missing addr = true → o = .next t.raise) ∧
    (s.missing addr = false → s.storeForbidden addr → o = .next t.raise) ∧
    (s.missing addr = false → ¬s.storeForbidden addr → ∃ t', o = .next t' ∧ t'.byteRead addr = c ∧
      (∀ r, t'.reg r = if wordNumber addr = registerNumber r then withHalf addr (t.reg r) c else t.reg r) ∧
      Frame s u t' regs [addr] ∧ Quiet s t' ∧ Continues s t' false) := by
  subst ho
  refine ⟨fun hm => testAddress_missing ((hframe.missing addr).trans hm), fun hm hp => ?forbidden,
    fun hm hp => ⟨_, ?allowed, ?byte, reg_byteWrite t addr c, frame_byteWrite hframe ht addr c, ?quiet, ?continues⟩⟩
  case forbidden =>
    rw [testAddress_exists ((hframe.missing addr).trans hm), testProtection_forbidden ((hframe.forbids_iff addr).2 hp)]
  case allowed =>
    rw [testAddress_exists ((hframe.missing addr).trans hm),
      testProtection_allowed (Bool.eq_false_iff.2 fun hf => hp ((hframe.forbids_iff addr).1 hf))]
  case byte => rw [byteRead_byteWrite ht, if_pos rfl]
  case quiet => simpa [Quiet] using hquiet
  case continues => simpa [Continues] using hcontinues

/-! ## Normalization (R252, R253) -/

/-- The normalized value and the byte, of zero and of a nonzero value. -/
theorem normalize_cases {n : ℕ} (v : BitVec (n + 2)) :
    ∃ k : ℕ, (v = 0 → (normalize v).1 = 0 ∧ (normalize v).2 = BitVec.ofInt 12 (-2048)) ∧
      (v ≠ 0 → k ≤ n + 1 ∧ (normalize v).1.toInt = v.toInt * 2 ^ k ∧
        (normalize v).1.getMsbD 0 ≠ (normalize v).1.getMsbD 1 ∧ (normalize v).2 = BitVec.ofInt 12 (-k)) := by
  by_cases hv : v = 0
  · exact ⟨0, fun _ => by simp [normalize, hv], fun hne => absurd hv hne⟩
  · obtain ⟨k, hk⟩ := normalize_spec hv
    exact ⟨k, fun hz => absurd hz hv, fun _ => hk⟩

theorem ns_outcome (hs : s.storeRising) (h : s.reaches a addr) {v : Word} {c : Byte}
    (hv : (normalize (s.reg w)).1 = v) (hc : (normalize (s.reg w)).2 = c) :
    (s.missing addr = true → exec (.ns w a) s = .next ((s.entered a).setReg w v).raise) ∧
    (s.missing addr = false → s.storeForbidden addr → exec (.ns w a) s = .next ((s.entered a).setReg w v).raise) ∧
    (s.missing addr = false → ¬s.storeForbidden addr → ∃ t, exec (.ns w a) s = .next t ∧ t.byteRead addr = c ∧
      t.reg w = (if wordNumber addr = registerNumber w then withHalf addr v c else v) ∧
      Frame s (s.entered a) t [w] [addr] ∧ Quiet s t ∧ Continues s t false) := by
  have hexec : exec (.ns w a) s = testAddress ((s.entered a).setReg w v) addr
      (testProtection ((s.entered a).setReg w v) addr (.next (((s.entered a).setReg w v).byteWrite addr c))) := by
    show execNs w a s = _
    simp only [execNs, cycle_reaches h, entered_reg, hv, hc]
  obtain ⟨hmissing, hforbidden, hallowed⟩ := countStore_outcome hexec (frame_setReg (frame_entered s a) w v)
    (by simp [Quiet]) (by simp [Continues]) (entered_storeRising hs a)
  refine ⟨hmissing, hforbidden, fun hm hp => ?_⟩
  obtain ⟨t, hnext, hbyte, hreg, hrest⟩ := hallowed hm hp
  exact ⟨t, hnext, hbyte, by simpa using hreg w, hrest⟩

theorem nd_outcome (hs : s.storeRising) (h : s.reaches a addr) {v : DoubleWord} {c : Byte}
    (hv : (normalize (s.pair w)).1 = v) (hc : (normalize (s.pair w)).2 = c) :
    (s.missing addr = true → exec (.nd w a) s = .next ((s.entered a).setPair w v).raise) ∧
    (s.missing addr = false → s.storeForbidden addr → exec (.nd w a) s = .next ((s.entered a).setPair w v).raise) ∧
    (s.missing addr = false → ¬s.storeForbidden addr → ∃ t, exec (.nd w a) s = .next t ∧ t.byteRead addr = c ∧
      (∀ r, t.reg r = if wordNumber addr = registerNumber r then withHalf addr (((s.entered a).setPair w v).reg r) c
        else ((s.entered a).setPair w v).reg r) ∧
      Frame s (s.entered a) t [preceding w, w] [addr] ∧ Quiet s t ∧ Continues s t false) := by
  have hexec : exec (.nd w a) s = testAddress ((s.entered a).setPair w v) addr
      (testProtection ((s.entered a).setPair w v) addr (.next (((s.entered a).setPair w v).byteWrite addr c))) := by
    show execNd w a s = _
    simp only [execNd, cycle_reaches h, entered_pair, hv, hc]
  exact countStore_outcome hexec (frame_setPair (frame_entered s a) w v) (by simp [Quiet]) (by simp [Continues])
    (entered_storeRising hs a)

end

/-! ## The statements -/

/-- Settles O28: the three are one combination each, behind the test of the address. -/
theorem logicalOperationsCombineBitByBit : Obligations.LogicalOperationsCombineBitByBit := by
  rintro s u w a addr h rfl i f hif
  simp only [List.mem_cons, List.not_mem_nil, or_false, Prod.mk.injEq] at hif
  obtain ⟨rfl, rfl⟩ | ⟨rfl, rfl⟩ | ⟨rfl, rfl⟩ := hif
  · exact combination_outcome (op := (· &&& ·)) (fun _ _ _ => BitVec.getMsbD_and) rfl h
  · exact combination_outcome (op := (· ||| ·)) (fun _ _ _ => BitVec.getMsbD_or) rfl h
  · exact combination_outcome (op := (· ^^^ ·)) (fun _ _ _ => BitVec.getMsbD_xor) rfl h

/-- Settles O29: the sign of the count decides between the division and the multiplication. -/
theorem arithmeticShiftsMultiplyAndDivide : Obligations.ArithmeticShiftsMultiplyAndDivide := by
  rintro s u w a addr k h rfl hk
  obtain rfl : k = shiftPlaces addr := hk
  refine ⟨fun hneg => ⟨?_, ?_⟩, fun hnonneg => ⟨?_, ?_⟩⟩
  · obtain ⟨hquotient, hlost⟩ := arithmeticShift_right hneg (s.reg w)
    obtain ⟨t, hexec, hreg, hrest⟩ := as_shifts h rfl hlost
    exact ⟨t, hexec, by rw [hreg, hquotient], hrest⟩
  · obtain ⟨hquotient, hlost⟩ := arithmeticShift_right hneg (s.pair w)
    obtain ⟨t, hexec, hpair, hrest⟩ := ad_shifts h rfl hlost
    exact ⟨t, hexec, by rw [hpair, hquotient], hrest⟩
  · obtain ⟨hproduct, hlost⟩ := arithmeticShift_left (n := 22) hnonneg (s.reg w)
    exact as_shifts h hproduct hlost
  · obtain ⟨hproduct, hlost⟩ := arithmeticShift_left (n := 46) hnonneg (s.pair w)
    exact ad_shifts h hproduct hlost

/-- Settles O30, likewise for the unsigned value. -/
theorem logicalShiftsActOnTheUnsignedPattern : Obligations.LogicalShiftsActOnTheUnsignedPattern := by
  rintro s u w a addr k h rfl hk
  obtain rfl : k = shiftPlaces addr := hk
  constructor
  · obtain ⟨t, hexec, hreg, hrest⟩ := ls_shifts h
    exact ⟨t, hexec, by rw [hreg, toNat_logicalShift], hrest⟩
  · obtain ⟨t, hexec, hpair, hrest⟩ := ld_shifts h
    exact ⟨t, hexec, by rw [hpair, toNat_logicalShift], hrest⟩

/-- Settles O31: the operand is normalized first, and the tests and the store of the count follow. -/
theorem nsAndNdNormalizeAndStoreTheCount : Obligations.NsAndNdNormalizeAndStoreTheCount := by
  rintro s u w a addr hinv h rfl
  have hs := hinv.storeRising
  obtain ⟨k, hzero, hnonzero⟩ := normalize_cases (n := 22) (s.reg w)
  obtain ⟨j, hzero', hnonzero'⟩ := normalize_cases (n := 46) (s.pair w)
  obtain ⟨hmissing, hforbidden, hallowed⟩ := nd_outcome hs h rfl rfl
  refine ⟨⟨k, _, _, hzero, hnonzero, ns_outcome hs h rfl rfl⟩,
    ⟨j, _, _, hzero', hnonzero', hmissing, hforbidden, fun hm hp => ?_⟩⟩
  obtain ⟨t, hnext, hbyte, hreg, hrest⟩ := hallowed hm hp
  exact ⟨t, hnext, hbyte, fun r _ => hreg r, hrest⟩

end Sys2Proof.Machine
end

section
/-! The sequencing instructions (45_sequencing.md R270 to R279): JL, whose tests come before its link and its jump, and
the skips, which have one outcome with a condition that differs. -/

namespace Sys2Proof.Machine

section
variable {s : State} {a : AddressPart} {addr : Word} {w : Reg} {i : Instr}

/-! ## JL (R270) -/

@[simp] theorem jump_ic (s : State) (w : Reg) (addr : Word) : (s.jump w addr).ic = evenAddress addr := rfl

theorem jump_without_link (s : State) (addr : Word) : s.jump .w0 addr = { s with ic := evenAddress addr } := rfl

theorem jump_with_link (s : State) (hw : w ≠ .w0) (addr : Word) :
    s.jump w addr = { s.setReg w s.ic with ic := evenAddress addr } := by
  simp only [State.jump, if_neg hw]

theorem jump_reg_link (s : State) (hw : w ≠ .w0) (addr : Word) : (s.jump w addr).reg w = s.ic := by
  rw [jump_with_link s hw]
  exact (reg_setReg s w w s.ic).trans (if_pos rfl)

/-- Without a link a jump changes IC only. -/
theorem frame_jump_without_link (s : State) (a : AddressPart) (addr : Word) :
    Frame s (s.entered a) ((s.entered a).jump .w0 addr) [] [] :=
  frame_congr (frame_entered s a) (by rw [jump_without_link])

/-- A jump with a link also changes the register that receives it. -/
theorem frame_jump_with_link (s : State) (a : AddressPart) (hw : w ≠ .w0) (addr : Word) :
    Frame s (s.entered a) ((s.entered a).jump w addr) [w] [] :=
  frame_congr (frame_setReg (frame_entered s a) w (s.entered a).ic) (by rw [jump_with_link _ hw])

/-! ## Comparisons (R274, R275) -/

theorem beq_eq_decide_toInt (x y : Word) : (x == y) = decide (x.toInt = y.toInt) := by
  rw [Bool.eq_iff_iff, beq_iff_eq, decide_eq_true_iff, BitVec.toInt_inj]

theorem bne_eq_decide_toInt (x y : Word) : (x != y) = decide (x.toInt ≠ y.toInt) := by
  rw [bne, beq_eq_decide_toInt, decide_not]

/-! ## Masks (R276 to R278) -/

/-- A mask meets no bit of `v` exactly if each bit that it selects is zero. -/
theorem and_eq_zero_iff_selected {n : ℕ} (mask v : BitVec n) :
    mask &&& v = 0 ↔ ∀ b : Fin n, mask.getMsbD b = true → v.getMsbD b = false := by
  constructor
  · intro hzero b hb
    have hbit : (mask &&& v).getMsbD b = false := by rw [hzero]; exact BitVec.getMsbD_zero
    simpa [hb] using hbit
  · intro hselected
    refine BitVec.eq_of_getMsbD_eq fun b hb => ?_
    have hbit := hselected ⟨b, hb⟩
    simpa using hbit

/-- SO: the mask meets no zero of `v`. -/
theorem all_selected_ones (mask v : Word) :
    (mask &&& ~~~v == 0) = decide (∀ b : Fin 24, mask.getMsbD b = true → v.getMsbD b = true) := by
  rw [Bool.eq_iff_iff, beq_iff_eq, decide_eq_true_iff, and_eq_zero_iff_selected]
  refine forall_congr' fun b => ?_
  simp [b.isLt]

/-- SZ: the mask meets no one of `v`. -/
theorem all_selected_zeros (mask v : Word) :
    (mask &&& v == 0) = decide (∀ b : Fin 24, mask.getMsbD b = true → v.getMsbD b = false) := by
  rw [Bool.eq_iff_iff, beq_iff_eq, decide_eq_true_iff, and_eq_zero_iff_selected]

/-- SX: EX stands in the three rightmost bits, so only those of the mask have an effect. -/
theorem all_selected_exception_zeros (mask : Word) (ex : BitVec 3) :
    (mask &&& ex.setWidth 24 == 0) =
      decide (∀ b : Fin 3, mask.getMsbD (21 + b) = true → ex.getMsbD b = false) := by
  rw [all_selected_zeros, decide_eq_decide]
  constructor
  · intro hselected b hb
    have hbit := hselected ⟨21 + b, by omega⟩ hb
    simpa [Nat.add_sub_cancel_left] using hbit
  · intro hselected b hb
    rw [BitVec.getMsbD_setWidth, Bool.and_eq_false_imp, decide_eq_true_iff]
    intro hright
    have hbit := hselected ⟨b - 21, by omega⟩
    rw [show 21 + (b.val - 21) = b.val by omega] at hbit
    rw [show b.val + 3 - 24 = b.val - 21 by omega]
    exact hbit hb

/-! ## The skips (R272 to R279) -/

theorem skipIf_ic (s : State) (c : Bool) : (s.skipIf c).ic = s.ic + (if c then 2 else 0) := by
  cases c <;> simp [State.skipIf]

/-- A skip changes IC only. -/
theorem skipIf_eq (s : State) (c : Bool) : s.skipIf c = { s with ic := (s.skipIf c).ic } := by
  cases c <;> rfl

/-- Where a skip ends, whatever its condition is. -/
theorem skipIf_entered (s : State) (a : AddressPart) (skip : Bool) :
    Frame s (s.entered a) ((s.entered a).skipIf skip) [] [] ∧ Quiet s ((s.entered a).skipIf skip) ∧
      Continues s ((s.entered a).skipIf skip) skip := by
  refine ⟨frame_congr (frame_entered s a) (by rw [skipIf_eq]), ?_, ?_⟩
  · simp [Quiet]
  · rw [Continues, skipIf_ic, entered_ic, BitVec.add_assoc]
    cases skip <;> rfl

/-- A skip without a test of its address goes by the condition `c`, taken when the operation starts. -/
theorem skip_outcome (c : Word → State → Bool) {skip : Bool}
    (hexec : exec i s = cycle a s fun addr t => .next (t.skipIf (c addr t)))
    (h : s.reaches a addr) (hskip : c addr (s.entered a) = skip) :
    ∃ t, exec i s = .next t ∧ Frame s (s.entered a) t [] [] ∧ Quiet s t ∧ Continues s t skip := by
  refine ⟨_, ?_, skipIf_entered s a skip⟩
  rw [hexec, cycle_reaches h, hskip]

theorem exec_sp (h : s.reaches a addr) :
    exec (.sp w a) s = testAddress (s.entered a) addr (.next ((s.entered a).skipIf !s.isProtected addr)) := by
  show execSp a s = _
  rw [execSp, cycle_reaches h, entered_isProtected]

end

/-! ## The statements -/

/-- Settles O40: the three ways through JL's two tests, and the link by the W field. -/
theorem jlLinksAndJumps : Obligations.JlLinksAndJumps := by
  rintro s u w a addr h rfl
  obtain ⟨hmissing, hforbidden, hjump⟩ := store_outcome (i := .jl w a) (rest := fun addr t => .next (t.jump w addr)) rfl h
  refine ⟨hmissing, hforbidden, fun hm hp => ⟨_, hjump hm hp, jump_ic .., ?quiet, ?noLink, fun hw => ?link⟩⟩
  case quiet => simp [Quiet]
  case noLink =>
    rintro rfl
    exact frame_jump_without_link s a addr
  case link => exact ⟨by rw [jump_reg_link _ hw, entered_ic], frame_jump_with_link s a hw addr⟩

/-- Settles O41: the seven without a test by their conditions, and SP behind the test of its address. -/
theorem skipsFollowTheirConditions : Obligations.SkipsFollowTheirConditions := by
  rintro s u w a addr h rfl
  refine ⟨fun i skip hiv => ?conditions, fun hm => ?missing, fun hm => ?present⟩
  case conditions =>
    simp only [List.mem_cons, List.not_mem_nil, or_false, Prod.mk.injEq] at hiv
    obtain ⟨rfl, rfl⟩ | ⟨rfl, rfl⟩ | ⟨rfl, rfl⟩ | ⟨rfl, rfl⟩ | ⟨rfl, rfl⟩ | ⟨rfl, rfl⟩ | ⟨rfl, rfl⟩ := hiv
    · exact skip_outcome (fun addr t => addr.slt (t.reg w)) rfl h (by rw [entered_reg, BitVec.slt_eq_decide])
    · exact skip_outcome (fun addr t => (t.reg w).slt addr) rfl h (by rw [entered_reg, BitVec.slt_eq_decide])
    · exact skip_outcome (fun addr t => t.reg w == addr) rfl h (by rw [entered_reg, beq_eq_decide_toInt])
    · exact skip_outcome (fun addr t => t.reg w != addr) rfl h (by rw [entered_reg, bne_eq_decide_toInt])
    · exact skip_outcome (fun addr t => addr &&& ~~~t.reg w == 0) rfl h (by rw [entered_reg, all_selected_ones])
    · exact skip_outcome (fun addr t => addr &&& t.reg w == 0) rfl h (by rw [entered_reg, all_selected_zeros])
    · exact skip_outcome (fun addr t => addr &&& t.ex.setWidth 24 == 0) rfl h
        (by rw [entered_ex, all_selected_exception_zeros])
  case missing => exact (exec_sp h).trans (testAddress_entered_missing hm _)
  case present => exact ⟨_, (exec_sp h).trans (testAddress_entered_exists hm _), skipIf_entered s a _⟩

end Sys2Proof.Machine
end

section
/-! The monitor control instructions (46_monitor_control.md R291 to R309) other than IO and AW: the tests that come
first, what a change of the control registers leaves alone, and the one register or key that each instruction changes. -/

namespace Sys2Proof.Machine

section
variable {s u t t' : State} {a : AddressPart} {addr : Word} {w : Reg} {i : Instr}

/-! ## The tests of the privileged instructions (R127, R129, R290) -/

/-- The mode test goes by the key of the instruction's word, from which the decode has set the mode (R122). -/
theorem testMode_entered_task (hp : ¬s.privilegedAt) (rest : Out) :
    testMode (s.entered a) rest = .next (s.entered a).raise :=
  testMode_task (by rw [entered_monitorMode, Bool.eq_false_iff]; exact hp)

theorem testMode_entered_monitor (hp : s.privilegedAt) (rest : Out) : testMode (s.entered a) rest = rest :=
  testMode_monitor ((entered_monitorMode s a).trans hp)

/-- A privileged instruction with an operand: the mode test, the address test, and then the rest. -/
theorem privileged_outcome {rest : Word → State → Out}
    (hexec : exec i s = cycle a s fun addr t => testMode t (testAddress t addr (rest addr t)))
    (h : s.reaches a addr) :
    (¬s.privilegedAt → exec i s = .next (s.entered a).raise) ∧
    (s.privilegedAt → s.missing addr = true → exec i s = .next (s.entered a).raise) ∧
    (s.privilegedAt → s.missing addr = false → exec i s = rest addr (s.entered a)) := by
  rw [hexec, cycle_reaches h]
  refine ⟨fun hp => testMode_entered_task hp _, fun hp hm => ?missing, fun hp hm => ?present⟩
  case missing => rw [testMode_entered_monitor hp, testAddress_entered_missing hm]
  case present => rw [testMode_entered_monitor hp, testAddress_entered_exists hm]

/-! ## Changes of the control registers and the keys -/

/-- Apart from SameControl, what a frame says does not depend on PR, IM, the interrupt switch and the keys. -/
theorem Frame.outside_control {regs : List Reg} {stored : List Word} (h : Frame s u t regs stored)
    (heq : t' = { t with pr := t'.pr, im := t'.im, interruptDisabled := t'.interruptDisabled, keys := t'.keys }) :
    SameStorage u t' regs stored ∧ SameDevices s t' ∧ SameConsole s t' ∧ DecodeDone s t' ∧ t'.steals = u.steals := by
  obtain ⟨hstorage, -, hrest⟩ := h
  rw [heq]
  exact ⟨sameStorage_congr hstorage rfl rfl rfl rfl, hrest⟩

/-- An operation that changes PR, IM or the keys only leaves the rest as the decode has left it. -/
theorem entered_outside_control
    (heq : t' = { s.entered a with pr := t'.pr, im := t'.im, keys := t'.keys }) :
    SameStorage (s.entered a) t' [] [] ∧ SameDevices s t' ∧ SameConsole s t' ∧ DecodeDone s t' ∧
      t'.steals = (s.entered a).steals ∧ Quiet s t' ∧ Continues s t' false := by
  have hswitch : t'.interruptDisabled = (s.entered a).interruptDisabled := by rw [heq]
  have hquiet : Quiet s t' := by rw [heq]; exact ⟨entered_ex s a, entered_ir s a⟩
  have hcontinues : Continues s t' false := by rw [heq]; exact entered_ic s a
  obtain ⟨hstorage, hdevices, hconsole, hdone, hsteals⟩ :=
    (frame_entered s a).outside_control (t' := t') (by rw [hswitch]; exact heq)
  exact ⟨hstorage, hdevices, hconsole, hdone, hsteals, hquiet, hcontinues⟩

/-! ## JE and JD (R291, R292) -/

/-- The jump and its link do not depend on the interrupt switch. -/
theorem jump_with_interruptDisabled (s : State) (disabled : Bool) (w : Reg) (addr : Word) :
    State.jump { s with interruptDisabled := disabled } w addr =
      { s.jump w addr with interruptDisabled := disabled } := by
  by_cases hw : w = .w0
  · subst hw
    rfl
  · rw [jump_with_link _ hw, jump_with_link _ hw]
    rfl

/-- A jump changes IC, and the register that its W field names for the link. -/
theorem frame_jump (s : State) (w : Reg) (a : AddressPart) (addr : Word) :
    Frame s (s.entered a) ((s.entered a).jump w addr) (if w = .w0 then [] else [w]) [] := by
  by_cases hw : w = .w0
  · subst hw
    exact frame_jump_without_link s a addr
  · rw [if_neg hw]
    exact frame_jump_with_link s a hw addr

/-- JE and JD, by the position in which they leave the interrupt switch. -/
theorem switchingJump_outcome {disabled : Bool}
    (hexec : exec i s = cycle a s fun addr t =>
      testMode t (testAddress t addr (.next (State.jump { t with interruptDisabled := disabled } w addr))))
    (h : s.reaches a addr) :
    (¬s.privilegedAt → exec i s = .next (s.entered a).raise) ∧
    (s.privilegedAt → s.missing addr = true → exec i s = .next (s.entered a).raise) ∧
    (s.privilegedAt → s.missing addr = false →
      ∃ t, exec i s = .next t ∧ t.ic = evenAddress addr ∧ t.interruptDisabled = disabled ∧ Quiet s t ∧
        (w ≠ .w0 → t.reg w = s.ic + 2) ∧ SameStorage (s.entered a) t (if w = .w0 then [] else [w]) [] ∧
        t.pr = s.pr ∧ t.im = s.im ∧ t.keys = s.keys ∧ SameDevices s t ∧ SameConsole s t ∧ DecodeDone s t ∧
        t.steals = (s.entered a).steals) := by
  obtain ⟨htask, hmissing, hpresent⟩ := privileged_outcome hexec h
  obtain ⟨hstorage, hrest⟩ := (frame_jump s w a addr).outside_control
    (t' := { (s.entered a).jump w addr with interruptDisabled := disabled }) rfl
  rw [jump_with_interruptDisabled] at hpresent
  refine ⟨htask, hmissing, fun hp hm => ⟨_, hpresent hp hm, jump_ic (s.entered a) w addr, rfl, ?quiet,
    fun hw => ?link, hstorage, ?pr, ?im, ?keys, hrest⟩⟩
  case quiet => simp [Quiet]
  case link => exact (jump_reg_link _ hw addr).trans (entered_ic s a)
  case pr => simp
  case im => simp
  case keys => simp

/-! ## ML and PL (R296, R304) -/

/-- ML: the word with bit 0 set. -/
theorem loadedMask_getMsbD (v : Word) {b : ℕ} (hb : b < 24) :
    (v ||| bitMask 0).getMsbD b = (decide (b = 0) || v.getMsbD b) := by
  rw [getMsbD_or_bitMask v (by decide) hb, Bool.or_comm, decide_eq_decide.2 eq_comm]

/-- PL: the eight rightmost bits of the byte with bit 0 set. -/
theorem loadedProtection_getMsbD (c : Byte) {b : ℕ} (hb : b < 8) :
    (c.extractLsb' 0 8 ||| 0x80).getMsbD b = (decide (b = 0) || c.getMsbD (4 + b)) := by
  have hbit0 : ∀ b : Fin 8, (0x80#8).getMsbD b = decide (b.val = 0) := by decide
  have hright : (c.extractLsb' 0 8).getMsbD b = c.getMsbD (4 + b) := by
    rw [BitVec.getMsbD_eq_getLsbD, BitVec.getMsbD_eq_getLsbD, BitVec.getLsbD_extractLsb',
      show 0 + (8 - 1 - b) = 12 - 1 - (4 + b) by omega]
    simp [hb, show 8 - 1 - b < 8 by omega, show 4 + b < 12 by omega]
  have hmask : (0x80#8).getMsbD b = decide (b = 0) := hbit0 ⟨b, hb⟩
  rw [BitVec.getMsbD_or, hright, Bool.or_comm]
  exact congrArg (· || _) hmask

end

/-! ## The statements -/

/-- Settles O42: one argument for both positions of the interrupt switch. -/
theorem jeAndJdSetTheInterruptSwitchAndJump : Obligations.JeAndJdSetTheInterruptSwitchAndJump := by
  rintro s u w a addr h rfl i disabled hi
  simp only [List.mem_cons, List.not_mem_nil, or_false, Prod.mk.injEq] at hi
  obtain ⟨rfl, rfl⟩ | ⟨rfl, rfl⟩ := hi
  · exact switchingJump_outcome rfl h
  · exact switchingJump_outcome rfl h

/-- Settles O43: behind the mode test IR is masked with the complement of the address, which is not tested. -/
theorem icClearsTheSelectedRequests : Obligations.IcClearsTheSelectedRequests := by
  rintro s u w a addr h rfl
  have hexec : exec (.ic w a) s =
      testMode (s.entered a) (.next { s.entered a with ir := (s.entered a).ir &&& ~~~addr }) :=
    cycle_reaches (op := fun addr t => testMode t (.next { t with ir := t.ir &&& ~~~addr })) h
  refine ⟨fun hp => hexec.trans (testMode_entered_task hp _), fun hp =>
    ⟨_, hexec.trans (testMode_entered_monitor hp _), fun b hb => ?cleared, entered_ex s a,
      frame_congr (frame_entered s a) rfl, entered_ic s a⟩⟩
  case cleared => rw [BitVec.getMsbD_and, BitVec.getMsbD_not, entered_ir, decide_eq_true hb, Bool.true_and]

/-- Settles O44: each loads its one register behind both tests; the bit that is or-ed in keeps bit 0 one. -/
theorem mlAndPlKeepBitZeroOne : Obligations.MlAndPlKeepBitZeroOne := by
  rintro s u w a addr h rfl i hi
  simp only [List.mem_cons, List.not_mem_nil, or_false] at hi
  obtain rfl | rfl := hi
  case inl =>
    obtain ⟨htask, hmissing, hpresent⟩ := privileged_outcome (i := .ml w a)
      (rest := fun addr t => .next { t with im := t.wordRead addr ||| bitMask 0 }) rfl h
    exact ⟨htask, hmissing, fun hp hm => ⟨_, hpresent hp hm,
      fun _ => ⟨entered_pr s a, fun b hb => loadedMask_getMsbD _ hb⟩, nofun,
      entered_interruptDisabled s a, entered_keys s a, entered_outside_control rfl⟩⟩
  case inr =>
    obtain ⟨htask, hmissing, hpresent⟩ := privileged_outcome (i := .pl w a)
      (rest := fun addr t => .next { t with pr := (t.byteRead addr).extractLsb' 0 8 ||| 0x80 }) rfl h
    exact ⟨htask, hmissing, fun hp hm => ⟨_, hpresent hp hm,
      nofun, fun _ => ⟨entered_im s a, fun b hb => loadedProtection_getMsbD _ hb⟩,
      entered_interruptDisabled s a, entered_keys s a, entered_outside_control rfl⟩⟩

/-- Settles O45: XL is not privileged and tests its address only. -/
theorem xlLoadsTheExceptionRegister : Obligations.XlLoadsTheExceptionRegister := by
  rintro s u w a addr h rfl
  have hexec : exec (.xl w a) s = testAddress (s.entered a) addr
      (.next { s.entered a with ex := ((s.entered a).byteRead addr).extractLsb' 0 3 }) :=
    cycle_reaches (op := fun addr t =>
      testAddress t addr (.next { t with ex := (t.byteRead addr).extractLsb' 0 3 })) h
  refine ⟨fun hm => hexec.trans (testAddress_entered_missing hm _), fun hm =>
    ⟨_, hexec.trans (testAddress_entered_exists hm _), ?rightmost, entered_ir s a,
      frame_congr (frame_entered s a) rfl, entered_ic s a⟩⟩
  case rightmost => rw [BitVec.extractLsb'_toNat, Nat.shiftRight_zero]

/-- Settles O46: the invariant keeps the keys in their canonical form, in which a key reads as it was written. -/
theorem ksChangesOneKeyAndNoData : Obligations.KsChangesOneKeyAndNoData := by
  rintro s u w a addr hinv h rfl
  have hrising : (s.entered a).keys.Pairwise fun c d => c.1 < d.1 := by
    rw [entered_keys]
    exact hinv.keys.1
  obtain ⟨htask, hmissing, hpresent⟩ := privileged_outcome (i := .ks w a)
    (rest := fun addr t => .next (t.keyWrite addr ((t.reg w).extractLsb' 0 3))) rfl h
  refine ⟨htask, hmissing, fun hp hm => ⟨_, hpresent hp hm, ?key, fun b hb => ?others, entered_pr s a, entered_im s a,
    entered_interruptDisabled s a, entered_outside_control rfl⟩⟩
  case key =>
    rw [keyRead_keyWrite hrising, if_pos rfl, entered_reg, BitVec.extractLsb'_toNat, Nat.shiftRight_zero]
  case others => rw [keyRead_keyWrite_other _ _ (Ne.symm hb), entered_keyRead]

end Sys2Proof.Machine
end

section
/-! Input/Output (47_input_output.md R321 to R324): the fields of the address, what a device command does to the device
that it names and to no other, and the two outcomes of IO: the rejection and the accepted command. -/

namespace Sys2Proof.Machine

section
variable {s t : State} {a : AddressPart} {addr : Word} {w : Reg} {n : ℕ} {d : Device}

/-! ## The fields of the address (R321) -/

theorem commandField_eq (addr : Word) : commandField addr = addr.setWidth 6 := by
  apply BitVec.eq_of_toNat_eq
  rw [commandField, BitVec.extractLsb'_toNat, BitVec.toNat_setWidth, Nat.shiftRight_zero]

theorem basicCommand_eq (addr : Word) : (commandField addr).extractLsb' 0 2 = basicCommand addr := by
  apply BitVec.eq_of_toNat_eq
  simp only [commandField, basicCommand, BitVec.extractLsb'_toNat, Nat.shiftRight_zero]
  omega

/-- The basic command, by its number, is the rightmost two bits of the address. -/
theorem basicCommand_eq_iff (addr : Word) (k : BitVec 2) : basicCommand addr = k ↔ addr.toNat % 4 = k.toNat := by
  rw [← BitVec.toNat_inj, basicCommand, BitVec.extractLsb'_toNat, Nat.shiftRight_zero]

theorem selectedDevice_eq (s : State) (addr : Word) :
    s.selectedDevice addr = addr.toNat / 64 % 2 ^ s.inst.deviceAddressBits := by
  have hfield : (deviceField addr).toNat = addr.toNat / 64 := by
    rw [deviceField, BitVec.extractLsb'_toNat, Nat.shiftRight_eq_div_pow]
    have := addr.isLt
    omega
  rw [State.selectedDevice, hfield]

/-! ## Device commands (R323, R324) -/

/-- A number without a device is disconnected (R322). -/
theorem condition_absent (h : s.device? n = none) : s.condition n = .disconnected := by
  rw [State.condition, h]

theorem condition_present (h : s.device? n = some d) : s.condition n = d.state := by
  rw [State.condition, h]

/-- A sense is recorded and leaves the devices as they are. -/
theorem deviceCommand_sense {c : BitVec 6} (hc : c.extractLsb' 0 2 = (0 : BitVec 2)) (s : State) (n : ℕ)
    (v : Option Word) : s.deviceCommand n c v = { s with commands := s.commands ++ [⟨n, c, v⟩] } := by
  rw [State.deviceCommand, if_pos hc]

/-- Every other command is recorded, and the device that it names takes it. -/
theorem deviceCommand_accept {c : BitVec 6} (hc : c.extractLsb' 0 2 ≠ (0 : BitVec 2)) (s : State) (n : ℕ)
    (v : Option Word) : s.deviceCommand n c v =
      State.changeDevice { s with commands := s.commands ++ [⟨n, c, v⟩] } n
        fun d => d.accept (c.extractLsb' 0 2) v := by
  rw [State.deviceCommand, if_neg hc]

/-- A command without data to a device that is no interval timer: the device is busy, and no block transfer goes on. -/
theorem accept_read (d : Device) : d.accept 2 none = if d.kind = .intervalTimer then d else
    { d with condition := .busy, transferring := decide (d.kind ≠ .highSpeed) && d.transferring } := by
  unfold Device.accept
  cases d.kind <;> rfl

/-- A command with data: the buffer receives it, and of the two commands control starts a block transfer (R340). -/
theorem accept_data (d : Device) (basic : BitVec 2) (v : Word) :
    d.accept basic (some v) = if d.kind = .intervalTimer then d else
      { d with
        buffer := v, condition := .busy
        transferring := if d.kind = .highSpeed then basic == 1 else d.transferring } := by
  unfold Device.accept
  cases d.kind <;> rfl

/-! ## The rejection (R324) -/

/-- IO behind the mode test, on a device that is not available: EX(22) and EX(23) report its condition. -/
theorem exec_io_rejected (h : s.reaches a addr) (hp : s.privilegedAt) (hn : n = s.selectedDevice addr)
    (hc : s.condition n ≠ .available) : exec (.io w a) s =
      .next ((s.entered a).setEx (decide (s.condition n = .disconnected)) (decide (s.condition n = .busy))) := by
  show execIo w a s = _
  rw [execIo, cycle_reaches h, testMode_entered_monitor hp, entered_selectedDevice, ← hn]
  simp only [entered_device]
  cases hdevice : s.device? n with
  | none => rw [condition_absent hdevice]; rfl
  | some d =>
    rw [condition_present hdevice] at hc ⊢
    simp only
    cases hstate : d.state with
    | available => exact absurd hstate hc
    | busy => rfl
    | disconnected => rfl

/-! ## The accepted command (R324) -/

theorem exec_io_accepted (h : s.reaches a addr) (hp : s.privilegedAt) (hn : n = s.selectedDevice addr)
    (hd : s.device? n = some d) (hstate : d.state = .available) :
    exec (.io w a) s = .next ((s.entered a).clearEx.acceptedIo w addr n d) := by
  show execIo w a s = _
  rw [execIo, cycle_reaches h, testMode_entered_monitor hp, entered_selectedDevice, ← hn]
  simp only [entered_device, hd, hstate]

theorem acceptedIo_sense (hc : addr.toNat % 4 = 0) (t : State) (w : Reg) (n : ℕ) (d : Device) :
    t.acceptedIo w addr n d =
      State.setReg { t with commands := t.commands ++ [⟨n, addr.setWidth 6, none⟩] } w d.sensed := by
  have hbasic : basicCommand addr = 0 := (basicCommand_eq_iff addr 0).2 hc
  rw [State.acceptedIo, if_pos hbasic, deviceCommand_sense ((basicCommand_eq addr).trans hbasic), commandField_eq]

theorem acceptedIo_read (hc : addr.toNat % 4 = 2) (t : State) (w : Reg) (n : ℕ) (d : Device) :
    t.acceptedIo w addr n d =
      State.changeDevice { t with commands := t.commands ++ [⟨n, addr.setWidth 6, none⟩] } n
        fun d => d.accept 2 none := by
  have hbasic : basicCommand addr = 2 := (basicCommand_eq_iff addr 2).2 hc
  have hfield := (basicCommand_eq addr).trans hbasic
  have haccept : (commandField addr).extractLsb' 0 2 ≠ (0 : BitVec 2) := by rw [hfield]; decide
  rw [State.acceptedIo, hbasic, if_neg (by decide), if_pos rfl, deviceCommand_accept haccept, hfield, commandField_eq]

theorem acceptedIo_data (hc : addr.toNat % 4 = 1 ∨ addr.toNat % 4 = 3) (t : State) (w : Reg) (n : ℕ) (d : Device) :
    t.acceptedIo w addr n d =
      State.changeDevice { t with commands := t.commands ++ [⟨n, addr.setWidth 6, some (t.reg w)⟩] } n
        fun d => d.accept (basicCommand addr) (some (t.reg w)) := by
  have hsense : basicCommand addr ≠ 0 := by rw [ne_eq, basicCommand_eq_iff]; simp; omega
  have hread : basicCommand addr ≠ 2 := by rw [ne_eq, basicCommand_eq_iff]; simp; omega
  have haccept : (commandField addr).extractLsb' 0 2 ≠ (0 : BitVec 2) := by rwa [basicCommand_eq]
  rw [State.acceptedIo, if_neg hsense, if_neg hread, deviceCommand_accept haccept, basicCommand_eq, commandField_eq]

/-- The basic command decides which of the three happens. -/
theorem basicCommand_cases (addr : Word) :
    addr.toNat % 4 = 0 ∨ addr.toNat % 4 = 2 ∨ addr.toNat % 4 = 1 ∨ addr.toNat % 4 = 3 := by omega

/-- An accepted command changes registers, devices and their commands only. -/
theorem acceptedIo_eq (t : State) (w : Reg) (addr : Word) (n : ℕ) (d : Device) :
    t.acceptedIo w addr n d =
      { t with
        regs := (t.acceptedIo w addr n d).regs, devices := (t.acceptedIo w addr n d).devices
        commands := (t.acceptedIo w addr n d).commands } := by
  rcases basicCommand_cases addr with hc | hc | hc
  · rw [acceptedIo_sense hc]; rfl
  · rw [acceptedIo_read hc]; rfl
  · rw [acceptedIo_data hc]; rfl

/-- An accepted command leaves the devices that it does not name. -/
theorem acceptedIo_device_other {k : ℕ} (hk : k ≠ n) (t : State) (w : Reg) (addr : Word) (d : Device) :
    (t.acceptedIo w addr n d).device? k = t.device? k := by
  rcases basicCommand_cases addr with hc | hc | hc
  · rw [acceptedIo_sense hc]; rfl
  · rw [acceptedIo_read hc, device_changeDevice, if_neg hk.symm]; rfl
  · rw [acceptedIo_data hc, device_changeDevice, if_neg hk.symm]; rfl

/-- An operation that clears EX(22:23) and changes registers, devices and their commands only. -/
theorem entered_clearEx_outside_devices
    (heq : t = { (s.entered a).clearEx with regs := t.regs, devices := t.devices, commands := t.commands }) :
    Reports s t 0 false false ∧ Continues s t false ∧ SameControl s t ∧ SameConsole s t ∧ DecodeDone s t ∧
      t.steals = (s.entered a).steals := by
  obtain ⟨-, hcontrol, -, hconsole, hdone, hsteals⟩ := frame_entered_clearEx s a
  have hex : t.ex = s.clearEx.ex := by rw [heq]; exact entered_clearEx_ex s a
  have hir : t.ir = s.ir := by rw [heq]; exact entered_ir s a
  have hic : t.ic = s.ic + 2 := by rw [heq]; exact entered_ic s a
  refine ⟨clear_reports 0 hex hir, hic, ?_⟩
  rw [heq]
  exact ⟨hcontrol, hconsole, hdone, hsteals⟩

end

/-! ## The statements -/

/-- Settles O47: the condition of the selected device is all that the rejection reports. -/
theorem ioRejectsDisconnectedAndBusyDevices : Obligations.IoRejectsDisconnectedAndBusyDevices := by
  rintro s u w a addr n h rfl hp hn hc
  refine ⟨_, exec_io_rejected h hp (hn.trans (selectedDevice_eq s addr).symm) hc,
    frame_congr (frame_entered s a) rfl, entered_ic s a, entered_ir s a, ?_⟩
  rw [setEx_bits, entered_ex]

/-- Settles O48: a sense loads the register and leaves the device; the other three commands leave the registers and
change the device as its kind determines. -/
theorem ioSendsItsCommandToAnAvailableDevice : Obligations.IoSendsItsCommandToAnAvailableDevice := by
  rintro s u w a addr n d h rfl hp hn hd hstate
  have hpresent : (s.entered a).device? n = some d := (entered_device s a n).trans hd
  obtain ⟨hreports, hcontinues, hcontrol, hconsole, hdone, hsteals⟩ :=
    entered_clearEx_outside_devices (s := s) (a := a) (acceptedIo_eq (s.entered a).clearEx w addr n d)
  refine ⟨_, exec_io_accepted h hp (hn.trans (selectedDevice_eq s addr).symm) hd hstate, hreports, hcontinues,
    hcontrol, hconsole, hdone, hsteals, fun k hk => ?others, fun hc => ?sense, fun hc => ?read, fun hc => ?data⟩
  case others => exact (acceptedIo_device_other hk ..).trans (entered_device s a k)
  case sense =>
    rw [acceptedIo_sense hc]
    refine ⟨by simp [Device.sensed], ?_, hpresent, by simp⟩
    exact sameStorage_congr (sameStorage_setReg (s.entered a) w d.sensed) rfl rfl rfl rfl
  case read =>
    rw [acceptedIo_read hc]
    refine ⟨sameStorage_of_eq rfl rfl, by simp, ?_⟩
    rw [device_changeDevice, if_pos rfl, ← accept_read]
    exact congrArg _ hpresent
  case data =>
    have hcontrolCommand : (basicCommand addr == 1) = decide (addr.toNat % 4 = 1) := by
      rw [beq_eq_decide, decide_eq_decide]
      exact basicCommand_eq_iff addr 1
    rw [acceptedIo_data hc]
    refine ⟨sameStorage_of_eq rfl rfl, by simp, ?_⟩
    rw [device_changeDevice, if_pos rfl, ← hcontrolCommand, ← accept_data, clearEx_reg, entered_reg]
    exact congrArg _ hpresent

end Sys2Proof.Machine
end

section
/-! Autoload Word, one look at device 0 after the other (47_input_output.md R330, 70_reset_and_hazards.md R413): what a
look can do is said once (`Looks`); a step in the waiting loops is one look, and then one more for each list of events
that the script still holds. -/

namespace Sys2Proof.Machine

/-! ## One look -/

/-- What one look at device 0 leads to, by the loop of R330 that makes it and by what it finds. -/
inductive Looks (s : State) (p : Autoload) : AutoloadResult → Prop
  | disconnected : s.condition 0 = .disconnected → Looks s p (.over s.resetSystem)
  | busy : s.condition 0 = .busy → Looks s p (.goesOn p s)
  /-- StartInput sends the read command. -/
  | command : s.condition 0 = .available → p.reading = false →
    Looks s p (.goesOn { p with reading := true } (s.deviceCommand 0 2 none).clearEx)
  /-- WaitInput finds bit 0 of the status: the read is repeated. -/
  | endOfBuffer : s.condition 0 = .available → p.reading = true → (s.sensedWord 0).getMsbD 0 = true →
    Looks s p (.goesOn { p with reading := false } s.clearEx)
  /-- WaitInput finds another status bit. -/
  | status {b : ℕ} : s.condition 0 = .available → p.reading = true → (s.sensedWord 0).getMsbD 0 = false →
    b < 12 → (s.sensedWord 0).getMsbD b = true → Looks s p (.over s.clearEx.resetSystem)
  | character : s.condition 0 = .available → p.reading = true → (∀ b < 12, (s.sensedWord 0).getMsbD b = false) →
    1 < p.remaining →
    Looks s p (.goesOn ⟨p.target, (p.acc <<< 6) ||| s.sensedWord 0, p.remaining - 1, false⟩ s.clearEx)
  | lastCharacter : s.condition 0 = .available → p.reading = true → (∀ b < 12, (s.sensedWord 0).getMsbD b = false) →
    p.remaining ≤ 1 →
    Looks s p (.over (s.clearEx.finishAutoload p.target ((p.acc <<< 6) ||| s.sensedWord 0)))

section
variable {s t : State} {p q : Autoload} {r : AutoloadResult} {es : List EnvEvent} {l : List (List EnvEvent)}

/-- The status byte of R330 is the left half of the word sensed. -/
theorem statusByte_eq_zero_iff (c : Word) : c.extractLsb' 12 12 = 0#12 ↔ ∀ b < 12, c.getMsbD b = false := by
  have hbit : ∀ b < 12, (c.extractLsb' 12 12 : Byte).getMsbD b = c.getMsbD b := fun b hb => by
    simp [BitVec.getMsbD_eq_getLsbD, hb, show b < 24 by omega,
      show 12 - 1 - b < 12 by omega, show 12 + (12 - 1 - b) = 24 - 1 - b by omega]
  constructor
  · intro h b hb
    rw [← hbit b hb, h, BitVec.getMsbD_zero]
  · intro h
    refine BitVec.eq_of_getMsbD_eq fun b hb => ?_
    rw [hbit b hb, h b hb, BitVec.getMsbD_zero]

theorem statusByte_ne_zero {c : Word} {b : ℕ} (hb : b < 12) (h : c.getMsbD b = true) :
    c.extractLsb' 12 12 ≠ 0#12 := fun h0 => by
  rw [(statusByte_eq_zero_iff c).1 h0 b hb] at h
  cases h

/-- The model's look is the one that the case describes. -/
theorem Looks.eq (h : Looks s p r) : s.autoloadLook p = r := by
  unfold State.autoloadLook
  cases h with
  | disconnected hc => rw [hc]
  | busy hc => rw [hc]
  | command hc hr => simp [hc, hr]
  | endOfBuffer hc hr h0 => simp [hc, hr, h0]
  | status hc hr h0 hb hstatus => simp [hc, hr, h0, statusByte_ne_zero hb hstatus]
  | character hc hr hclear hmore =>
    simp [hc, hr, hclear 0, (statusByte_eq_zero_iff _).2 hclear, Nat.not_le.2 hmore]
  | lastCharacter hc hr hclear hlast => simp [hc, hr, hclear 0, (statusByte_eq_zero_iff _).2 hclear, hlast]

/-- The cases are all there are. -/
theorem looks (s : State) (p : Autoload) : Looks s p (s.autoloadLook p) := by
  have of {r : AutoloadResult} (h : Looks s p r) : Looks s p (s.autoloadLook p) := h.eq.symm ▸ h
  cases hc : s.condition 0 with
  | disconnected => exact of (.disconnected hc)
  | busy => exact of (.busy hc)
  | available =>
    cases hr : p.reading with
    | false => exact of (.command hc hr)
    | true =>
      cases h0 : (s.sensedWord 0).getMsbD 0 with
      | true => exact of (.endOfBuffer hc hr h0)
      | false =>
        by_cases hstatus : ∃ b < 12, (s.sensedWord 0).getMsbD b = true
        · obtain ⟨b, hb, hbit⟩ := hstatus
          exact of (.status hc hr h0 hb hbit)
        · have hclear : ∀ b < 12, (s.sensedWord 0).getMsbD b = false := fun b hb =>
            Bool.eq_false_iff.2 fun hbit => hstatus ⟨b, hb, hbit⟩
          rcases Nat.lt_or_ge 1 p.remaining with hmore | hlast
          · exact of (.character hc hr hclear hmore)
          · exact of (.lastCharacter hc hr hclear hlast)

/-- A look that ends the instruction leaves the control state `autoloading`. -/
theorem Looks.over_run (h : Looks s p (.over t)) : t.run ≠ .autoloading q := by
  cases h with
  | disconnected => exact nofun
  | status => exact nofun
  | lastCharacter =>
    rw [finishAutoload_run]
    exact nofun

/-! ## The end of the instruction -/

theorem finishAutoload_missing {target : Word} (hm : s.missing target = true) (acc : Word) :
    s.finishAutoload target acc = State.raise { s with run := .running } :=
  if_pos (c := State.missing { s with run := .running } target = true) hm

/-- The word and its key are two accesses (20_memory.md R74). -/
theorem finishAutoload_exists {target : Word} (hm : s.missing target = false) (acc : Word) :
    s.finishAutoload target acc =
      ((State.steal { s with run := .running }).wordWrite target acc).steal.keyWrite target 0 :=
  if_neg (c := State.missing { s with run := .running } target = true) (Bool.eq_false_iff.1 hm)

/-! ## The read command -/

theorem readCommand_eq (s : State) : s.deviceCommand 0 2 none =
    State.changeDevice { s with commands := s.commands ++ [⟨0, 2, none⟩] } 0 fun d => d.accept 2 none :=
  deviceCommand_accept (by decide) s 0 none

theorem readCommand_device {d : Device} (hd : s.device? 0 = some d) (hkind : d.kind = .ordinary) :
    (s.deviceCommand 0 2 none).device? 0 = some { d with condition := .busy } := by
  have haccept : d.accept 2 none = { d with condition := .busy } := by rw [Device.accept, hkind]; rfl
  rw [readCommand_eq, device_changeDevice, if_pos rfl, ← haccept]
  exact congrArg _ hd

theorem readCommand_device_other (s : State) {k : ℕ} (hk : k ≠ 0) :
    (s.deviceCommand 0 2 none).device? k = s.device? k := by
  rw [readCommand_eq, device_changeDevice, if_neg hk.symm]
  rfl

/-! ## A look does not depend on the script -/

def AutoloadResult.withSchedule (l : List (List EnvEvent)) : AutoloadResult → AutoloadResult
  | .over t => .over { t with schedule := l }
  | .goesOn q t => .goesOn q { t with schedule := l }

theorem wordWrite_withSchedule (s : State) (l : List (List EnvEvent)) (b v : Word) :
    State.wordWrite { s with schedule := l } b v = { s.wordWrite b v with schedule := l } := by
  unfold State.wordWrite State.writeWordAt
  cases registerAt (wordNumber b) <;> rfl

theorem raise_withSchedule (s : State) (l : List (List EnvEvent)) :
    State.raise { s with schedule := l } = { s.raise with schedule := l } := by
  have hhonoured : (State.pend { s with schedule := l, amPending := none } 0).honoured =
      (State.pend { s with amPending := none } 0).honoured := rfl
  unfold State.raise State.service
  rw [hhonoured]
  cases (State.pend { s with amPending := none } 0).honoured <;> rfl

theorem finishAutoload_withSchedule (s : State) (l : List (List EnvEvent)) (target acc : Word) :
    State.finishAutoload { s with schedule := l } target acc =
      { s.finishAutoload target acc with schedule := l } := by
  cases hm : s.missing target with
  | true =>
    rw [finishAutoload_missing hm, finishAutoload_missing (s := { s with schedule := l }) hm]
    exact raise_withSchedule { s with run := .running } l
  | false =>
    rw [finishAutoload_exists hm, finishAutoload_exists (s := { s with schedule := l }) hm]
    have hfirst := wordWrite_withSchedule (State.steal { s with run := .running }) l target acc
    exact congrArg (fun t => (State.steal t).keyWrite target 0) hfirst

theorem Looks.withSchedule (h : Looks s p r) (l : List (List EnvEvent)) :
    Looks { s with schedule := l } p (r.withSchedule l) := by
  cases h with
  | disconnected hc => exact .disconnected (s := { s with schedule := l }) hc
  | busy hc => exact .busy (s := { s with schedule := l }) hc
  | command hc hr => exact .command (s := { s with schedule := l }) hc hr
  | endOfBuffer hc hr h0 => exact .endOfBuffer (s := { s with schedule := l }) hc hr h0
  | status hc hr h0 hb hstatus => exact .status (s := { s with schedule := l }) hc hr h0 hb hstatus
  | character hc hr hclear hmore => exact .character (s := { s with schedule := l }) hc hr hclear hmore
  | lastCharacter hc hr hclear hlast =>
    have hlook := Looks.lastCharacter (s := { s with schedule := l }) hc hr hclear hlast
    rwa [show State.clearEx { s with schedule := l } = { s.clearEx with schedule := l } from rfl,
      finishAutoload_withSchedule] at hlook

/-- A look uses up no part of the script. -/
theorem Looks.schedule (h : Looks s p r) : r.state.schedule = s.schedule := by
  have hsame : r.withSchedule s.schedule = r := (h.withSchedule s.schedule).eq.symm.trans h.eq
  rw [← hsame]
  cases r <;> rfl

/-! ## The looks of one run -/

theorem runAutoload_over (h : Looks s p (.over t)) (l : List (List EnvEvent)) :
    runAutoload l p s = { t with schedule := l } := by
  cases l <;> rw [runAutoload, h.eq]

/-- The script is used up: the wait goes on in the next step. -/
theorem runAutoload_waits (h : Looks s p (.goesOn q t)) :
    runAutoload [] p s = { t with run := .autoloading q, schedule := [] } := by
  rw [runAutoload, h.eq]

/-- The environment acts before the next look. -/
theorem runAutoload_goesOn (h : Looks s p (.goesOn q t)) (es : List EnvEvent) (l : List (List EnvEvent)) :
    runAutoload (es :: l) p s =
      runAutoload l q (State.events { t with run := .autoloading q, schedule := l } es) := by
  rw [runAutoload, h.eq]

/-! ## The steps of the waiting loops -/

theorem event_schedule (s : State) (e : EnvEvent) : (s.event e).schedule = s.schedule := by
  cases e with
  | powerFail => simp only [State.event]; split <;> rfl
  | powerOn v => simp only [State.event]; split <;> rfl
  | _ => rfl

/-- With the power on, the environment's actions between two looks leave the wait and the rest of the script. -/
theorem events_powered (es : List EnvEvent) : ∀ {s : State}, s.run ≠ .powerOff →
    (s.events es).run = s.run ∧ (s.events es).schedule = s.schedule := by
  induction es with
  | nil => exact fun _ => ⟨rfl, rfl⟩
  | cons e es ih =>
    intro s hs
    obtain ⟨hrun, -⟩ := event_powered hs e
    obtain ⟨hrest, hschedule⟩ := ih (s := s.event e) (hrun ▸ hs)
    exact ⟨hrest.trans hrun, hschedule.trans (event_schedule s e)⟩

/-- A step in the waiting loops takes one list of events from the script and makes the looks that the rest allows. -/
theorem step_autoloading (hrun : s.run = .autoloading p) (es : List EnvEvent) (l : List (List EnvEvent)) :
    step { s with schedule := es :: l } = .next (runAutoload l p (State.events { s with schedule := l } es)) := by
  have hpowered : State.run { s with schedule := l } ≠ .powerOff := by
    simp only [hrun]
    exact nofun
  obtain ⟨hwaits, hschedule⟩ := events_powered es hpowered
  show processorStep (State.events { s with schedule := l } es) = _
  rw [processorStep, hwaits, hschedule]
  simp only [hrun]

/-- Without a script a step is one look. -/
theorem step_look (hrun : s.run = .autoloading p) (hschedule : s.schedule = []) :
    step s = .next (runAutoload [] p s) := by
  rw [step, takeEvents_nil hschedule, processorStep, hrun, hschedule]

theorem step_over (hrun : s.run = .autoloading p) (hschedule : s.schedule = []) (h : Looks s p (.over t)) :
    step s = .next t := by
  have hkept : t.schedule = [] := h.schedule.trans hschedule
  rw [step_look hrun hschedule, runAutoload_over h, ← hkept]

theorem step_goesOn (hrun : s.run = .autoloading p) (hschedule : s.schedule = []) (h : Looks s p (.goesOn q t)) :
    step s = .next { t with run := .autoloading q } := by
  have hkept : t.schedule = [] := h.schedule.trans hschedule
  rw [step_look hrun hschedule, runAutoload_waits h, ← hkept]

/-! ## The instruction (R330) -/

theorem exec_aw {a : AddressPart} {addr : Word} (w : Reg) (h : s.reaches a addr) (hp : s.privilegedAt) :
    exec (.aw w a) s = .next ((s.entered a).autoload addr) := by
  show execAw a s = _
  rw [execAw, cycle_reaches h, testMode_entered_monitor hp]

/-- AW is the first look from the control state `autoloading`. -/
theorem step_autoload (s : State) (addr : Word) :
    step { s with run := .autoloading ⟨addr, 0, 4, false⟩, schedule := [] :: s.schedule } =
      .next (s.autoload addr) :=
  step_autoloading (s := { s with run := .autoloading ⟨addr, 0, 4, false⟩ }) rfl [] s.schedule

/-! ## Reset System (70_reset_and_hazards.md R400) -/

theorem resetSystem_wordRead (h : s.storeRising) : s.resetSystem.wordRead 10 = s.ic := by
  show (s.steal.wordWrite 10 s.ic).wordRead 10 = s.ic
  rw [wordRead_wordWrite (steal_storeRising h), if_pos rfl]

theorem sameStorage_resetSystem (s : State) : SameStorage s.steal s.resetSystem [] (wordBytes 10) :=
  sameStorage_congr (sameStorage_wordWrite s.steal 10 s.ic) rfl rfl rfl rfl

/-- The characters assembled so far make room for the next one. -/
theorem toNat_assembled (acc c : Word) : ((acc <<< 6) ||| c).toNat = (acc.toNat * 64 % 2 ^ 24) ||| c.toNat := by
  rw [BitVec.toNat_or, BitVec.toNat_shiftLeft, Nat.shiftLeft_eq]

end

/-! ## The statement -/

/-- A script that outlasts one look continues the step that has no script. -/
theorem step_script_continues {s t : State} {p : Autoload} (hrun : s.run = .autoloading p) (hschedule : s.schedule = [])
    (ht : step s = .next t) (es : List EnvEvent) (rest : List (List EnvEvent)) :
    (∀ q, t.run = .autoloading q →
      step { s with schedule := [] :: es :: rest } = step { t with schedule := es :: rest }) ∧
    ((∀ q, t.run ≠ .autoloading q) →
      step { s with schedule := [] :: es :: rest } = .next { t with schedule := es :: rest }) := by
  have hscript := step_autoloading hrun [] (es :: rest)
  have hlook := looks s p
  rcases heq : s.autoloadLook p with u | ⟨q, u⟩
  · rw [heq] at hlook
    obtain rfl : u = t := by simpa [step_over hrun hschedule hlook] using ht
    refine ⟨fun q hq => absurd hq hlook.over_run, fun _ => hscript.trans ?_⟩
    exact congrArg _ (runAutoload_over (hlook.withSchedule (es :: rest)) (es :: rest))
  · rw [heq] at hlook
    obtain rfl : { u with run := .autoloading q } = t := by simpa [step_goesOn hrun hschedule hlook] using ht
    refine ⟨fun _ _ => hscript.trans ?_, fun h => absurd rfl (h q)⟩
    rw [step_autoloading (p := q) rfl]
    exact congrArg _ (runAutoload_goesOn (hlook.withSchedule (es :: rest)) es rest)

/-- What a look leaves that ends in Reset System, in terms of the state `v` in which the reset action starts. -/
theorem resetSystem_outcome {s v : State} (hs : v.storeRising) (hv : v = { s with ex := v.ex }) :
    v.resetSystem.run = .resetState ∧ v.resetSystem.wordRead 10 = s.ic ∧ v.resetSystem.ic = s.ic ∧
      v.resetSystem.monitorMode = true ∧ v.resetSystem.interruptDisabled = true ∧ v.resetSystem.resetKey = false ∧
      v.resetSystem.startKey = false ∧ v.resetSystem.autoloadKey = false ∧ v.resetSystem.ex = v.ex ∧
      v.resetSystem.ir = s.ir ∧ v.resetSystem.pr = s.pr ∧ v.resetSystem.im = s.im ∧ v.resetSystem.keys = s.keys ∧
      SameDevices s v.resetSystem ∧ SameStorage s.steal v.resetSystem [] (wordBytes 10) := by
  have hword := resetSystem_wordRead hs
  have hstorage := sameStorage_resetSystem v
  rw [hv] at hword hstorage ⊢
  exact ⟨rfl, hword, rfl, rfl, rfl, rfl, rfl, rfl, rfl, rfl, rfl, rfl, rfl, ⟨rfl, rfl⟩, hstorage⟩

/-- Settles O50: the instruction is a first look; a step is one look, whose cases are those of `Looks`, and goes on with
the script. -/
theorem autoloadWordTakesOneLookAtATime : Obligations.AutoloadWordTakesOneLookAtATime := by
  refine ⟨?enters, ?continues, ?looks⟩
  case enters =>
    rintro s u w a addr h rfl hp
    rw [exec_aw w h hp, step_autoload]
  case continues =>
    intro s t p es rest hrun hschedule ht
    exact step_script_continues hrun hschedule ht es rest
  case looks =>
    rintro s p c hinv hrun hschedule rfl
    refine ⟨fun hc => ?busy, fun hc hr => ?command, fun hc hr h0 => ?endOfBuffer,
      fun hc hr hclear hmore => ⟨_, toNat_assembled p.acc _, ?character⟩,
      fun hc hr hclear hlast => ⟨_, toNat_assembled p.acc _, ?lastCharacter⟩, ?reset⟩
    case busy => rw [step_goesOn hrun hschedule (.busy hc), ← hrun]
    case command =>
      refine ⟨_, step_goesOn hrun hschedule (.command hc hr), ?_, ?_, fun k hk => readCommand_device_other s hk,
        fun d hd hkind => readCommand_device hd hkind⟩
      · rw [readCommand_eq]; rfl
      · rw [readCommand_eq]; rfl
    case endOfBuffer => exact step_goesOn hrun hschedule (.endOfBuffer hc hr h0)
    case character => exact step_goesOn hrun hschedule (.character hc hr hclear hmore)
    case lastCharacter => exact step_over hrun hschedule (.lastCharacter hc hr hclear hlast.le)
    case reset =>
      rintro (hc | ⟨hc, hr, h0, b, hb, hstatus⟩)
      · rw [if_pos hc]
        exact ⟨_, step_over hrun hschedule (.disconnected hc), resetSystem_outcome hinv.storeRising rfl⟩
      · rw [if_neg (by rw [hc]; decide)]
        exact ⟨_, step_over hrun hschedule (.status hc hr h0 hb hstatus),
          resetSystem_outcome (s := s) (v := s.clearEx) hinv.storeRising rfl⟩

end Sys2Proof.Machine
end

section
/-! Autoload Word with a device 0 that answers each read command with a character (47_input_output.md R330): what is
common to the states between the characters (`Receiving`), what one character does, and the two ways in which the
instruction ends. -/

namespace Sys2Proof.Machine

section
variable {s v t x : State} {k : ℕ} {c : BitVec 6} {acc target : Word} {l : List (List EnvEvent)}

/-! ## A character in the buffer -/

/-- Device 0 can take a read command, and its buffer can hold a 6-bit character. -/
structure Device.Ready (d : Device) : Prop where
  ordinary : d.kind = .ordinary
  available : d.condition = .available
  sixBits : d.used &&& 0x00003F = 0x00003F

theorem Device.Ready.state {d : Device} (h : d.Ready) : d.state = .available := by
  rw [Device.state, h.ordinary]
  exact h.available

theorem character_and_sixBits (c : BitVec 6) : c.setWidth 24 &&& (0x00003F : Word) = c.setWidth 24 := by
  apply BitVec.eq_of_toNat_eq
  have hc := c.isLt
  rw [BitVec.toNat_and, BitVec.toNat_setWidth]
  exact (Nat.and_two_pow_sub_one_eq_mod _ 6).trans (by omega)

/-- A device that is ready reports a character in its buffer as it is, with a clear status. -/
theorem Device.Ready.sensed_character {d : Device} (h : d.Ready) (hbuffer : d.buffer = c.setWidth 24) :
    d.sensed = c.setWidth 24 := by
  rw [Device.sensed, Device.mask, h.ordinary, hbuffer]
  show c.setWidth 24 &&& d.used = _
  rw [← character_and_sixBits, BitVec.and_assoc, BitVec.and_comm _ d.used, h.sixBits]

theorem character_status (c : BitVec 6) : ∀ b < 12, (c.setWidth 24 : Word).getMsbD b = false := by
  intro b hb
  rw [BitVec.getMsbD_eq_getLsbD, BitVec.getLsbD_setWidth, BitVec.getLsbD_of_ge c _ (by omega)]
  simp

theorem four_characters (c1 c2 c3 c4 : BitVec 6) :
    (((((((0#24 <<< 6) ||| c1.setWidth 24) <<< 6) ||| c2.setWidth 24) <<< 6) ||| c3.setWidth 24) <<< 6) |||
      c4.setWidth 24 = c1 ++ c2 ++ c3 ++ c4 := by
  apply BitVec.eq_of_getLsbD_eq
  intro i hi
  simp only [BitVec.getLsbD_append, BitVec.getLsbD_shiftLeft, BitVec.getLsbD_or, BitVec.getLsbD_setWidth,
    BitVec.getLsbD_zero]
  grind

/-! ## The answer to a read command -/

/-- The script of a device that answers a read command with a character, up to the look that finds it. -/
abbrev answer (c : BitVec 6) : List EnvEvent := [.complete 0 (some (c.setWidth 24))]

/-- The read command, and the device's answer to it. -/
def State.answered (t : State) (c : BitVec 6) (r : RunState) (l : List (List EnvEvent)) : State :=
  State.events { (t.deviceCommand 0 2 none).clearEx with run := r, schedule := l } (answer c)

theorem answered_device {d : Device} (hd : t.device? 0 = some d) (hready : d.Ready) (c : BitVec 6) (r : RunState)
    (l : List (List EnvEvent)) : (t.answered c r l).device? 0 =
      some { d with condition := .available, buffer := c.setWidth 24, transferring := false } := by
  have hread : State.device? { (t.deviceCommand 0 2 none).clearEx with run := r, schedule := l } 0 = _ :=
    readCommand_device hd hready.ordinary
  refine (device_changeDevice _ 0 0 _).trans ?_
  rw [if_pos rfl, hread]
  rfl

theorem answered_sensedWord {d : Device} (hd : t.device? 0 = some d) (hready : d.Ready) (c : BitVec 6) (r : RunState)
    (l : List (List EnvEvent)) : (t.answered c r l).sensedWord 0 = c.setWidth 24 := by
  rw [State.sensedWord, answered_device hd hready]
  exact Device.Ready.sensed_character ⟨hready.ordinary, rfl, hready.sixBits⟩ rfl

/-! ## EX(22:23) cleared -/

theorem clearEx_ex (t : State) : t.clearEx.ex = BitVec.ofBool (t.ex.getMsbD 0) ++ 0#2 := by
  rw [State.clearEx, setEx_bits]
  cases t.ex.getMsbD 0 <;> rfl

theorem clearEx_clearEx_ex (t : State) : t.clearEx.clearEx.ex = t.clearEx.ex := by
  rw [State.clearEx, setEx_bits, State.clearEx, setEx_precision, setEx_bits]

/-! ## Between the characters -/

/-- `t` is the state `v`, in which an Autoload Word was entered, after `k` read commands, each answered by a character;
device 0 is ready for the next. -/
structure Receiving (v t : State) (k : ℕ) : Prop where
  rest : t = { v with
    run := t.run, schedule := t.schedule, ex := t.ex, devices := t.devices
    commands := v.commands ++ List.replicate k ⟨0, 2, none⟩ }
  precision : t.clearEx.ex = v.clearEx.ex
  device : ∃ d, t.device? 0 = some d ∧ d.Ready
  others : ∀ n, n ≠ 0 → t.device? n = v.device? n

theorem Receiving.start {d : Device} (hd : v.device? 0 = some d) (h : d.Ready) (r : RunState) :
    Receiving v { v with run := r } 0 where
  rest := by simp
  precision := rfl
  device := ⟨d, hd, h⟩
  others := fun _ _ => rfl

/-- A look that takes a character leaves the device. -/
theorem Receiving.cleared (h : Receiving v t k) (r : RunState) (l : List (List EnvEvent)) :
    Receiving v { t.clearEx with run := r, schedule := l } k where
  rest := by rw [h.rest]; rfl
  precision := (clearEx_clearEx_ex t).trans h.precision
  device := h.device
  others := h.others

theorem Receiving.condition (h : Receiving v t k) : t.condition 0 = .available := by
  obtain ⟨d, hd, hready⟩ := h.device
  rw [condition_present hd, hready.state]

theorem Receiving.answered (h : Receiving v t k) (c : BitVec 6) (r : RunState) (l : List (List EnvEvent)) :
    Receiving v (t.answered c r l) (k + 1) := by
  obtain ⟨d, hd, hready⟩ := h.device
  exact {
    rest := by
      rw [State.answered, readCommand_eq, List.replicate_succ', ← List.append_assoc, h.rest]
      rfl
    precision := by
      rw [State.answered, readCommand_eq]
      exact (clearEx_clearEx_ex t).trans h.precision
    device := ⟨_, answered_device hd hready c r l, hready.ordinary, rfl, hready.sixBits⟩
    others := fun n hn => by
      refine (device_changeDevice _ 0 n _).trans ?_
      rw [if_neg hn.symm]
      exact (readCommand_device_other t hn).trans (h.others n hn) }

/-! ## One character -/

/-- StartInput, and the answer of the device. -/
theorem Receiving.sends (h : Receiving v t k) (c : BitVec 6) (acc : Word) (n : ℕ) (l : List (List EnvEvent)) :
    ∃ u, Receiving v u (k + 1) ∧ u.sensedWord 0 = c.setWidth 24 ∧
      runAutoload (answer c :: l) ⟨target, acc, n, false⟩ t = runAutoload l ⟨target, acc, n, true⟩ u := by
  obtain ⟨d, hd, hready⟩ := h.device
  exact ⟨_, h.answered c (.autoloading ⟨target, acc, n, true⟩) l, answered_sensedWord hd hready c _ l,
    runAutoload_goesOn (.command h.condition rfl) (answer c) l⟩

/-- A character with others to come. -/
theorem Receiving.character (h : Receiving v t k) (c : BitVec 6) (acc : Word) (n : ℕ) (l : List (List EnvEvent)) :
    ∃ u, Receiving v u (k + 1) ∧ runAutoload (answer c :: [] :: l) ⟨target, acc, n + 2, false⟩ t =
      runAutoload l ⟨target, (acc <<< 6) ||| c.setWidth 24, n + 1, false⟩ u := by
  obtain ⟨u, hu, hsensed, hsend⟩ := h.sends (target := target) c acc (n + 2) ([] :: l)
  have hlook := Looks.character (p := ⟨target, acc, n + 2, true⟩) hu.condition rfl
    (hsensed ▸ character_status c) (by simp)
  rw [hsensed] at hlook
  exact ⟨_, hu.cleared _ l, hsend.trans (runAutoload_goesOn hlook [] l)⟩

/-- The last character: the address test follows, in a state that is running again. -/
theorem Receiving.lastCharacter (h : Receiving v t k) (c : BitVec 6) (acc : Word) (l : List (List EnvEvent)) :
    ∃ u, Receiving v u (k + 1) ∧ u.ex = v.clearEx.ex ∧ u.run = .running ∧
      runAutoload (answer c :: l) ⟨target, acc, 1, false⟩ t =
        { u.finishAutoload target ((acc <<< 6) ||| c.setWidth 24) with schedule := l } := by
  obtain ⟨u, hu, hsensed, hsend⟩ := h.sends (target := target) c acc 1 l
  have hlook := Looks.lastCharacter (p := ⟨target, acc, 1, true⟩) hu.condition rfl
    (hsensed ▸ character_status c) le_rfl
  rw [hsensed] at hlook
  exact ⟨_, hu.cleared .running u.schedule, hu.precision, rfl, hsend.trans (runAutoload_over hlook l)⟩

/-! ## Four characters -/

/-- `x` is the state `v`, in which an Autoload Word was entered, when its four characters have been read. -/
structure Received (v x : State) : Prop where
  rest : x = { v with
    ex := v.clearEx.ex, schedule := x.schedule, devices := x.devices
    commands := v.commands ++ List.replicate 4 ⟨0, 2, none⟩ }
  others : ∀ n, n ≠ 0 → x.device? n = v.device? n

theorem autoload_receives {d : Device} (hrun : v.run = .running) (hd : v.device? 0 = some d) (hready : d.Ready)
    {c1 c2 c3 c4 : BitVec 6} {rest : List (List EnvEvent)}
    (hschedule : v.schedule = [answer c1, [], answer c2, [], answer c3, [], answer c4] ++ rest) (target : Word) :
    ∃ x, Received v x ∧
      v.autoload target = { x.finishAutoload target (c1 ++ c2 ++ c3 ++ c4) with schedule := rest } := by
  have hstart := Receiving.start hd hready (.autoloading ⟨target, 0, 4, false⟩)
  obtain ⟨t1, h1, hrun1⟩ := hstart.character (target := target) c1 0 2
    ([answer c2, [], answer c3, [], answer c4] ++ rest)
  obtain ⟨t2, h2, hrun2⟩ := h1.character (target := target) c2 _ 1 ([answer c3, [], answer c4] ++ rest)
  obtain ⟨t3, h3, hrun3⟩ := h2.character (target := target) c3 _ 0 ([answer c4] ++ rest)
  obtain ⟨x, h4, hex, hrunning, hrun4⟩ := h3.lastCharacter (target := target) c4 _ rest
  refine ⟨x, ⟨?_, h4.others⟩, ?_⟩
  · conv_lhs => rw [h4.rest, hex, hrunning, ← hrun]
  · calc v.autoload target
        = runAutoload ([answer c1, [], answer c2, [], answer c3, [], answer c4] ++ rest) ⟨target, 0, 4, false⟩
            { v with run := .autoloading ⟨target, 0, 4, false⟩ } := by rw [State.autoload, ← hschedule]
      _ = _ := hrun1.trans (hrun2.trans (hrun3.trans hrun4))
      _ = { x.finishAutoload target (c1 ++ c2 ++ c3 ++ c4) with schedule := rest } := by
          rw [← four_characters]
          rfl

/-! ## The end of the instruction -/

theorem finishAutoload_outside (x : State) (target acc : Word) :
    (x.finishAutoload target acc).commands = x.commands ∧ (x.finishAutoload target acc).devices = x.devices ∧
      (x.finishAutoload target acc).ex = x.ex ∧ (x.finishAutoload target acc).pr = x.pr ∧
      (x.finishAutoload target acc).im = x.im := by
  cases hm : x.missing target with
  | true => rw [finishAutoload_missing hm]; simp
  | false => rw [finishAutoload_exists hm]; simp

theorem finishAutoload_wordRead (hs : x.storeRising) (hm : x.missing target = false)
    (hspared : wordNumber target < 4 ∨ x.spares 2 (wordNumber target)) (acc : Word) :
    (x.finishAutoload target acc).wordRead target = acc := by
  let y : State := State.steal { x with run := .running }
  have hy : y.storeRising := steal_storeRising (s := { x with run := .running }) hs
  have hkept : (y.wordWrite target acc).steal.wordRead target = (y.wordWrite target acc).wordRead target := by
    rcases hspared with hregister | hspared
    · exact steal_readWordAt (.inr hregister)
    · have hnext : y.spares 1 (wordNumber target) := spares_steal (s := { x with run := .running }) hspared
      exact steal_wordRead_spared ((spares_congr (wordWrite_steals y target acc) _ _).2 hnext)
  rw [finishAutoload_exists hm, keyWrite_wordRead, hkept, wordRead_wordWrite hy, if_pos rfl]

theorem sameStorage_finishAutoload (hm : x.missing target = false) (acc : Word) :
    SameStorageSparing 2 x (x.finishAutoload target acc) [] (wordBytes target) := by
  let y : State := State.steal { x with run := .running }
  have hwrite := sameStorage_wordWrite y target acc
  have hafter : SameStorageSparing 1 y ((y.wordWrite target acc).steal.keyWrite target 0) [] (wordBytes target) := by
    refine ⟨fun r hr hb => hwrite.1 r hr hb, fun b hb hspared hr => ?_⟩
    rw [keyWrite_byteRead, steal_byteRead_spared ((spares_congr (wordWrite_steals y target acc) _ _).2 hspared)]
    exact hwrite.2 b hb hr
  rw [finishAutoload_exists hm]
  exact sameStorageSparing_steal (s := { x with run := .running }) hafter

/-- AW stores a word and a key, and is then at its next instruction. -/
theorem finishAutoload_processor (hm : x.missing target = false) (acc : Word) :
    (x.finishAutoload target acc).keys = (x.keyWrite target 0).keys ∧ (x.finishAutoload target acc).ic = x.ic ∧
      (x.finishAutoload target acc).amPending = x.amPending ∧
      (x.finishAutoload target acc).monitorMode = x.monitorMode ∧ (x.finishAutoload target acc).ir = x.ir ∧
      (x.finishAutoload target acc).interruptDisabled = x.interruptDisabled := by
  rw [finishAutoload_exists hm]
  simp [State.keyWrite]

/-! ## From the decode to the end -/

theorem spares_entered {n : ℕ} (h : s.spares (k + 2) n) (a : AddressPart) : (s.entered a).spares k n := by
  have hfirst : s.steal.spares (k + 1) n := spares_steal h
  unfold State.entered
  split
  · exact (spares_congr (decoded_steals _) k n).2 (spares_steal hfirst)
  · exact (spares_congr (decoded_steals _) k n).2 (spares_mono hfirst (by omega))

theorem sameStorageSparing_entered {a : AddressPart} {regs : List Reg} {stored : List Word}
    (h : SameStorageSparing k (s.entered a) t regs stored) : SameStorageSparing (k + 2) s t regs stored := by
  refine ⟨fun r hr hb => (h.1 r hr hb).trans (entered_reg s a r), fun b hb hspared hr => ?_⟩
  have hword : (s.entered a).wordRead b = s.wordRead b := entered_readWordAt_spared (spares_mono hspared (by omega))
  rw [h.2 b hb (spares_entered hspared a) hr, State.byteRead, State.byteRead, hword]

theorem Received.spares_iff (h : Received v x) (k n : ℕ) : x.spares k n ↔ v.spares k n :=
  spares_congr (by rw [h.rest]) k n

/-- The characters are read without an access to the store. -/
theorem Received.sameStorage {stored : List Word} (h : Received v x) (hx : SameStorageSparing k x t [] stored) :
    SameStorageSparing k v t [] stored := by
  have hregs : x.regs = v.regs := by rw [h.rest]
  have hstore : x.store = v.store := by rw [h.rest]
  refine ⟨fun r hr hb => (hx.1 r hr hb).trans (by rw [State.reg, State.reg, hregs]), fun b hb hspared hr => ?_⟩
  rw [hx.2 b hb ((h.spares_iff _ _).2 hspared) hr, State.byteRead, State.byteRead, wordRead_congr hregs hstore]

/-- The word exists: it receives the characters, and its key becomes 0. -/
theorem Received.stores {a : AddressPart} (hinv : s.Inv) (h : Received (s.entered a) x)
    (hm : s.missing target = false) (ht : t = { x.finishAutoload target acc with schedule := t.schedule }) :
    (wordNumber target < 4 ∨ s.spares 4 (wordNumber target) → t.wordRead target = acc) ∧
      t.keyRead target = 0 ∧ Continues s t false ∧ DecodeDone s t ∧ t.ir = s.ir ∧
      t.interruptDisabled = s.interruptDisabled ∧
      (∀ b, wordNumber b ≠ wordNumber target → t.keyRead b = s.keyRead b) ∧
      SameStorageSparing 4 s t [] (wordBytes target) := by
  have hmx : x.missing target = false := by rw [h.rest]; exact (entered_missing s a target).trans hm
  have hrising : x.storeRising := by rw [h.rest]; exact entered_storeRising hinv.storeRising a
  have hkeys : x.keys = s.keys := by rw [h.rest]; exact entered_keys s a
  have hkeysRising : x.keys.Pairwise fun c d => c.1 < d.1 := hkeys ▸ hinv.keys.1
  obtain ⟨hkey, hic, hpending, hmode, hir, hdisabled⟩ := finishAutoload_processor hmx acc
  have hkeyRead (b : Word) : t.keyRead b = (x.keyWrite target 0).keyRead b := by
    rw [ht]; exact congrArg (readPlane · (wordNumber b)) hkey
  refine ⟨fun hspared => ?word, ?key, ?ic, ⟨?pending, ?mode⟩, ?ir, ?disabled, fun b hb => ?keys, ?storage⟩
  case word =>
    have hspared' := hspared.imp_right fun h4 => (h.spares_iff _ _).2 (spares_entered h4 a)
    rw [ht]
    exact finishAutoload_wordRead hrising hmx hspared' acc
  case key => rw [hkeyRead, keyRead_keyWrite hkeysRising, if_pos rfl]
  case ic => rw [Continues, ht]; exact hic.trans (by rw [h.rest]; exact entered_ic s a)
  case pending => rw [ht]; exact hpending.trans (by rw [h.rest]; exact entered_amPending s a)
  case mode => rw [ht]; exact hmode.trans (by rw [h.rest]; exact entered_monitorMode s a)
  case ir => rw [ht]; exact hir.trans (by rw [h.rest]; exact entered_ir s a)
  case disabled => rw [ht]; exact hdisabled.trans (by rw [h.rest]; exact entered_interruptDisabled s a)
  case keys => rw [hkeyRead, keyRead_keyWrite_other _ _ hb.symm, State.keyRead, hkeys, State.keyRead]
  case storage => rw [ht]; exact sameStorageSparing_entered (h.sameStorage (sameStorage_finishAutoload hmx acc))

/-- The word does not exist: an instruction exception follows the input. -/
theorem Received.traps {a : AddressPart} (hinv : s.Inv) (h : Received (s.entered a) x)
    (hm : s.missing target = true) (ht : t = { x.finishAutoload target acc with schedule := t.schedule }) :
    (s.spares 5 5 → t.wordRead 10 = s.ic + 2) ∧ (s.spares 5 4 → t.wordRead 8 = 0) ∧
      t.ic = evenAddress (t.wordRead 12) ∧ t.keys = s.keys ∧
      SameStorageSparing 5 s t [] (wordBytes 8 ++ wordBytes 10) := by
  have hmx : x.missing target = true := by rw [h.rest]; exact (entered_missing s a target).trans hm
  let y : State := { x with run := .running }
  have hrising : y.storeRising := by show x.storeRising; rw [h.rest]; exact entered_storeRising hinv.storeRising a
  have hmask : y.im.getMsbD 0 = true := by
    show x.im.getMsbD 0 = true
    rw [h.rest]; exact (entered_inv hinv a).mask0
  have hspares (n : ℕ) (h5 : s.spares 5 n) : y.spares 3 n := (h.spares_iff 3 n).2 (spares_entered h5 a)
  rw [finishAutoload_missing hmx] at ht
  rw [ht]
  refine ⟨fun h5 => ?returnAddress, fun h5 => ?number, raise_ic hmask, ?keys, ?storage⟩
  case returnAddress =>
    refine (raise_wordRead (b := 10) hmask hrising (hspares 5 h5)).trans ?_
    rw [if_pos (show wordNumber 10 = 5 from rfl)]
    show x.ic = _
    rw [h.rest]; exact entered_ic s a
  case number => exact raise_wordRead (b := 8) hmask hrising (hspares 4 h5)
  case keys => exact (raise_keys y).trans (by show x.keys = _; rw [h.rest]; exact entered_keys s a)
  case storage => exact sameStorageSparing_entered (h.sameStorage (sameStorage_raise (s := y) hmask hrising))

end

/-! ## The statement -/

/-- Settles O49: four times the command, the answer and the look that takes the character; then the address test. -/
theorem awLoadsFourCharactersAndClearsTheKey : Obligations.AwLoadsFourCharactersAndClearsTheKey := by
  intro s w a addr d c1 c2 c3 c4 rest hinv h hp hrun hd hkind hcondition hused hschedule
  obtain ⟨x, hx, hload⟩ := autoload_receives (v := s.entered a) ((entered_run s a).trans hrun)
    ((entered_device s a 0).trans hd) ⟨hkind, hcondition, hused⟩ ((entered_schedule s a).trans hschedule) addr
  obtain ⟨hcommands, hdevices, hex, hpr, him⟩ := finishAutoload_outside x addr (c1 ++ c2 ++ c3 ++ c4)
  have hrest := hx.rest
  refine ⟨_, (exec_aw w h hp).trans (congrArg _ hload), rfl, finishAutoload_run .., hcommands.trans ?commands,
    fun k hk => ?others, hex.trans ?ex, hpr.trans ?pr, him.trans ?im, fun hm => hx.stores hinv hm rfl,
    fun hm => hx.traps hinv hm rfl⟩
  case commands => rw [hrest]; exact congrArg (· ++ _) (entered_commands s a)
  case others => exact (congrArg (·.lookup k) hdevices).trans ((hx.others k hk).trans (entered_device s a k))
  case ex => rw [hrest]; exact (entered_clearEx_ex s a).trans (clearEx_ex s)
  case pr => rw [hrest]; exact entered_pr s a
  case im => rw [hrest]; exact entered_im s a

end Sys2Proof.Machine
end

section
/-! The interrupt poll, Interruption Service and the reset action (60_exceptions.md R362 to R366,
70_reset_and_hazards.md R400 to R408), and what a power failure and Power On leave. -/

namespace Sys2Proof.Machine

section
variable {s t u : State} {i : ℕ}

/-! ## The interrupt poll (R362) -/

theorem service_eq_self (h : s.honoured = none) : s.service = s := by
  rw [State.service, h]

theorem service_eq_serve (h : s.honoured = some i) : s.service = s.serve i := by
  rw [State.service, h]

theorem poll_disabled (h : s.interruptDisabled = true) : s.poll = s := by
  simp [State.poll, h]

theorem poll_enabled (h : s.interruptDisabled = false) (hm : s.amPending = none) : s.poll = s.service := by
  simp [State.poll, h, hm]

/-- Without events a running state is polled as it is. -/
theorem step_running_quiet (hrun : s.run = .running) (hschedule : s.schedule = []) :
    step s = fetchAndExecute s.poll := by
  have hevents := takeEvents_nil hschedule
  rw [step_running (by rw [hevents, hrun]), hevents]

/-! ## Interruption Service (R364, R366) -/

theorem serve_sameDevices (s : State) (i : ℕ) : SameDevices s (s.serve i) := by
  simp [SameDevices]

theorem serve_sameConsole (s : State) (i : ℕ) : SameConsole s (s.serve i) := by
  simp [SameConsole]

theorem serve_number (h : s.storeRising) (i : ℕ) (hspared : s.spares 3 4) :
    (s.serve i).wordRead 8 = BitVec.ofNat 24 (2 * i) := by
  rw [serve_wordRead h i (b := 8) hspared, if_neg (by decide), if_pos (by decide)]

theorem serve_returnAddress (h : s.storeRising) (i : ℕ) (hspared : s.spares 3 5) :
    (s.serve i).wordRead 10 = s.ic := by
  rw [serve_wordRead h i (b := 10) hspared, if_pos (by decide)]

theorem serve_ir_bit (s : State) {j : ℕ} (hi : i < 24) (hj : j < 24) :
    (s.serve i).ir.getMsbD j = (s.ir.getMsbD j && decide (j ≠ i)) := by
  rw [serve_ir, getMsbD_and_not_bitMask _ hi hj]
  simp only [ne_comm]

/-- An instruction exception clears IR(0) and leaves the other requests (R366). -/
theorem raise_ir_bit (hm : s.im.getMsbD 0 = true) {j : ℕ} (hj : j < 24) :
    s.raise.ir.getMsbD j = (s.ir.getMsbD j && decide (0 ≠ j)) := by
  have hir : s.raise.ir = s.ir &&& ~~~bitMask 0 := by
    rw [raise_eq hm, serve_ir]
    exact or_and_not_bitMask s.ir 0
  rw [hir, getMsbD_and_not_bitMask _ (by decide) hj]

theorem raise_sameDevices (s : State) : SameDevices s s.raise := by
  simp [SameDevices]

theorem raise_sameConsole (s : State) : SameConsole s s.raise := by
  simp [SameConsole]

/-! ## The reset action (70_reset_and_hazards.md R400, R408) -/

theorem fetch_resetPressed (h : s.missing s.ic = false) (hm : s.amPending = none) (hkey : s.resetKey = true) :
    s.fetch = .resetPressed := by
  simp [State.fetch, h, hm, hkey]

theorem fetch_powerFailed (h : s.missing s.ic = false) (hm : s.amPending = none) (hkey : s.resetKey = false)
    (hpower : s.powerFailing = true) : s.fetch = .powerFailed := by
  simp [State.fetch, h, hm, hkey, hpower]

/-- The reset action for either reason; after a power failure the power is off (notes/assumptions/8.md). -/
def State.resetAction (u : State) : State :=
  if u.resetKey then u.resetSystem else u.powerDown

/-- The one difference between the two reasons is the control state, with the power failure still pending or acted on. -/
theorem resetAction_eq (u : State) : u.resetAction =
    { u.resetSystem with
      run := if u.resetKey then .resetState else .powerOff, powerFailing := u.resetKey && u.powerFailing } := by
  unfold State.resetAction
  cases u.resetKey <;> rfl

theorem step_resetAction (hrun : s.takeEvents.run = .running) (hu : u = s.takeEvents.poll.steal)
    (h : u.missing u.ic = false) (hm : u.amPending = none) (hkey : u.resetKey = true ∨ u.powerFailing = true) :
    step s = .next u.resetAction := by
  rw [step_running hrun, State.resetAction, fetchAndExecute, ← hu]
  cases hreset : u.resetKey with
  | true => simp [fetch_resetPressed h hm hreset]
  | false =>
    have hpower := hkey.resolve_left (by simp [hreset])
    simp [fetch_powerFailed h hm hreset hpower]

/-! ## The reset state (R402, R404) -/

theorem step_resetState_stays (hrun : s.run = .resetState) (hschedule : s.schedule = [])
    (h : s.afterReset = .stays t) : step s = .next t := by
  rw [step, takeEvents_nil hschedule, processorStep, hrun]
  simp only [h]

theorem step_resetState_fetches (hrun : s.run = .resetState) (hschedule : s.schedule = [])
    (h : s.afterReset = .fetches t) : step s = fetchAndExecute t := by
  rw [step, takeEvents_nil hschedule, processorStep, hrun]
  simp only [h]

theorem afterReset_waits (hpower : s.powerFailing = false) (hload : s.autoloadKey = false)
    (hstart : s.startKey = false) : s.afterReset = .stays s := by
  simp [State.afterReset, hpower, hload, hstart]

theorem afterReset_starts (hpower : s.powerFailing = false) (hload : s.autoloadKey = false)
    (hstart : s.startKey = true) :
    s.afterReset = .fetches { s.steal with run := .running, ic := evenAddress (s.steal.wordRead 14) } := by
  simp [State.afterReset, hpower, hload, hstart]

theorem afterReset_powerFailing (hpower : s.powerFailing = true) :
    s.afterReset = .stays { s with run := .powerOff, powerFailing := false } := by
  simp [State.afterReset, hpower]

/-- A state that already has the modes which the reset state has. -/
theorem withModes_eq_self (hmode : s.monitorMode = true) (hdisabled : s.interruptDisabled = true) :
    { s with monitorMode := true, interruptDisabled := true } = s := by
  cases s
  simp_all

/-! ## Power (R401, R408; 10_state.md R45) -/

/-- A word above the working registers is read from the store alone. -/
theorem wordRead_store_congr (h : t.store = s.store) {b : Word} (hb : 4 ≤ wordNumber b) :
    t.wordRead b = s.wordRead b := by
  simp only [State.wordRead, State.readWordAt, registerAt_eq_none.2 hb, h]

theorem event_powerOn (h : s.run = .powerOff) (v : PowerOnValues) : s.event (.powerOn v) = s.powerOn v :=
  if_pos h

theorem powerOn_device (s : State) (v : PowerOnValues) (n : ℕ) :
    (s.powerOn v).device? n = (s.device? n).map fun d => d.powerOn (v.devices.lookup n) :=
  lookup_powerOnDevices v.devices n s.devices

theorem getMsbD_or_bit0 (p : BitVec 8) {b : ℕ} (hb : b < 8) :
    (p ||| 0x80).getMsbD b = (decide (b = 0) || p.getMsbD b) := by
  have hmask : ∀ b : Fin 8, (0x80#8).getMsbD b = decide (b.val = 0) := by decide
  rw [BitVec.getMsbD_or, show (128 : BitVec 8).getMsbD b = _ from hmask ⟨b, hb⟩, Bool.or_comm]

/-- With the power off the environment can only turn it on: a transfer is not permitted (R408). -/
theorem event_powerOff (h : s.run = .powerOff) {e : EnvEvent} (he : ∀ v, e ≠ .powerOn v) :
    (s.event e).store = s.store ∧ (s.event e).keys = s.keys ∧ (s.event e).run = .powerOff := by
  cases e with
  | transfer x =>
    have hstore : s.transferred s.store x = s.store := by simp [State.transferred, mayTransfer_powerOff h]
    exact ⟨hstore, rfl, h⟩
  | powerFail => simp only [State.event, if_pos h]; exact ⟨trivial, trivial, h⟩
  | powerOn v => exact absurd rfl (he v)
  | _ => exact ⟨rfl, rfl, h⟩

theorem step_powerOff (h : s.run = .powerOff) (hschedule : s.schedule = []) : step s = .next s := by
  rw [step, takeEvents_nil hschedule, processorStep, h]

end

/-! ## The statements -/

/-- Settles O9: the leftmost honoured request is the one served, and the service is that of every request. -/
theorem serviceTakesTheLeftmostUnmaskedRequest : Obligations.ServiceTakesTheLeftmostUnmaskedRequest := by
  intro s h
  have hrising := h.storeRising
  refine ⟨fun hnone => service_eq_self (honoured_eq_none.2 fun j hj => Bool.and_eq_false_imp.2 (hnone j hj)),
    fun i hi hrequest hmask hleft => ?_⟩
  have hserve : s.service = s.serve i :=
    service_eq_serve (honoured_eq_some.2 ⟨hi, hrequest, hmask, fun j hj => Bool.and_eq_false_imp.2 (hleft j hj)⟩)
  rw [hserve]
  exact ⟨serve_number hrising i, serve_returnAddress hrising i, serve_ic s i, rfl, rfl, fun j => serve_ir_bit s hi,
    serve_ex .., serve_pr .., serve_im .., serve_keys .., serve_amPending .., serve_sameDevices s i,
    serve_sameConsole s i, serve_steals s i, sameStorage_serve hrising i⟩

/-- Settles O10: IM(0) = 1 makes the exception the request served, and IR(0) is clear again after it. -/
theorem instructionExceptionsAreServedAtOnce : Obligations.InstructionExceptionsAreServedAtOnce := by
  intro s h
  have hmask := h.mask0
  have hrising := h.storeRising
  have hbit {j : ℕ} (hj : j < 24) := raise_ir_bit hmask hj
  refine ⟨fun h8 => raise_wordRead (b := 8) hmask hrising h8, fun h10 => raise_wordRead (b := 10) hmask hrising h10,
    raise_ic hmask, raise_monitorMode hmask, raise_interruptDisabled hmask, ?request, fun j hj hpos => ?others,
    raise_ex s, raise_pr s, raise_im s, raise_keys s, raise_amPending s, raise_sameDevices s, raise_sameConsole s,
    raise_steals hmask, sameStorage_raise hmask hrising⟩
  case request => simp [hbit (j := 0) (by decide)]
  case others => simp [hbit hj, hpos.ne]

/-- Settles O8: the poll is skipped, finds nothing, or serves one request; then comes the fetch. -/
theorem interruptsArePolledOnceBeforeTheFetch : Obligations.InterruptsArePolledOnceBeforeTheFetch := by
  intro s hrun hschedule hm
  rw [step_running_quiet hrun hschedule]
  exact ⟨fun hd => by rw [poll_disabled hd],
    fun hd hnone => by rw [poll_enabled hd hm, service_eq_self hnone],
    fun i hd hsome => by rw [poll_enabled hd hm, service_eq_serve hsome]⟩

/-- Settles O52: the reset action of a pressed key and of a power failure is the same but for the control state. -/
theorem theResetActionSavesIcInWord10 : Obligations.TheResetActionSavesIcInWord10 := by
  intro s u h hrun hu hexists hm hkey
  have hrising : u.storeRising := hu ▸ (steal_inv (poll_inv (takeEvents_inv h))).storeRising
  obtain ⟨-, hword, hic, hmode, hdisabled, hreset, hstart, hload, hex, hir, hpr, him, hkeys, hdevices, hstorage⟩ :=
    resetSystem_outcome (s := u) hrising rfl
  refine ⟨_, step_resetAction hrun hu hexists hm hkey, ?_⟩
  rw [resetAction_eq]
  exact ⟨rfl, rfl, hword, hmode, hdisabled, hreset, hstart, hload, hic, ⟨hex, hir⟩, hpr, him, hkeys, hdevices,
    sameStorage_congr hstorage rfl rfl rfl rfl⟩

/-- Settles O53: the two looks at the start key. -/
theorem theResetStateWaitsForTheStartKey : Obligations.TheResetStateWaitsForTheStartKey := by
  intro s hmodes hrun hschedule hpower hload
  obtain ⟨hmode, hdisabled⟩ := hmodes hrun
  refine ⟨fun hstart => step_resetState_stays hrun hschedule (afterReset_waits hpower hload hstart), fun hstart => ?_⟩
  rw [step_resetState_fetches hrun hschedule (afterReset_starts hpower hload hstart)]
  have hstarted := withModes_eq_self
    (s := { s.steal with run := .running, ic := evenAddress (s.steal.wordRead 14) }) hmode hdisabled
  exact congrArg fetchAndExecute hstarted.symm

/-- Settles O51: the fields of the two states after Power On, and the events and steps of a machine without power. -/
theorem resetLeavesTheMachineAsPowerOnDoes : Obligations.ResetLeavesTheMachineAsPowerOnDoes := by
  refine ⟨by decide, ?powerOn, fun s e hrun => event_powerOff hrun, fun s => step_powerOff,
    fun s hrun hschedule hpower => step_resetState_stays hrun hschedule (afterReset_powerFailing hpower)⟩
  case powerOn =>
    intro s t v hrun ht
    rw [event_powerOn hrun] at ht
    subst ht
    refine ⟨rfl, rfl, rfl, rfl, rfl, rfl, rfl, rfl, wordRead_store_congr rfl (by decide), rfl, rfl, rfl, rfl, rfl,
      fun n => ?devices, fun b hb => getMsbD_or_bit0 v.pr hb, fun b hb => ?mask⟩
    case devices =>
      rw [powerOn_device]
      cases v.devices.lookup n <;> rfl
    case mask =>
      refine (getMsbD_or_bitMask v.im (by decide) hb).trans ?_
      rw [Bool.or_comm]
      simp only [eq_comm]

end Sys2Proof.Machine
end

section
/-! The environment (10_state.md R20, 60_exceptions.md R363): which fields an event can change at all, the interrupt bits
of a signal, the one device that an event changes, and the one word of a transfer. -/

namespace Sys2Proof.Machine

section
variable {s : State} {x : Transfer} {n : ℕ}

/-! ## What an event can change -/

/-- With the power on an event changes IR, the store, the devices and the operator's inputs at most. -/
theorem event_processor (hs : s.run ≠ .powerOff) (e : EnvEvent) :
    s.event e = { s with
      ir := (s.event e).ir, store := (s.event e).store, devices := (s.event e).devices
      resetKey := (s.event e).resetKey, startKey := (s.event e).startKey, autoloadKey := (s.event e).autoloadKey
      powerFailing := (s.event e).powerFailing } := by
  cases e with
  | powerFail => simp only [State.event, if_neg hs]
  | powerOn => simp only [State.event, if_neg hs]
  | _ => rfl

/-- With the power on a signal is the only event that changes IR. -/
theorem event_ir (hs : s.run ≠ .powerOff) {e : EnvEvent} (he : ∀ source, e ≠ .signal source) :
    (s.event e).ir = s.ir := by
  cases e with
  | signal source => exact absurd rfl (he source)
  | powerFail => simp only [State.event, if_neg hs]
  | powerOn => simp only [State.event, if_neg hs]
  | _ => rfl

/-- With the power on a transfer is the only event that changes the store. -/
theorem event_store (hs : s.run ≠ .powerOff) {e : EnvEvent} (he : ∀ x, e ≠ .transfer x) :
    (s.event e).store = s.store := by
  cases e with
  | transfer x => exact absurd rfl (he x)
  | powerFail => simp only [State.event, if_neg hs]
  | powerOn => simp only [State.event, if_neg hs]
  | _ => rfl

/-! ## Signals (60_exceptions.md R363; 00_scope.md R8) -/

/-- EXT_LINES wires a source to the bits 3 to 23 only. -/
theorem linesOf_bit (lines : List ExternalLine) (source : SignalSource) {j : ℕ} (hj : j < 24) :
    (linesOf lines source).getMsbD j = true ↔ 3 ≤ j ∧ ∃ l ∈ lines, l.bit = j ∧ l.source = source := by
  induction lines with
  | nil => simp [linesOf]
  | cons l lines ih =>
    have hcons : linesOf (l :: lines) source =
        if l.source = source ∧ 3 ≤ l.bit ∧ l.bit ≤ 23 then bitMask l.bit ||| linesOf lines source
        else linesOf lines source := rfl
    rw [hcons, List.exists_mem_cons_iff, and_or_left, ← ih]
    split
    · next hwired =>
      obtain ⟨hsource, hlow, hhigh⟩ := hwired
      rw [BitVec.getMsbD_or, getMsbD_bitMask (by omega) hj, Bool.or_eq_true, decide_eq_true_iff]
      refine or_congr_left ⟨fun hbit => ⟨hbit ▸ hlow, hbit, hsource⟩, fun h => h.2.1⟩
    · next hunwired =>
      refine (or_iff_right ?_).symm
      rintro ⟨hlow, rfl, hsource⟩
      exact hunwired ⟨hsource, hlow, by omega⟩

theorem signal_ir_bit (s : State) (source : SignalSource) {j : ℕ} (hj : j < 24) :
    (s.event (.signal source)).ir.getMsbD j = true ↔
      s.ir.getMsbD j = true ∨ (3 ≤ j ∧ ∃ l ∈ s.inst.externalLines, l.bit = j ∧ l.source = source) := by
  rw [← linesOf_bit _ _ hj, ← Bool.or_eq_true, ← BitVec.getMsbD_or]
  rfl

/-- No event clears an interrupt bit. -/
theorem event_ir_gains (hs : s.run ≠ .powerOff) (e : EnvEvent) {j : ℕ} (hj : j < 24) (hbit : s.ir.getMsbD j = true) :
    (s.event e).ir.getMsbD j = true := by
  by_cases he : ∃ source, e = .signal source
  · obtain ⟨source, rfl⟩ := he
    exact (signal_ir_bit s source hj).2 (.inl hbit)
  · rw [event_ir hs fun source h => he ⟨source, h⟩, hbit]

/-- The bits 0 to 2 belong to the processor (R363). -/
theorem event_ir_internal (hs : s.run ≠ .powerOff) (e : EnvEvent) {j : ℕ} (hj : j < 3) :
    (s.event e).ir.getMsbD j = s.ir.getMsbD j := by
  by_cases he : ∃ source, e = .signal source
  · obtain ⟨source, rfl⟩ := he
    rw [Bool.eq_iff_iff, signal_ir_bit s source (by omega)]
    exact or_iff_left fun h => by omega
  · rw [event_ir hs fun source h => he ⟨source, h⟩]

/-! ## Transfers (20_memory.md R78) -/

/-- A transfer that is permitted is a word written, and no working register (92_eei_decisions.md D18). -/
theorem transfer_eq_writeWordAt (hx : s.mayTransfer x = true) : s.transfer x = s.writeWordAt x.wordNumber x.data := by
  have hregister := registerAt_eq_none.2 (mayTransfer_word hx).1
  simp only [State.transfer, State.transferred, hx, if_true, State.writeWordAt, hregister]

theorem transfer_readWordAt (hs : s.storeRising) (hx : s.mayTransfer x = true) :
    (s.transfer x).readWordAt x.wordNumber = x.data := by
  rw [transfer_eq_writeWordAt hx, readWordAt_writeWordAt hs, if_pos rfl]

theorem transfer_readWordAt_other (h : s.mayTransfer x = true → x.wordNumber ≠ n) :
    (s.transfer x).readWordAt n = s.readWordAt n := by
  cases hx : s.mayTransfer x with
  | false => simp [State.transfer, State.transferred, hx]
  | true => rw [transfer_eq_writeWordAt hx, readWordAt_writeWordAt_other _ _ (h hx)]

/-- No event writes a storage word but the one that a permitted transfer names. -/
theorem event_readWordAt (hs : s.run ≠ .powerOff) (e : EnvEvent)
    (h : ∀ x, e = .transfer x → s.mayTransfer x = true → x.wordNumber ≠ n) :
    (s.event e).readWordAt n = s.readWordAt n := by
  by_cases he : ∃ x, e = .transfer x
  · obtain ⟨x, rfl⟩ := he
    exact transfer_readWordAt_other (h x rfl)
  · have hstore := event_store hs fun x hx => he ⟨x, hx⟩
    have hregs : (s.event e).regs = s.regs := congrArg (·.regs) (event_processor hs e)
    simp only [State.readWordAt, State.reg, hregs, hstore]

/-! ## Devices (47_input_output.md R322, R345, R347) -/

theorem changesDevice (s : State) (n : ℕ) (f : Device → Device) : ChangesDevice s (s.changeDevice n f) n f :=
  ⟨rfl, (device_changeDevice s n n f).trans (if_pos rfl),
    fun k hk => (device_changeDevice s n k f).trans (if_neg hk.symm)⟩

/-- The interval timer counts in the 14 bits that it has (R345). -/
theorem timer_count (v : Word) (counts : ℕ) :
    (v + BitVec.ofNat 24 counts) &&& 0x003FFF = BitVec.ofNat 24 ((v.toNat + counts) % 2 ^ 14) := by
  apply BitVec.eq_of_toNat_eq
  rw [BitVec.toNat_and, BitVec.toNat_add, BitVec.toNat_ofNat, BitVec.toNat_ofNat]
  refine (Nat.and_two_pow_sub_one_eq_mod _ 14).trans ?_
  omega

theorem population_powerOn (s : State) (v : PowerOnValues) : (s.powerOn v).population = s.population := by
  show (powerOnDevices v.devices s.devices).map _ = s.devices.map _
  rw [powerOnDevices, List.map_map]
  refine List.map_congr_left fun d _ => ?_
  show (d.1, (d.2.powerOn _).kind, (d.2.powerOn _).used) = _
  cases v.devices.lookup d.1 <;> rfl

/-- A change of a device's buffer and state, and not of what it is, leaves the installation. -/
theorem changeDevice_installation (s : State) (n : ℕ) {f : Device → Device}
    (hf : ∀ d, (f d).kind = d.kind ∧ (f d).used = d.used) :
    (s.changeDevice n f).inst = s.inst ∧ (s.changeDevice n f).population = s.population :=
  ⟨rfl, population_changeDevice hf n s⟩

/-- The parameters and the population of devices are the installation's (00_scope.md R6 to R11). -/
theorem event_installation (s : State) (e : EnvEvent) :
    (s.event e).inst = s.inst ∧ (s.event e).population = s.population := by
  cases e with
  | complete n data =>
    exact changeDevice_installation s n fun d => by unfold Device.complete; split <;> exact ⟨rfl, rfl⟩
  | disconnect n => exact changeDevice_installation s n (f := Device.disconnect) fun _ => ⟨rfl, rfl⟩
  | connect n =>
    exact changeDevice_installation s n fun d => by unfold Device.connect; split <;> exact ⟨rfl, rfl⟩
  | timerAdvance n counts =>
    exact changeDevice_installation s n fun d => by unfold Device.advance; split <;> exact ⟨rfl, rfl⟩
  | externalBits n bits =>
    exact changeDevice_installation s n fun d => by unfold Device.setBits; split <;> exact ⟨rfl, rfl⟩
  | powerFail => simp only [State.event]; split <;> exact ⟨rfl, rfl⟩
  | powerOn v =>
    simp only [State.event]
    split
    · exact ⟨rfl, population_powerOn s v⟩
    · exact ⟨rfl, rfl⟩
  | signal | pressReset | pressStart | pressAutoload | transfer => exact ⟨rfl, rfl⟩

end

/-! ## The statement -/

/-- Settles O55: the frame of every event, and then the effect of each. -/
theorem theEnvironmentSetsItsInputsAndLeavesTheProcessorAlone :
    Obligations.TheEnvironmentSetsItsInputsAndLeavesTheProcessorAlone := by
  refine ⟨fun s e hs => ?frame, event_installation, fun s t source ht => ?signal, fun s n data => changesDevice s n _,
    fun s n => ⟨changesDevice s n _, changesDevice s n _⟩, fun s n counts => ?timer, fun s n bits => changesDevice s n _,
    fun s x h hx => transfer_readWordAt h.storeRising hx, fun s => ⟨rfl, rfl, rfl, fun hs => if_neg hs⟩⟩
  case frame =>
    have hevent := event_processor hs e
    exact ⟨congrArg (·.regs) hevent, congrArg (·.ic) hevent, congrArg (·.ex) hevent, congrArg (·.pr) hevent,
      congrArg (·.im) hevent, congrArg (·.monitorMode) hevent, congrArg (·.interruptDisabled) hevent,
      congrArg (·.keys) hevent, congrArg (·.run) hevent, fun j hj => event_ir_gains hs e hj,
      fun j hj => event_ir_internal hs e hj, fun n hn => event_readWordAt hs e hn⟩
  case signal =>
    subst ht
    exact ⟨rfl, fun j hj => signal_ir_bit s source hj⟩
  case timer =>
    simp only [← timer_count]
    exact changesDevice s n _

end Sys2Proof.Machine
end

section
/-! The autoload key in the reset state (70_reset_and_hazards.md R402, R406; 47_input_output.md R331): Autoload Word is
entered at IC = 0 with address 0, and its word is the working register W0. -/

namespace Sys2Proof.Machine

section
variable {s v x : State}

/-- The state in which the autoload key enters Autoload Word. -/
def State.autoloadStart (v : State) : State := { v with run := .running, ic := 0 }

/-- The autoload key is tested before the start key (R402). -/
theorem afterReset_autoloads (hpower : v.powerFailing = false) (hkey : v.autoloadKey = true)
    (hmode : v.monitorMode = true) : v.afterReset = .stays (v.autoloadStart.autoload 0) := by
  simp [State.afterReset, hpower, hkey, hmode, State.autoloadStart]

theorem step_autoloadKey (hv : v = s.takeEvents) (hrun : v.run = .resetState) (hpower : v.powerFailing = false)
    (hkey : v.autoloadKey = true) (hmode : v.monitorMode = true) :
    step s = .next (v.autoloadStart.autoload 0) := by
  rw [step, ← hv, processorStep, hrun]
  simp only [afterReset_autoloads hpower hkey hmode]

theorem autoloadStart_inv (h : v.Inv) : v.autoloadStart.Inv :=
  ⟨h.installation, BitVec.getMsbD_zero, h.protection0, h.mask0, h.store, h.keys, trivial⟩

theorem missing_zero (s : State) : s.missing 0 = false :=
  missing_eq_false.2 (Nat.zero_le _)

/-! ## Four characters in W0 (R406) -/

/-- What the end of Autoload Word at address 0 leaves, in terms of the reset state in which the key was found. -/
theorem Received.loadsRegisterZero (h : v.Inv) (hmode : v.monitorMode = true) (hdisabled : v.interruptDisabled = true)
    (hx : Received v.autoloadStart x) (acc : Word) {t : State} {l : List (List EnvEvent)}
    (ht : t = { x.finishAutoload 0 acc with schedule := l }) :
    t.ic = 0 ∧ t.reg .w0 = acc ∧ t.wordRead t.ic = t.reg .w0 ∧ t.keyRead 0 = 0 ∧ t.isProtected 0 = true ∧
      t.monitorMode = true ∧ t.interruptDisabled = true ∧
      t.commands = v.commands ++ List.replicate 4 ⟨0, 2, none⟩ ∧ t.ex = BitVec.ofBool (v.ex.getMsbD 0) ++ 0#2 ∧
      t.ir = v.ir ∧ t.pr = v.pr ∧ t.im = v.im ∧ (∀ b, wordNumber b ≠ 0 → t.keyRead b = v.keyRead b) ∧
      SameStorageSparing 2 v t [] (wordBytes 0) := by
  have hrest := hx.rest
  have hexists := missing_zero x
  have hrising : x.storeRising := by rw [hrest]; exact h.storeRising
  have hkeys : x.keys = v.keys := by rw [hrest]; rfl
  have hkeysRising : x.keys.Pairwise fun c d => c.1 < d.1 := hkeys ▸ h.keys.1
  obtain ⟨hcommands, -, hex, hpr, him⟩ := finishAutoload_outside x 0 acc
  obtain ⟨hkey, hic, -, hmonitor, hir, hswitch⟩ := finishAutoload_processor hexists acc
  have hword : t.wordRead 0 = acc := by
    rw [ht]; exact finishAutoload_wordRead hrising hexists (.inl (by decide)) acc
  have hkeyRead (b : Word) : t.keyRead b = (x.keyWrite 0 0).keyRead b := by
    rw [ht]; exact congrArg (readPlane · (wordNumber b)) hkey
  have hic0 : t.ic = 0 := by rw [ht]; exact hic.trans (by rw [hrest]; rfl)
  have hkey0 : t.keyRead 0 = 0 := by rw [hkeyRead, keyRead_keyWrite hkeysRising, if_pos rfl]
  have hprt : t.pr = v.pr := by rw [ht]; exact hpr.trans (by rw [hrest]; rfl)
  refine ⟨hic0, hword, by rw [hic0]; rfl, hkey0, ?key0, ?mode, ?switch, ?commands, ?ex, ?ir, hprt, ?im,
    fun b hb => ?keys, ?storage⟩
  case key0 => rw [State.isProtected, hkey0, hprt]; exact h.protection0
  case mode => rw [ht]; exact hmonitor.trans (by rw [hrest]; exact hmode)
  case switch => rw [ht]; exact hswitch.trans (by rw [hrest]; exact hdisabled)
  case commands => rw [ht]; exact hcommands.trans (by rw [hrest]; rfl)
  case ex => rw [ht]; exact hex.trans (by rw [hrest]; exact clearEx_ex v.autoloadStart)
  case ir => rw [ht]; exact hir.trans (by rw [hrest]; rfl)
  case im => rw [ht]; exact him.trans (by rw [hrest]; rfl)
  case keys =>
    have hother : wordNumber 0 ≠ wordNumber b := hb.symm
    rw [hkeyRead, keyRead_keyWrite_other _ _ hother, State.keyRead, hkeys, State.keyRead]
  case storage => rw [ht]; exact hx.sameStorage (sameStorage_finishAutoload hexists acc)

/-! ## No device 0 (R331) -/

/-- The state in which the first look is made. -/
def State.autoloadLooking (v : State) : State :=
  { v.autoloadStart with run := .autoloading ⟨0, 0, 4, false⟩ }

/-- The first look at a disconnected device 0 leads back to the reset state. -/
theorem autoloadStart_resets (hd : v.condition 0 = .disconnected) :
    v.autoloadStart.autoload 0 = v.autoloadLooking.resetSystem := by
  have hlook : Looks v.autoloadLooking ⟨0, 0, 4, false⟩ (.over v.autoloadLooking.resetSystem) := .disconnected hd
  have hscript : v.autoloadLooking.resetSystem.schedule = v.schedule := resetSystem_schedule _
  refine (runAutoload_over hlook v.schedule).trans ?_
  rw [← hscript]

/-- To the channel the control states with the power on are all the same (notes/assumptions/17.md). -/
theorem autoloadLooking_steal_store (hrun : v.run ≠ .powerOff) : v.autoloadLooking.steal.store = v.steal.store := by
  have htransferred : v.autoloadLooking.transferred = v.transferred := by
    funext m y
    have htransferring : v.autoloadLooking.transferring y.device = v.transferring y.device := rfl
    have hon : (v.autoloadLooking.run != .powerOff) = (v.run != .powerOff) := by
      rw [bne_iff_ne.2 hrun]
      rfl
    have hmay : v.autoloadLooking.mayTransfer y = v.mayTransfer y := by
      rw [State.mayTransfer, htransferring, hon]
      rfl
    rw [State.transferred, hmay, State.transferred]
  show List.foldl v.autoloadLooking.transferred v.store (v.steals.headD []) = v.steal.store
  rw [htransferred]
  rfl

end

/-! ## The statement -/

/-- Settles O54: the autoload key is an Autoload Word at address 0, which ends as the condition of device 0 lets it. -/
theorem theAutoloadKeyLoadsRegisterZero : Obligations.TheAutoloadKeyLoadsRegisterZero := by
  intro s v hv h hmodes hrun hpower hkey
  obtain ⟨hmode, hdisabled⟩ := hmodes hrun
  have hstep := step_autoloadKey hv hrun hpower hkey hmode
  refine ⟨hstep.trans (step_autoload v.autoloadStart 0).symm, ?four, fun hd => ?none⟩
  case four =>
    intro d c1 c2 c3 c4 rest hd hkind hcondition hused hschedule
    obtain ⟨x, hx, hload⟩ := autoload_receives (v := v.autoloadStart) rfl hd ⟨hkind, hcondition, hused⟩ hschedule 0
    exact ⟨_, hstep.trans (congrArg _ hload), rfl, finishAutoload_run .., hx.loadsRegisterZero h hmode hdisabled _ rfl⟩
  case none =>
    have hrising : v.autoloadLooking.storeRising := h.storeRising
    obtain ⟨hreset, hword, -, hmonitor, hswitch, -, hstart, hload, -, -, -, -, hkeys, hdevices, hstorage⟩ :=
      resetSystem_outcome (s := v.autoloadLooking) hrising rfl
    have hsteal : v.steal.store = v.autoloadLooking.steal.store :=
      (autoloadLooking_steal_store (by rw [hrun]; exact nofun)).symm
    exact ⟨_, hstep.trans (congrArg _ (autoloadStart_resets hd)), hreset, hword, hload, hstart, hmonitor, hswitch,
      hkeys, hdevices, sameStorage_congr hstorage rfl hsteal rfl rfl⟩

end Sys2Proof.Machine
end

section
/-! What an instruction cannot do in task mode (60_exceptions.md R380, 70_reset_and_hazards.md R418). As long as it does
not trap it changes registers, and bytes of words that are not protected (`InTask`); where it traps, one instruction
exception follows (`Trapped`). -/

namespace Sys2Proof.Machine

/-! ## Registers only -/

/-- `t` is `s` but for the working registers, IC, EX, IR and the carried modifier. -/
inductive OnlyRegisters (s : State) : State → Prop
  | mk (regs : Regs) (ic : Word) (ex : BitVec 3) (ir : Word) (m : Option Word) :
    OnlyRegisters s { s with regs := regs, ic := ic, ex := ex, ir := ir, amPending := m }

section
variable {s t u : State}

theorem OnlyRegisters.refl (s : State) : OnlyRegisters s s := .mk ..

theorem OnlyRegisters.trans (h : OnlyRegisters s t) (h' : OnlyRegisters t u) : OnlyRegisters s u := by
  cases h
  cases h'
  exact .mk ..

theorem OnlyRegisters.setReg (h : OnlyRegisters s t) (w : Reg) (v : Word) : OnlyRegisters s (t.setReg w v) :=
  h.trans (.mk ..)

theorem OnlyRegisters.setPair (h : OnlyRegisters s t) (w : Reg) (v : DoubleWord) : OnlyRegisters s (t.setPair w v) :=
  h.trans (.mk ..)

theorem OnlyRegisters.clearEx (h : OnlyRegisters s t) : OnlyRegisters s t.clearEx := h.trans (.mk ..)

theorem OnlyRegisters.integerOverflow (h : OnlyRegisters s t) : OnlyRegisters s t.integerOverflow := h.trans (.mk ..)

theorem OnlyRegisters.floatingOverflow (h : OnlyRegisters s t) : OnlyRegisters s t.floatingOverflow := h.trans (.mk ..)

theorem OnlyRegisters.testInteger (h : OnlyRegisters s t) (r : BitVec 25) (c : Bool) :
    OnlyRegisters s (t.testInteger r c) := by
  refine h.trans ?_
  unfold State.testInteger
  split <;> exact .mk ..

theorem OnlyRegisters.testLost (h : OnlyRegisters s t) (lost : Bool) : OnlyRegisters s (t.testLost lost) := by
  unfold State.testLost
  split
  · exact h.integerOverflow
  · exact h

theorem OnlyRegisters.testExponent (h : OnlyRegisters s t) (sc : BitVec 13) : OnlyRegisters s (t.testExponent sc) := by
  unfold State.testExponent
  split
  · exact h.floatingOverflow
  · exact h

theorem OnlyRegisters.finishFloating (h : OnlyRegisters s t) (w : Reg) (af : BitVec 39) (sc : BitVec 13) :
    OnlyRegisters s (t.finishFloating w af sc) := (h.testExponent _).setPair _ _

theorem OnlyRegisters.floatingSum (h : OnlyRegisters s t) (add : Bool) (w : Reg) (m : DoubleWord) :
    OnlyRegisters s (t.floatingSum add w m) := by
  unfold State.floatingSum
  extract_lets
  split
  · exact h.setPair _ _
  · split
    · exact h.setPair _ _
    · exact h.finishFloating _ _ _

theorem OnlyRegisters.jump (h : OnlyRegisters s t) (w : Reg) (b : Word) : OnlyRegisters s (t.jump w b) := by
  refine h.trans ?_
  unfold State.jump
  split <;> exact .mk ..

theorem OnlyRegisters.skipIf (h : OnlyRegisters s t) (c : Bool) : OnlyRegisters s (t.skipIf c) := by
  refine h.trans ?_
  unfold State.skipIf
  split <;> exact .mk ..

/-! ## An instruction that has not trapped -/

/-- `t` is a state of an instruction, fetched in the state `s`, that is executed in task mode and has made at most `k`
accesses to the store. -/
structure InTask (s t : State) (k : ℕ) : Prop where
  control : SameControl s t
  devices : SameDevices s t
  console : SameConsole s t
  task : t.monitorMode = false
  rising : t.storeRising
  spares : ∀ {j n}, s.spares (k + j) n → t.spares j n
  bytes : ∀ {b}, s.isProtected b = true → 4 ≤ wordNumber b → s.spares k (wordNumber b) → t.byteRead b = s.byteRead b

variable {k : ℕ} {b : Word}

/-- The bytes above the working registers are read from the store alone. -/
theorem byteRead_store_congr (h : t.store = s.store) (hb : 4 ≤ wordNumber b) : t.byteRead b = s.byteRead b := by
  rw [State.byteRead, State.byteRead, wordRead_store_congr h hb]

theorem InTask.start (hs : s.storeRising) (htask : s.monitorMode = false) : InTask s s 0 where
  control := ⟨rfl, rfl, rfl, rfl⟩
  devices := ⟨rfl, rfl⟩
  console := ⟨rfl, rfl, rfl, rfl, rfl, rfl, rfl⟩
  task := htask
  rising := hs
  spares := fun h => spares_mono h (by omega)
  bytes := fun _ _ _ => rfl

theorem InTask.registers (h : InTask s t k) (hu : OnlyRegisters t u) : InTask s u k := by
  cases hu
  exact ⟨h.control, h.devices, h.console, h.task, h.rising, h.spares, fun hp hb hspared =>
    Eq.trans (byteRead_store_congr (s := t) rfl hb) (h.bytes hp hb hspared)⟩

theorem InTask.steal (h : InTask s t k) : InTask s t.steal (k + 1) where
  control := h.control
  devices := h.devices
  console := h.console
  task := h.task
  rising := steal_storeRising h.rising
  spares := fun hspared => spares_steal (h.spares (spares_mono hspared (by omega)))
  bytes := fun hp hb hspared =>
    (steal_byteRead_spared (h.spares hspared)).trans (h.bytes hp hb (spares_mono hspared (by omega)))

theorem InTask.mono (h : InTask s t k) {l : ℕ} (hkl : k ≤ l) : InTask s t l where
  control := h.control
  devices := h.devices
  console := h.console
  task := h.task
  rising := h.rising
  spares := fun hspared => h.spares (spares_mono hspared (by omega))
  bytes := fun hp hb hspared => h.bytes hp hb (spares_mono hspared hkl)

/-- The key of a word and PR decide whether it is protected (10_state.md R29). -/
theorem isProtected_congr (h : SameControl s t) {c : Word} (hn : wordNumber b = wordNumber c) :
    t.isProtected b = s.isProtected c := by
  obtain ⟨hpr, -, -, hkeys⟩ := h
  simp only [State.isProtected, State.keyRead, hpr, hkeys, hn]

/-- A store that the protection test lets pass reaches no protected word (R128). -/
theorem InTask.wordWrite (h : InTask s t k) (hallowed : t.forbids b = false) (v : Word) :
    InTask s (t.wordWrite b v) k where
  control := by simpa [SameControl] using h.control
  devices := by simpa [SameDevices] using h.devices
  console := by simpa [SameConsole] using h.console
  task := (wordWrite_monitorMode t b v).trans h.task
  rising := storeRising_wordWrite h.rising b v
  spares := fun hspared => (spares_congr (wordWrite_steals t b v) _ _).2 (h.spares hspared)
  bytes := by
    intro c hp hc hspared
    have hunprotected : t.isProtected b = false := by simpa [State.forbids, h.task] using hallowed
    have hother : wordNumber b ≠ wordNumber c := fun hn => by
      rw [isProtected_congr h.control hn, hp] at hunprotected
      cases hunprotected
    exact (byteRead_wordWrite_other t v hother).trans (h.bytes hp hc hspared)

/-! ## An instruction that traps -/

/-- `t` is the state after an instruction of task mode, fetched in the state `s`, that was abandoned by an instruction
exception. -/
structure Trapped (s t : State) : Prop where
  protection : t.pr = s.pr
  mask : t.im = s.im
  keys : t.keys = s.keys
  devices : SameDevices s t
  console : SameConsole s t
  bytes : ∀ {b}, s.isProtected b = true → 4 ≤ wordNumber b → wordNumber b ≠ 4 → wordNumber b ≠ 5 →
    s.spares 6 (wordNumber b) → t.byteRead b = s.byteRead b
  monitor : t.monitorMode = true
  number : s.spares 6 4 → t.wordRead 8 = 0
  returnAddress : s.spares 6 5 → t.wordRead 10 = s.ic + 2
  target : t.ic = evenAddress (t.wordRead 12)
  disabled : t.interruptDisabled = true

/-- The exception makes the last three of at most six accesses. -/
theorem InTask.raise (h : InTask s t k) (hk : k ≤ 3) (hs : s.Inv) (hic : t.ic = s.ic + 2) : Trapped s t.raise := by
  obtain ⟨hpr, him, -, hkeys⟩ := h.control
  obtain ⟨hdevices, hcommands⟩ := h.devices
  obtain ⟨hrun, hreset, hstart, hload, hpower, hinst, hschedule⟩ := h.console
  have hmask : t.im.getMsbD 0 = true := him ▸ hs.mask0
  have hspares {n : ℕ} (hn : s.spares 6 n) : t.spares 3 n := h.spares (spares_mono hn (by omega))
  have hread {c : Word} (hc : s.spares 6 (wordNumber c)) := raise_wordRead hmask h.rising (hspares hc)
  exact {
    protection := (raise_pr t).trans hpr
    mask := (raise_im t).trans him
    keys := (raise_keys t).trans hkeys
    devices := ⟨(raise_devices t).trans hdevices, (raise_commands t).trans hcommands⟩
    console := by simp [SameConsole, hrun, hreset, hstart, hload, hpower, hinst, hschedule]
    bytes := fun hp hb h4 h5 hspared => by
      refine Eq.trans ?_ (h.bytes hp hb (spares_mono hspared (by omega)))
      rw [State.byteRead, hread hspared, if_neg h5, if_neg h4, State.byteRead]
    monitor := raise_monitorMode hmask
    number := fun hspared => hread (c := 8) hspared
    returnAddress := fun hspared => (hread (c := 10) hspared).trans hic
    target := raise_ic hmask
    disabled := raise_interruptDisabled hmask }

/-! ## The decode and the tests -/

/-- How an instruction of task mode, fetched in the state `s`, may end. -/
def TaskOutcome (s t : State) : Prop := InTask s t 3 ∨ Trapped s t

/-- An operation of task mode, before or between its tests: IC names the next instruction, and no access has been made
since the decode. -/
structure Operating (s t : State) (k : ℕ) : Prop extends InTask s t k where
  inv : s.Inv
  few : k ≤ 3
  ic : t.ic = s.ic + 2

variable {a : AddressPart} {addr : Word} {op : Word → State → Out} {rest : Out} {i : Instr} {g : State → State}

theorem Operating.trap (h : Operating s t k) : TaskOutcome s t.raise := .inr (h.toInTask.raise h.few h.inv h.ic)

theorem InTask.ends (h : InTask s t k) (hk : k ≤ 3) : Out.ensures (.next t) (TaskOutcome s) :=
  ensures_next (.inl (h.mono hk))

/-- An operation that goes on with other registers. -/
theorem Operating.registers (h : Operating s t k) (hu : OnlyRegisters t u) (hic : u.ic = t.ic) : Operating s u k :=
  ⟨h.toInTask.registers hu, h.inv, h.few, hic.trans h.ic⟩

theorem Operating.testAddress (h : Operating s t k) (hrest : Out.ensures rest (TaskOutcome s)) :
    Out.ensures (testAddress t addr rest) (TaskOutcome s) := ensures_testAddress h.trap fun _ => hrest

theorem Operating.testProtection (h : Operating s t k)
    (hrest : t.forbids addr = false → Out.ensures rest (TaskOutcome s)) :
    Out.ensures (testProtection t addr rest) (TaskOutcome s) := ensures_testProtection h.trap hrest

/-- In task mode the decode of an instruction that may be executed leaves task mode as it is. -/
theorem decoded_inTask (h : InTask s t k) (hp : s.isProtected s.ic = false) (hic : t.ic = s.ic) :
    InTask s t.decoded k where
  control := h.control
  devices := h.devices
  console := h.console
  task := (isProtected_congr h.control (congrArg wordNumber hic)).trans hp
  rising := h.rising
  spares := h.spares
  bytes := fun hprot hb hspared => (byteRead_store_congr (s := t) rfl hb).trans (h.bytes hprot hb hspared)

theorem entered_operating (hs : s.Inv) (htask : s.monitorMode = false) (hf : s.forbids s.ic = false) :
    Operating s (s.entered a) 2 := by
  have hp : s.isProtected s.ic = false := by simpa [State.forbids, htask] using hf
  have hstart := InTask.start hs.storeRising htask
  refine ⟨?_, hs, by omega, entered_ic s a⟩
  unfold State.entered
  split
  · exact decoded_inTask hstart.steal.steal hp rfl
  · exact (decoded_inTask hstart.steal hp rfl).mono (by omega)

/-- The decode traps, or hands over to the operation in task mode. -/
theorem task_cycle (hs : s.Inv) (htask : s.monitorMode = false)
    (hop : ∀ addr t, Operating s t 2 → Out.ensures (op addr t) (TaskOutcome s)) :
    Out.ensures (cycle a s op) (TaskOutcome s) := by
  have hstart := InTask.start hs.storeRising htask
  cases hf : s.forbids s.ic with
  | true =>
    rw [cycle_forbidden hf]
    exact ensures_next (.inr ((hstart.registers (.mk ..)).raise (by omega) hs rfl))
  | false =>
    have hp : s.isProtected s.ic = false := by simpa [State.forbids, htask] using hf
    refine ensures_cycle ?advanced ?missing fun addr _ => hop addr _ (entered_operating hs htask hf)
    case advanced => exact .inr ((hstart.registers (.mk ..)).raise (by omega) hs rfl)
    case missing => exact .inr ((decoded_inTask hstart hp rfl).raise (by omega) hs rfl)

/-! ## The shapes of the instructions -/

theorem task_privileged (hs : s.Inv) (htask : s.monitorMode = false) (hi : i.privileged) :
    Out.ensures (exec i s) (TaskOutcome s) := by
  obtain ⟨op, hop⟩ := exec_privileged hi
  rw [hop]
  refine task_cycle hs htask fun addr t h => ?_
  rw [testMode_task h.task]
  exact ensures_next h.trap

/-- An operation without a test, on registers only. -/
theorem task_plain {f : Word → State → State} (hs : s.Inv) (htask : s.monitorMode = false)
    (hf : ∀ addr t, OnlyRegisters t (f addr t)) :
    Out.ensures (cycle a s fun addr t => .next (f addr t)) (TaskOutcome s) :=
  task_cycle hs htask fun addr t h => (h.toInTask.registers (hf addr t)).ends (by omega)

/-- An operation on registers, behind the address test of its operand. -/
theorem task_load {f : Word → State → State} (hs : s.Inv) (htask : s.monitorMode = false)
    (hf : ∀ addr t, OnlyRegisters t (f addr t)) :
    Out.ensures (cycle a s fun addr t => testAddress t addr (.next (f addr t))) (TaskOutcome s) :=
  task_cycle hs htask fun addr t h => h.testAddress ((h.toInTask.registers (hf addr t)).ends (by omega))

/-- An operation that clears EX(22:23) before the address test of its operand. -/
theorem task_arithmetic (hs : s.Inv) (htask : s.monitorMode = false)
    (hop : ∀ addr t, InTask s t.clearEx 2 → Out.ensures (op addr t) (TaskOutcome s)) :
    Out.ensures (cycle a s fun addr t => testAddress t.clearEx addr (op addr t)) (TaskOutcome s) :=
  task_cycle hs htask fun addr t h =>
    have hclear := h.registers (OnlyRegisters.refl t).clearEx rfl
    hclear.testAddress (hop addr t hclear.toInTask)

/-- A store behind both tests of its operand, perhaps after a change of registers. -/
theorem task_store {f : Word → State → Word} (hs : s.Inv) (htask : s.monitorMode = false)
    (hg : ∀ t, OnlyRegisters t (g t)) (hic : ∀ t, (g t).ic = t.ic) :
    Out.ensures (cycle a s fun addr t =>
      testAddress (g t) addr (testProtection (g t) addr (.next ((g t).wordWrite addr (f addr t)))))
      (TaskOutcome s) :=
  task_cycle hs htask fun addr t h => by
    have hready := h.registers (hg t) (hic t)
    exact hready.testAddress <| hready.testProtection fun hallowed => (hready.wordWrite hallowed _).ends (by omega)

/-! ## The instructions with more than one way through their operation -/

variable (w : Reg) (a : AddressPart)

theorem task_ci (hs : s.Inv) (htask : s.monitorMode = false) : Out.ensures (execCi w a s) (TaskOutcome s) :=
  task_cycle hs htask fun addr t h => by
    have hclear := h.toInTask.registers (OnlyRegisters.refl t).clearEx
    extract_lets u af p sc
    split
    · exact (hclear.registers ((OnlyRegisters.refl _).setPair _ _)).ends (by omega)
    · exact (hclear.registers ((((OnlyRegisters.refl _).testExponent _).testExponent _).setPair _ _)).ends (by omega)

theorem task_cf (hs : s.Inv) (htask : s.monitorMode = false) : Out.ensures (execCf w a s) (TaskOutcome s) :=
  task_cycle hs htask fun addr t h => by
    have hclear := h.toInTask.registers (OnlyRegisters.refl t).clearEx
    extract_lets u d
    split
    · exact (hclear.registers (OnlyRegisters.refl _).integerOverflow).ends (by omega)
    · exact (hclear.registers ((OnlyRegisters.refl _).setReg _ _)).ends (by omega)

theorem task_wd (hs : s.Inv) (htask : s.monitorMode = false) : Out.ensures (execWd w a s) (TaskOutcome s) :=
  task_arithmetic hs htask fun addr t h => by
    split
    · exact (h.registers (OnlyRegisters.refl _).integerOverflow).ends (by omega)
    · exact (h.registers (((OnlyRegisters.refl _).setReg _ _).setReg _ _)).ends (by omega)

theorem task_fd (hs : s.Inv) (htask : s.monitorMode = false) : Out.ensures (execFd w a s) (TaskOutcome s) :=
  task_arithmetic hs htask fun addr t h => by
    extract_lets d m u divisorZero
    split
    · exact (h.steal.registers ((OnlyRegisters.refl _).setReg _ _)).ends (by omega)
    · split
      · exact (h.steal.registers (OnlyRegisters.refl _).floatingOverflow).ends (by omega)
      · split
        · exact ensures_fault _
        · exact (h.steal.registers ((OnlyRegisters.refl _).finishFloating _ _ _)).ends (by omega)

/-- The register that RX has loaded is no protected word. -/
theorem task_rx (hs : s.Inv) (htask : s.monitorMode = false) : Out.ensures (execRx w a s) (TaskOutcome s) :=
  task_cycle hs htask fun addr t h => h.testAddress <| by
    have hloaded := h.registers ((OnlyRegisters.refl t).setReg w (t.wordRead addr)) rfl
    exact hloaded.testProtection fun hallowed => (hloaded.steal.wordWrite hallowed _).ends (by omega)

/-- The word that DS has stored before its last test was itself tested. -/
theorem task_ds (hs : s.Inv) (htask : s.monitorMode = false) : Out.ensures (execDs w a s) (TaskOutcome s) :=
  task_cycle hs htask fun addr t h => h.testAddress <| h.testProtection fun hallowed => by
    have hstored : Operating s (t.wordWrite addr (t.reg w)) 2 :=
      ⟨h.wordWrite hallowed _, h.inv, h.few, (wordWrite_ic ..).trans h.ic⟩
    exact hstored.testProtection fun hallowed1 => (hstored.steal.wordWrite hallowed1 _).ends (by omega)

end

/-! ## Every instruction -/

/-- In task mode an instruction ends in task mode or by an instruction exception. -/
theorem exec_taskOutcome {s : State} (hs : s.Inv) (htask : s.monitorMode = false) (i : Instr) :
    Out.ensures (exec i s) (TaskOutcome s) := by
  by_cases hi : i.privileged
  · exact task_privileged hs htask hi
  have same := OnlyRegisters.refl
  unfold exec
  cases i with
  | je | jd | ic | ml | pl | ks | io | aw => exact absurd trivial hi
  | al w a | ls w a => exact task_plain hs htask fun _ t => (same t).setReg _ _
  | ld w a => exact task_plain hs htask fun _ t => (same t).setPair _ _
  | as w a => exact task_plain hs htask fun _ t => ((same t).clearEx.testLost _).setReg _ _
  | ad w a => exact task_plain hs htask fun _ t => ((same t).clearEx.testLost _).setPair _ _
  | ac w a => exact task_plain hs htask fun _ t => ((same t).clearEx.setReg _ _).testInteger _ _
  | sh w a | sl w a | se w a | sn w a | so w a | sz w a | sx w a =>
    exact task_plain hs htask fun _ t => (same t).skipIf _
  | hl w a | rl w a | bz w a | bl w a | la w a | lo w a | lx w a | kl w a =>
    exact task_load hs htask fun _ t => (same t).setReg _ _
  | wm w a => exact task_load hs htask fun _ t => (same t).setPair _ _
  | sp w a => exact task_load hs htask fun _ t => (same t).skipIf _
  | xl w a => exact task_load hs htask fun _ t => .mk ..
  | am w a => exact task_cycle hs htask fun _ t h => h.testAddress ((h.toInTask.registers (.mk ..)).ends (by omega))
  | dl w a =>
    exact task_cycle hs htask fun _ t h => h.testAddress <|
      ((h.toInTask.registers ((same t).setReg _ _)).steal.registers ((same _).setReg _ _)).ends (by omega)
  | ba w a | wa w a | bs w a | ws w a =>
    exact task_arithmetic hs htask fun _ t h => (h.registers (((same _).setReg _ _).testInteger _ _)).ends (by omega)
  | aa w a | ss w a =>
    exact task_arithmetic hs htask fun _ t h =>
      ((h.registers ((same _).setReg _ _)).steal.registers (((same _).setReg _ _).testInteger _ _)).ends (by omega)
  | fa w a | fs w a =>
    exact task_arithmetic hs htask fun _ t h => (h.steal.registers ((same _).floatingSum _ _ _)).ends (by omega)
  | fm w a =>
    exact task_arithmetic hs htask fun _ t h => (h.steal.registers ((same _).finishFloating _ _ _)).ends (by omega)
  | rs w a | is w a | ms w a | hs w a | xs w a | ps w a =>
    exact task_store hs htask (g := id) (fun t => same t) fun _ => rfl
  | ns w a =>
    exact task_store hs htask (g := fun t => t.setReg w (normalize (t.reg w)).1) (fun t => (same t).setReg _ _)
      fun _ => rfl
  | nd w a =>
    exact task_store hs htask (g := fun t => t.setPair w (normalize (t.pair w)).1) (fun t => (same t).setPair _ _)
      fun _ => rfl
  | jl w a =>
    exact task_cycle hs htask fun _ t h => h.testAddress <| h.testProtection fun _ =>
      (h.toInTask.registers ((same t).jump _ _)).ends (by omega)
  | ci w a => exact task_ci w a hs htask
  | cf w a => exact task_cf w a hs htask
  | wd w a => exact task_wd w a hs htask
  | fd w a => exact task_fd w a hs htask
  | rx w a => exact task_rx w a hs htask
  | ds w a => exact task_ds w a hs htask

/-! ## The statement -/

/-- Settles O60: the two ways in which an instruction of task mode ends. -/
theorem taskModeCannotTouchProtectedState : Obligations.TaskModeCannotTouchProtectedState := by
  intro i s t hs htask ht
  rcases exec_taskOutcome hs htask i t ht with h | h
  case inl =>
    obtain ⟨hpr, him, hdisabled, hkeys⟩ := h.control
    have hbytes {b : Word} (hp : s.isProtected b = true) (hb : 4 ≤ wordNumber b)
        (hspared : s.spares 6 (wordNumber b)) : t.byteRead b = s.byteRead b :=
      h.bytes hp hb (spares_mono hspared (by omega))
    refine ⟨hpr, him, hkeys, h.devices, h.console, fun b hb _ _ hp hspared => hbytes hp hb hspared,
      fun hmonitor => ?_, fun _ => ⟨hdisabled, fun b hp hb hspared => hbytes hp hb hspared⟩⟩
    rw [h.task] at hmonitor
    cases hmonitor
  case inr =>
    refine ⟨h.protection, h.mask, h.keys, h.devices, h.console,
      fun b hb h4 h5 hp hspared => h.bytes hp hb h4 h5 hspared,
      fun _ => ⟨h.number, h.returnAddress, h.target, h.disabled⟩, fun htask' => ?_⟩
    rw [h.monitor] at htask'
    cases htask'

end Sys2Proof.Machine
end
